-- ==== Sys2Proof/Word.lean ====
section
/-! DEFINITION. The words of the machine: bytes, 32-bit register words, 64-bit addresses, lane masks and tags. -/
namespace Sys2Proof

/-- A byte of any memory (R7). -/
abbrev Byte := BitVec 8
/-- The word of a vector register, and every 32-bit quantity (R8). -/
abbrev Word := BitVec 32
/-- A 64-bit address or packet word (R60, R290). -/
abbrev Addr := BitVec 64
/-- A mask with one bit for each of the 32 lane slots of a group; slot `i` is bit `i` (R8). -/
abbrev Mask := BitVec 32
/-- A significance tag code: 0 to 53 count trustworthy bits, 63 is FULL (R16, Table 1.4). -/
abbrev Tag := Nat
/-- The tag code FULL (R16). -/
abbrev FULL : Tag := 63

end Sys2Proof
end

