-- ==== Sys2Proof/Machine/Bits.lean ====
section
/-! DEFINITION. Bit fields, sign extension and byte order: the helpers every other file reads numbers through. -/
namespace Sys2Proof

/-- The `len` bits of `w` from bit `lo` up. -/
def bits (w lo len : Nat) : Nat := w / 2 ^ lo % 2 ^ len

/-- The number `v` of `w` bits read as two's complement. -/
def toSigned (w v : Nat) : Int := if v % 2 ^ w < 2 ^ (w - 1) then (v % 2 ^ w : Nat) else (v % 2 ^ w : Nat) - (2 ^ w : Nat)

/-- The low `w` bits of an integer, as an unsigned number. -/
def ofSigned (w : Nat) (v : Int) : Nat := (v % (2 ^ w : Nat)).toNat

/-- `v` of `w` bits, sign-extended to `x` bits. -/
def sext (w x v : Nat) : Nat := ofSigned x (toSigned w v)

/-- The number that bytes hold, first byte lowest (R7, R60). -/
def ofBytes : List Byte → Nat
  | [] => 0
  | b :: bs => b.toNat + 256 * ofBytes bs

/-- The `n` bytes of a number, lowest first (R7). -/
def toBytes : Nat → Nat → List Byte
  | 0, _ => []
  | n + 1, v => BitVec.ofNat 8 v :: toBytes n (v / 256)

/-- The words of a number of `n` words, lowest first. -/
def toWords : Nat → Nat → List Word
  | 0, _ => []
  | n + 1, v => BitVec.ofNat 32 v :: toWords n (v / 2 ^ 32)

/-- The number that words hold, first word lowest. -/
def ofWords : List Word → Nat
  | [] => 0
  | w :: ws => w.toNat + 2 ^ 32 * ofWords ws

/-- The numbers `a`, `a + 1`, …, `n` of them. -/
def upFrom : Nat → Nat → List Nat
  | _, 0 => []
  | a, n + 1 => a :: upFrom (a + 1) n

/-- The lane slots of a group (R8). -/
abbrev laneSlots : List Nat := upFrom 0 32

/-- The mask with the bits listed. -/
def maskOf (ls : List Nat) : Mask := ls.foldl (fun m l => m ||| BitVec.ofNat 32 (2 ^ l)) 0

/-- The bits set in a mask, ascending. -/
def maskBits (m : Mask) : List Nat := laneSlots.filter (fun l => m.getLsbD l)

/-- The mask with one bit. -/
def bit1 (l : Nat) : Mask := BitVec.ofNat 32 (2 ^ l)

end Sys2Proof
end

