-- ==== Sys2Proof/Syntax.lean ====
section
/-! DEFINITION. The instructions and events of the device: one constructor for each row of the opcode table. -/
namespace Sys2Proof

/-- A vector register number, V0 to V223 (R8, R67). -/
abbrev VReg := Fin 224
/-- A predicate number, P0 to P63 (R18). -/
abbrev Pred := Fin 64
/-- A handle number, H0 to H15 (R21). -/
abbrev HReg := Fin 16

/-- The fields every F-form word carries beside its operands: guard, transient bit, reuse bit (Table 3.2). -/
structure Ctl where
  gp : Pred
  gn : Bool
  tr : Bool
  ru : Bool
  deriving DecidableEq, Repr, Inhabited

/-- A source operand field (Table 3.4), or the immediate that replaces source B (R70). -/
inductive Src where
  /-- a vector register -/
  | reg (r : VReg)
  /-- the inline constant 224 + c (R68) -/
  | const (c : Fin 16)
  /-- word `off` of parameter window `n` (R69) -/
  | win (n : Fin 8) (off : BitVec 8)
  /-- the 16-bit immediate of bits [37:22] (R70) -/
  | imm (v : BitVec 16)
  deriving DecidableEq, Repr, Inhabited

/-- The set INT of R81. -/
inductive IntTy where | s32 | n32 | s64 | n64
  deriving DecidableEq, Repr, Inhabited
/-- The set BIT of R81. -/
inductive BitTy where | b32 | b64
  deriving DecidableEq, Repr, Inhabited
/-- The set FLT of R81. -/
inductive FltTy where | f32 | f64
  deriving DecidableEq, Repr, Inhabited
/-- The set HLF of R81. -/
inductive HlfTy where | f16 | bf16
  deriving DecidableEq, Repr, Inhabited
/-- The floating-point formats of Table 2.1; as a type set, NAR of R81. -/
inductive Fmt where | f64 | f32 | f16 | bf16 | e4m3 | e5m2
  deriving DecidableEq, Repr, Inhabited
/-- The integer types of conversions (Table 4.4). -/
inductive CvtInt where | s8 | s16 | s32 | s64 | n8 | n16 | n32 | n64
  deriving DecidableEq, Repr, Inhabited
/-- The types of CMP: INT and BIT (Table 4.1). -/
inductive CmpTy where | int (t : IntTy) | bit (t : BitTy)
  deriving DecidableEq, Repr, Inhabited
/-- The types of SIGGET and SIGCMP: BIT and NAR (Table 4.7). -/
inductive SigTy where | bit (t : BitTy) | flt (f : Fmt)
  deriving DecidableEq, Repr, Inhabited
/-- The types of REDMIN, REDMAX and SCANADD: INT and FLT (Table 5.4). -/
inductive RedTy where | int (t : IntTy) | flt (t : FltTy)
  deriving DecidableEq, Repr, Inhabited
/-- The memory types of LD and LDS (R198). -/
inductive LdTy where | b8 | b16 | b32 | b64 | b128 | s8 | s16 | n8 | n16
  deriving DecidableEq, Repr, Inhabited
/-- The memory types of ST and STS (R198). -/
inductive StTy where | b8 | b16 | b32 | b64 | b128
  deriving DecidableEq, Repr, Inhabited
/-- The types of LDP and RDREC (R198). -/
inductive WinTy where | b32 | b64 | b128
  deriving DecidableEq, Repr, Inhabited
/-- The types of MSTF (R235). -/
inductive MstTy where | f32 | f16 | bf16 | e4m3 | e5m2 | s32
  deriving DecidableEq, Repr, Inhabited
/-- The types of MOVI; `h` is `.h` with `.b32` (R85). -/
inductive MoviTy where | b32 | s32 | f32 | h
  deriving DecidableEq, Repr, Inhabited

/-- The rounding field RM (Table 2.3); `mode` is value 0, MODE.RND. -/
inductive Rm where | mode | rne | rz | ru | rd | rna | rsr | rodd
  deriving DecidableEq, Repr, Inhabited
/-- The condition of CMP (R87), of FCMP with `c6` = ord, `c7` = uno (R91), of SIGCMP with below, full (R105). -/
inductive Cc where | eq | ne | lt | le | gt | ge | c6 | c7
  deriving DecidableEq, Repr, Inhabited
/-- The scopes of Table 7.8. -/
inductive Scope where | grp | wg | nbr | dev | dom | sys
  deriving DecidableEq, Repr, Inhabited
/-- The width code of cross-lane instructions, log2 of the segment width, 1 to 5 (R131). -/
inductive Width where | w2 | w4 | w8 | w16 | w32
  deriving DecidableEq, Repr, Inhabited
/-- The CP field of LD (R205). -/
inductive LdCp where | none | home | ef
  deriving DecidableEq, Repr, Inhabited
/-- The address offset of a memory operand: the signed immediate, or a .s32 register (R204). -/
inductive Off where | imm (v : BitVec 16) | reg (r : VReg)
  deriving DecidableEq, Repr, Inhabited
/-- The atomic operations with the types each allows (Table 8.3). -/
inductive Aop where
  | addI (t : IntTy) | addF (t : FltTy) | sub (t : IntTy)
  | minI (t : IntTy) | minF (t : FltTy) | maxI (t : IntTy) | maxF (t : FltTy)
  | and (t : BitTy) | or (t : BitTy) | xor (t : BitTy)
  | exch (t : WinTy) | cas (t : WinTy) | inc | dec
  deriving DecidableEq, Repr, Inhabited
/-- The space letter of a COPY operand (R222). -/
inductive CpSpace where | g | s
  deriving DecidableEq, Repr, Inhabited
/-- The fragment of MLDF (Table 9.1). -/
inductive FragSel where | a | b | c
  deriving DecidableEq, Repr, Inhabited
/-- The kind of a matrix pass (R243). -/
inductive PassKind where | dense | sparse | xor | and
  deriving DecidableEq, Repr, Inhabited

/-- The P-form operations of Table 3.8 other than NOP. -/
inductive POp where
  | mov | iadd | isub | imul | iminS | imaxS | iminN | imaxN | iabs | ineg
  | and | or | xor | not | andn | shl | shr | sar | rot | popc | clz | ctz | brev
  | fadd | fsub | fmul | fmin | fmax | fabs | fneg
  | fadd2h | fmul2h | fadd2b | fmul2b
  deriving DecidableEq, Repr, Inhabited

/-- Source B of a P-form slot: a register or an inline constant (R71). -/
inductive PSrc where
  | reg (r : VReg) | const (c : Fin 16)
  deriving DecidableEq, Repr, Inhabited

/-- One slot of a P-form word (R71, R72). -/
inductive PSlot where
  | nop
  | op (o : POp) (gp : Pred) (gn : Bool) (d : VReg) (b : PSrc)
  deriving DecidableEq, Repr, Inhabited

/-- What issues words: the issue port of a core (R145), or a Sleeve context (R154). -/
inductive IssuePort where
  | core (c : Nat) | sleeve (uid : Nat)
  deriving DecidableEq, Repr, Inhabited

/-- An access that another accelerator makes to this one's memory (R316): an atomic has its operation, the MODE of its group and its
operands with their tags (Table 8.3). -/
inductive RemoteOp where
  | read (n : Nat) | write (bs : List Byte) | atomic (op : Aop) (mode : Word) (b c : List (Word × Tag))
  deriving DecidableEq, Repr, Inhabited

/-- What a TAP instruction asks for (R342, R343): the mandatory instructions of IEEE 1149.1, IDCODE, the freeze and the read-outs. -/
inductive TapOp where
  | bypass | sample | preload (bs : List Byte) | extest
  | freeze | idcode | rasBlock | readState | readHbm (a : Nat)
  deriving DecidableEq, Repr, Inhabited

/-- A record as a message carries it: source accelerator, key fields, depth, words, tags, and the sending launch and proxy as
4,096 · launch + proxy (R267, R277, R282). -/
structure RecMsg where
  sacc : Nat
  snode : Nat
  sgseq : Nat
  eidx : Nat
  depth : Nat
  words : List Word
  tags : List Tag
  sender : Nat
  deriving DecidableEq, Repr, Inhabited

/-- A sending launch and proxy of another accelerator: its id, and 4,096 · launch + proxy (R276, R277). -/
structure Sender where
  accel : Nat
  num : Nat
  deriving DecidableEq, Repr, Inhabited

/-- A host write to a register of a partition: the partition and the value (R309). -/
structure PartWrite where
  part : Nat
  value : Addr
  deriving DecidableEq, Repr, Inhabited

/-- The instructions (F-form and P-form words) and events, one constructor for each row of the opcode table. -/
inductive Instr where
  -- Integer, logic, predicate and move (Table 4.1)
  | iadd (c : Ctl) (sat : Bool) (t : IntTy) (d : VReg) (a b : Src)
  | isub (c : Ctl) (sat : Bool) (t : IntTy) (d : VReg) (a b : Src)
  | imul (c : Ctl) (t : IntTy) (d : VReg) (a b : Src)
  | imulhi (c : Ctl) (t : IntTy) (d : VReg) (a b : Src)
  | imad (c : Ctl) (t : IntTy) (d : VReg) (a b e : Src)
  | imadw (c : Ctl) (sg : Bool) (d : VReg) (a b e : Src)
  | imin (c : Ctl) (t : IntTy) (d : VReg) (a b : Src)
  | imax (c : Ctl) (t : IntTy) (d : VReg) (a b : Src)
  | iabs (c : Ctl) (sat : Bool) (w64 : Bool) (d : VReg) (b : Src)
  | ineg (c : Ctl) (sat : Bool) (w64 : Bool) (d : VReg) (b : Src)
  | shl (c : Ctl) (t : BitTy) (d : VReg) (a b : Src)
  | shr (c : Ctl) (t : BitTy) (d : VReg) (a b : Src)
  | sar (c : Ctl) (t : BitTy) (d : VReg) (a b : Src)
  | rot (c : Ctl) (t : BitTy) (d : VReg) (a b : Src)
  | bfe (c : Ctl) (t : IntTy) (d : VReg) (a b : Src)
  | bfi (c : Ctl) (t : BitTy) (d : VReg) (a b e : Src)
  | popc (c : Ctl) (t : BitTy) (d : VReg) (b : Src)
  | clz (c : Ctl) (t : BitTy) (d : VReg) (b : Src)
  | ctz (c : Ctl) (t : BitTy) (d : VReg) (b : Src)
  | brev (c : Ctl) (t : BitTy) (d : VReg) (b : Src)
  | permb (c : Ctl) (d : VReg) (a b e : Src)
  | and (c : Ctl) (t : BitTy) (d : VReg) (a b : Src)
  | or (c : Ctl) (t : BitTy) (d : VReg) (a b : Src)
  | xor (c : Ctl) (t : BitTy) (d : VReg) (a b : Src)
  | not (c : Ctl) (t : BitTy) (d : VReg) (b : Src)
  | andn (c : Ctl) (t : BitTy) (d : VReg) (a b : Src)
  | sel (c : Ctl) (t : BitTy) (d : VReg) (a b : Src) (p : Pred)
  | addr (c : Ctl) (sg : Bool) (d : VReg) (a b : Src) (sh : Fin 8)
  | cmp (c : Ctl) (cc : Cc) (t : CmpTy) (p : Pred) (a b : Src)
  | pand (c : Ctl) (na nb : Bool) (d a b : Pred)
  | por (c : Ctl) (na nb : Bool) (d a b : Pred)
  | pxor (c : Ctl) (na nb : Bool) (d a b : Pred)
  | pnot (c : Ctl) (d b : Pred)
  | pmov (c : Ctl) (d b : Pred)
  | mov (c : Ctl) (t : BitTy) (d : VReg) (b : Src)
  | movi (c : Ctl) (t : MoviTy) (d : VReg) (v : BitVec 16)
  -- Floating-point arithmetic (Table 4.3)
  | fadd (c : Ctl) (rm : Rm) (t : FltTy) (d : VReg) (a b : Src)
  | fsub (c : Ctl) (rm : Rm) (t : FltTy) (d : VReg) (a b : Src)
  | fmul (c : Ctl) (rm : Rm) (t : FltTy) (d : VReg) (a b : Src)
  | fdiv (c : Ctl) (rm : Rm) (t : FltTy) (d : VReg) (a b : Src)
  | ffma (c : Ctl) (rm : Rm) (t : FltTy) (d : VReg) (a b e : Src)
  | fmin (c : Ctl) (t : FltTy) (d : VReg) (a b : Src)
  | fmax (c : Ctl) (t : FltTy) (d : VReg) (a b : Src)
  | fabs (c : Ctl) (t : FltTy) (d : VReg) (b : Src)
  | fneg (c : Ctl) (t : FltTy) (d : VReg) (b : Src)
  | fcmp (c : Ctl) (cc : Cc) (t : FltTy) (p : Pred) (a b : Src)
  | fclass (c : Ctl) (t : Fmt) (p : Pred) (a b : Src)
  | frnd (c : Ctl) (rm : Rm) (t : FltTy) (d : VReg) (b : Src)
  | fscale (c : Ctl) (rm : Rm) (t : FltTy) (d : VReg) (a b : Src)
  | fdot2 (c : Ctl) (rm : Rm) (t : HlfTy) (d : VReg) (a b e : Src)
  | fadd2 (c : Ctl) (rm : Rm) (t : HlfTy) (d : VReg) (a b : Src)
  | fmul2 (c : Ctl) (rm : Rm) (t : HlfTy) (d : VReg) (a b : Src)
  | ffma2 (c : Ctl) (rm : Rm) (t : HlfTy) (d : VReg) (a b e : Src)
  | fmin2 (c : Ctl) (t : HlfTy) (d : VReg) (a b : Src)
  | fmax2 (c : Ctl) (t : HlfTy) (d : VReg) (a b : Src)
  -- Conversions (Table 4.4)
  | fcvt (c : Ctl) (rm : Rm) (sat : Bool) (td ts : Fmt) (d : VReg) (b : Src)
  | fcvti (c : Ctl) (rm : Rm) (td : CvtInt) (ts : Fmt) (d : VReg) (b : Src)
  | icvtf (c : Ctl) (rm : Rm) (sat : Bool) (td : Fmt) (ts : CvtInt) (d : VReg) (b : Src)
  | cvtq (c : Ctl) (rm : Rm) (fs : Fin 8) (d : VReg) (a : VReg) (b : Src)
  | cvtdq (c : Ctl) (rm : Rm) (fs : Fin 8) (d : VReg) (a b : Src)
  -- Square root and special functions (R100)
  | frcp (c : Ctl) (d : VReg) (b : Src)
  | frsq (c : Ctl) (d : VReg) (b : Src)
  | fsqrt (c : Ctl) (rm : Rm) (t : FltTy) (d : VReg) (b : Src)
  | fexp2 (c : Ctl) (d : VReg) (b : Src)
  | flog2 (c : Ctl) (d : VReg) (b : Src)
  | fsin (c : Ctl) (d : VReg) (b : Src)
  | fcos (c : Ctl) (d : VReg) (b : Src)
  | ftanh (c : Ctl) (d : VReg) (b : Src)
  -- Significance, mode, random, tree walk, top-k (Table 4.7, R108 to R114, R99)
  | sigget (c : Ctl) (t : SigTy) (d : VReg) (b : Src)
  | sigset (c : Ctl) (t : BitTy) (d : VReg) (a b : Src)
  | sigmin (c : Ctl) (t : BitTy) (d : VReg) (a b : Src)
  | sigcmp (c : Ctl) (cc : Cc) (t : SigTy) (p : Pred) (a b : Src)
  | moderd (c : Ctl) (d : VReg) (status : Bool)
  | modewr (c : Ctl) (status : Bool) (a b : Src)
  | philox (c : Ctl) (d a b : VReg)
  | philoxf (c : Ctl) (t : FltTy) (d a b : VReg)
  | twalk (c : Ctl) (idx : Bool) (n : Fin 8) (dep : Fin 8) (d : VReg) (a : Src) (b : VReg)
  | topkins (c : Ctl) (asc : Bool) (k : Fin 8) (d : VReg) (a b : Src)
  | topkmrg (c : Ctl) (asc : Bool) (k : Fin 8) (d a : VReg)
  | scalemax (c : Ctl) (p2 : Bool) (fs : Fin 8) (d : VReg) (b : Src)
  -- Control (Table 5.1)
  | bra (c : Ctl) (off : BitVec 16)
  | brau (c : Ctl) (off : BitVec 16)
  | brx (c : Ctl) (b : VReg)
  | call (c : Ctl) (d : VReg) (off : BitVec 16)
  | callReg (c : Ctl) (d : VReg) (b : VReg)
  | ret (c : Ctl) (b : VReg)
  | join (c : Ctl) (k : Fin 16) (n : VReg) (off : BitVec 16)
  | waitj (c : Ctl) (k : Fin 16) (off : Option (BitVec 16))
  | rep (c : Ctl) (b : Src)
  | repImm (c : Ctl) (n : BitVec 16)
  | loop (c : Ctl) (d : VReg) (off : BitVec 16)
  | exit (c : Ctl)
  | trap (c : Ctl) (code : BitVec 16)
  | bpt (c : Ctl)
  | yield (c : Ctl)
  | nop (c : Ctl)
  | bsig (c : Ctl) (all : Bool) (t : Fmt) (thr : Option (Fin 54)) (a : Src) (off : BitVec 16)
  | bany (c : Ctl) (p : Pred) (off : BitVec 16)
  | ball (c : Ctl) (p : Pred) (off : BitVec 16)
  -- Cross-lane, regroup, inspection (Table 5.4)
  | shfl (c : Ctl) (t : BitTy) (w : Width) (d : VReg) (a b : Src)
  | shflup (c : Ctl) (t : BitTy) (w : Width) (d : VReg) (a b : Src)
  | shfldn (c : Ctl) (t : BitTy) (w : Width) (d : VReg) (a b : Src)
  | shflx (c : Ctl) (t : BitTy) (w : Width) (d : VReg) (a b : Src)
  | voteany (c : Ctl) (na : Bool) (d a : Pred)
  | voteall (c : Ctl) (na : Bool) (d a : Pred)
  | voteuni (c : Ctl) (t : BitTy) (d : Pred) (a : Src)
  | ballot (c : Ctl) (na : Bool) (d : VReg) (a : Pred)
  | matchLanes (c : Ctl) (t : BitTy) (d : VReg) (a : Src)
  | redadd (c : Ctl) (t : IntTy) (w : Width) (d : VReg) (a : Src)
  | redfadd (c : Ctl) (rm : Rm) (t : FltTy) (w : Width) (d : VReg) (a : Src)
  | redmin (c : Ctl) (t : RedTy) (w : Width) (d : VReg) (a : Src)
  | redmax (c : Ctl) (t : RedTy) (w : Width) (d : VReg) (a : Src)
  | scanadd (c : Ctl) (excl : Bool) (rm : Rm) (t : RedTy) (w : Width) (d : VReg) (a : Src)
  | qswph (c : Ctl) (t : BitTy) (d : VReg) (a : Src)
  | qswpv (c : Ctl) (t : BitTy) (d : VReg) (a : Src)
  | qswpd (c : Ctl) (t : BitTy) (d : VReg) (a : Src)
  | qbcast (c : Ctl) (t : BitTy) (d : VReg) (a : Src) (q : Fin 4)
  | regroup (c : Ctl) (a : Src)
  | ungroup (c : Ctl)
  | grpinfo (c : Ctl) (d : VReg) (sel : Fin 4)
  | rdspec (c : Ctl) (d : VReg) (idx : Fin 22)
  | shape (c : Ctl) (d : VReg) (b : Src)
  | movg (c : Ctl) (t : BitTy) (d : VReg) (b : Src)
  -- Memory, synchronisation, engines, records (Table 8.1)
  | ld (c : Ctl) (f : Bool) (prv : Bool) (cp : LdCp) (t : LdTy) (d a : VReg) (o : Off)
  | st (c : Ctl) (f : Bool) (prv : Bool) (t : StTy) (d a : VReg) (o : Off)
  | lds (c : Ctl) (f : Bool) (t : LdTy) (d : VReg ⊕ HReg) (a : VReg) (o : Off)
  | sts (c : Ctl) (f : Bool) (t : StTy) (d : VReg ⊕ HReg) (a : VReg) (o : Off)
  | ldp (c : Ctl) (t : WinTy) (n : Fin 8) (d a : VReg) (w : Option (BitVec 16))
  | gather (c : Ctl) (f : Bool) (t : BitTy) (d a b : VReg) (sx : Bool) (sh : Fin 5)
  | scatter (c : Ctl) (f : Bool) (t : BitTy) (d a b : VReg) (sx : Bool) (sh : Fin 5)
  | atom (c : Ctl) (f : Bool) (op : Aop) (d a b : VReg) (e : Option VReg)
  | red (c : Ctl) (f : Bool) (op : Aop) (a b : VReg)
  | atoms (c : Ctl) (f : Bool) (op : Aop) (d a b : VReg) (e : Option VReg)
  | pref (c : Ctl) (mt : Bool) (a : VReg) (o : Off)
  | cctlIvl (c : Ctl) (a : VReg) (o : Off)
  | cctlIvr (c : Ctl) (a b : VReg)
  | cctlIva (c : Ctl)
  | bind (c : Ctl) (f : Bool) (sc : Scope) (a b e : VReg)
  | acqLock (c : Ctl) (sc : Scope) (p : Pred) (a : VReg)
  | acqGen (c : Ctl) (sc : Scope) (p : Pred) (a b : VReg)
  | rel (c : Ctl) (unlock : Bool) (sc : Scope) (a : VReg)
  | fence (c : Ctl) (sc : Scope)
  | bar (c : Ctl) (pub : Bool)
  | nbar (c : Ctl) (pub : Bool)
  | seminc (c : Ctl) (f : Bool) (n : BitVec 8) (b : Src)
  | semincImm (c : Ctl) (f : Bool) (n : BitVec 8) (v : BitVec 16)
  | semwait (c : Ctl) (n : BitVec 8) (b : Src)
  | semwaitImm (c : Ctl) (n : BitVec 8) (v : BitVec 16)
  | semrd (c : Ctl) (f : Bool) (d : VReg) (n : BitVec 8)
  | copy (c : Ctl) (ds ss : CpSpace) (a b e : VReg)
  | seal (c : Ctl) (cancellable : Bool) (h : HReg) (sem : Option (BitVec 8))
  | waitf (c : Ctl) (h : HReg)
  | testf (c : Ctl) (p : Pred) (h : HReg)
  | cancelf (c : Ctl) (h : HReg)
  | tilestSet (c : Ctl) (f : Bool) (a b : VReg)
  | tilestFull (c : Ctl) (f : Bool) (a : VReg)
  | tilestEmpty (c : Ctl) (f : Bool) (a : VReg)
  | tilewaitFull (c : Ctl) (a : VReg)
  | tilewaitEmpty (c : Ctl) (a : VReg)
  | emit (c : Ctl) (f : Bool) (a : VReg) (e : Fin 8)
  | emitx (c : Ctl) (f : Bool) (a b : VReg)
  | rdrec (c : Ctl) (f : Bool) (t : WinTy) (d a : VReg) (o : Option (BitVec 16))
  | enq (c : Ctl) (f : Bool) (n : Fin 8) (p : Pred) (a b : VReg)
  | rcsnap (c : Ctl) (f : Bool) (n : BitVec 8) (a b : VReg)
  | sliceq (c : Ctl) (fill : Bool) (h : HReg) (d b : VReg)
  | slicehintPin (c : Ctl) (f : Bool) (b : VReg)
  | slicehintUnpin (c : Ctl) (f : Bool) (b : VReg)
  | slicehintRep (c : Ctl) (f : Bool) (b e : VReg)
  | slicehintDrop (c : Ctl) (f : Bool) (b e : VReg)
  -- Matrix (Table 9.1)
  | mma (c : Ctl) (f : Bool) (fs : Fin 8) (rm : Rm) (h : HReg) (a : VReg)
  | mmas (c : Ctl) (f : Bool) (fs : Fin 8) (rm : Rm) (h : HReg) (a : VReg)
  | mmab (c : Ctl) (f : Bool) (fs : Fin 8) (rm : Rm) (and : Bool) (h : HReg) (a : VReg)
  | mldf (c : Ctl) (f : Bool) (fs : Fin 8) (w : FragSel) (sp : Bool) (h : HReg) (a b e : VReg)
  | mstf (c : Ctl) (f : Bool) (fs : Fin 8) (rm : Rm) (t : MstTy) (h : HReg) (a b e : VReg)
  | mzero (c : Ctl) (a : VReg)
  | mresume (c : Ctl) (f : Bool) (fs : Fin 8) (rm : Rm) (k : PassKind) (h : HReg) (a : VReg) (b : Src)
  | mqry (c : Ctl) (d : VReg) (h : HReg)
  -- System and trap (Table 13.9)
  | trapret (c : Ctl) (skip : Bool)
  | getfault (c : Ctl) (d : VReg) (w : Fin 8)
  | setfault (c : Ctl) (a b : Src)
  | haltg (c : Ctl) (code : BitVec 16)
  | ctxq (c : Ctl) (d : VReg) (sel : Fin 4)
  -- The P-form word and unassigned opcodes
  | pFormWord (s0 s1 : PSlot)
  | unassignedOpcode (w : Addr)
  -- Events of cores, groups and memory
  | clauseStart (p : IssuePort)
  | icacheFill (uid : Nat) (fresh : Bool)
  | groupForm (l n core : Nat) (bin : Word)
  | gatherTimeout (l n core : Nat) (bin : Word)
  | retire (uid : Nat)
  | pathQuantum (uid : Nat)
  | merge (host donor : Nat)
  | eject (uid : Nat)
  | recall (uid : Nat)
  | waitjPass (uid : Nat)
  | rejoinTimeout (uid : Nat)
  | yieldedRestore (uid slot : Nat)
  | barrierComplete (wg : Nat) (nbar : Bool)
  | collectorWindowClose (core : Nat)
  | memoryAccessComplete (id : Nat) (lanes : Mask) (fromCopy useTlb : Bool)
  | trapDelivery (uid : Nat)
  | copyBatchComplete (id : Nat)
  | copyEngineFault (id : Nat)
  | copyBatchCancelled (id : Nat)
  | matrixGrant (cluster : Nat) (transfer : Bool)
  | matrixComplete (id : Nat)
  | matrixEngineFault (id : Nat)
  | matrixOperationStop (id : Nat)
  | sliceQueryComplete (id : Nat)
  | preempt (wg : Nat)
  | restore (wg core : Nat)
  -- Events of the graph scheduler and UALink
  | connect (accel launch proxy port rnode size : Nat)
  | permitGrant (l n permits : Nat)
  | remoteRecord (l n : Nat) (r : RecMsg)
  | permitReturn (l n permits : Nat)
  | permitReturnBatch (l n : Nat) (sender : Sender)
  | permitReport (l n held : Nat)
  | closeMessage (l n : Nat) (sender : Sender)
  | remoteAccess (accel : Nat) (pa : Nat) (op : RemoteOp)
  | graphLaunchEnd (l : Nat)
  | launchCancel (l : Nat)
  -- Events of the command processor
  | packetNop (q : Nat)
  | launch (q : Nat)
  | packetCopy (q : Nat)
  | packetCopyComplete (q id : Nat)
  | semsig (q : Nat)
  | semwaitge (q : Nat)
  | intr (q : Nat)
  | phase (q : Nat)
  | packetFence (q : Nat)
  | tstamp (q : Nat)
  | jump (q : Nat)
  | queueService
  | linkMessage (cluster : Nat) (up : Bool) (msg : List Byte)
  | linkPermitReturn (cluster : Nat) (up : Bool) (epoch : Nat)
  | sync (cluster : Nat) (up : Bool)
  | syncack (cluster : Nat) (up : Bool)
  -- Error engines and the boot ROM
  | scrub (region : Nat) (granule : Nat)
  | rateDecay (region : Nat)
  | repair (region : Nat) (loc : Nat)
  | moduleReset
  | attestDone
  -- Host writes to queue and partition registers
  | queueNotify (part q : Nat) (v : Addr)
  | queueEnable (part q : Nat) (v : Addr)
  | queueDisable (part q : Nat) (v : Addr)
  | queueRst (part q : Nat) (v : Addr)
  | queuePlaneChange (part q : Nat) (v : Addr)
  | partEnable (n : Nat) (v : Addr)
  | partDisable (n : Nat) (v : Addr)
  | partitionReset (n : Nat)
  | tlbInvalidatePage (n : Nat) (v : Addr)
  | tlbInvalidateAll (w : PartWrite)
  | fresumeRetry (n launch : Nat)
  | fresumeSkip (n launch : Nat)
  | fresumeEnd (n launch : Nat)
  | flogrWrite (n : Nat) (v : Addr)
  | sliceFlush (n : Nat)
  | hostSemaphoreStore (n j : Nat) (v : Addr)
  | registerWrite (off : Nat) (v : Addr)
  -- Freezes, read-out, boot, power
  | rasLogrWrite (v : Addr)
  | rasFreeze (v : Addr)
  | frzN (ns : Nat)
  | tapInstruction (op : TapOp)
  | powerOn
  | bootGo
  | bootForce (v : Bool)
  | attest
  | clockChange (cluster f50 : Nat)
  | thermalThrottle
  | thermalShutdown
  deriving DecidableEq, Repr, Inhabited

end Sys2Proof
end

