-- ==== Sys2Proof/WellFormed.lean ====
section
/-! DEFINITION. Which terms of the syntax an encoding exists for: the decode-time checks that need the word alone (Table 3.9). -/
namespace Sys2Proof

/-- Registers a value of the type takes (R14). -/
def IntTy.regs : IntTy → Nat | .s32 | .n32 => 1 | .s64 | .n64 => 2
/-- Registers a value of the type takes (R14). -/
def BitTy.regs : BitTy → Nat | .b32 => 1 | .b64 => 2
/-- Registers a value of the type takes (R14). -/
def FltTy.regs : FltTy → Nat | .f32 => 1 | .f64 => 2
/-- Registers a value of the type takes (R14, R82). -/
def Fmt.regs : Fmt → Nat | .f64 => 2 | _ => 1
/-- Registers a value of the type takes (R14). -/
def CvtInt.regs : CvtInt → Nat | .s64 | .n64 => 2 | _ => 1
/-- Registers a value of the type takes (R14). -/
def CmpTy.regs : CmpTy → Nat | .int t => t.regs | .bit t => t.regs
/-- Registers a value of the type takes (R14). -/
def SigTy.regs : SigTy → Nat | .bit t => t.regs | .flt t => t.regs
/-- Registers a value of the type takes (R14). -/
def RedTy.regs : RedTy → Nat | .int t => t.regs | .flt t => t.regs
/-- Registers a loaded value takes (R198). -/
def LdTy.regs : LdTy → Nat | .b64 => 2 | .b128 => 4 | _ => 1
/-- Registers a stored value takes (R198). -/
def StTy.regs : StTy → Nat | .b64 => 2 | .b128 => 4 | _ => 1
/-- Registers a value of the type takes (R198). -/
def WinTy.regs : WinTy → Nat | .b32 => 1 | .b64 => 2 | .b128 => 4
/-- Registers an atomic's operand takes (R198, R209). -/
def Aop.regs : Aop → Nat
  | .addI t | .sub t | .minI t | .maxI t => t.regs
  | .addF t | .minF t | .maxF t => t.regs
  | .and t | .or t | .xor t => t.regs
  | .exch t | .cas t => t.regs
  | .inc | .dec => 1

/-- A format whose operand position takes no inline constant and no immediate (R68, R70). -/
def Fmt.noConst : Fmt → Bool | .e4m3 | .e5m2 => true | _ => false
/-- A type whose operand position takes no inline constant (R68). -/
def SigTy.noConst : SigTy → Bool | .flt f => f.noConst | .bit _ => false

/-- Whether a source is a vector register, the operand that the reuse bit applies to (R33, R66). -/
def Src.isReg : Src → Bool | .reg _ => true | _ => false
/-- Whether a source is a parameter-window word. -/
def Src.isWin : Src → Bool | .win .. => true | _ => false
/-- Whether a source is an immediate. -/
def Src.isImm : Src → Bool | .imm _ => true | _ => false
/-- The alignment of a source of `n` registers (R14), and of a 64-bit window operand (R69). -/
def Src.aligned (n : Nat) : Src → Bool
  | .reg r => r.val % n == 0
  | .win _ o => n == 1 || o.toNat % 2 == 0
  | _ => true
/-- A source that may not be a constant (R68). -/
def Src.constOk (nc : Bool) : Src → Bool | .const _ => !nc | _ => true

/-- Two-source words: alignments; at most one window, and none beside an immediate (R69, R70). -/
def wfAB (immOk : Bool) (na nb : Nat) (nc : Bool) (a b : Src) : Bool :=
  a.aligned na && b.aligned nb && !a.isImm && (immOk || !b.isImm) && a.constOk nc && b.constOk nc &&
  !(a.isWin && (b.isWin || b.isImm))
/-- One-source words. -/
def wfB (n : Nat) (nc : Bool) (b : Src) : Bool := b.aligned n && !b.isImm && b.constOk nc
/-- A window source of a word whose SC is 0: the word at offset 0 (R118, R131). -/
def Src.off0 : Src → Bool | .win _ o => o == 0 | _ => true
/-- A source in a word whose SC is an operand: no window, no immediate (R69). -/
def wfN (n : Nat) (nc : Bool) (b : Src) : Bool := b.aligned n && !b.isImm && !b.isWin && b.constOk nc

/-- The transient bit only where the entry takes it (R32), the reuse bit only where the entry has a source operand (R66). -/
def Ctl.ok (c : Ctl) (trn reads : Bool) : Bool := (trn || !c.tr) && (reads || !c.ru)

/-- A destination of `n` registers, aligned (R14). -/
def wfD (n : Nat) (d : VReg) : Bool := d.val % n == 0

/-- The offset of a memory operand reads a register or holds the immediate; both are always well formed. -/
def Rm.noStoch : Rm → Bool | .rsr => false | _ => true
/-- The rounding values of FRND (Table 4.3). -/
def Rm.upTo5 : Rm → Bool | .rsr | .rodd => false | _ => true
/-- The rounding values of FCVTI (Table 4.4). -/
def Rm.upTo6 : Rm → Bool | .rodd => false | _ => true

/-- The bank of a register (R73). -/
def bank (r : VReg) : Nat := r.val % 4

/-- The P-form operations with one source (R75). -/
def POp.oneSource : POp → Bool
  | .mov | .iabs | .ineg | .not | .popc | .clz | .ctz | .brev | .fabs | .fneg => true
  | _ => false

/-- The pairing rule of R73. -/
def pairingOk : PSlot → PSlot → Bool
  | .op _ _ _ d b, .op _ _ _ d' b' =>
    bank d != bank d' && (match b, b' with | .reg r, .reg r' => bank r != bank r' | _, _ => true)
  | _, _ => true

/-- Whether opcode `n` is assigned (Table 3.7). -/
def opcAssigned (n : Nat) : Bool :=
  n < 0x24 || (0x80 ≤ n && n < 0xA0) || (0x100 ≤ n && n < 0x10C) || (0x140 ≤ n && n < 0x151) ||
  (0x180 ≤ n && n < 0x198) || (0x1C0 ≤ n && n < 0x1E3) || (0x1F0 ≤ n && n < 0x1FD)

/-- Whether a 64-bit word holds an unassigned opcode: of the F-form, or of either slot of the P-form (R74, R75). -/
def wordUnassigned (w : Nat) : Bool :=
  if w / 2 ^ 63 % 2 = 0 then !opcAssigned (w / 2 ^ 54 % 512)
  else 0x22 < w / 2 ^ 24 % 128 || 0x22 < w / 2 ^ 55 % 128

/-- Whether a constructor is an instruction word, and not an event. -/
def Instr.isWord : Instr → Bool
  | .clauseStart .. | .icacheFill .. | .groupForm .. | .gatherTimeout .. | .retire .. | .pathQuantum .. | .merge ..
  | .eject .. | .recall .. | .waitjPass .. | .rejoinTimeout .. | .yieldedRestore .. | .barrierComplete ..
  | .collectorWindowClose .. | .memoryAccessComplete .. | .trapDelivery .. | .copyBatchComplete ..
  | .copyEngineFault .. | .copyBatchCancelled .. | .matrixGrant .. | .matrixComplete .. | .matrixEngineFault ..
  | .matrixOperationStop .. | .sliceQueryComplete .. | .preempt .. | .restore .. | .connect .. | .permitGrant ..
  | .remoteRecord .. | .permitReturn .. | .permitReturnBatch .. | .permitReport .. | .closeMessage ..
  | .remoteAccess .. | .graphLaunchEnd .. | .launchCancel .. | .packetNop .. | .launch .. | .packetCopy ..
  | .packetCopyComplete .. | .semsig .. | .semwaitge .. | .intr .. | .phase .. | .packetFence .. | .tstamp ..
  | .jump .. | .queueNotify .. | .queueService | .queueEnable .. | .queueDisable .. | .queueRst ..
  | .queuePlaneChange .. | .linkMessage .. | .linkPermitReturn .. | .sync .. | .syncack .. | .partEnable ..
  | .partDisable .. | .partitionReset .. | .tlbInvalidatePage .. | .tlbInvalidateAll .. | .fresumeRetry ..
  | .fresumeSkip .. | .fresumeEnd .. | .flogrWrite .. | .sliceFlush .. | .hostSemaphoreStore .. | .registerWrite ..
  | .scrub .. | .rateDecay .. | .repair .. | .rasLogrWrite .. | .rasFreeze .. | .frzN .. | .tapInstruction ..
  | .moduleReset | .powerOn | .bootGo | .bootForce .. | .attest | .attestDone | .clockChange ..
  | .thermalThrottle | .thermalShutdown => false
  | _ => true

/-- Well-formed: an encoding exists that passes every decode-time check that needs the word alone (R66 to R76). An
event is always well formed. -/
def Instr.wf : Instr → Bool
  | .iadd c _ t d a b | .isub c _ t d a b => c.ok true true && wfD t.regs d && wfAB true t.regs t.regs false a b
  | .imul c t d a b | .imulhi c t d a b | .imin c t d a b | .imax c t d a b =>
    c.ok true true && wfD t.regs d && wfAB true t.regs t.regs false a b
  | .bfe c t d a b => c.ok true true && wfD t.regs d && wfAB true t.regs 1 false a b
  | .imad c t d a b e => c.ok true true && wfD t.regs d && wfN t.regs false a &&
      wfN t.regs false b && wfN t.regs false e
  | .imadw c _ d a b e => c.ok true true && wfD 2 d && wfN 1 false a && wfN 1 false b && wfN 2 false e
  | .iabs c _ w d b | .ineg c _ w d b => c.ok true true && wfD (if w then 2 else 1) d && wfB (if w then 2 else 1) false b
  | .shl c t d a b | .shr c t d a b | .sar c t d a b | .rot c t d a b =>
    c.ok true true && wfD t.regs d && wfAB true t.regs 1 false a b
  | .bfi c t d a b e => c.ok true true && wfD t.regs d && wfN t.regs false a &&
      wfN t.regs false b && wfN 1 false e
  | .popc c t _ b | .clz c t _ b | .ctz c t _ b => c.ok true true && wfB t.regs false b
  | .brev c t d b | .not c t d b | .mov c t d b => c.ok true true && wfD t.regs d && wfB t.regs false b
  | .movg c t d b => c.ok true true && wfD t.regs d && wfB t.regs false b && b.off0
  | .permb c _ a b e => c.ok true true && wfN 1 false a && wfN 1 false b && wfN 1 false e
  | .and c t d a b | .or c t d a b | .xor c t d a b | .andn c t d a b =>
    c.ok true true && wfD t.regs d && wfAB true t.regs t.regs false a b
  | .sel c t d a b _ => c.ok true true && wfD t.regs d && wfN t.regs false a && wfN t.regs false b
  | .addr c _ d a b _ => c.ok true true && wfD 2 d && wfN 2 false a && wfN 1 false b
  | .cmp c _ t _ a b => c.ok false true && wfAB true t.regs t.regs false a b
  | .pand c _ _ _ _ _ | .por c _ _ _ _ _ | .pxor c _ _ _ _ _ => c.ok false false
  | .pnot c _ _ | .pmov c _ _ => c.ok false false
  | .movi c _ _ _ => c.ok true false
  | .fadd c _ t d a b | .fsub c _ t d a b | .fmul c _ t d a b =>
    c.ok true true && wfD t.regs d && wfAB true t.regs t.regs false a b
  | .fdiv c _ t d a b => c.ok true true && wfD t.regs d && wfAB false t.regs t.regs false a b
  | .ffma c _ t d a b e => c.ok true true && wfD t.regs d && wfN t.regs false a &&
      wfN t.regs false b && wfN t.regs false e
  | .fmin c t d a b | .fmax c t d a b =>
    c.ok true true && wfD t.regs d && wfAB true t.regs t.regs false a b
  | .fabs c t d b | .fneg c t d b | .fsqrt c _ t d b => c.ok true true && wfD t.regs d && wfB t.regs false b
  | .fcmp c _ t _ a b => c.ok false true && wfAB true t.regs t.regs false a b
  | .fclass c t _ a b => c.ok false true && wfAB true t.regs 1 false a b && a.constOk t.noConst
  | .frnd c r t d b => c.ok true true && r.upTo5 && wfD t.regs d && wfB t.regs false b
  | .fscale c _ t d a b => c.ok true true && wfD t.regs d && wfAB true t.regs 1 false a b
  | .fdot2 c _ _ _ a b e | .ffma2 c _ _ _ a b e =>
    c.ok true true && wfN 1 false a && wfN 1 false b && wfN 1 false e
  | .fadd2 c _ _ _ a b | .fmul2 c _ _ _ a b => c.ok true true && wfAB true 1 1 false a b
  | .fmin2 c _ _ a b | .fmax2 c _ _ a b => c.ok true true && wfAB true 1 1 false a b
  | .fcvt c _ _ td ts d b => c.ok true true && wfD td.regs d && wfN ts.regs ts.noConst b
  | .fcvti c r td ts d b => c.ok true true && r.upTo6 && !ts.noConst && wfD td.regs d && wfN ts.regs false b
  | .icvtf c _ _ td ts d b => c.ok true true && wfD td.regs d && wfN ts.regs false b
  | .cvtq c _ _ _ _ b => c.ok false true && b.aligned 1
  | .cvtdq c _ _ _ a b => c.ok false true && wfAB true 1 1 false a b
  | .frcp c _ b | .frsq c _ b | .fexp2 c _ b | .flog2 c _ b | .fsin c _ b | .fcos c _ b | .ftanh c _ b =>
    c.ok true true && wfB 1 false b
  | .sigget c t _ b => c.ok true true && wfB t.regs t.noConst b
  | .sigset c t d a b => c.ok true true && wfD t.regs d && wfAB true t.regs 1 false a b
  | .sigmin c t d a b => c.ok true true && wfD t.regs d && wfAB false t.regs 1 false a b
  | .sigcmp c cc t _ a b =>
    c.ok false true && wfAB true t.regs 1 false a b && a.constOk t.noConst &&
    (!(cc == .c6 || cc == .c7) || b == .reg 0)
  | .moderd c _ _ => c.ok true false
  | .modewr c _ a b => c.ok false true && wfAB true 1 1 false a b
  | .philox c d a b | .philoxf c _ d a b => c.ok false true && wfD 4 d && wfD 4 a && wfD 2 b
  | .twalk c _ _ _ _ a _ => c.ok false true && wfN 1 false a
  | .topkins c _ _ _ a b => c.ok false true && wfAB false 1 1 false a b
  | .topkmrg c _ _ _ _ => c.ok false true
  | .scalemax c _ _ _ b => c.ok true true && wfB 1 false b
  | .bra c _ | .brau c _ | .join c _ _ _ | .waitj c _ _ | .repImm c _ | .loop c _ _ | .exit c | .trap c _ | .bpt c
  | .yield c | .nop c | .bany c _ _ | .ball c _ _ => c.ok false false
  | .brx c b | .ret c b => c.ok false true && wfD 2 b
  | .call c d _ => c.ok false false && wfD 2 d
  | .callReg c d b => c.ok false true && wfD 2 d && wfD 2 b
  | .rep c b => c.ok false true && wfB 1 false b && b.off0
  | .bsig c _ t _ a _ => c.ok false true && wfN t.regs t.noConst a
  | .shfl c t _ d a b | .shflup c t _ d a b | .shfldn c t _ d a b | .shflx c t _ d a b =>
    c.ok false true && wfD t.regs d && wfN t.regs false a && wfN 1 false b && (match b with | .reg r => wfD t.regs r | _ => true)
  | .voteany c _ _ _ | .voteall c _ _ _ | .ballot c _ _ _ => c.ok false false
  | .voteuni c t _ a => c.ok false true && wfB t.regs false a && a.off0
  | .matchLanes c t _ a => c.ok false true && wfB t.regs false a && a.off0
  | .redadd c t _ d a => c.ok false true && wfD t.regs d && wfN t.regs false a
  | .redfadd c r t _ d a => c.ok false true && r.noStoch && wfD t.regs d && wfN t.regs false a
  | .redmin c t _ d a | .redmax c t _ d a => c.ok false true && wfD t.regs d && wfN t.regs false a
  | .scanadd c _ r t _ d a => c.ok false true && (match t with | .int _ => r == .mode | .flt _ => r.noStoch) &&
      wfD t.regs d && wfN t.regs false a
  | .qswph c t d a | .qswpv c t d a | .qswpd c t d a | .qbcast c t d a _ =>
    c.ok false true && wfD t.regs d && wfB t.regs false a && a.off0
  | .regroup c a => c.ok false true && wfB 1 false a && a.off0
  | .ungroup c => c.ok false false
  | .grpinfo c _ _ | .rdspec c _ _ => c.ok false false
  | .shape c _ b => c.ok true true && wfB 1 false b && b.off0
  | .ld c _ _ _ t d _ _ => c.ok false true && wfD t.regs d
  | .st c _ _ t d _ _ => c.ok false true && wfD t.regs d
  | .lds c _ t d _ _ => c.ok false true && (match d with | .inl d => wfD t.regs d | .inr _ => t == .b32)
  | .sts c _ t d _ _ => c.ok false true && (match d with | .inl d => wfD t.regs d | .inr _ => t == .b32)
  | .ldp c t _ d _ _ => c.ok false true && wfD t.regs d
  | .gather c _ t d _ _ _ _ | .scatter c _ t d _ _ _ _ => c.ok false true && wfD t.regs d
  | .atom c _ op d _ b e | .atoms c _ op d _ b e =>
    c.ok false true && wfD op.regs d && wfD op.regs b &&
    (match op, e with | .cas _, some e => wfD op.regs e | .cas _, none => false | _, none => true | _, some _ => false)
  | .red c _ op _ b => c.ok false true && wfD op.regs b && (match op with | .cas _ => false | _ => true)
  | .pref c _ _ _ | .cctlIvl c _ _ | .cctlIvr c _ _ => c.ok false true
  | .cctlIva c => c.ok false false
  | .bind c _ _ _ b e => c.ok false true && wfD 2 b && wfD 2 e
  | .acqLock c _ _ _ | .acqGen c _ _ _ _ | .rel c _ _ _ => c.ok false true
  | .fence c _ | .bar c _ | .nbar c _ => c.ok false false
  | .seminc c _ _ b | .semwait c _ b => c.ok false b.isReg && wfB 1 false b
  | .semincImm c _ _ _ | .semwaitImm c _ _ | .semrd c _ _ _ => c.ok false false
  | .copy c _ _ _ _ _ => c.ok false true
  | .seal c _ _ _ | .waitf c _ | .testf c _ _ | .cancelf c _ => c.ok false false
  | .tilestSet c _ _ b => c.ok false true && wfD 2 b
  | .tilestFull c _ _ | .tilestEmpty c _ _ | .tilewaitFull c _ | .tilewaitEmpty c _ => c.ok false true
  | .emit c _ a _ | .emitx c _ a _ => c.ok false true && wfD 2 a
  | .rdrec c _ t d _ _ => c.ok false true && wfD t.regs d
  | .enq c _ _ _ _ b => c.ok false true && wfD 2 b
  | .rcsnap c _ _ _ _ => c.ok false true
  | .sliceq c _ _ d _ => c.ok false true && wfD 2 d
  | .slicehintPin c _ _ | .slicehintUnpin c _ _ | .slicehintRep c _ _ _ | .slicehintDrop c _ _ _ => c.ok false true
  | .mma c _ _ _ _ _ | .mmas c _ _ _ _ _ | .mmab c _ _ _ _ _ _ => c.ok false true
  | .mldf c _ _ w sp _ _ _ _ => c.ok false true && !(sp && w == .c)
  | .mstf c _ _ r _ _ _ _ _ => c.ok false true && r.noStoch
  | .mzero c _ => c.ok false true
  | .mresume c _ _ _ _ _ _ b => c.ok false true && wfB 1 false b
  | .mqry c d _ => c.ok false true && wfD 2 d
  | .trapret c _ | .getfault c _ _ | .haltg c _ | .ctxq c _ _ => c.ok false false
  | .setfault c a b => !c.tr && !c.ru && wfAB false 1 1 false a b
  | .pFormWord s0 s1 => pairingOk s0 s1
  | .unassignedOpcode w => wordUnassigned w.toNat
  | _ => true

end Sys2Proof
end

