-- ==== Sys2Proof/Decode.lean ====
section
/-! DEFINITION. Reading instruction words (R65 to R76), and the encoder written from the same tables.

Every check of Table 3.9 that depends on the word alone is made here. A reader `Rd` carries the value read, the ILLEGAL
sub-causes found, and the registers named; a word with several faults reports the lowest code (R76). -/
namespace Sys2Proof

/-- The ILLEGAL sub-causes of Table 3.9 that decoding can find. -/
abbrev illHeader : Nat := 1
/-- Table 3.9. -/
abbrev illOpcode : Nat := 2
/-- Table 3.9. -/
abbrev illReserved : Nat := 3
/-- Table 3.9. -/
abbrev illUnused : Nat := 4
/-- Table 3.9. -/
abbrev illType : Nat := 5
/-- Table 3.9. -/
abbrev illOperand : Nat := 6
/-- Table 3.9. -/
abbrev illParam : Nat := 7
/-- Table 3.9. -/
abbrev illPairing : Nat := 8
/-- Table 3.9. -/
abbrev illNotLast : Nat := 9
/-- Table 3.9. -/
abbrev illRounding : Nat := 10
/-- Table 3.9. -/
abbrev illSlot : Nat := 11
/-- Table 3.9. -/
abbrev illTransient : Nat := 12
/-- Table 3.9. -/
abbrev illBeyond : Nat := 13
/-- Table 3.9. -/
abbrev illMispair : Nat := 14
/-- Table 3.9. -/
abbrev illSpecial : Nat := 15
/-- Table 3.9. -/
abbrev illShape : Nat := 16
/-- Table 3.9. -/
abbrev illField : Nat := 17
/-- Table 3.9. -/
abbrev illTarget : Nat := 18

/-- The fields of an F-form word (Table 3.2). -/
structure FWord where
  opc : Nat
  dst : Nat
  sa : Nat
  sb : Nat
  sc : Nat
  gp : Nat
  gn : Nat
  rm : Nat
  fsl : Nat
  trn : Nat
  ruse : Nat
  md : Nat
  deriving DecidableEq, Repr

/-- The fields of a word (Table 3.2). -/
def unpackF (w : Nat) : FWord :=
  ⟨bits w 54 9, bits w 46 8, bits w 38 8, bits w 30 8, bits w 22 8, bits w 16 6, bits w 15 1, bits w 12 3, bits w 9 3,
   bits w 8 1, bits w 7 1, bits w 0 7⟩

/-- The word with the fields given (Table 3.2). -/
def packF (f : FWord) : Nat :=
  f.opc * 2 ^ 54 + f.dst * 2 ^ 46 + f.sa * 2 ^ 38 + f.sb * 2 ^ 30 + f.sc * 2 ^ 22 + f.gp * 2 ^ 16 + f.gn * 2 ^ 15 +
  f.rm * 2 ^ 12 + f.fsl * 2 ^ 9 + f.trn * 2 ^ 8 + f.ruse * 2 ^ 7 + f.md

/-- What a field does with the registers it names. -/
inductive UseKind where
  /-- read as source A, B or C -/
  | src
  /-- read through the DST field -/
  | dstRead
  /-- written -/
  | dst
  /-- only named (the bound of JOIN) -/
  | named
  deriving DecidableEq, Repr

/-- A run of registers that a word names; a source that is no register counts 0. -/
structure RegUse where
  kind : UseKind
  first : Nat
  count : Nat
  deriving DecidableEq, Repr

/-- A value read from a word, the faults found on the way, and the registers named. -/
structure Rd (α : Type) where
  val : α
  codes : List Nat
  regs : List RegUse

/-- A value with nothing to report. -/
def Rd.of {α : Type} (a : α) : Rd α := ⟨a, [], []⟩
/-- A constructor applied to 1 arguments still to be read. -/
def Rd.k1 {α : Type} (k : α → Instr) : Rd (α → Instr) := .of k
/-- A constructor applied to 2 arguments still to be read. -/
def Rd.k2 {α β : Type} (k : α → β → Instr) : Rd (α → β → Instr) := .of k
/-- A constructor applied to 3 arguments still to be read. -/
def Rd.k3 {α β γ : Type} (k : α → β → γ → Instr) : Rd (α → β → γ → Instr) := .of k
/-- A constructor applied to 4 arguments still to be read. -/
def Rd.k4 {α β γ δ : Type} (k : α → β → γ → δ → Instr) : Rd (α → β → γ → δ → Instr) := .of k
/-- A constructor applied to 5 arguments still to be read. -/
def Rd.k5 {α β γ δ ε : Type} (k : α → β → γ → δ → ε → Instr) : Rd (α → β → γ → δ → ε → Instr) := .of k
/-- Reads `x`, then what `k` reads. -/
def Rd.andThen {α β : Type} (x : Rd α) (k : α → Rd β) : Rd β :=
  let r := k x.val
  ⟨r.val, x.codes ++ r.codes, x.regs ++ r.regs⟩
/-- Applies a read function to a read argument. -/
def Rd.ap {α β : Type} (g : Rd (α → β)) (x : Rd α) : Rd β := ⟨g.val x.val, g.codes ++ x.codes, g.regs ++ x.regs⟩
/-- Maps the value read. -/
def Rd.map {α β : Type} (g : α → β) (x : Rd α) : Rd β := ⟨g x.val, x.codes, x.regs⟩
/-- Adds a fault unless `ok`. -/
def Rd.check {α : Type} (x : Rd α) (ok : Bool) (code : Nat) : Rd α := ⟨x.val, x.codes ++ (if ok then [] else [code]), x.regs⟩
/-- Adds registers named. -/
def Rd.uses {α : Type} (x : Rd α) (u : List RegUse) : Rd α := ⟨x.val, x.codes, x.regs ++ u⟩

/-- A type code through its table; 0x05 where the entry does not accept it (R66). -/
def rdTable {α : Type} (tab : Nat → Option α) (dflt : α) (n : Nat) : Rd α :=
  match tab n with
  | some t => ⟨t, [], []⟩
  | none => ⟨dflt, [illType], []⟩

/-- INT by the codes of Table 3.3. -/
def intTyOf : Nat → Option IntTy | 7 => some .s32 | 11 => some .n32 | 8 => some .s64 | 12 => some .n64 | _ => none
/-- The code of an INT type. -/
def IntTy.code : IntTy → Nat | .s32 => 7 | .n32 => 11 | .s64 => 8 | .n64 => 12
/-- BIT by the codes of Table 3.3. -/
def bitTyOf : Nat → Option BitTy | 0 => some .b32 | 1 => some .b64 | _ => none
/-- The code of a BIT type. -/
def BitTy.code : BitTy → Nat | .b32 => 0 | .b64 => 1
/-- FLT by the codes of Table 3.3. -/
def fltTyOf : Nat → Option FltTy | 15 => some .f32 | 16 => some .f64 | _ => none
/-- The code of an FLT type. -/
def FltTy.code : FltTy → Nat | .f32 => 15 | .f64 => 16
/-- HLF by the codes of Table 3.3. -/
def hlfTyOf : Nat → Option HlfTy | 13 => some .f16 | 14 => some .bf16 | _ => none
/-- The code of an HLF type. -/
def HlfTy.code : HlfTy → Nat | .f16 => 13 | .bf16 => 14
/-- NAR by the codes of Table 3.3. -/
def fmtOf : Nat → Option Fmt
  | 16 => some .f64 | 15 => some .f32 | 13 => some .f16 | 14 => some .bf16 | 17 => some .e4m3 | 18 => some .e5m2 | _ => none
/-- The code of a NAR type. -/
def Fmt.code : Fmt → Nat | .f64 => 16 | .f32 => 15 | .f16 => 13 | .bf16 => 14 | .e4m3 => 17 | .e5m2 => 18
/-- The source formats of FCVTI. -/
def fmtWideOf (n : Nat) : Option Fmt := if n < 17 then fmtOf n else none
/-- The integer types of conversions by the codes of Table 3.3. -/
def cvtIntOf : Nat → Option CvtInt
  | 5 => some .s8 | 6 => some .s16 | 7 => some .s32 | 8 => some .s64
  | 9 => some .n8 | 10 => some .n16 | 11 => some .n32 | 12 => some .n64 | _ => none
/-- The code of a conversion's integer type. -/
def CvtInt.code : CvtInt → Nat
  | .s8 => 5 | .s16 => 6 | .s32 => 7 | .s64 => 8 | .n8 => 9 | .n16 => 10 | .n32 => 11 | .n64 => 12
/-- INT and BIT. -/
def cmpTyOf (n : Nat) : Option CmpTy := if n < 2 then (bitTyOf n).map .bit else (intTyOf n).map .int
/-- The code of a CMP type. -/
def CmpTy.code : CmpTy → Nat | .int t => t.code | .bit t => t.code
/-- BIT and NAR. -/
def sigTyOf (n : Nat) : Option SigTy := if n < 2 then (bitTyOf n).map .bit else (fmtOf n).map .flt
/-- The code of a SIGGET type. -/
def SigTy.code : SigTy → Nat | .bit t => t.code | .flt f => f.code
/-- INT and FLT. -/
def redTyOf (n : Nat) : Option RedTy := if n < 13 then (intTyOf n).map .int else (fltTyOf n).map .flt
/-- The code of a reduction type. -/
def RedTy.code : RedTy → Nat | .int t => t.code | .flt t => t.code
/-- .s32 and .n32: whether the type is signed. -/
def sgOf : Nat → Option Bool | 7 => some true | 11 => some false | _ => none
/-- The code of .s32 (signed) or .n32. -/
def sgCode (s : Bool) : Nat := if s then 7 else 11
/-- .s32 and .s64: whether the type has 64 bits. -/
def s64Of : Nat → Option Bool | 7 => some false | 8 => some true | _ => none
/-- The code of .s64 (true) or .s32. -/
def s64Code (w : Bool) : Nat := if w then 8 else 7
/-- The types of LD (R198). -/
def ldTyOf : Nat → Option LdTy
  | 0 => some .b32 | 1 => some .b64 | 2 => some .b128 | 3 => some .b16 | 4 => some .b8
  | 5 => some .s8 | 6 => some .s16 | 9 => some .n8 | 10 => some .n16 | _ => none
/-- The code of a load type. -/
def LdTy.code : LdTy → Nat
  | .b32 => 0 | .b64 => 1 | .b128 => 2 | .b16 => 3 | .b8 => 4 | .s8 => 5 | .s16 => 6 | .n8 => 9 | .n16 => 10
/-- The types of ST (R198). -/
def stTyOf : Nat → Option StTy
  | 0 => some .b32 | 1 => some .b64 | 2 => some .b128 | 3 => some .b16 | 4 => some .b8 | _ => none
/-- The code of a store type. -/
def StTy.code : StTy → Nat | .b32 => 0 | .b64 => 1 | .b128 => 2 | .b16 => 3 | .b8 => 4
/-- The types of LDP and RDREC (R198). -/
def winTyOf : Nat → Option WinTy | 0 => some .b32 | 1 => some .b64 | 2 => some .b128 | _ => none
/-- The code of a window type. -/
def WinTy.code : WinTy → Nat | .b32 => 0 | .b64 => 1 | .b128 => 2
/-- The types of MSTF (R235). -/
def mstTyOf : Nat → Option MstTy
  | 15 => some .f32 | 13 => some .f16 | 14 => some .bf16 | 17 => some .e4m3 | 18 => some .e5m2 | 7 => some .s32 | _ => none
/-- The code of an MSTF type. -/
def MstTy.code : MstTy → Nat | .f32 => 15 | .f16 => 13 | .bf16 => 14 | .e4m3 => 17 | .e5m2 => 18 | .s32 => 7
/-- The types of MOVI by MOD[4:0] and H (R85). -/
def moviTyOf (h : Bool) : Nat → Option MoviTy
  | 0 => some (if h then .h else .b32) | 7 => if h then none else some .s32 | 15 => if h then none else some .f32 | _ => none
/-- The MOD bits of a MOVI type: type and H. -/
def MoviTy.code : MoviTy → Nat | .b32 => 0 | .h => 32 | .s32 => 7 | .f32 => 15
/-- The rounding values of Table 2.3. -/
def rmOf : Nat → Rm | 0 => .mode | 1 => .rne | 2 => .rz | 3 => .ru | 4 => .rd | 5 => .rna | 6 => .rsr | _ => .rodd
/-- The value of RM. -/
def Rm.code : Rm → Nat | .mode => 0 | .rne => 1 | .rz => 2 | .ru => 3 | .rd => 4 | .rna => 5 | .rsr => 6 | .rodd => 7
/-- The conditions of R87, R91 and R105. -/
def ccOf : Nat → Cc | 0 => .eq | 1 => .ne | 2 => .lt | 3 => .le | 4 => .gt | 5 => .ge | 6 => .c6 | _ => .c7
/-- The code of a condition. -/
def Cc.code : Cc → Nat | .eq => 0 | .ne => 1 | .lt => 2 | .le => 3 | .gt => 4 | .ge => 5 | .c6 => 6 | .c7 => 7
/-- The scopes of Table 7.8; 6 and 7 raise "reserved operand" (R198). -/
def rdScope (n : Nat) : Rd Scope :=
  match n with
  | 0 => .of .grp | 1 => .of .wg | 2 => .of .nbr | 3 => .of .dev | 4 => .of .dom | 5 => .of .sys
  | _ => ⟨.grp, [illOperand], []⟩
/-- The code of a scope. -/
def Scope.code : Scope → Nat | .grp => 0 | .wg => 1 | .nbr => 2 | .dev => 3 | .dom => 4 | .sys => 5
/-- The width codes of R131. -/
def rdWidth (n : Nat) : Rd Width :=
  match n with
  | 1 => .of .w2 | 2 => .of .w4 | 3 => .of .w8 | 4 => .of .w16 | 5 => .of .w32 | _ => ⟨.w32, [illOperand], []⟩
/-- The code of a width. -/
def Width.code : Width → Nat | .w2 => 1 | .w4 => 2 | .w8 => 3 | .w16 => 4 | .w32 => 5

/-- An integer type of an atomic operation, or a floating-point one (Table 8.3). -/
def aopIF (i : IntTy → Aop) (g : FltTy → Aop) (ty : Nat) : Option Aop :=
  if ty < 13 then (intTyOf ty).map i else (fltTyOf ty).map g
/-- An atomic operation by AOP and type (Table 8.3); the outer level is whether AOP is listed. -/
def aopOf (aop ty : Nat) : Option (Option Aop) :=
  match aop with
  | 0 => some (aopIF .addI .addF ty)
  | 1 => some ((intTyOf ty).map .sub)
  | 2 => some (aopIF .minI .minF ty)
  | 3 => some (aopIF .maxI .maxF ty)
  | 4 => some ((bitTyOf ty).map .and)
  | 5 => some ((bitTyOf ty).map .or)
  | 6 => some ((bitTyOf ty).map .xor)
  | 7 => some ((winTyOf ty).map .exch)
  | 8 => some ((winTyOf ty).map .cas)
  | 9 => some (if ty = 11 then some .inc else none)
  | 10 => some (if ty = 11 then some .dec else none)
  | _ => none
/-- AOP and type code of an atomic operation (Table 8.3). -/
def Aop.code : Aop → Nat × Nat
  | .addI t => (0, t.code) | .addF t => (0, t.code) | .sub t => (1, t.code)
  | .minI t => (2, t.code) | .minF t => (2, t.code) | .maxI t => (3, t.code) | .maxF t => (3, t.code)
  | .and t => (4, t.code) | .or t => (5, t.code) | .xor t => (6, t.code)
  | .exch t => (7, t.code) | .cas t => (8, t.code) | .inc => (9, 11) | .dec => (10, 11)
/-- Whether the operation is .cas. -/
def Aop.isCas : Aop → Bool | .cas _ => true | _ => false

/-- The guard, transient and reuse bits; `trn` is whether the entry accepts TRN (R32). -/
def rdCtl (f : FWord) (trn : Bool) : Rd Ctl :=
  ⟨⟨Fin.ofNat 64 f.gp, f.gn == 1, f.trn == 1, f.ruse == 1⟩, if f.trn == 1 && !trn then [illTransient] else [], []⟩

/-- A field that must name a register, the first of `cnt`, aligned to `al` (R67, R14, R83). -/
def rdReg (kind : UseKind) (v cnt al : Nat) : Rd VReg :=
  if v < 224 then ⟨Fin.ofNat 224 v, if v % al == 0 then [] else [illMispair], [⟨kind, v, cnt⟩]⟩ else ⟨0, [illOperand], [⟨kind, v, cnt⟩]⟩

/-- A field that names a global base: a pair when even, else one register (R204). -/
def rdBase (v : Nat) : Rd VReg := rdReg .src v (if v % 2 == 0 then 2 else 1) 1

/-- A source field of `cnt` registers (Table 3.4); `nc`: no constant (R68); `win`: a window is legal here (R69). -/
def rdSrc (v sc cnt : Nat) (nc win : Bool) : Rd Src :=
  if v < 224 then ⟨.reg (Fin.ofNat 224 v), if v % cnt == 0 then [] else [illMispair], [⟨.src, v, cnt⟩]⟩
  else if v < 240 then ⟨.const (Fin.ofNat 16 (v - 224)), if nc then [illOperand] else [], [⟨.src, v, 0⟩]⟩
  else if v < 248 then ⟨.reg 0, [illOperand], [⟨.src, v, 0⟩]⟩
  else ⟨.win (Fin.ofNat 8 (v - 248)) (BitVec.ofNat 8 sc),
    if !win then [illParam] else if cnt != 1 && sc % 2 == 1 then [illMispair] else [], [⟨.src, v, 0⟩]⟩

/-- The immediate of bits [37:22] (R70). -/
def immOf (f : FWord) : BitVec 16 := BitVec.ofNat 16 (f.sb * 256 + f.sc)

/-- Source B, or the immediate that replaces it. -/
def rdSrcB (f : FWord) (imm : Bool) (cnt : Nat) (nc win : Bool) : Rd Src :=
  if imm then .of (.imm (immOf f)) else rdSrc f.sb f.sc cnt nc win

/-- MOD.I (R66). -/
def FWord.i (f : FWord) : Bool := f.md.testBit 6
/-- MOD bit `n`. -/
def FWord.b (f : FWord) (n : Nat) : Bool := f.md.testBit n
/-- The type field MOD[4:0]. -/
def FWord.ty (f : FWord) : Nat := f.md % 32

/-- The checks on MOD, RM and FSL that hold for arithmetic, control and system entries (R66, R81, R118, R131). -/
def Rd.plain {α : Type} (x : Rd α) (f : FWord) (mask : Nat) (rm slot : Bool) : Rd α :=
  ((x.check (f.md &&& (127 - mask) == 0) illReserved).check rm illRounding).check (slot || f.fsl == 0) illUnused

/-- Checks that a field is zero (R66). -/
def Rd.zero {α : Type} (x : Rd α) (v : Nat) : Rd α := x.check (v == 0) illUnused

/-- The shape `d, a, b` of a two-source instruction, with `ca` and `cb` registers in its sources. -/
def rdAB {α : Type} (f : FWord) (imm : Bool) (ca cb : Nat) (nc : Bool) (k : Rd (Src → Src → α)) : Rd α :=
  let w := !imm && !(248 ≤ f.sa && 248 ≤ f.sb)
  ((k.ap (rdSrc f.sa f.sc ca nc w)).ap (rdSrcB f imm cb nc w)).check (imm || 248 ≤ f.sa || 248 ≤ f.sb || f.sc == 0) illUnused

/-- The shape `d, b` of a one-source instruction: SA unused. -/
def rdB {α : Type} (f : FWord) (cb : Nat) (nc : Bool) (k : Rd (Src → α)) : Rd α :=
  ((k.ap (rdSrc f.sb f.sc cb nc true)).zero f.sa).check (248 ≤ f.sb || f.sc == 0) illUnused

/-- The shape `d, a` of an instruction whose source is SA and whose SB is unused. -/
def rdA {α : Type} (f : FWord) (ca : Nat) (nc : Bool) (k : Rd (Src → α)) : Rd α :=
  ((k.ap (rdSrc f.sa f.sc ca nc true)).zero f.sb).check (248 ≤ f.sa || f.sc == 0) illUnused

/-- The shape `d, a, b, c`: no window (R69). -/
def rdABC {α : Type} (f : FWord) (ca cb cc : Nat) (k : Rd (Src → Src → Src → α)) : Rd α :=
  ((k.ap (rdSrc f.sa f.sc ca false false)).ap (rdSrc f.sb f.sc cb false false)).ap (rdSrc f.sc f.sc cc false false)

/-- Guard bits and destination register of an instruction that writes `cd` registers. -/
def rdCD {α : Type} (f : FWord) (trn : Bool) (cd : Nat) (k : Ctl → VReg → α) : Rd α :=
  ((Rd.of k).ap (rdCtl f trn)).ap (rdReg .dst f.dst cd cd)

/-- An index field with values below `n` (R67). -/
def rdIdx (v n : Nat) [NeZero n] : Rd (Fin n) := ⟨Fin.ofNat n v, if v < n then [] else [illOperand], []⟩

/-- Arithmetic and logic, 0x000 to 0x023 (Table 4.1). DESIGN CHOICE (25): the shift amount of a 64-bit shift, b of a 64-bit BFE and
c of BFI are one 32-bit register of any number, with no pair check. -/
def decodeInt (f : FWord) : Rd Instr :=
  let rm0 := f.rm == 0
  let ti := rdTable intTyOf .s32 f.ty
  let tb := rdTable bitTyOf .b32 f.ty
  let binI (k : IntTy → Ctl → VReg → Src → Src → Instr) (mask : Nat) : Rd Instr :=
    (ti.andThen fun t => rdAB f f.i t.regs t.regs false (rdCD f true t.regs (k t))).plain f mask rm0 false
  let binB (k : BitTy → Ctl → VReg → Src → Src → Instr) (one : Bool) : Rd Instr :=
    (tb.andThen fun t => rdAB f f.i t.regs (if one then 1 else t.regs) false (rdCD f true t.regs (k t))).plain f 95 rm0 false
  let unB (k : BitTy → Ctl → VReg → Src → Instr) (one : Bool) : Rd Instr :=
    (tb.andThen fun t => rdB f t.regs false (rdCD f true (if one then 1 else t.regs) (k t))).plain f 31 rm0 false
  let sat := f.b 5
  let pred2 (k : Ctl → Bool → Bool → Pred → Pred → Pred → Instr) : Rd Instr :=
    ((((((Rd.k4 fun c => k c (f.b 0) (f.b 1)).ap (rdCtl f false)).ap (rdIdx f.dst 64)).ap (rdIdx f.sa 64)).ap
      (rdIdx f.sb 64)).zero f.sc).plain f 3 rm0 false
  let pred1 (k : Ctl → Pred → Pred → Instr) : Rd Instr :=
    (((((Rd.of k).ap (rdCtl f false)).ap (rdIdx f.dst 64)).ap (rdIdx f.sb 64)).zero f.sa |>.zero f.sc).plain f 0 rm0 false
  match f.opc with
  | 0x000 => binI (fun t c => .iadd c sat t) 127
  | 0x001 => binI (fun t c => .isub c sat t) 127
  | 0x002 => binI (fun t c => .imul c t) 95
  | 0x003 => binI (fun t c => .imulhi c t) 95
  | 0x004 => (ti.andThen fun t => rdABC f t.regs t.regs t.regs (rdCD f true t.regs fun c => .imad c t)).plain f 31 rm0 false
  | 0x005 => ((rdTable sgOf true f.ty).andThen fun s => rdABC f 1 1 2 (rdCD f true 2 fun c => .imadw c s)).plain f 31 rm0 false
  | 0x006 => binI (fun t c => .imin c t) 95
  | 0x007 => binI (fun t c => .imax c t) 95
  | 0x008 => ((rdTable s64Of false f.ty).andThen fun w =>
      rdB f (if w then 2 else 1) false (rdCD f true (if w then 2 else 1) fun c => .iabs c sat w)).plain f 63 rm0 false
  | 0x009 => ((rdTable s64Of false f.ty).andThen fun w =>
      rdB f (if w then 2 else 1) false (rdCD f true (if w then 2 else 1) fun c => .ineg c sat w)).plain f 63 rm0 false
  | 0x00A => binB (fun t c => .shl c t) true
  | 0x00B => binB (fun t c => .shr c t) true
  | 0x00C => binB (fun t c => .sar c t) true
  | 0x00D => binB (fun t c => .rot c t) true
  | 0x00E => (ti.andThen fun t => rdAB f f.i t.regs 1 false (rdCD f true t.regs fun c => .bfe c t)).plain f 95 rm0 false
  | 0x00F => (tb.andThen fun t => rdABC f t.regs t.regs 1 (rdCD f true t.regs fun c => .bfi c t)).plain f 31 rm0 false
  | 0x010 => unB (fun t c => .popc c t) true
  | 0x011 => unB (fun t c => .clz c t) true
  | 0x012 => unB (fun t c => .ctz c t) true
  | 0x013 => unB (fun t c => .brev c t) false
  | 0x014 => ((rdABC f 1 1 1 (rdCD f true 1 fun c => .permb c)).check (f.ty == 0) illType).plain f 31 rm0 false
  | 0x015 => binB (fun t c => .and c t) false
  | 0x016 => binB (fun t c => .or c t) false
  | 0x017 => binB (fun t c => .xor c t) false
  | 0x018 => unB (fun t c => .not c t) false
  | 0x019 => binB (fun t c => .andn c t) false
  | 0x01A => (tb.andThen fun t => (((rdCD f true t.regs fun c d => .sel c t d).ap (rdSrc f.sa f.sc t.regs false false)).ap
      (rdSrc f.sb f.sc t.regs false false)).ap (rdIdx f.sc 64)).plain f 31 rm0 false
  | 0x01B => ((rdTable sgOf true f.ty).andThen fun s => (((rdCD f true 2 fun c d => .addr c s d).ap
      (rdSrc f.sa f.sc 2 false false)).ap (rdSrc f.sb f.sc 1 false false)).ap (rdIdx f.sc 8)).plain f 31 rm0 false
  | 0x01C => ((rdTable cmpTyOf (.bit .b32) f.ty).andThen fun t =>
      rdAB f f.i t.regs t.regs false (((Rd.k4 fun c p => .cmp c (ccOf f.rm) t p).ap (rdCtl f false)).ap (rdIdx f.dst 64))).plain f 95 true false
  | 0x01D => pred2 .pand
  | 0x01E => pred2 .por
  | 0x01F => pred2 .pxor
  | 0x020 => pred1 .pnot
  | 0x021 => pred1 .pmov
  | 0x022 => unB (fun t c => .mov c t) false
  | _ => (((rdTable (moviTyOf (f.b 5)) .b32 f.ty).andThen fun t =>
      ((rdCD f true 1 fun c d => .movi c t d (immOf f)).uses (if t = .h then [⟨.dstRead, f.dst, 1⟩] else [])).zero f.sa).check
        f.i illType).plain f 127 rm0 false

/-- Floating-point arithmetic and conversions, 0x080 to 0x09F (Tables 4.3, 4.4; R100). DESIGN CHOICE (26): a nonzero SC[7:5] of FCVT,
FCVTI and ICVTF is "reserved bits" (0x03). -/
def decodeFlt (f : FWord) : Rd Instr :=
  let rm := rmOf f.rm
  let rm0 := f.rm == 0
  let tf := rdTable fltTyOf .f32 f.ty
  let th := rdTable hlfTyOf .f16 f.ty
  let bin (k : FltTy → Ctl → VReg → Src → Src → Instr) (imm : Bool) (mask : Nat) (rmOk : Bool) : Rd Instr :=
    (tf.andThen fun t => rdAB f imm t.regs t.regs false (rdCD f true t.regs (k t))).plain f mask rmOk false
  let un (k : FltTy → Ctl → VReg → Src → Instr) (rmOk : Bool) : Rd Instr :=
    (tf.andThen fun t => rdB f t.regs false (rdCD f true t.regs (k t))).plain f 31 rmOk false
  let hbin (k : HlfTy → Ctl → VReg → Src → Src → Instr) (rmOk : Bool) : Rd Instr :=
    (th.andThen fun t => rdAB f f.i 1 1 false (rdCD f true 1 (k t))).plain f 95 rmOk false
  let sfu (k : Ctl → VReg → Src → Instr) : Rd Instr :=
    ((rdB f 1 false (rdCD f true 1 k)).check (f.ty == 15) illType).plain f 31 rm0 false
  let cvt {α β : Type} (td : Rd α) (ts : Rd β) (wd : α → Nat) (ws : β → Nat) (nc : β → Bool)
      (k : α → β → Ctl → VReg → Src → Instr) (mask : Nat) (rmOk : Bool) : Rd Instr :=
    ((td.andThen fun d => ts.andThen fun s => ((rdCD f true (wd d) (k d s)).ap (rdSrc f.sb f.sc (ws s) (nc s) false)).zero f.sa).check
      (f.sc / 32 == 0) illReserved).plain f mask rmOk false
  let sat := f.b 5
  match f.opc with
  | 0x080 => bin (fun t c => .fadd c rm t) f.i 95 true
  | 0x081 => bin (fun t c => .fsub c rm t) f.i 95 true
  | 0x082 => bin (fun t c => .fmul c rm t) f.i 95 true
  | 0x083 => bin (fun t c => .fdiv c rm t) false 31 true
  | 0x084 => (tf.andThen fun t => rdABC f t.regs t.regs t.regs (rdCD f true t.regs fun c => .ffma c rm t)).plain f 31 true false
  | 0x085 => bin (fun t c => .fmin c t) f.i 95 rm0
  | 0x086 => bin (fun t c => .fmax c t) f.i 95 rm0
  | 0x087 => un (fun t c => .fabs c t) rm0
  | 0x088 => un (fun t c => .fneg c t) rm0
  | 0x089 => (tf.andThen fun t => rdAB f f.i t.regs t.regs false
      (((Rd.k4 fun c p => .fcmp c (ccOf f.rm) t p).ap (rdCtl f false)).ap (rdIdx f.dst 64))).plain f 95 true false
  | 0x08A => ((rdTable fmtOf .f32 f.ty).andThen fun t =>
      let w := !f.i && !(248 ≤ f.sa && 248 ≤ f.sb)
      (((((Rd.k4 fun c p => .fclass c t p).ap (rdCtl f false)).ap (rdIdx f.dst 64)).ap
        (rdSrc f.sa f.sc t.regs t.noConst w)).ap (rdSrcB f f.i 1 false w)).check
        (f.i || 248 ≤ f.sa || 248 ≤ f.sb || f.sc == 0) illUnused).plain f 95 rm0 false
  | 0x08B => un (fun t c => .frnd c rm t) (f.rm < 6)
  | 0x08C => (tf.andThen fun t => rdAB f f.i t.regs 1 false (rdCD f true t.regs fun c => .fscale c rm t)).plain f 95 true false
  | 0x08D => (th.andThen fun t => rdABC f 1 1 1 (rdCD f true 1 fun c => .fdot2 c rm t)).plain f 31 true false
  | 0x08E => hbin (fun t c => .fadd2 c rm t) true
  | 0x08F => hbin (fun t c => .fmul2 c rm t) true
  | 0x090 => (th.andThen fun t => rdABC f 1 1 1 (rdCD f true 1 fun c => .ffma2 c rm t)).plain f 31 true false
  | 0x091 => hbin (fun t c => .fmin2 c t) rm0
  | 0x092 => hbin (fun t c => .fmax2 c t) rm0
  | 0x093 => cvt (rdTable fmtOf .f32 f.ty) (rdTable fmtOf .f32 (f.sc % 32)) Fmt.regs Fmt.regs Fmt.noConst
      (fun d s c => .fcvt c rm sat d s) 63 true
  | 0x094 => cvt (rdTable cvtIntOf .s32 f.ty) (rdTable fmtWideOf .f32 (f.sc % 32)) CvtInt.regs Fmt.regs Fmt.noConst
      (fun d s c => .fcvti c rm d s) 31 (f.rm < 7)
  | 0x095 => cvt (rdTable fmtOf .f32 f.ty) (rdTable cvtIntOf .s32 (f.sc % 32)) Fmt.regs CvtInt.regs (fun _ => false)
      (fun d s c => .icvtf c rm sat d s) 63 true
  | 0x096 => ((((((rdCD f false 1 fun c d => .cvtq c rm (Fin.ofNat 8 f.fsl) d).ap (rdReg .src f.sa 1 1)).ap
      (rdSrcB f f.i 1 false (!f.i))).check (f.i || 248 ≤ f.sb || f.sc == 0) illUnused).check (f.ty == 15) illType)).plain f 95 true true
  | 0x097 => ((rdAB f f.i 1 1 false (rdCD f false 1 fun c d => .cvtdq c rm (Fin.ofNat 8 f.fsl) d)).check
      (f.ty == 15) illType).plain f 95 true true
  | 0x098 => sfu .frcp
  | 0x099 => sfu .frsq
  | 0x09A => un (fun t c => .fsqrt c rm t) true
  | 0x09B => sfu .fexp2
  | 0x09C => sfu .flog2
  | 0x09D => sfu .fsin
  | 0x09E => sfu .fcos
  | _ => sfu .ftanh

/-- Significance, mode, random, tree-walk and top-k instructions, 0x100 to 0x10B (Table 4.7; R94, R108 to R113). -/
def decodeSig (f : FWord) : Rd Instr :=
  let rm0 := f.rm == 0
  let tb := rdTable bitTyOf .b32 f.ty
  let ts := rdTable sigTyOf (.bit .b32) f.ty
  let k8 : Fin 8 := Fin.ofNat 8 f.md
  match f.opc with
  | 0x100 => (ts.andThen fun t => rdB f t.regs t.noConst (rdCD f true 1 fun c => .sigget c t)).plain f 31 rm0 false
  | 0x101 => (tb.andThen fun t => rdAB f f.i t.regs 1 false (rdCD f true t.regs fun c => .sigset c t)).plain f 95 rm0 false
  | 0x102 => (tb.andThen fun t => rdAB f false t.regs 1 false (rdCD f true t.regs fun c => .sigmin c t)).plain f 31 rm0 false
  | 0x103 => (ts.andThen fun t =>
      let none := 6 ≤ f.rm
      let w := !f.i && !(248 ≤ f.sa && 248 ≤ f.sb)
      ((((((Rd.k4 fun c p => .sigcmp c (ccOf f.rm) t p).ap (rdCtl f false)).ap (rdIdx f.dst 64)).ap
        (rdSrc f.sa f.sc t.regs t.noConst w)).ap
        (if none then .of (.reg 0) else rdSrcB f f.i 1 false w)).check (!none || (!f.i && f.sb == 0)) illUnused).check
        (f.i || 248 ≤ f.sa || 248 ≤ f.sb || f.sc == 0) illUnused).plain f 95 true false
  | 0x104 => ((((rdCD f true 1 fun c d (s : Fin 2) => .moderd c d (s == 1)).ap (rdIdx f.sb 2)).zero f.sa).zero f.sc).plain f 0 rm0 false
  | 0x105 => (rdAB f f.i 1 1 false (((Rd.k4 fun c (s : Fin 2) => .modewr c (s == 1)).ap (rdCtl f false)).ap
      (rdIdx f.dst 2))).plain f 64 rm0 false
  | 0x106 => (((((rdCD f false 4 fun c d => .philox c d).ap (rdReg .src f.sa 4 4)).ap (rdReg .src f.sb 2 2)).zero f.sc).check
      (f.ty == 2) illType).plain f 31 rm0 false
  | 0x107 => (((rdTable fltTyOf .f32 f.ty).andThen fun t => ((rdCD f false 4 fun c d => .philoxf c t d).ap
      (rdReg .src f.sa 4 4)).ap (rdReg .src f.sb 2 2)).zero f.sc).plain f 31 rm0 false
  | 0x108 => ((((rdCD f false 1 fun c d => .twalk c (f.b 6) (Fin.ofNat 8 (f.md / 8)) k8 d).ap
      (rdSrc f.sa f.sc 1 false false)).ap (rdReg .src f.sb 1 1)).zero f.sc).plain f 127 rm0 false
  | 0x109 => (rdAB f false 1 1 false ((((Rd.k4 fun c d => .topkins c (f.b 3) k8 d).ap (rdCtl f false)).ap
      (rdReg .dst f.dst (2 * (k8.val + 1)) 1)).uses [⟨.dstRead, f.dst, 2 * (k8.val + 1)⟩])).plain f 15 rm0 false
  | 0x10A => (((((((Rd.k3 fun c d => .topkmrg c (f.b 3) k8 d).ap (rdCtl f false)).ap (rdReg .dst f.dst (2 * (k8.val + 1)) 1)).uses
      [⟨.dstRead, f.dst, 2 * (k8.val + 1)⟩]).ap (rdReg .src f.sa (2 * (k8.val + 1)) 1)).zero f.sb).zero f.sc).plain f 15 rm0 false
  | _ => ((rdB f 1 false (rdCD f true 1 fun c d => .scalemax c (f.b 5) (Fin.ofNat 8 f.fsl) d)).check (f.ty == 15) illType).plain
      f 63 rm0 true

/-- Control instructions, 0x140 to 0x150 (Table 5.1). -/
def decodeCtl (f : FWord) : Rd Instr :=
  let rm0 := f.rm == 0
  let c := rdCtl f false
  let off := immOf f
  let always (r : Rd Instr) (mask : Nat) : Rd Instr := (r.check f.i illReserved).plain f (64 ||| mask) rm0 false
  let bare (k : Ctl → Instr) : Rd Instr := (((((Rd.of k).ap c).zero f.dst).zero f.sa).zero f.sb |>.zero f.sc).plain f 0 rm0 false
  let k16 : Fin 16 := Fin.ofNat 16 f.md
  match f.opc with
  | 0x140 => always ((((Rd.k1 fun c => .bra c off).ap c).zero f.dst).zero f.sa) 0
  | 0x141 => always ((((Rd.k1 fun c => .brau c off).ap c).zero f.dst).zero f.sa) 0
  | 0x142 => (((((Rd.k2 fun c b => .brx c b).ap c).ap (rdReg .src f.sb 2 2)).zero f.dst).zero f.sa |>.zero f.sc).plain f 0 rm0 false
  | 0x143 =>
    if f.i then ((rdCD f false 2 fun c d => .call c d off).zero f.sa).plain f 64 rm0 false
    else (((rdCD f false 2 fun c d => .callReg c d).ap (rdReg .src f.sb 2 2)).zero f.sa |>.zero f.sc).plain f 64 rm0 false
  | 0x144 => (((((Rd.k2 fun c b => .ret c b).ap c).ap (rdReg .src f.sb 2 2)).zero f.dst).zero f.sa |>.zero f.sc).plain f 0 rm0 false
  | 0x145 => always ((((Rd.k2 fun c n => .join c k16 n off).ap c).ap (rdReg .named f.dst 1 1)).zero f.sa) 15
  | 0x146 => (((((Rd.k1 fun c => .waitj c k16 (if f.i then some off else none)).ap c).zero f.dst).zero f.sa).check
      (f.i || (f.sb == 0 && f.sc == 0)) illUnused).plain f 79 rm0 false
  | 0x147 =>
    if f.i then ((((Rd.k1 fun c => .repImm c off).ap c).zero f.dst).zero f.sa).plain f 64 rm0 false
    else (((rdB f 1 false ((Rd.k2 fun c b => .rep c b).ap c)).zero f.dst).zero f.sc).plain f 64 rm0 false
  | 0x148 => always (((rdCD f false 1 fun c d => .loop c d off).uses [⟨.dstRead, f.dst, 1⟩]).zero f.sa) 0
  | 0x149 => bare .exit
  | 0x14A => always ((((Rd.k1 fun c => .trap c off).ap c).zero f.dst).zero f.sa) 0
  | 0x14B => bare .bpt
  | 0x14C => bare .yield
  | 0x14D => bare .nop
  | 0x14E => always ((rdTable fmtOf .f32 f.ty).andThen fun t =>
      (((Rd.k2 fun c a => .bsig c (f.b 5) t (if f.dst == 63 then none else some (Fin.ofNat 54 f.dst)) a off).ap c).ap
        (rdSrc f.sa f.sc t.regs t.noConst false)).check (f.dst < 54 || f.dst == 63) illOperand) 63
  | 0x14F => always ((((Rd.k2 fun c p => .bany c p off).ap c).ap (rdIdx f.dst 64)).zero f.sa) 0
  | _ => always ((((Rd.k2 fun c p => .ball c p off).ap c).ap (rdIdx f.dst 64)).zero f.sa) 0

/-- Cross-lane, regroup and inspection instructions, 0x180 to 0x197 (Table 5.4). -/
def decodeXl (f : FWord) : Rd Instr :=
  let rm0 := f.rm == 0
  let c := rdCtl f false
  let tb := rdTable bitTyOf .b32 f.ty
  let shf (k : BitTy → Width → Ctl → VReg → Src → Src → Instr) : Rd Instr :=
    (tb.andThen fun t => (rdWidth f.sc).andThen fun w =>
      (((rdCD f false t.regs (k t w)).ap (rdSrc f.sa f.sc t.regs false false)).ap (rdSrc f.sb f.sc 1 false false)).check
        (224 ≤ f.sb || f.sb % t.regs == 0) illMispair).plain f 31 rm0 false
  let vote (k : Ctl → Bool → Pred → Pred → Instr) : Rd Instr :=
    (((((Rd.k3 fun c => k c (f.b 0)).ap c).ap (rdIdx f.dst 64)).ap (rdIdx f.sa 64)).zero f.sb |>.zero f.sc).plain f 1 rm0 false
  let red {α : Type} (ty : Rd α) (w : α → Nat) (k : α → Width → Ctl → VReg → Src → Instr) (mask : Nat) (rmOk : α → Bool) : Rd Instr :=
    ((ty.andThen fun t => (rdWidth f.sc).andThen fun wd =>
      (((rdCD f false (w t) (k t wd)).ap (rdSrc f.sa f.sc (w t) false false)).check (rmOk t) illRounding)).zero f.sb).plain f mask true false
  let quad (k : BitTy → Ctl → VReg → Src → Instr) : Rd Instr :=
    ((tb.andThen fun t => rdA f t.regs false (rdCD f false t.regs (k t))).zero f.sc).plain f 31 rm0 false
  let noStoch := f.rm != 6
  match f.opc with
  | 0x180 => shf fun t w c => .shfl c t w
  | 0x181 => shf fun t w c => .shflup c t w
  | 0x182 => shf fun t w c => .shfldn c t w
  | 0x183 => shf fun t w c => .shflx c t w
  | 0x184 => vote .voteany
  | 0x185 => vote .voteall
  | 0x186 => ((tb.andThen fun t => rdA f t.regs false (((Rd.k3 fun c p => .voteuni c t p).ap c).ap (rdIdx f.dst 64))).zero f.sc).plain f 31 rm0 false
  | 0x187 => ((((rdCD f false 1 fun c d => .ballot c (f.b 0) d).ap (rdIdx f.sa 64)).zero f.sb).zero f.sc).plain f 1 rm0 false
  | 0x188 => ((tb.andThen fun t => rdA f t.regs false (rdCD f false 1 fun c => .matchLanes c t)).zero f.sc).plain f 31 rm0 false
  | 0x189 => red (rdTable intTyOf .s32 f.ty) IntTy.regs (fun t w c => .redadd c t w) 31 (fun _ => rm0)
  | 0x18A => red (rdTable fltTyOf .f32 f.ty) FltTy.regs (fun t w c => .redfadd c (rmOf f.rm) t w) 31 (fun _ => noStoch)
  | 0x18B => red (rdTable redTyOf (.int .s32) f.ty) RedTy.regs (fun t w c => .redmin c t w) 31 (fun _ => rm0)
  | 0x18C => red (rdTable redTyOf (.int .s32) f.ty) RedTy.regs (fun t w c => .redmax c t w) 31 (fun _ => rm0)
  | 0x18D => red (rdTable redTyOf (.int .s32) f.ty) RedTy.regs (fun t w c => .scanadd c (f.b 5) (rmOf f.rm) t w) 63
      (fun t => match t with | .int _ => rm0 | .flt _ => noStoch)
  | 0x18E => quad fun t c => .qswph c t
  | 0x18F => quad fun t c => .qswpv c t
  | 0x190 => quad fun t c => .qswpd c t
  | 0x191 => (tb.andThen fun t => (((rdCD f false t.regs fun c d => .qbcast c t d).ap (rdSrc f.sa f.sc t.regs false true)).ap
      (rdIdx f.sb 4)).zero f.sc).plain f 31 rm0 false
  | 0x192 => ((((rdA f 1 false ((Rd.k2 fun c a => .regroup c a).ap c)).zero f.dst).zero f.sc).check (f.ty == 11) illType).plain f 31 rm0 false
  | 0x193 => (((((Rd.k1 .ungroup).ap c).zero f.dst).zero f.sa).zero f.sb |>.zero f.sc).plain f 0 rm0 false
  | 0x194 => ((((rdCD f false 1 fun c d => .grpinfo c d).ap (rdIdx f.sb 4)).zero f.sa).zero f.sc).plain f 0 rm0 false
  | 0x195 => ((((rdCD f false 1 fun c d => .rdspec c d).ap ⟨Fin.ofNat 22 f.sb, if f.sb < 22 then [] else [illSpecial], []⟩).zero
      f.sa).zero f.sc).plain f 0 rm0 false
  | 0x196 => ((rdB f 1 false (rdCD f true 1 fun c d => .shape c d)).zero f.sc).plain f 0 rm0 false
  | _ => ((tb.andThen fun t => rdB f t.regs false (rdCD f true t.regs fun c => .movg c t)).zero f.sc).plain f 31 rm0 false

/-- The checks of R198 on bits [14:9] and MOD. -/
def Rd.mem {α : Type} (x : Rd α) (f : FWord) (rm fsl : Bool) (mask : Nat) : Rd α :=
  (x.check (rm && fsl) illReserved).check (f.md &&& (127 - mask) == 0) illReserved

/-- The offset of a memory operand (R204). -/
def rdOff {α : Type} (f : FWord) (k : Rd (Off → α)) : Rd α :=
  if f.i then k.ap (.of (.imm (immOf f))) else (k.ap ((rdReg .src f.sb 1 1).map Off.reg)).zero f.sc

/-- An optional immediate beside a register operand: SB and SC are zero without it. -/
def rdImm? {α : Type} (f : FWord) (k : Rd (Option (BitVec 16) → α)) : Rd α :=
  (k.ap (.of (if f.i then some (immOf f) else none))).check (f.i || (f.sb == 0 && f.sc == 0)) illUnused

/-- A space of COPY (R222). -/
def rdSpace (n : Nat) : Rd CpSpace :=
  match n with | 0 => .of .g | 1 => .of .s | _ => ⟨.g, [illReserved], []⟩
/-- The code of a space of COPY. -/
def CpSpace.code : CpSpace → Nat | .g => 0 | .s => 1
/-- The CP field of LD (Table 8.1). -/
def ldCpOf : Nat → LdCp | 0 => .none | 1 => .home | _ => .ef
/-- The code of the CP field. -/
def LdCp.code : LdCp → Nat | .none => 0 | .home => 1 | .ef => 2
/-- The fragment of MLDF (Table 9.1). -/
def fragOf : Nat → FragSel | 0 => .a | 1 => .b | _ => .c
/-- The code of a fragment. -/
def FragSel.code : FragSel → Nat | .a => 0 | .b => 1 | .c => 2
/-- The kind of MRESUME (Table 9.1). -/
def passKindOf : Nat → PassKind | 0 => .dense | 1 => .sparse | 2 => .xor | _ => .and
/-- The code of a pass kind. -/
def PassKind.code : PassKind → Nat | .dense => 0 | .sparse => 1 | .xor => 2 | .and => 3

/-- Loads, stores, gathers, atomics and cache control, 0x1C0 to 0x1CB (Table 8.1). -/
def decodeMem (f : FWord) : Rd Instr :=
  let c := rdCtl f false
  let F := f.b 5
  let rm0 := f.rm == 0
  let fs0 := f.fsl == 0
  let rA := rdReg .src f.sa 1 1
  let rG := rdBase f.sa
  let rB := rdReg .src f.sb 1 1
  let bit2 := 4 ≤ f.fsl
  let low1 := f.fsl % 4 == 0
  let gath (k : Ctl → Bool → BitTy → VReg → VReg → VReg → Bool → Fin 5 → Instr) (kind : UseKind) : Rd Instr :=
    ((rdTable bitTyOf .b32 f.ty).andThen fun t =>
      ((((((Rd.k4 fun c d a b => k c F t d a b (f.sc.testBit 3) (Fin.ofNat 5 (f.sc % 8))).ap c).ap
        (rdReg kind f.dst t.regs t.regs)).ap rG).ap rB).check (f.sc < 16 && f.sc % 8 < 5) illOperand)).mem f rm0 fs0 63
  let atm (rA : Rd VReg) (k : Aop → Ctl → VReg → VReg → VReg → Option VReg → Instr) : Rd Instr :=
    match aopOf (f.rm * 8 + f.fsl) f.ty with
    | none => ((Rd.k1 fun c => k .inc c 0 0 0 none).ap c).check false illReserved |>.mem f true true 63
    | some none => ((Rd.k1 fun c => k .inc c 0 0 0 none).ap c).check false illType |>.uses [⟨.src, f.sa, 1⟩]
        |>.check (f.rm * 8 + f.fsl == 8 || f.sc == 0) illUnused |>.mem f true true 63
    | some (some op) =>
      let r := (((Rd.k5 (fun c d a b => k op c d a b)).ap c |>.ap (rdReg .dst f.dst op.regs op.regs)).ap rA).ap
        (rdReg .src f.sb op.regs op.regs)
      (if op.isCas then r.ap ((rdReg .src f.sc op.regs op.regs).map some) else (r.ap (.of none)).zero f.sc).mem f true true 63
  match f.opc with
  | 0x1C0 => ((rdTable ldTyOf .b32 f.ty).andThen fun t => rdOff f
      ((((Rd.k4 fun c d a => .ld c F bit2 (ldCpOf (f.fsl % 4)) t d a).ap c).ap (rdReg .dst f.dst t.regs t.regs)).ap (if bit2 then rA else rG))).mem
        f rm0 (f.fsl % 4 < 3) 127
  | 0x1C1 => ((rdTable stTyOf .b32 f.ty).andThen fun t => rdOff f
      ((((Rd.k4 fun c d a => .st c F bit2 t d a).ap c).ap (rdReg .dstRead f.dst t.regs t.regs)).ap (if bit2 then rA else rG))).mem f rm0 low1 127
  | 0x1C2 => ((rdTable ldTyOf .b32 f.ty).andThen fun t =>
      (rdOff f ((((Rd.k4 fun c d a => .lds c F t d a).ap c).ap
        (if bit2 then (rdIdx f.dst 16).map Sum.inr else (rdReg .dst f.dst t.regs t.regs).map Sum.inl)).ap rA)).check
        (!bit2 || t == .b32) illType).mem f rm0 low1 127
  | 0x1C3 => ((rdTable stTyOf .b32 f.ty).andThen fun t =>
      (rdOff f ((((Rd.k4 fun c d a => .sts c F t d a).ap c).ap
        (if bit2 then (rdIdx f.dst 16).map Sum.inr else (rdReg .dstRead f.dst t.regs t.regs).map Sum.inl)).ap rA)).check
        (!bit2 || t == .b32) illType).mem f rm0 low1 127
  | 0x1C4 => ((rdTable winTyOf .b32 f.ty).andThen fun t => rdImm? f
      ((((Rd.k4 fun c d a => .ldp c t (Fin.ofNat 8 f.fsl) d a).ap c).ap (rdReg .dst f.dst t.regs t.regs)).ap rA)).mem f rm0 true 95
  | 0x1C5 => gath .gather .dst
  | 0x1C6 => gath .scatter .dstRead
  | 0x1C7 => atm rG fun op c d a b e => .atom c F op d a b e
  | 0x1C8 => match aopOf (f.rm * 8 + f.fsl) f.ty with
    | none => ((Rd.k1 fun c => .red c F .inc 0 0).ap c).check false illReserved |>.mem f true true 63
    | some none => ((Rd.k1 fun c => .red c F .inc 0 0).ap c).check false (if f.rm * 8 + f.fsl = 8 then illReserved else illType)
        |>.uses [⟨.src, f.sa, 1⟩] |>.zero f.dst |>.zero f.sc |>.mem f true true 63
    | some (some op) =>
      ((((((Rd.k3 fun c => .red c F op).ap c).ap rG).ap (rdReg .src f.sb op.regs op.regs)).zero f.dst).zero f.sc).mem f (!op.isCas) true 63
  | 0x1C9 => atm rA fun op c d a b e => .atoms c F op d a b e
  | 0x1CA => ((rdOff f (((Rd.k3 fun c a => .pref c (f.fsl == 1) a).ap c).ap rG)).zero f.dst).mem f rm0 (f.fsl < 2) 64
  | _ =>
    match f.rm with
    | 0 => ((rdOff f (((Rd.k3 fun c a => .cctlIvl c a).ap c).ap rG)).zero f.dst).mem f true fs0 64
    | 1 => ((((((Rd.k3 .cctlIvr).ap c).ap rG).ap rB).zero f.sc).zero f.dst).mem f true fs0 0
    | _ => ((((((Rd.k1 .cctlIva).ap c).zero f.sa).zero f.sb).zero f.sc).zero f.dst).mem f (f.rm == 2) fs0 0

/-- Objects, barriers, semaphores, engines and records, 0x1CC to 0x1E2 (Table 8.1). -/
def decodeSync (f : FWord) : Rd Instr :=
  let c := rdCtl f false
  let F := f.b 5
  let rm0 := f.rm == 0
  let fs0 := f.fsl == 0
  let rA := rdReg .src f.sa 1 1
  let rG := rdBase f.sa
  let rB := rdReg .src f.sb 1 1
  let n8 : BitVec 8 := BitVec.ofNat 8 f.sa
  let hB := rdIdx f.sb 16
  let zBC {α : Type} (r : Rd α) : Rd α := (r.zero f.sb).zero f.sc
  let rmReg (r : Rd Instr) (top mask : Nat) : Rd Instr := (r.zero f.dst).mem f (f.rm < top) fs0 mask
  match f.opc with
  | 0x1CC => ((rdScope f.rm).andThen fun sc => ((((Rd.k4 fun c a b e => .bind c F sc a b e).ap c).ap rG).ap
      (rdReg .src f.sb 2 2)).ap (rdReg .src f.sc 2 2)).zero f.dst |>.mem f true fs0 32
  | 0x1CD => ((rdScope f.rm).andThen fun sc =>
      if f.b 0 then (((((Rd.k4 fun c p a b => .acqGen c sc p a b).ap c).ap (rdIdx f.dst 64)).ap rG).ap rB).zero f.sc
      else zBC ((((Rd.k3 fun c p a => .acqLock c sc p a).ap c).ap (rdIdx f.dst 64)).ap rG)).mem f true fs0 1
  | 0x1CE => ((rdScope f.rm).andThen fun sc => zBC (((Rd.k2 fun c a => .rel c (f.b 0) sc a).ap c).ap rG)).zero f.dst
      |>.mem f true fs0 1
  | 0x1CF => ((rdScope f.rm).andThen fun sc => zBC (((Rd.k1 fun c => .fence c sc).ap c).zero f.sa)).zero f.dst |>.mem f true fs0 0
  | 0x1D0 => (zBC (((Rd.k1 fun c => .bar c (f.b 0)).ap c).zero f.sa)).zero f.dst |>.mem f rm0 fs0 1
  | 0x1D1 => (zBC (((Rd.k1 fun c => .nbar c (f.b 0)).ap c).zero f.sa)).zero f.dst |>.mem f rm0 fs0 1
  | 0x1D2 =>
    (if f.i then ((Rd.k1 fun c => .semincImm c F n8 (immOf f)).ap c)
      else ((Rd.k2 fun c b => .seminc c F n8 b).ap c |>.ap (rdSrc f.sb f.sc 1 false true)).check (248 ≤ f.sb || f.sc == 0) illUnused).zero
      f.dst |>.check (f.ty == 7) illType |>.mem f rm0 fs0 127
  | 0x1D3 =>
    (if f.i then ((Rd.k1 fun c => .semwaitImm c n8 (immOf f)).ap c)
      else ((Rd.k2 fun c b => .semwait c n8 b).ap c |>.ap (rdSrc f.sb f.sc 1 false true)).check (248 ≤ f.sb || f.sc == 0) illUnused).zero
      f.dst |>.check (f.ty == 11) illType |>.mem f rm0 fs0 95
  | 0x1D4 => (zBC (rdCD f false 1 fun c d => .semrd c F d n8)).check (f.ty == 11) illType |>.mem f rm0 fs0 63
  | 0x1D5 => ((rdSpace (f.md / 4 % 4)).andThen fun ds => (rdSpace (f.md % 4)).andThen fun ss =>
      ((((Rd.k4 fun c a b e => .copy c ds ss a b e).ap c).ap (if ds == .g then rG else rA)).ap (if ss == .g then rdBase f.sb else rB)).ap (rdReg .src f.sc 1 1)).zero f.dst |>.mem f rm0 fs0 15
  | 0x1D6 => (zBC (((Rd.k2 fun c h => .seal c (f.b 0) h (if f.b 1 then some n8 else none)).ap c).ap (rdIdx f.dst 16))).check
      (f.b 1 || f.sa == 0) illUnused |>.mem f rm0 fs0 3
  | 0x1D7 => ((((Rd.k2 .waitf).ap c).ap hB).zero f.dst).zero f.sa |>.zero f.sc |>.mem f rm0 fs0 0
  | 0x1D8 => ((((Rd.k3 .testf).ap c).ap (rdIdx f.dst 64)).ap hB).zero f.sa |>.zero f.sc |>.mem f rm0 fs0 0
  | 0x1D9 => ((((Rd.k2 .cancelf).ap c).ap hB).zero f.dst).zero f.sa |>.zero f.sc |>.mem f rm0 fs0 0
  | 0x1DA =>
    match f.rm with
    | 0 => rmReg (((((Rd.k3 fun c => .tilestSet c F).ap c).ap rA).ap (rdReg .src f.sb 2 2)).zero f.sc) 3 32
    | 1 => rmReg (zBC (((Rd.k2 fun c => .tilestFull c F).ap c).ap rA)) 3 32
    | _ => rmReg (zBC (((Rd.k2 fun c => .tilestEmpty c F).ap c).ap rA)) 3 32
  | 0x1DB =>
    match f.rm with
    | 0 => rmReg (zBC (((Rd.k2 .tilewaitFull).ap c).ap rA)) 2 0
    | _ => rmReg (zBC (((Rd.k2 .tilewaitEmpty).ap c).ap rA)) 2 0
  | 0x1DC => ((((Rd.k3 fun c => .emit c F).ap c).ap (rdReg .src f.sa 1 2)).ap (rdIdx f.sb 8)).zero f.dst |>.zero f.sc |>.mem f rm0 fs0 32
  | 0x1DD => ((((Rd.k3 fun c => .emitx c F).ap c).ap (rdReg .src f.sa 1 2)).ap rB).zero f.dst |>.zero f.sc |>.mem f rm0 fs0 32
  | 0x1DE => ((rdTable winTyOf .b32 f.ty).andThen fun t => rdImm? f
      ((((Rd.k4 fun c d a => .rdrec c F t d a).ap c).ap (rdReg .dst f.dst t.regs t.regs)).ap rA)).mem f rm0 fs0 127
  | 0x1DF => ((((Rd.k4 fun c p a b => .enq c F (Fin.ofNat 8 f.md) p a b).ap c).ap (rdIdx f.dst 64)).ap rA |>.ap
      (rdReg .src f.sb (2 * (f.md % 8 + 1)) 2)).zero f.sc |>.mem f rm0 fs0 39
  | 0x1E0 => ((((Rd.k3 fun c a b => .rcsnap c F (BitVec.ofNat 8 f.sc) a b).ap c).ap rG).ap rB).zero f.dst |>.mem f rm0 fs0 32
  | 0x1E1 => ((((Rd.k4 fun c h d b => .sliceq c (f.b 0) h d b).ap c).ap (rdIdx f.sc 16)).ap (rdReg .dst f.dst 2 2)).ap rB |>.zero
      f.sa |>.mem f rm0 fs0 1
  | _ =>
    let rC := rdReg .src f.sc 1 1
    match f.rm with
    | 0 => rmReg (((((Rd.k2 fun c => .slicehintPin c F).ap c).ap rB).zero f.sc).zero f.sa) 4 32
    | 1 => rmReg (((((Rd.k2 fun c => .slicehintUnpin c F).ap c).ap rB).zero f.sc).zero f.sa) 4 32
    | 2 => rmReg (((((Rd.k3 fun c => .slicehintRep c F).ap c).ap rB).ap rC).zero f.sa) 4 32
    | _ => rmReg (((((Rd.k3 fun c => .slicehintDrop c F).ap c).ap rB).ap rC).zero f.sa) 4 32

/-- Matrix and system instructions, 0x1F0 to 0x1FC (Tables 9.1 and 13.9). -/
def decodeMtx (f : FWord) : Rd Instr :=
  let c := rdCtl f false
  let F := f.b 5
  let fs : Fin 8 := Fin.ofNat 8 f.fsl
  let rm := rmOf f.rm
  let rm0 := f.rm == 0
  let rA := rdReg .src f.sa 1 1
  let hD := rdIdx f.dst 16
  let zBC {α : Type} (r : Rd α) : Rd α := (r.zero f.sb).zero f.sc
  match f.opc with
  | 0x1F0 => (zBC ((((Rd.k3 fun c => .mma c F fs rm).ap c).ap hD).ap rA)).plain f 32 true true
  | 0x1F1 => (zBC ((((Rd.k3 fun c => .mmas c F fs rm).ap c).ap hD).ap rA)).plain f 32 true true
  | 0x1F2 => (zBC ((((Rd.k3 fun c => .mmab c F fs rm (f.b 0)).ap c).ap hD).ap rA)).plain f 33 true true
  | 0x1F3 => (((((((Rd.k5 fun c => .mldf c F fs (fragOf (f.md % 4)) (f.b 2)).ap c).ap hD).ap rA).ap (rdBase f.sb)).ap
      (rdReg .src f.sc 1 1)).check (f.md % 4 < 2 || (f.md % 4 == 2 && !f.b 2)) illReserved).plain f 39 rm0 true
  | 0x1F4 => ((rdTable mstTyOf .f32 f.ty).andThen fun t => (((((Rd.k5 fun c => .mstf c F fs rm t).ap c).ap hD).ap rA).ap
      (rdBase f.sb)).ap (rdReg .src f.sc 1 1)).plain f 63 (f.rm != 6) true
  | 0x1F5 => ((zBC (((Rd.k2 .mzero).ap c).ap rA)).zero f.dst).plain f 0 rm0 false
  | 0x1F6 => (((((Rd.k4 fun c => .mresume c F fs rm (passKindOf (f.md % 4))).ap c).ap hD).ap rA).ap
      (rdSrc f.sb f.sc 1 false true)).check (248 ≤ f.sb || f.sc == 0) illUnused |>.plain f 35 true true
  | 0x1F7 => ((((Rd.k3 fun c d => .mqry c d).ap c).ap (rdReg .dst f.dst 2 2)).ap (rdIdx f.sb 16)).zero f.sa |>.zero f.sc
      |>.plain f 0 rm0 false
  | 0x1F8 => (zBC ((((Rd.k1 fun c => .trapret c (f.b 0)).ap c).zero f.dst).zero f.sa)).plain f 1 rm0 false
  | 0x1F9 => (((rdCD f false 1 fun c d => .getfault c d).ap (rdIdx f.sb 8)).zero f.sa).zero f.sc |>.plain f 0 rm0 false
  | 0x1FA => ((rdAB f false 1 1 false ((Rd.k3 fun c => .setfault c).ap c)).zero f.dst).zero f.ruse |>.plain f 0 rm0 false
  | 0x1FB => ((((Rd.k1 fun c => .haltg c (immOf f)).ap c).zero f.dst).zero f.sa).check f.i illReserved |>.plain f 64 rm0 false
  | _ => (((rdCD f false 1 fun c d => .ctxq c d).ap (rdIdx f.sb 4)).zero f.sa).zero f.sc |>.plain f 0 rm0 false

/-- Reads an F-form word with an assigned opcode (R65). DESIGN CHOICE (24): RUSE is used by a word that names a vector register, or may,
in a source field; a word that reads a register only through DST does not use it (R33, R66). -/
def readF (f : FWord) : Rd Instr :=
  let r :=
    if f.opc < 0x24 then decodeInt f
    else if f.opc < 0xA0 then decodeFlt f
    else if f.opc < 0x10C then decodeSig f
    else if f.opc < 0x151 then decodeCtl f
    else if f.opc < 0x198 then decodeXl f
    else if f.opc < 0x1CC then decodeMem f
    else if f.opc < 0x1E3 then decodeSync f
    else decodeMtx f
  r.check (f.ruse == 0 || (0x1F0 ≤ f.opc && f.opc < 0x1F8) ||
    r.regs.any (fun u => u.kind == .src && (u.count != 0 || f.opc < 0x1C0 || 0x1F0 ≤ f.opc))) illUnused

/-- The P-form operations by opcode (Table 3.8). -/
def pOpOf : Nat → Option POp
  | 0x01 => some .mov | 0x02 => some .iadd | 0x03 => some .isub | 0x04 => some .imul | 0x05 => some .iminS
  | 0x06 => some .imaxS | 0x07 => some .iminN | 0x08 => some .imaxN | 0x09 => some .iabs | 0x0A => some .ineg
  | 0x0B => some .and | 0x0C => some .or | 0x0D => some .xor | 0x0E => some .not | 0x0F => some .andn
  | 0x10 => some .shl | 0x11 => some .shr | 0x12 => some .sar | 0x13 => some .rot | 0x14 => some .popc
  | 0x15 => some .clz | 0x16 => some .ctz | 0x17 => some .brev | 0x18 => some .fadd | 0x19 => some .fsub
  | 0x1A => some .fmul | 0x1B => some .fmin | 0x1C => some .fmax | 0x1D => some .fabs | 0x1E => some .fneg
  | 0x1F => some .fadd2h | 0x20 => some .fmul2h | 0x21 => some .fadd2b | 0x22 => some .fmul2b
  | _ => none
/-- The opcode of a P-form operation (Table 3.8). -/
def POp.code : POp → Nat
  | .mov => 0x01 | .iadd => 0x02 | .isub => 0x03 | .imul => 0x04 | .iminS => 0x05 | .imaxS => 0x06 | .iminN => 0x07
  | .imaxN => 0x08 | .iabs => 0x09 | .ineg => 0x0A | .and => 0x0B | .or => 0x0C | .xor => 0x0D | .not => 0x0E
  | .andn => 0x0F | .shl => 0x10 | .shr => 0x11 | .sar => 0x12 | .rot => 0x13 | .popc => 0x14 | .clz => 0x15
  | .ctz => 0x16 | .brev => 0x17 | .fadd => 0x18 | .fsub => 0x19 | .fmul => 0x1A | .fmin => 0x1B | .fmax => 0x1C
  | .fabs => 0x1D | .fneg => 0x1E | .fadd2h => 0x1F | .fmul2h => 0x20 | .fadd2b => 0x21 | .fmul2b => 0x22

/-- Reads one P-form slot of 31 bits (Table 3.6b, R72). The opcode is assigned or NOP. -/
def readSlot (s : Nat) : Rd PSlot :=
  let op := bits s 24 7
  let d := bits s 16 8
  let b := bits s 8 8
  let gp := bits s 2 6
  let gn := bits s 1 1
  (match pOpOf op with
  | none => (Rd.of PSlot.nop).check (d == 0 && b == 0 && gp == 63 && gn == 0) illUnused
  | some o =>
    let src : Rd PSrc :=
      if b < 224 then ⟨.reg (Fin.ofNat 224 b), [], [⟨.src, b, 1⟩]⟩
      else if b < 240 then .of (.const (Fin.ofNat 16 (b - 224)))
      else ⟨.reg 0, [illOperand], [⟨.src, b, 0⟩]⟩
    let dr := rdReg .dst d 1 1
    let r := ((Rd.of fun d b => PSlot.op o (Fin.ofNat 64 gp) (gn == 1) d b).ap dr).ap src
    if o.oneSource then r else r.uses (if d < 224 then [⟨.dstRead, d, 1⟩] else [])).check (s % 2 == 0) illReserved

/-- The two slots of a P-form word read as written, for the pairing rule (R73). -/
def pairBad (s0 s1 : Nat) : Bool :=
  (pOpOf (bits s0 24 7)).isSome && (pOpOf (bits s1 24 7)).isSome &&
    (bits s0 16 8 % 4 == bits s1 16 8 % 4 ||
      (bits s0 8 8 < 224 && bits s1 8 8 < 224 && bits s0 8 8 % 4 == bits s1 8 8 % 4))

/-- Reads a P-form word (R71). -/
def readP (w : Nat) : Rd Instr :=
  let s0 := bits w 0 31
  let s1 := bits w 31 31
  (((Rd.of Instr.pFormWord).ap (readSlot s0)).ap (readSlot s1)).check (bits w 62 1 == 0) illReserved |>.check (!pairBad s0 s1) illPairing

/-- Reads any 64-bit word: the instruction, every fault of the word alone, and the registers it names (R76). -/
def readWord (w : Nat) : Rd Instr :=
  if wordUnassigned w then .of (.unassignedOpcode (BitVec.ofNat 64 w))
  else if bits w 63 1 = 0 then readF (unpackF w) else readP w

/-- The lowest of a list of sub-causes (R76). -/
def lowest : List Nat → Option Nat
  | [] => none
  | c :: cs => match lowest cs with | none => some c | some d => some (min c d)

/-- Decodes a word: the instruction, or the sub-cause of the ILLEGAL trap that the word alone decides (R76). -/
def decodeWord (w : Addr) : Except Nat Instr :=
  let r := readWord w.toNat
  match lowest r.codes with
  | none => .ok r.val
  | some c => .error c

/-- The instruction of a table word (one 64-bit word); the host's numbering is the word's own. -/
def decodeTableWord (_nbits w : Nat) : Option Instr :=
  match decodeWord (BitVec.ofNat 64 w) with
  | .ok i => some i
  | .error _ => none


/-- The field value of a source (Table 3.4). -/
def Src.field : Src → Nat
  | .reg r => r.val | .const c => 224 + c.val | .win n _ => 248 + n.val | .imm v => v.toNat / 256
/-- What a source puts into SC: a window's word offset, or the immediate's low byte. -/
def Src.scPart : Src → Nat
  | .win _ o => o.toNat | .imm v => v.toNat % 256 | _ => 0

/-- A word with opcode, guard, transient and reuse bits, all else zero (R65). -/
def wordOf (opc : Nat) (c : Ctl) : FWord := ⟨opc, 0, 0, 0, 0, c.gp.val, c.gn.toNat, 0, 0, c.tr.toNat, c.ru.toNat, 0⟩
/-- Sets DST. -/
def FWord.d (f : FWord) (v : Nat) : FWord := { f with dst := v }
/-- Sets SA to a number. -/
def FWord.na (f : FWord) (v : Nat) : FWord := { f with sa := v }
/-- Sets SB to a number. -/
def FWord.nb (f : FWord) (v : Nat) : FWord := { f with sb := v }
/-- Sets SC to a number. -/
def FWord.nc (f : FWord) (v : Nat) : FWord := { f with sc := v }
/-- Sets SA to a source. -/
def FWord.a (f : FWord) (x : Src) : FWord := { f with sa := x.field, sc := f.sc + x.scPart }
/-- Sets SB to a source; an immediate sets MOD.I. -/
def FWord.bb (f : FWord) (x : Src) : FWord :=
  { f with sb := x.field, sc := f.sc + x.scPart, md := f.md + (if x.isImm then 64 else 0) }
/-- Sets SC to a source that is no window. -/
def FWord.c (f : FWord) (x : Src) : FWord := { f with sc := x.field }
/-- Sets RM. -/
def FWord.r (f : FWord) (v : Nat) : FWord := { f with rm := v }
/-- Sets FSL. -/
def FWord.fs (f : FWord) (v : Nat) : FWord := { f with fsl := v }
/-- Sets MOD. -/
def FWord.m (f : FWord) (v : Nat) : FWord := { f with md := v }
/-- Puts an immediate into [37:22] and sets MOD.I (R70). -/
def FWord.im (f : FWord) (v : BitVec 16) : FWord := { f with sb := v.toNat / 256, sc := v.toNat % 256, md := f.md + 64 }
/-- Puts a memory offset into the word (R204). -/
def FWord.off (f : FWord) : Off → FWord | .imm v => f.im v | .reg r => f.nb r.val
/-- Puts an optional immediate into the word. -/
def FWord.im? (f : FWord) : Option (BitVec 16) → FWord | some v => f.im v | none => f
/-- Weight of a MOD flag. -/
def flag (b : Bool) (w : Nat) : Nat := if b then w else 0
/-- Weight of the F bit. -/
abbrev fB (b : Bool) : Nat := flag b 32

/-- The fields of an atomic's word. -/
def atomWord (opc : Nat) (c : Ctl) (F : Bool) (op : Aop) (d : Nat) (a b : VReg) (e : Option VReg) : FWord :=
  let w := ((((wordOf opc c).d d).na a.val).nb b.val).m (fB F + op.code.2)
  let w := (w.r (op.code.1 / 8)).fs (op.code.1 % 8)
  match e with | some e => w.nc e.val | none => w

/-- The F-form fields of an instruction; events and P-form words have none (Tables 4.1 to 13.9). -/
def fields : Instr → FWord
  | .iadd c s t d a b => (((wordOf 0x000 c).d d).m (flag s 32 + t.code)).a a |>.bb b
  | .isub c s t d a b => (((wordOf 0x001 c).d d).m (flag s 32 + t.code)).a a |>.bb b
  | .imul c t d a b => (((wordOf 0x002 c).d d).m t.code).a a |>.bb b
  | .imulhi c t d a b => (((wordOf 0x003 c).d d).m t.code).a a |>.bb b
  | .imad c t d a b e => ((((wordOf 0x004 c).d d).m t.code).a a |>.bb b).c e
  | .imadw c s d a b e => ((((wordOf 0x005 c).d d).m (sgCode s)).a a |>.bb b).c e
  | .imin c t d a b => (((wordOf 0x006 c).d d).m t.code).a a |>.bb b
  | .imax c t d a b => (((wordOf 0x007 c).d d).m t.code).a a |>.bb b
  | .iabs c s w d b => (((wordOf 0x008 c).d d).m (flag s 32 + s64Code w)).bb b
  | .ineg c s w d b => (((wordOf 0x009 c).d d).m (flag s 32 + s64Code w)).bb b
  | .shl c t d a b => (((wordOf 0x00A c).d d).m t.code).a a |>.bb b
  | .shr c t d a b => (((wordOf 0x00B c).d d).m t.code).a a |>.bb b
  | .sar c t d a b => (((wordOf 0x00C c).d d).m t.code).a a |>.bb b
  | .rot c t d a b => (((wordOf 0x00D c).d d).m t.code).a a |>.bb b
  | .bfe c t d a b => (((wordOf 0x00E c).d d).m t.code).a a |>.bb b
  | .bfi c t d a b e => ((((wordOf 0x00F c).d d).m t.code).a a |>.bb b).c e
  | .popc c t d b => (((wordOf 0x010 c).d d).m t.code).bb b
  | .clz c t d b => (((wordOf 0x011 c).d d).m t.code).bb b
  | .ctz c t d b => (((wordOf 0x012 c).d d).m t.code).bb b
  | .brev c t d b => (((wordOf 0x013 c).d d).m t.code).bb b
  | .permb c d a b e => (((wordOf 0x014 c).d d).a a |>.bb b).c e
  | .and c t d a b => (((wordOf 0x015 c).d d).m t.code).a a |>.bb b
  | .or c t d a b => (((wordOf 0x016 c).d d).m t.code).a a |>.bb b
  | .xor c t d a b => (((wordOf 0x017 c).d d).m t.code).a a |>.bb b
  | .not c t d b => (((wordOf 0x018 c).d d).m t.code).bb b
  | .andn c t d a b => (((wordOf 0x019 c).d d).m t.code).a a |>.bb b
  | .sel c t d a b p => ((((wordOf 0x01A c).d d).m t.code).a a |>.bb b).nc p
  | .addr c s d a b sh => ((((wordOf 0x01B c).d d).m (sgCode s)).a a |>.bb b).nc sh
  | .cmp c cc t p a b => ((((wordOf 0x01C c).d p).m t.code).r cc.code).a a |>.bb b
  | .pand c na nb d a b => (((wordOf 0x01D c).d d).na a).nb b |>.m (flag na 1 + flag nb 2)
  | .por c na nb d a b => (((wordOf 0x01E c).d d).na a).nb b |>.m (flag na 1 + flag nb 2)
  | .pxor c na nb d a b => (((wordOf 0x01F c).d d).na a).nb b |>.m (flag na 1 + flag nb 2)
  | .pnot c d b => ((wordOf 0x020 c).d d).nb b
  | .pmov c d b => ((wordOf 0x021 c).d d).nb b
  | .mov c t d b => (((wordOf 0x022 c).d d).m t.code).bb b
  | .movi c t d v => (((wordOf 0x023 c).d d).m t.code).im v
  | .fadd c r t d a b => ((((wordOf 0x080 c).d d).m t.code).r r.code).a a |>.bb b
  | .fsub c r t d a b => ((((wordOf 0x081 c).d d).m t.code).r r.code).a a |>.bb b
  | .fmul c r t d a b => ((((wordOf 0x082 c).d d).m t.code).r r.code).a a |>.bb b
  | .fdiv c r t d a b => ((((wordOf 0x083 c).d d).m t.code).r r.code).a a |>.bb b
  | .ffma c r t d a b e => (((((wordOf 0x084 c).d d).m t.code).r r.code).a a |>.bb b).c e
  | .fmin c t d a b => (((wordOf 0x085 c).d d).m t.code).a a |>.bb b
  | .fmax c t d a b => (((wordOf 0x086 c).d d).m t.code).a a |>.bb b
  | .fabs c t d b => (((wordOf 0x087 c).d d).m t.code).bb b
  | .fneg c t d b => (((wordOf 0x088 c).d d).m t.code).bb b
  | .fcmp c cc t p a b => ((((wordOf 0x089 c).d p).m t.code).r cc.code).a a |>.bb b
  | .fclass c t p a b => (((wordOf 0x08A c).d p).m t.code).a a |>.bb b
  | .frnd c r t d b => ((((wordOf 0x08B c).d d).m t.code).r r.code).bb b
  | .fscale c r t d a b => ((((wordOf 0x08C c).d d).m t.code).r r.code).a a |>.bb b
  | .fdot2 c r t d a b e => (((((wordOf 0x08D c).d d).m t.code).r r.code).a a |>.bb b).c e
  | .fadd2 c r t d a b => ((((wordOf 0x08E c).d d).m t.code).r r.code).a a |>.bb b
  | .fmul2 c r t d a b => ((((wordOf 0x08F c).d d).m t.code).r r.code).a a |>.bb b
  | .ffma2 c r t d a b e => (((((wordOf 0x090 c).d d).m t.code).r r.code).a a |>.bb b).c e
  | .fmin2 c t d a b => (((wordOf 0x091 c).d d).m t.code).a a |>.bb b
  | .fmax2 c t d a b => (((wordOf 0x092 c).d d).m t.code).a a |>.bb b
  | .fcvt c r s td ts d b => (((((wordOf 0x093 c).d d).m (flag s 32 + td.code)).r r.code).bb b).nc ts.code
  | .fcvti c r td ts d b => (((((wordOf 0x094 c).d d).m td.code).r r.code).bb b).nc ts.code
  | .icvtf c r s td ts d b => (((((wordOf 0x095 c).d d).m (flag s 32 + td.code)).r r.code).bb b).nc ts.code
  | .cvtq c r fs d a b => (((((wordOf 0x096 c).d d).m 15).r r.code).fs fs).na a |>.bb b
  | .cvtdq c r fs d a b => (((((wordOf 0x097 c).d d).m 15).r r.code).fs fs).a a |>.bb b
  | .frcp c d b => (((wordOf 0x098 c).d d).m 15).bb b
  | .frsq c d b => (((wordOf 0x099 c).d d).m 15).bb b
  | .fsqrt c r t d b => ((((wordOf 0x09A c).d d).m t.code).r r.code).bb b
  | .fexp2 c d b => (((wordOf 0x09B c).d d).m 15).bb b
  | .flog2 c d b => (((wordOf 0x09C c).d d).m 15).bb b
  | .fsin c d b => (((wordOf 0x09D c).d d).m 15).bb b
  | .fcos c d b => (((wordOf 0x09E c).d d).m 15).bb b
  | .ftanh c d b => (((wordOf 0x09F c).d d).m 15).bb b
  | .sigget c t d b => (((wordOf 0x100 c).d d).m t.code).bb b
  | .sigset c t d a b => (((wordOf 0x101 c).d d).m t.code).a a |>.bb b
  | .sigmin c t d a b => (((wordOf 0x102 c).d d).m t.code).a a |>.bb b
  | .sigcmp c cc t p a b => ((((wordOf 0x103 c).d p).m t.code).r cc.code).a a |>.bb b
  | .moderd c d s => ((wordOf 0x104 c).d d).nb s.toNat
  | .modewr c s a b => ((wordOf 0x105 c).d s.toNat).a a |>.bb b
  | .philox c d a b => ((((wordOf 0x106 c).d d).m 2).na a).nb b
  | .philoxf c t d a b => ((((wordOf 0x107 c).d d).m t.code).na a).nb b
  | .twalk c x n dep d a b => ((((wordOf 0x108 c).d d).m (flag x 64 + n.val * 8 + dep.val)).a a).nb b
  | .topkins c s k d a b => (((wordOf 0x109 c).d d).m (flag s 8 + k.val)).a a |>.bb b
  | .topkmrg c s k d a => (((wordOf 0x10A c).d d).m (flag s 8 + k.val)).na a
  | .scalemax c p fs d b => ((((wordOf 0x10B c).d d).m (flag p 32 + 15)).fs fs).bb b
  | .bra c o => (wordOf 0x140 c).im o
  | .brau c o => (wordOf 0x141 c).im o
  | .brx c b => (wordOf 0x142 c).nb b
  | .call c d o => ((wordOf 0x143 c).d d).im o
  | .callReg c d b => ((wordOf 0x143 c).d d).nb b
  | .ret c b => (wordOf 0x144 c).nb b
  | .join c k n o => (((wordOf 0x145 c).d n).m k.val).im o
  | .waitj c k o => ((wordOf 0x146 c).m k.val).im? o
  | .rep c b => (wordOf 0x147 c).bb b
  | .repImm c n => (wordOf 0x147 c).im n
  | .loop c d o => ((wordOf 0x148 c).d d).im o
  | .exit c => wordOf 0x149 c
  | .trap c o => (wordOf 0x14A c).im o
  | .bpt c => wordOf 0x14B c
  | .yield c => wordOf 0x14C c
  | .nop c => wordOf 0x14D c
  | .bsig c all t thr a o =>
    ((((wordOf 0x14E c).d (match thr with | some n => n.val | none => 63)).m (flag all 32 + t.code)).na a.field).im o
  | .bany c p o => ((wordOf 0x14F c).d p).im o
  | .ball c p o => ((wordOf 0x150 c).d p).im o
  | .shfl c t w d a b => (((((wordOf 0x180 c).d d).m t.code).a a).bb b).nc w.code
  | .shflup c t w d a b => (((((wordOf 0x181 c).d d).m t.code).a a).bb b).nc w.code
  | .shfldn c t w d a b => (((((wordOf 0x182 c).d d).m t.code).a a).bb b).nc w.code
  | .shflx c t w d a b => (((((wordOf 0x183 c).d d).m t.code).a a).bb b).nc w.code
  | .voteany c na d a => (((wordOf 0x184 c).d d).na a).m na.toNat
  | .voteall c na d a => (((wordOf 0x185 c).d d).na a).m na.toNat
  | .voteuni c t d a => (((wordOf 0x186 c).d d).m t.code).a a
  | .ballot c na d a => (((wordOf 0x187 c).d d).na a).m na.toNat
  | .matchLanes c t d a => (((wordOf 0x188 c).d d).m t.code).a a
  | .redadd c t w d a => ((((wordOf 0x189 c).d d).m t.code).a a).nc w.code
  | .redfadd c r t w d a => (((((wordOf 0x18A c).d d).m t.code).r r.code).a a).nc w.code
  | .redmin c t w d a => ((((wordOf 0x18B c).d d).m t.code).a a).nc w.code
  | .redmax c t w d a => ((((wordOf 0x18C c).d d).m t.code).a a).nc w.code
  | .scanadd c x r t w d a => (((((wordOf 0x18D c).d d).m (flag x 32 + t.code)).r r.code).a a).nc w.code
  | .qswph c t d a => (((wordOf 0x18E c).d d).m t.code).a a
  | .qswpv c t d a => (((wordOf 0x18F c).d d).m t.code).a a
  | .qswpd c t d a => (((wordOf 0x190 c).d d).m t.code).a a
  | .qbcast c t d a q => ((((wordOf 0x191 c).d d).m t.code).a a).nb q
  | .regroup c a => ((wordOf 0x192 c).m 11).a a
  | .ungroup c => wordOf 0x193 c
  | .grpinfo c d s => ((wordOf 0x194 c).d d).nb s
  | .rdspec c d i => ((wordOf 0x195 c).d d).nb i
  | .shape c d b => ((wordOf 0x196 c).d d).bb b
  | .movg c t d b => (((wordOf 0x197 c).d d).m t.code).bb b
  | .ld c F prv cp t d a o => (((((wordOf 0x1C0 c).d d).m (fB F + t.code)).fs (flag prv 4 + cp.code)).na a).off o
  | .st c F prv t d a o => (((((wordOf 0x1C1 c).d d).m (fB F + t.code)).fs (flag prv 4)).na a).off o
  | .lds c F t (.inl d) a o => ((((wordOf 0x1C2 c).d d).m (fB F + t.code)).na a).off o
  | .lds c F t (.inr h) a o => (((((wordOf 0x1C2 c).d h).m (fB F + t.code)).fs 4).na a).off o
  | .sts c F t (.inl d) a o => ((((wordOf 0x1C3 c).d d).m (fB F + t.code)).na a).off o
  | .sts c F t (.inr h) a o => (((((wordOf 0x1C3 c).d h).m (fB F + t.code)).fs 4).na a).off o
  | .ldp c t n d a w => (((((wordOf 0x1C4 c).d d).m t.code).fs n).na a).im? w
  | .gather c F t d a b sx sh => (((((wordOf 0x1C5 c).d d).m (fB F + t.code)).na a).nb b).nc (flag sx 8 + sh.val)
  | .scatter c F t d a b sx sh => (((((wordOf 0x1C6 c).d d).m (fB F + t.code)).na a).nb b).nc (flag sx 8 + sh.val)
  | .atom c F op d a b e => atomWord 0x1C7 c F op d a b e
  | .red c F op a b => atomWord 0x1C8 c F op 0 a b none
  | .atoms c F op d a b e => atomWord 0x1C9 c F op d a b e
  | .pref c mt a o => (((wordOf 0x1CA c).fs mt.toNat).na a).off o
  | .cctlIvl c a o => ((wordOf 0x1CB c).na a).off o
  | .cctlIvr c a b => (((wordOf 0x1CB c).r 1).na a).nb b
  | .cctlIva c => (wordOf 0x1CB c).r 2
  | .bind c F sc a b e => (((((wordOf 0x1CC c).m (fB F)).r sc.code).na a).nb b).nc e
  | .acqLock c sc p a => (((wordOf 0x1CD c).d p).r sc.code).na a
  | .acqGen c sc p a b => (((((wordOf 0x1CD c).d p).m 1).r sc.code).na a).nb b
  | .rel c u sc a => (((wordOf 0x1CE c).m u.toNat).r sc.code).na a
  | .fence c sc => (wordOf 0x1CF c).r sc.code
  | .bar c p => (wordOf 0x1D0 c).m p.toNat
  | .nbar c p => (wordOf 0x1D1 c).m p.toNat
  | .seminc c F n b => (((wordOf 0x1D2 c).m (fB F + 7)).na n.toNat).bb b
  | .semincImm c F n v => (((wordOf 0x1D2 c).m (fB F + 7)).na n.toNat).im v
  | .semwait c n b => (((wordOf 0x1D3 c).m 11).na n.toNat).bb b
  | .semwaitImm c n v => (((wordOf 0x1D3 c).m 11).na n.toNat).im v
  | .semrd c F d n => (((wordOf 0x1D4 c).d d).m (fB F + 11)).na n.toNat
  | .copy c ds ss a b e => ((((wordOf 0x1D5 c).m (ds.code * 4 + ss.code)).na a).nb b).nc e
  | .seal c cn h sem => (((wordOf 0x1D6 c).d h).m (cn.toNat + (if sem.isSome then 2 else 0))).na
      (match sem with | some n => n.toNat | none => 0)
  | .waitf c h => (wordOf 0x1D7 c).nb h
  | .testf c p h => ((wordOf 0x1D8 c).d p).nb h
  | .cancelf c h => (wordOf 0x1D9 c).nb h
  | .tilestSet c F a b => (((wordOf 0x1DA c).m (fB F)).na a).nb b
  | .tilestFull c F a => (((wordOf 0x1DA c).m (fB F)).r 1).na a
  | .tilestEmpty c F a => (((wordOf 0x1DA c).m (fB F)).r 2).na a
  | .tilewaitFull c a => (wordOf 0x1DB c).na a
  | .tilewaitEmpty c a => ((wordOf 0x1DB c).r 1).na a
  | .emit c F a e => (((wordOf 0x1DC c).m (fB F)).na a).nb e
  | .emitx c F a b => (((wordOf 0x1DD c).m (fB F)).na a).nb b
  | .rdrec c F t d a o => ((((wordOf 0x1DE c).d d).m (fB F + t.code)).na a).im? o
  | .enq c F n p a b => ((((wordOf 0x1DF c).d p).m (fB F + n.val)).na a).nb b
  | .rcsnap c F n a b => ((((wordOf 0x1E0 c).m (fB F)).na a).nb b).nc n.toNat
  | .sliceq c fill h d b => ((((wordOf 0x1E1 c).d d).m fill.toNat).nb b).nc h
  | .slicehintPin c F b => ((wordOf 0x1E2 c).m (fB F)).nb b
  | .slicehintUnpin c F b => (((wordOf 0x1E2 c).m (fB F)).r 1).nb b
  | .slicehintRep c F b e => ((((wordOf 0x1E2 c).m (fB F)).r 2).nb b).nc e
  | .slicehintDrop c F b e => ((((wordOf 0x1E2 c).m (fB F)).r 3).nb b).nc e
  | .mma c F fs r h a => (((((wordOf 0x1F0 c).d h).m (fB F)).r r.code).fs fs).na a
  | .mmas c F fs r h a => (((((wordOf 0x1F1 c).d h).m (fB F)).r r.code).fs fs).na a
  | .mmab c F fs r o h a => (((((wordOf 0x1F2 c).d h).m (fB F + o.toNat)).r r.code).fs fs).na a
  | .mldf c F fs w sp h a b e => ((((((wordOf 0x1F3 c).d h).m (fB F + flag sp 4 + w.code)).fs fs).na a).nb b).nc e
  | .mstf c F fs r t h a b e => (((((((wordOf 0x1F4 c).d h).m (fB F + t.code)).r r.code).fs fs).na a).nb b).nc e
  | .mzero c a => (wordOf 0x1F5 c).na a
  | .mresume c F fs r k h a b => ((((((wordOf 0x1F6 c).d h).m (fB F + k.code)).r r.code).fs fs).na a).bb b
  | .mqry c d h => ((wordOf 0x1F7 c).d d).nb h
  | .trapret c s => (wordOf 0x1F8 c).m s.toNat
  | .getfault c d w => ((wordOf 0x1F9 c).d d).nb w
  | .setfault c a b => ((wordOf 0x1FA c).a a).bb b
  | .haltg c v => (wordOf 0x1FB c).im v
  | .ctxq c d s => ((wordOf 0x1FC c).d d).nb s
  | _ => wordOf 0 ⟨0, false, false, false⟩

/-- The field value of a P-form source (Table 3.6b). -/
def PSrc.field : PSrc → Nat | .reg r => r.val | .const c => 224 + c.val
/-- The 31 bits of a slot (Table 3.6b, R72). -/
def slotBits : PSlot → Nat
  | .nop => 63 * 4
  | .op o gp gn d b => o.code * 2 ^ 24 + d.val * 2 ^ 16 + b.field * 2 ^ 8 + gp.val * 4 + gn.toNat * 2

/-- The word of a well-formed instruction; an event has none and gives 0. -/
def encode (i : Instr) : Addr :=
  match i with
  | .pFormWord s0 s1 => BitVec.ofNat 64 (2 ^ 63 + slotBits s1 * 2 ^ 31 + slotBits s0)
  | .unassignedOpcode w => w
  | i => if i.isWord then BitVec.ofNat 64 (packF (fields i)) else 0

end Sys2Proof
end

