-- ==== Sys2Proof/Machine/Flags.lean ====
section
/-! DEFINITION. The flags of STATUS (Table 1.7) and the fields of MODE (Table 1.6). -/
namespace Sys2Proof.Machine
open Sys2Proof

/-- A set of STATUS flags, bit i of STATUS at bit i. -/
abbrev FlagSet := BitVec 7
/-- No flag. -/
abbrev flNone : FlagSet := 0
/-- Invalid. -/
abbrev flNV : FlagSet := 1
/-- Divide by zero. -/
abbrev flDZ : FlagSet := 2
/-- Overflow. -/
abbrev flOF : FlagSet := 4
/-- Underflow. -/
abbrev flUF : FlagSet := 8
/-- Inexact. -/
abbrev flNX : FlagSet := 16
/-- A window read beyond the bound size. -/
abbrev flPWOOB : FlagSet := 32
/-- A demoted uniform branch. -/
abbrev flUDEM : FlagSet := 64

/-- ORs flags into a STATUS word (R26). -/
def orStatus (st : Word) (f : FlagSet) : Word := st ||| f.setWidth 32

/-- MODE.RND. -/
def modeRnd (m : Word) : Nat := bits m.toNat 0 3
/-- MODE.FTZI. -/
def modeFtzi (m : Word) : Bool := m.getLsbD 3
/-- MODE.FTZO. -/
def modeFtzo (m : Word) : Bool := m.getLsbD 4
/-- MODE.SIGTHR. -/
def modeSigthr (m : Word) : Nat := bits m.toNat 5 6
/-- MODE.SIGTE. -/
def modeSigte (m : Word) : Bool := m.getLsbD 11
/-- MODE.EJT. -/
def modeEjt (m : Word) : Nat := bits m.toNat 12 4
/-- MODE.MRGT. -/
def modeMrgt (m : Word) : Nat := bits m.toNat 16 6
/-- MODE.RJTO. -/
def modeRjto (m : Word) : Nat := bits m.toNat 22 5
/-- MODE.RJTT. -/
def modeRjtt (m : Word) : Bool := m.getLsbD 27
/-- MODE.UMP. -/
def modeUmp (m : Word) : Bool := m.getLsbD 28
/-- MODE.SRSEL. -/
def modeSrsel (m : Word) : Nat := bits m.toNat 29 2

/-- Whether a word holds a value reserved in MODE (Table 1.6). -/
def modeReserved (m : Word) : Bool :=
  m.getLsbD 31 || modeRjto m < 8 || 24 < modeRjto m || 32 < modeMrgt m || 8 < modeEjt m || 53 < modeSigthr m || modeRnd m == 0

/-- The MODE word luas writes when no field is set (Table 1.6). -/
def modeDefault : Word := BitVec.ofNat 32 (12 * 2 ^ 22 + 12 * 2 ^ 16 + 4 * 2 ^ 12 + 1)

end Sys2Proof.Machine
end

