-- ==== Sys2Proof/Config.lean ====
section
/-! DEFINITION. What the implementation fixes, and the free values: constants without a body, of which nothing can be proved. -/
namespace Sys2Proof.Config

/-- FREE VALUE: SHAKE256 with a 64-byte digest; R344 names the function and does not define it (9). -/
opaque shake256 : List Byte → Vector Byte 64
/-- FREE VALUE: whether a Falcon-1024 signature verifies, of key, digest and signature (R344) (9). -/
opaque falconVerify : List Byte → List Byte → List Byte → Bool
/-- FREE VALUE: the Falcon-1024 public key generated from a seed (R347) (9). -/
opaque falconPublic : List Byte → List Byte
/-- FREE VALUE: the Falcon-1024 signature made with the key pair of a seed over a message (R347, R348) (9). -/
opaque falconSign : List Byte → List Byte → List Byte
/-- FREE VALUE: the SHAKE256 digest of the vendor key, held in mask ROM (R344) (9). -/
opaque vendorKeyDigest : List Byte
/-- FREE VALUE: the unique device secret U that the SRAM-PUF rebuilds (R347) (9). -/
opaque deviceSecret : List Byte
/-- FREE VALUE: the syndrome word of the n-th error record (Table 15.5) (10). -/
opaque syndrome : Nat → Addr
/-- FREE VALUE: the bytes of the attestation report for given contents; R348 gives what it holds, not its layout (11). -/
opaque reportLayout : List (List Byte) → List Byte
/-- FREE VALUE: the IDCODE a TAP read returns (R343) (12). -/
opaque idcode : Word
/-- FREE VALUE: the bytes of those parts of a save area whose field positions R327 does not give, from their values: 0 the header,
1 a matrix operation, 2 an entry of the window block, 3 an open copy (13). -/
opaque saveLayout : Nat → List Nat → List Byte
/-- FREE VALUE: the bank and the row of an HBM location, as two numbers; Table 15.6 names them without an address map (17). -/
opaque hbmRow : Nat → Nat × Nat
/-- FREE VALUE: the Mantle set of a location, and whether it lies in a carved segment; Table 15.6 (17). -/
opaque mantleSet : Nat → Nat × Bool
/-- FREE VALUE: the Mantle segment, 16d + s, whose storage lies at a physical address when it is carved; R166 and R310 give no address
map (34). -/
opaque carvedSegment : Nat → Option Nat
/-- FREE VALUE: what a byte of a carved segment holds after the segment has lost its contents (R311), of the loss and its address (19). -/
opaque lostByte : Nat → Nat → Byte
/-- FREE VALUE: the highest cluster clock, in 50 MHz steps, that keeps the module under a cap in watts (R349) (37). -/
opaque capClock : Nat → Nat
/-- FREE VALUE: the bytes of a TAP read-out, 0 of the state elements and 1 of the pins that SAMPLE and EXTEST meet, from their values;
R343 gives no scan order (18). -/
opaque scanOut : Nat → List Nat → List Byte

/-- FREE VALUE: whether FMIN or FMAX of two equal operands selects the first; R90 names the selected operand's tag and
does not say which of two equal operands is selected (14). -/
opaque minTakesLeft : Tag → Tag → Bool

/-- FREE VALUE: the source tag that a SIGLOSS record names for a source that is a range of registers, of their tags after
tagIn(); R57 and Table 13.6 name one tag for a source (16). -/
opaque rangeTag : List Nat → Nat

end Sys2Proof.Config
end

