-- ==== Sys2Proof/Machine/Float.lean ====
section
/-! DEFINITION. Number formats, exact arithmetic, rounding, flushing and significance tags (R35 to R57). -/
namespace Sys2Proof.Machine
open Sys2Proof

/-- An exact real with signed zero, an infinity, or a NaN (quiet or signalling). `fin neg n d` is ±n/d with `d` not 0. -/
inductive XR where
  | nan (sig : Bool)
  | inf (neg : Bool)
  | fin (neg : Bool) (n d : Nat)
  deriving DecidableEq, Repr

/-- Bits of a format (Table 2.1). -/
def fmtBits : Fmt → Nat | .f64 => 64 | .f32 => 32 | .f16 | .bf16 => 16 | .e4m3 | .e5m2 => 8
/-- The precision p (Table 2.1). -/
def fmtP : Fmt → Nat | .f64 => 53 | .f32 => 24 | .f16 => 11 | .bf16 => 8 | .e4m3 => 4 | .e5m2 => 3
/-- The exponent bias (Table 2.1). -/
def fmtBias : Fmt → Nat | .f64 => 1023 | .f32 | .bf16 => 127 | .f16 | .e5m2 => 15 | .e4m3 => 7
/-- The exponent of the smallest normal value (Table 2.1). -/
def fmtEmin (f : Fmt) : Int := 1 - (fmtBias f : Int)
/-- The exponent of the largest value (Table 2.1, R36). -/
def fmtEmax : Fmt → Int | .e4m3 => 8 | f => fmtBias f
/-- The bits of the exponent field. -/
def fmtEbits (f : Fmt) : Nat := fmtBits f - fmtP f
/-- Whether the format has infinities (Table 2.2). -/
def fmtHasInf : Fmt → Bool | .e4m3 => false | _ => true

/-- ±n/d times 2^e, as numerator and denominator. -/
def scale2 (n d : Nat) (e : Int) : Nat × Nat := if 0 ≤ e then (n * 2 ^ e.toNat, d) else (n, d * 2 ^ (-e).toNat)

/-- Whether n/d < n'/d'. -/
def ratLt (n d n' d' : Nat) : Bool := n * d' < n' * d

/-- floor(log2(n/d)) for n not 0. -/
def ilog2 (n d : Nat) : Int :=
  let e : Int := (n.log2 : Int) - (d.log2 : Int)
  let s := scale2 1 1 e
  if ratLt n d s.1 s.2 then e - 1 else e

/-- The largest finite magnitude of a format (Table 2.1). -/
def fmtMax (f : Fmt) : Nat × Nat :=
  match f with
  | .e4m3 => (448, 1)
  | _ => scale2 (2 ^ fmtP f - 1) 1 (fmtEmax f - (fmtP f : Int) + 1)

/-- Whether a value is a NaN. -/
def XR.isNan : XR → Bool | .nan _ => true | _ => false
/-- Whether a value is a signalling NaN (R37). -/
def XR.isSig : XR → Bool | .nan s => s | _ => false
/-- Whether a value is an infinity. -/
def XR.isInf : XR → Bool | .inf _ => true | _ => false
/-- Whether a value is ±0. -/
def XR.isZero : XR → Bool | .fin _ n _ => n == 0 | _ => false
/-- The sign of a value. -/
def XR.neg : XR → Bool | .nan _ => false | .inf s => s | .fin s _ _ => s
/-- The value with its sign inverted. -/
def XR.negate : XR → XR | .nan s => .nan s | .inf s => .inf (!s) | .fin s n d => .fin (!s) n d
/-- The magnitude of a value. -/
def XR.abs : XR → XR | .nan s => .nan s | .inf _ => .inf false | .fin _ n d => .fin false n d
/-- The magnitude of a finite value. -/
def XR.mag : XR → Nat × Nat | .fin _ n d => (n, d) | _ => (0, 1)

/-- The value of an encoding (R35, R36). -/
def fdec (f : Fmt) (w : Nat) : XR :=
  let b := fmtBits f
  let p := fmtP f
  let neg := bits w (b - 1) 1 == 1
  let e := bits w (p - 1) (fmtEbits f)
  let frac := bits w 0 (p - 1)
  let top := 2 ^ fmtEbits f - 1
  if f == .e4m3 && e == top && frac == 7 then .nan false
  else if f != .e4m3 && e == top then
    if frac == 0 then .inf neg else .nan (frac < 2 ^ (p - 2))
  else if e == 0 then
    let s := scale2 frac 1 (fmtEmin f - (p : Int) + 1)
    .fin neg s.1 s.2
  else
    let s := scale2 (2 ^ (p - 1) + frac) 1 ((e : Int) - (fmtBias f : Int) - (p : Int) + 1)
    .fin neg s.1 s.2

/-- The canonical NaN of a format (Table 2.2). -/
def qnanBits (f : Fmt) : Nat :=
  match f with
  | .e4m3 => 0x7F
  | _ => (2 ^ fmtEbits f - 1) * 2 ^ (fmtP f - 1) + 2 ^ (fmtP f - 2)

/-- A rounded result: its bits, its value, the flags, and whether it was saturated (R41, R43). -/
structure Rounded where
  bits : Nat
  val : XR
  fl : FlagSet
  sat : Bool

/-- The encoding of a value the format holds exactly (R35). -/
def fenc (f : Fmt) (v : XR) : Nat :=
  let p := fmtP f
  let sgn (s : Bool) : Nat := if s then 2 ^ (fmtBits f - 1) else 0
  match v with
  | .nan _ => qnanBits f
  | .inf s => sgn s + (if f == .e4m3 then 0x7F else (2 ^ fmtEbits f - 1) * 2 ^ (p - 1))
  | .fin s n d =>
    if n == 0 then sgn s
    else
      let e := max (ilog2 n d) (fmtEmin f)
      let q := scale2 n d (-(e - (p : Int) + 1))
      let m := q.1 / q.2
      sgn s + (if m < 2 ^ (p - 1) then m else (e + (fmtBias f : Int)).toNat * 2 ^ (p - 1) + (m - 2 ^ (p - 1)))

/-- expOf: the exponent of a value, emin for zero (R41). -/
def expOf (f : Fmt) : XR → Int
  | .fin _ n d => if n == 0 then fmtEmin f else ilog2 n d
  | _ => fmtEmax f + 1

/-- A scale of a value: none, or the product of the scales that apply, as a magnitude (R45). -/
abbrev Scale := Option (Nat × Nat)

/-- Whether the magnitude n/d, after its scale, lies below flushLimit (R45). -/
def belowLimit (f : Fmt) (s : Scale) (n d : Nat) : Bool :=
  match s with
  | none => let l := scale2 1 1 (fmtEmin f); ratLt n d l.1 l.2
  | some (sn, sd) => let l := scale2 1 1 (-126); ratLt (n * sn) (d * sd) l.1 l.2

/-- flushIn (R45). -/
def flushIn (f : Fmt) (ftz : Bool) (s : Scale) (v : XR) : XR :=
  match v with
  | .fin neg n d => if ftz && n != 0 && belowLimit f s n d then .fin neg 0 1 else v
  | _ => v

/-- The decision of round() to step away from zero; `r/d` is the fraction f, `odd` the parity of the truncated value (R41). -/
def roundUp (m : Nat) (neg odd : Bool) (r d rnd : Nat) : Bool :=
  match m with
  | 1 => d < 2 * r || (2 * r == d && odd)
  | 2 => false
  | 3 => 0 < r && !neg
  | 4 => 0 < r && neg
  | 5 => d ≤ 2 * r
  | 6 => 2 ^ 32 ≤ r * 2 ^ 32 / d + rnd
  | _ => 0 < r && !odd

/-- round() (R41): `m` is the mode 1 to 7, `rnd` the word drawn for RSR. -/
def roundTo (f : Fmt) (m : Nat) (sat ftz : Bool) (s : Scale) (rnd : Nat) (x : XR) : Rounded :=
  let mx := fmtMax f
  match x with
  | .nan _ => ⟨qnanBits f, .nan false, flNone, false⟩
  | .inf neg =>
    if sat then ⟨fenc f (.fin neg mx.1 mx.2), .fin neg mx.1 mx.2, flNone, true⟩
    else if !fmtHasInf f then ⟨fenc f (.inf neg), .nan false, flNV, false⟩
    else ⟨fenc f (.inf neg), .inf neg, flNone, false⟩
  | .fin neg n d =>
    if n == 0 then ⟨fenc f x, x, flNone, false⟩
    else
      let g := max (ilog2 n d) (fmtEmin f) - (fmtP f : Int) + 1
      let q := scale2 n d (-g)
      let lo := q.1 / q.2
      let r := q.1 % q.2
      let up := roundUp m neg (lo % 2 == 1) r q.2 rnd
      let y := scale2 (if up then lo + 1 else lo) 1 g
      let fl := if 0 < r then flNX else flNone
      if ratLt mx.1 mx.2 y.1 y.2 then
        let fl := fl ||| flOF ||| flNX
        let big : XR := .fin neg mx.1 mx.2
        if sat then ⟨fenc f big, big, fl, true⟩
        else if !fmtHasInf f then ⟨fenc f (.inf neg), .nan false, fl, false⟩
        else if m == 2 || m == 7 || (m == 3 && neg) || (m == 4 && !neg) then ⟨fenc f big, big, fl, false⟩
        else ⟨fenc f (.inf neg), .inf neg, fl, false⟩
      else
        let tiny := y.1 != 0 && belowLimit f s y.1 y.2
        let fl := if tiny && 0 < r then fl ||| flUF else fl
        if ftz && tiny then ⟨fenc f (.fin neg 0 1), .fin neg 0 1, fl ||| flUF ||| flNX, false⟩
        else ⟨fenc f (.fin neg y.1 y.2), .fin neg y.1 y.2, fl, false⟩

/-- NV where an operand is a signalling NaN (R37). -/
def sigNV (vs : List XR) : FlagSet := if vs.any XR.isSig then flNV else flNone

/-- The exact sum, with the sign rules of R89; `rd` is whether the rounding mode is RD. -/
def xadd (rd : Bool) (a b : XR) : XR × FlagSet :=
  match a, b with
  | .nan _, _ => (.nan false, sigNV [a, b])
  | _, .nan _ => (.nan false, sigNV [a, b])
  | .inf s, .inf t => if s == t then (a, flNone) else (.nan false, flNV)
  | .inf _, _ => (a, flNone)
  | _, .inf _ => (b, flNone)
  | .fin s n d, .fin t m e =>
    let l := n * e
    let r := m * d
    if s == t then (.fin s (l + r) (d * e), flNone)
    else if l == r then (.fin rd 0 1, flNone)
    else if r < l then (.fin s (l - r) (d * e), flNone)
    else (.fin t (r - l) (d * e), flNone)

/-- The exact product (R89). -/
def xmul (a b : XR) : XR × FlagSet :=
  match a, b with
  | .nan _, _ => (.nan false, sigNV [a, b])
  | _, .nan _ => (.nan false, sigNV [a, b])
  | .inf s, .inf t => (.inf (s != t), flNone)
  | .inf s, .fin t n _ => if n == 0 then (.nan false, flNV) else (.inf (s != t), flNone)
  | .fin s n _, .inf t => if n == 0 then (.nan false, flNV) else (.inf (s != t), flNone)
  | .fin s n d, .fin t m e => (.fin (s != t) (n * m) (d * e), flNone)

/-- The exact quotient (R89). -/
def xdiv (a b : XR) : XR × FlagSet :=
  match a, b with
  | .nan _, _ => (.nan false, sigNV [a, b])
  | _, .nan _ => (.nan false, sigNV [a, b])
  | .inf _, .inf _ => (.nan false, flNV)
  | .inf s, .fin t _ _ => (.inf (s != t), flNone)
  | .fin s _ _, .inf t => (.fin (s != t) 0 1, flNone)
  | .fin s n d, .fin t m e =>
    if m == 0 then (if n == 0 then (.nan false, flNV) else (.inf (s != t), flDZ))
    else (.fin (s != t) (n * e) (d * m), flNone)

/-- a·b + c with the product exact (R89). -/
def xfma (rd : Bool) (a b c : XR) : XR × FlagSet :=
  let p := xmul a b
  let r := xadd rd p.1 c
  (r.1, p.2 ||| r.2)

/-- Whether a < b for values that are no NaN; −0 and +0 are equal (R46). -/
def xlt (a b : XR) : Bool :=
  match a, b with
  | .nan _, _ => false
  | _, .nan _ => false
  | .inf s, .inf t => s && !t
  | .inf s, .fin _ _ _ => s
  | .fin _ _ _, .inf t => !t
  | .fin s n d, .fin t m e =>
    if n == 0 && m == 0 then false
    else if s && !t then true
    else if !s && t then false
    else if s then m * d < n * e else n * e < m * d

/-- Whether a = b; false for a NaN; −0 equals +0 (R46). -/
def xeq (a b : XR) : Bool := !a.isNan && !b.isNan && !xlt a b && !xlt b a

/-- minimumNumber and maximumNumber (R90): the selected value and whether it is the first operand; none for two NaN. -/
def xpick (mx : Bool) (a b : XR) (tie : Bool) : Option (XR × Bool) :=
  match a.isNan, b.isNan with
  | true, true => none
  | true, false => some (b, false)
  | false, true => some (a, true)
  | false, false =>
    if xlt a b then (if mx then some (b, false) else some (a, true))
    else if xlt b a then (if mx then some (a, true) else some (b, false))
    else if a.neg && !b.neg then (if mx then some (b, false) else some (a, true))
    else if b.neg && !a.neg then (if mx then some (a, true) else some (b, false))
    else if tie then some (a, true) else some (b, false)

/-- tagIn (R34). -/
def tagIn (t p : Nat) : Nat := if t == 63 then p else min t p

/-- clamp of R55, R56. -/
def clampTag (v : Int) (p : Nat) : Nat := min v.toNat p

/-- heldPos (R55). -/
def heldPos (f : Fmt) (y : XR) : Int := max (expOf f y) (fmtEmin f) - (fmtP f : Int) + 1
/-- heldBits (R55). -/
def heldBits (f : Fmt) (y : XR) : Nat := (expOf f y - heldPos f y + 1).toNat
/-- special (R55). -/
def tagSpecial (y : XR) (sat : Bool) : Bool := y.isNan || y.isInf || sat

/-- The largest of a list of positions. -/
def maxPos (q : Int) (l : List Int) : Int := l.foldl max q

/-- tagSum (R55). -/
def tagSum (f : Fmt) (terms : List (XR × Nat)) (y : XR) (sat : Bool) : Nat :=
  if tagSpecial y sat then 0
  else if y.isZero then
    if terms.any (fun v => !v.1.isZero) then 0 else terms.foldl (fun t v => min t v.2) 63
  else
    let q := maxPos (heldPos f y) (terms.map fun v => expOf f v.1 - (v.2 : Int) + 1)
    clampTag (expOf f y - q + 1) (fmtP f)

/-- tagMul (R55). -/
def tagMul (f : Fmt) (ta tb : Nat) (y a b : XR) (sat : Bool) : Nat :=
  if tagSpecial y sat then 0
  else if y.isZero && !a.isZero && !b.isZero then 0
  else min (min ta tb) (heldBits f y)

/-- tagSqrt (R55). -/
def tagSqrt (f : Fmt) (ta : Nat) (y : XR) : Nat :=
  if tagSpecial y false then 0 else min (min (fmtP f) (ta + 1)) (heldBits f y)

/-- tagFn at a trust count (R55, Table 4.6). -/
def tagFn (f : Fmt) (ta trust : Nat) (y : XR) : Nat :=
  if tagSpecial y false then 0 else min (min ta trust) (heldBits f y)

/-- tagCvt (R55). -/
def tagCvt (g : Fmt) (t : Nat) (v y : XR) (sat : Bool) : Nat :=
  if tagSpecial y sat then 0
  else if y.isZero && !v.isZero then 0
  else min t (heldBits g y)

/-- The class number of a value (R91). -/
def classOf (f : Fmt) (v : XR) : Nat :=
  match v with
  | .nan s => if s then 0 else 1
  | .inf s => if s then 2 else 9
  | .fin s n d =>
    if n == 0 then (if s then 5 else 6)
    else
      let l := scale2 1 1 (fmtEmin f)
      if ratLt n d l.1 l.2 then (if s then 4 else 7) else (if s then 3 else 8)

/-- A float operand: value after the input flush, and tag after tagIn (R82). -/
structure FOp where
  v : XR
  t : Nat

/-- readF of bits and a stored tag (R82). -/
def readFl (f : Fmt) (ftzi : Bool) (w : Nat) (t : Tag) : FOp := ⟨flushIn f ftzi none (fdec f w), tagIn t (fmtP f)⟩

/-- The result of one floating-point value: bits, tag, flags, and the tag that SIGLOSS tests, if any (R57). -/
structure FRes where
  bits : Nat
  tag : Nat
  fl : FlagSet

/-- The rounding environment of an instruction in a lane: mode, FTZO, and the words it would draw (R41, R42). -/
structure REnv where
  m : Nat
  ftzo : Bool
  rnd : Nat → Nat

/-- round() unscaled and unsaturated under an environment, drawing word `k`. -/
def REnv.round (e : REnv) (f : Fmt) (k : Nat) (x : XR) : Rounded := roundTo f e.m false e.ftzo none (e.rnd k) x

/-- FADD and FSUB (R89). -/
def fAdd (e : REnv) (f : Fmt) (k : Nat) (sub : Bool) (a b : FOp) : FRes :=
  let b := if sub then { b with v := b.v.negate } else b
  let x := xadd (e.m == 4) a.v b.v
  let y := e.round f k x.1
  ⟨y.bits, tagSum f [(a.v, a.t), (b.v, b.t)] y.val y.sat, x.2 ||| y.fl⟩

/-- FMUL (R89). -/
def fMul (e : REnv) (f : Fmt) (k : Nat) (a b : FOp) : FRes :=
  let x := xmul a.v b.v
  let y := e.round f k x.1
  ⟨y.bits, tagMul f a.t b.t y.val a.v b.v y.sat, x.2 ||| y.fl⟩

/-- FDIV (R89). -/
def fDiv (e : REnv) (f : Fmt) (k : Nat) (a b : FOp) : FRes :=
  let x := xdiv a.v b.v
  let y := e.round f k x.1
  ⟨y.bits, tagMul f a.t b.t y.val a.v b.v y.sat, x.2 ||| y.fl⟩

/-- FFMA (R89). -/
def fFma (e : REnv) (f : Fmt) (k : Nat) (a b c : FOp) : FRes :=
  let x := xfma (e.m == 4) a.v b.v c.v
  let y := e.round f k x.1
  ⟨y.bits, tagSum f [((xmul a.v b.v).1, min a.t b.t), (c.v, c.t)] y.val y.sat, x.2 ||| y.fl⟩

/-- The output flush of an unrounded result (R90, R45). -/
def flushOut (f : Fmt) (ftzo : Bool) (v : XR) : XR × FlagSet :=
  match v with
  | .fin s n d => if ftzo && n != 0 && belowLimit f none n d then (.fin s 0 1, flUF ||| flNX) else (v, flNone)
  | _ => (v, flNone)

/-- FMIN and FMAX (R90); `tie` is which of two equal operands is selected. -/
def fMinMax (f : Fmt) (ftzo mx : Bool) (tie : Bool) (a b : FOp) : FRes :=
  match xpick mx a.v b.v tie with
  | none => ⟨qnanBits f, 0, sigNV [a.v, b.v]⟩
  | some (v, left) =>
    let y := flushOut f ftzo v
    ⟨fenc f y.1, if left then a.t else b.t, sigNV [a.v, b.v] ||| y.2⟩

/-- FABS and FNEG (R90). -/
def fAbsNeg (f : Fmt) (ftzo neg : Bool) (b : FOp) : FRes :=
  match b.v with
  | .nan s => ⟨qnanBits f + (if neg then 2 ^ (fmtBits f - 1) else 0), 0, if s then flNV else flNone⟩
  | v =>
    let y := flushOut f ftzo (if neg then v.negate else v.abs)
    ⟨fenc f y.1, b.t, y.2⟩

/-- FRND (R92): rounds to an integral value of the format. -/
def fRnd (e : REnv) (f : Fmt) (b : FOp) : FRes :=
  let y : XR :=
    match b.v with
    | .fin s n d =>
      let up := roundUp e.m s (n / d % 2 == 1) (n % d) d 0
      .fin s (if up then n / d + 1 else n / d) 1
    | v => v
  ⟨fenc f y, tagCvt f b.t b.v y false, sigNV [b.v]⟩

/-- FSCALE (R92): a·2^n rounded once. Beyond ±4,000 every exponent overflows or underflows alike. -/
def fScale (e : REnv) (f : Fmt) (k : Nat) (a : FOp) (n : Int) : FRes :=
  let c : Int := max (-4000) (min 4000 n)
  let x : XR := match a.v with | .fin s m d => let q := scale2 m d c; .fin s q.1 q.2 | v => v
  let y := e.round f k x
  let b : XR := .fin false 1 1
  ⟨y.bits, tagMul f a.t (fmtP f) y.val a.v b y.sat, sigNV [a.v] ||| y.fl⟩

/-- The floor of the square root, by bisection on the bits of the root, highest first. -/
def isqrtAux (n : Nat) : Nat → Nat → Nat
  | 0, r => r
  | k + 1, r => let c := r + 2 ^ k; isqrtAux n k (if c * c ≤ n then c else r)

/-- The floor of the square root. -/
def isqrt (n : Nat) : Nat := isqrtAux n (n.log2 / 2 + 1) 0

/-- FSQRT (R100): correctly rounded. The root is taken with a sticky bit far below the format's grid. -/
def fSqrt (e : REnv) (f : Fmt) (k : Nat) (b : FOp) : FRes :=
  match b.v with
  | .nan s => ⟨qnanBits f, 0, if s then flNV else flNone⟩
  | .inf s => if s then ⟨qnanBits f, 0, flNV⟩ else
      let y := e.round f k (.inf false)
      ⟨y.bits, 0, y.fl⟩
  | .fin s n d =>
    if n == 0 then ⟨fenc f b.v, tagSqrt f b.t b.v, flNone⟩
    else if s then ⟨qnanBits f, 0, flNV⟩
    else
      let sh := 2 * (fmtP f + 40) + 2 * d.log2
      let m := n * 2 ^ sh / d
      let r := isqrt m
      let exact := r * r == m && n * 2 ^ sh % d == 0
      let x : XR := .fin false (2 * r + (if exact then 0 else 1)) (2 * 2 ^ (sh / 2))
      let y := e.round f k x
      ⟨y.bits, tagSqrt f b.t y.val, y.fl⟩

end Sys2Proof.Machine
end

