-- ==== Sys2Proof/Machine/State.lean ====
section
/-! DEFINITION. The state of the device as plain data, the reasons a step can stop, and the state after reset. -/
namespace Sys2Proof.Machine

/-- Sparse data by key: a list of key and value pairs; a key that is not listed has the default of its use. -/
abbrev Assoc (α : Type) := List (Nat × α)

/-- Byte memory in canonical form: addresses strictly rising, no byte 0; an unlisted address reads 0 (2). -/
abbrev Mem := List Host.Cell

/-- Memory that keeps a tag with every 32-bit word (R59, Table 7.1). `tags` maps a word index to 63 minus its tag,
so an unlisted word has tag FULL. -/
structure TMem where
  bytes : Mem
  tags : Mem
  deriving DecidableEq, Repr, Inhabited

/-- The contents of a vector register by shape: words and tags (R11, R16). `general` lists the 32 lane slots. -/
inductive RegVal where
  | uniform (w : Word) (t : Tag)
  | affine (w0 w1 : Word) (t : Tag)
  | general (ws : List (Word × Tag))
  deriving DecidableEq, Repr, Inhabited

/-- The shape codes of R11. -/
inductive Shape where | uniform | affine | general
  deriving DecidableEq, Repr, Inhabited

/-- Where a lane slot stands (R115, R117, R152, R150; the state byte of R327). `held a k m` is held at the WAITJ of Kk whose
word lies at address `a` and whose label gives MEET the value `m`. -/
inductive LaneState where
  | onPath | held (a : Addr) (k : Nat) (m : Addr) | exited | notLaunched | helper | ejected | donated
  deriving DecidableEq, Repr, Inhabited

/-- One copy of a batch (R222). -/
structure CopyOp where
  ds : CpSpace
  ss : CpSpace
  dst : Nat
  src : Nat
  len : Nat
  deriving DecidableEq, Repr, Inhabited

/-- The per-thread state of a lane slot other than vector registers and predicates (Table 1.1, R327); `byp` is what a lane that was
recalled inside a transient window still holds of it: register, word, tag, words left (R31, R157). -/
structure Lane where
  state : LaneState
  tid : Nat
  home : Nat
  homeUid : Nat
  gid : Nat
  pos : Nat
  meet : Addr
  h : List Word
  srcnt : Word
  next : Addr
  resume : Option Addr
  rank : Nat
  kfirst : Nat
  kcount : Nat
  ecount : Nat
  depth : Nat
  batch : List CopyOp
  accr : BitVec 7
  noEject : Bool
  byp : List (Nat × Word × Tag × Nat)
  deriving DecidableEq, Repr, Inhabited

/-- The counts NG, NA, NU of a node (R9). -/
structure Decl where
  ng : Nat
  na : Nat
  nu : Nat
  deriving DecidableEq, Repr, Inhabited

/-- A transient result on the bypass network (R31): register, value, write set, words still to issue. -/
structure Bypass where
  reg : Nat
  val : RegVal
  w : Mask
  left : Nat
  deriving DecidableEq, Repr, Inhabited

/-- A clause in a sequencer: header address, header word, instruction words, index of the next word (R60). -/
structure Clause where
  addr : Addr
  hdr : Addr
  words : List Addr
  pos : Nat
  deriving DecidableEq, Repr, Inhabited

/-- A trap record (Table 13.7). -/
structure TrapRecord where
  cause : Nat
  sub : Nat
  eng : Bool
  slot1 : Bool
  ej : Bool
  deferred : Bool
  lane : Nat
  lanes : Mask
  addr : Addr
  resume : Addr
  info0 : Word
  info1 : Word
  deriving DecidableEq, Repr, Inhabited

/-- What TRAPRET does for the cause of a trap (R322): the BPT trap, a precise trap, a deferred fault of access `id`,
an engine fault of matrix operation `id`, a fault of copy batch `id`, an instruction-fetch fault. -/
inductive ReturnKind where
  | bpt | precise | deferred (id : Nat) | matrix (id : Nat) | batch (id : Nat) | fetch
  deriving DecidableEq, Repr, Inhabited

/-- The trap frame of a group in a handler (R319); operations begun from identity `since` on are the handler's. -/
structure Frame where
  tr : TrapRecord
  kind : ReturnKind
  lanes : List (LaneState × Addr × Option Addr)
  active : Mask
  clause : Option Clause
  since : Nat
  repc : Nat
  reps : Addr
  deriving DecidableEq, Repr, Inhabited

/-- A trap that is due and not yet delivered (R201, R157, R257); `seq` is the place of its operation in issue order. -/
structure DueTrap where
  tr : TrapRecord
  kind : ReturnKind
  seq : Nat
  deriving DecidableEq, Repr, Inhabited

/-- What a gating word of the group waits for (R199): room in a table (R22, R223, R232); the accesses, and for `copies` the sealed
copies, of the threads of `w` (R183, R187); the accesses to the objects that lanes acquire (R177); handles (R225); the registers of
an accumulator layout, whose block was read at issue and whose earlier writes are those begun before `before` (R253); a semaphore
or tile descriptors, where `sat` marks the lanes whose condition has already held; a barrier; a collective. -/
inductive Gate where
  | none
  | room
  | accesses (w : Mask) (copies : Bool)
  | objects (need : List (Nat × Nat))
  | handles (need : List (Nat × Word))
  | accum (blk : List Word) (before : Nat)
  | sem (n : Nat) (need : List (Nat × Word)) (sat : Mask)
  | tile (full : Bool) (need : List (Nat × Nat)) (sat : Mask)
  | bar (pub : Bool)
  | nbar (pub : Bool)
  | regroup
  deriving DecidableEq, Repr, Inhabited

/-- The part of an ejected lane's context that a group has not (R153, R154, R157). -/
structure SleeveCtx where
  homeUid : Nat
  slot : Nat
  bound : Nat
  nest : Nat
  live0 : Mask
  status0 : Word
  trap : Option DueTrap
  arrived : Option Addr
  deriving DecidableEq, Repr, Inhabited

/-- The states of Table 6.1 of a group that has formed; `stopped` is the stop of R320, `issuing` holds the port of its core. A
Saved group stands in `State.saved` with the state it was saved in (R326); a Forming one holds nothing yet (R143). -/
inductive Phase where
  | waiting | issuing | held | yielded | retired | stopped
  deriving DecidableEq, Repr, Inhabited

/-- The role of a group in a merge (R149, R150): a host lists (host slot, donor slot) of its moved lanes; `whole` when the
donor keeps no live lane of its own. -/
inductive MergeRole where
  | none
  | host (donor : Nat) (moved : List (Nat × Nat)) (whole : Bool)
  | donor (host : Nat)
  deriving DecidableEq, Repr, Inhabited

/-- A group (`heldFor` and `heldSince` are its rejoin timer, R158), or the context of one ejected lane (then `sleeve` is given): Table 1.1 and R142 to R158. -/
structure Group where
  uid : Nat
  launch : Nat
  node : Nat
  wg : Nat
  gid : Nat
  gseq : Nat
  part : Nat
  core : Nat
  slot : Nat
  phase : Phase
  decl : Decl
  v : List RegVal
  p : List Mask
  k : List Mask
  cf : List Nat
  mode : Word
  status : Word
  repc : Nat
  reps : Addr
  launched : Mask
  live : Mask
  active : Mask
  helper : Mask
  lanes : List Lane
  joinBound : Option Nat
  clause : Option Clause
  buffer : List Clause
  window : List Bypass
  latch : List (Nat × Nat)
  quantum : Nat
  yldUntil : Nat
  readyAt : Option Nat
  yielded : Bool
  gate : Gate
  retPending : Option Bool
  frame : Option Frame
  due : List DueTrap
  merge : MergeRole
  sleeve : Option SleeveCtx
  ejectNext : Option Mask
  heldSince : Option Nat
  heldFor : Nat
  edgeUsed : List Nat
  nrec : Nat
  deriving DecidableEq, Repr, Inhabited

/-- An entry of a workgroup's handle table (R22). -/
structure HEntry where
  gen : Nat
  kind : Nat
  st : Nat
  freeAt : Nat
  deriving DecidableEq, Repr, Inhabited

/-- A record in a node's queue or in a record window, with its key, depth, source and arrival (R267, R270, R282); `store` is the store
of its slot: 0 record SRAM, 1 Mantle, 2 the spill region, 3 headroom of the spill region (R268, R272). -/
structure Rec where
  cls : Nat
  sacc : Nat
  snode : Nat
  sgseq : Nat
  eidx : Nat
  depth : Nat
  words : List Word
  tags : List Tag
  arrival : Nat
  time : Nat
  sender : Option Nat
  store : Nat
  deriving DecidableEq, Repr, Inhabited

/-- The life of a workgroup: a retired one stays named while its neighbourhood lives. -/
inductive WgState where | live | retired
  deriving DecidableEq, Repr, Inhabited

/-- A workgroup (R142, R163, R22, R279, R325). `nbr` is the identity of rank 0 of its neighbourhood, or its own. -/
structure Wg where
  uid : Nat
  launch : Nat
  node : Nat
  wgid : Nat
  wgrank : Nat
  nbr : Nat
  part : Nat
  core : Nat
  lcore : Nat
  sp : TMem
  spSize : Nat
  handles : List HEntry
  handleClock : Nat
  groups : List Nat
  regrouped : Bool
  restores : Nat
  preemptReq : Bool
  records : List Rec
  issueSeq : Nat
  state : WgState
  deriving DecidableEq, Repr, Inhabited

/-- An edge entry (Table 10.5). -/
structure Edge where
  maxout : Nat
  inc : Nat
  target : Nat
  deriving DecidableEq, Repr, Inhabited

/-- A launch record as read at launch start (Table 10.7). -/
structure LaunchRec where
  seed : Addr
  prvb : Nat
  prvs : Nat
  ordb : Nat
  ords : Nat
  tiles : Nat
  fs : List (List Addr)
  win : List (Nat × Nat)
  deriving DecidableEq, Repr, Inhabited

/-- The node kinds of Table 10.3. -/
inductive NodeKind where | lane | collect | broadcast | neighbourhood
  deriving DecidableEq, Repr, Inhabited

/-- A node entry as read at launch start (Tables 10.2 to 10.4), with its edges and its record size `z` in bytes. -/
structure Node where
  code : Addr
  modew : Word
  decl : Decl
  rtype : Nat
  z : Nat
  tileMap : Nat
  accel : Nat
  remote : Bool
  gto : Nat
  dbound : Nat
  pri : Nat
  kind : NodeKind
  binen : Bool
  binw : Nat
  goff : Nat
  nh : Nat
  nw : Nat
  cmax : Nat
  wgg : Nat
  prv : Nat
  scr : Nat
  edges : List Edge
  lrec : LaunchRec
  rport : Nat
  rnode : Nat
  pgrant : Nat
  deriving DecidableEq, Repr, Inhabited

/-- A staged update of an ORD page (R194, R195). -/
structure Staged where
  node : Nat
  gseq : Nat
  home : Nat
  idx : Nat
  seq : Nat
  va : Nat
  op : Aop
  data : List (Word × Tag)
  mode : Word
  deriving DecidableEq, Repr, Inhabited

/-- The permit pool of a proxy at the sender (R276 to R278). -/
structure Pool where
  granted : Option Nat
  avail : Nat
  deriving DecidableEq, Repr, Inhabited

/-- Slots a receiver holds for a remote sender, each by its store (R268, R276, R277): `permits` outstanding at the sender, `back`
permits batched for return since clock `backAt`. `told` is what the sender's scheduler has told of the nodes behind the proxy: for each,
a sequence number below which every workgroup has formed and retired (R282). -/
structure Receiver where
  sender : Nat
  accel : Nat
  node : Nat
  permits : List Nat
  back : List Nat
  backAt : Nat
  closed : Bool
  told : Assoc Nat
  deriving DecidableEq, Repr, Inhabited

/-- A reservation held by a group on an out-edge (R269): the slots not yet consumed, each by its store (R268), or as many permits. -/
structure Reserve where
  uid : Nat
  edge : Nat
  target : Nat
  slots : List Nat
  deriving DecidableEq, Repr, Inhabited

/-- A broadcast or neighbourhood record being launched: the workgroups still to form from it (R263). -/
structure Grid where
  node : Nat
  record : Rec
  left : Nat
  deriving DecidableEq, Repr, Inhabited

/-- A unit of a node with its records and its first GSEQ and WGID: in deterministic mode these are given in key order before the unit
forms (R283). -/
structure FormUnit where
  node : Nat
  recs : List Rec
  gseq : Nat
  wgid : Nat
  deriving DecidableEq, Repr, Inhabited

/-- A connect message held until its port opens (R276). -/
structure Connect where
  accel : Nat
  sender : Nat
  port : Nat
  rnode : Nat
  size : Nat
  deriving DecidableEq, Repr, Inhabited

/-- A graph launch (R260 to R284, R294). `ordIdx` counts the updates each thread has staged (R194). `ending` holds a completion
status once the launch ends early, `closing` one with which it ends after its groups have run to their end (Table 10.8). `headroomBy`
lists the workgroups of the unit that holds headroom, `waiters` the nodes and bins whose next unit waits for a reservation, the
earliest first (R272); `assigned` lists the units of a deterministic launch that have their numbers and have not formed (R283). -/
structure Launch where
  num : Nat
  part : Nat
  queue : Nat
  packet : Nat
  phaseTag : Nat × Nat × Bool
  det : Bool
  port : Option Nat
  entry : Nat
  nodes : List Node
  spillb : Nat
  spills : Nat
  mspill : Nat
  queues : List (List Rec)
  grids : List Grid
  nextWgid : List Nat
  nextGseq : List Nat
  arrivals : Nat
  pools : List Pool
  receivers : List Receiver
  reserves : List Reserve
  headroomBy : List Nat
  waiters : List (Nat × Nat)
  assigned : List FormUnit
  staged : List Staged
  ordIdx : Assoc Nat
  prvSeen : List Nat
  cpla : Nat
  ending : Option Nat
  closing : Option Nat
  deriving DecidableEq, Repr, Inhabited

/-- What an L-class access does in each of its lanes (R205 to R230). -/
inductive AccOp where
  | load (prv : Bool) (cp : LdCp) (t : LdTy)
  | store (prv : Bool) (t : StTy)
  | loadS (t : LdTy)
  | storeS (t : StTy)
  | loadH
  | storeH
  | atom (op : Aop)
  | red (op : Aop)
  | atoms (op : Aop)
  | bind (sc : Nat)
  | seminc (n : Nat)
  | semrd (n : Nat)
  | tileSet
  | tileBit (full : Bool)
  | emit
  | rdrec (t : WinTy)
  | enq (n : Nat)
  | rcsnap (n : Nat)
  | hintPin (on : Bool)
  | hintRep
  | hintDrop
  deriving DecidableEq, Repr, Inhabited

/-- The destination of an access: nothing, `n` registers from `r`, a predicate, a handle. -/
inductive AccDst where
  | none
  | regs (r n : Nat) (sh : Shape)
  | pred (p : Nat)
  | handle (h : Nat)
  deriving DecidableEq, Repr, Inhabited

/-- The part of one lane in an access: slot, thread, address, operand words with tags, and its outcome with its flags. `fault`
holds cause, sub-cause and address of a fault that waits for its replay (R201). -/
structure LaneReq where
  slot : Nat
  tid : Nat
  addr : Nat
  data : List (Word × Tag)
  data2 : List (Word × Tag)
  done : Bool
  res : List (Word × Tag)
  fl : BitVec 7
  fault : Option (Nat × Nat × Addr)
  deriving DecidableEq, Repr, Inhabited

/-- An L-class access in flight (R199): `seq` is its place in issue order, `issuer` the sequencer that issued it, `uid` the group
or context whose registers and flag it uses, `coll` whether it goes through the request collector (R171). -/
structure Access where
  id : Nat
  seq : Nat
  issuer : Nat
  uid : Nat
  wg : Nat
  op : AccOp
  cf : Option Nat
  dst : AccDst
  w : Mask
  lanes : List LaneReq
  same : Bool
  mode : Word
  pc : Addr
  noted : Bool
  coll : Bool
  deriving DecidableEq, Repr, Inhabited

/-- The run state of a sealed copy batch (R189, R223, R225). -/
inductive BatchState where | running | cancelling | faulted
  deriving DecidableEq, Repr, Inhabited

/-- A sealed copy batch (R223): `at` counts bytes of the first copy already moved. -/
structure Batch where
  id : Nat
  wg : Nat
  uid : Nat
  slot : Nat
  tid : Nat
  ent : Nat
  core : Nat
  part : Nat
  copies : List CopyOp
  moved : Nat
  sem : Option Nat
  cancellable : Bool
  state : BatchState
  deriving DecidableEq, Repr, Inhabited

/-- The kind of a matrix operation (R231). -/
inductive MopKind where
  | pass (k : PassKind)
  | mldf (w : FragSel) (sp : Bool)
  | mstf (t : MstTy) (rm : Nat)
  deriving DecidableEq, Repr, Inhabited

/-- The run state of a matrix operation: posted, running, stopped for a fault, stopping for cancellation or pre-emption. -/
inductive MopState where | posted | running | stopped | stopping
  deriving DecidableEq, Repr, Inhabited

/-- A matrix operation in a reservation table (R231, R232, R258): the block and bitmaps as read at issue, the slot words,
and its progress. -/
structure Mop where
  id : Nat
  wg : Nat
  uid : Nat
  slot : Nat
  ent : Nat
  core : Nat
  part : Nat
  kind : MopKind
  blk : List Word
  blkAddr : Nat
  bma : List Byte
  bmb : List Byte
  fs : List Addr
  base : Nat
  pitch : Nat
  start : Nat
  mode : Word
  cf : Option Nat
  tids : List Nat
  posted : Nat
  seq : Nat
  pri : Nat
  state : MopState
  granted : Bool
  step : Nat
  perf : Nat
  touched : Bool
  cancel : Bool
  stopClk : Option Nat
  flags : BitVec 7
  deriving DecidableEq, Repr, Inhabited

/-- A pending slice query (R228). -/
structure SliceQ where
  id : Nat
  wg : Nat
  uid : Nat
  slot : Nat
  ent : Nat
  core : Nat
  part : Nat
  key : Nat
  fill : Bool
  dst : Nat
  flushed : Bool
  deriving DecidableEq, Repr, Inhabited

/-- A line an L1 holds (R168): partition, virtual line address, 128 bytes, 32 tags. -/
structure L1Line where
  part : Nat
  va : Nat
  bytes : List Byte
  tags : List Tag
  deriving DecidableEq, Repr, Inhabited

/-- The open window of a request collector (R171); `lines` are its accesses, one for each 128-byte line of a partition. -/
structure Collector where
  gathers : Bool
  openedAt : Nat
  reqs : Nat
  groups : List Nat
  accs : List Nat
  lines : List Nat
  deriving DecidableEq, Repr, Inhabited

/-- The state of a core (R145, R161, R168, R171, R172, R303, R307). -/
structure Core where
  port : Option Nat
  rotation : Nat
  tag : Option (Nat × Nat × Nat)
  desc : Assoc Addr
  tile : TMem
  tileCore : Nat
  ev : List Addr
  l1 : List L1Line
  coll : Option Collector
  deriving DecidableEq, Repr, Inhabited

/-- One channel of a command link (R305): the sender's permits and epoch, the receiver's held messages. -/
structure Channel where
  permits : Nat
  epoch : Nat
  msgs : List (List Byte)
  returns : List Nat
  waitAck : Bool
  syncAt : Option Nat
  deriving DecidableEq, Repr, Inhabited

/-- A fragment held in an operand latch (R248): workgroup, descriptor word, format, lines, positions, bitmap. -/
structure OpLatch where
  wg : Nat
  desc : Word
  fmt : Nat
  lines : Nat
  npos : Nat
  bm : List Byte
  deriving DecidableEq, Repr, Inhabited

/-- The state of a cluster (R175, R147, R248, R305, R349). `clk` counts nanoseconds times the frequency in 50 MHz steps;
twenty of them are one clock (3). `nextF50` is a frequency that takes effect at the next clause boundary. -/
structure Cluster where
  clk : Nat
  f50 : Nat
  nextF50 : Option Nat
  sems : Assoc Word
  icache : List (Nat × Nat × Addr)
  latchA : Option OpLatch
  latchB : Option OpLatch
  down : Channel
  up : Channel
  deriving DecidableEq, Repr, Inhabited

/-- A packet in a queue's on-die buffer, or started and not complete (R292, R301): whether it was fetched from a JUMP buffer,
whether it stopped on a fault (R295), and the bytes a COPY has moved. -/
structure Packet where
  id : Nat
  words : List Addr
  jumped : Bool
  started : Bool
  failed : Bool
  moved : Nat
  deriving DecidableEq, Repr, Inhabited

/-- A queue (R299 to R303). -/
structure Queue where
  base : Addr
  ctl : Addr
  widx : Addr
  ridx : Addr
  phase : Addr
  ici : Bool
  errc : Nat
  st : Nat
  srec : Addr
  pending : Bool
  packets : List Packet
  jump : Option (Nat × Nat)
  deriving DecidableEq, Repr, Inhabited

/-- A page-table entry held by a translation buffer (R316): partition, page number, page size in bits, entry. -/
structure TlbEntry where
  vpn : Nat
  bits : Nat
  pte : Addr
  deriving DecidableEq, Repr, Inhabited

/-- A resident slice copy (R329): key, frame number, die, replica mark. -/
structure SliceFrame where
  key : Nat
  frame : Nat
  die : Nat
  replica : Bool
  deriving DecidableEq, Repr, Inhabited

/-- A partition (R309 to R330). `egress` lists the entries of REMOTE pages that an invalidation has named and the UALink egress
buffers still hold, each with the clock of the invalidation (E003). -/
structure Partition where
  cfg : Addr
  ptroot : Addr
  qos : Addr
  carve : Addr
  slice : Addr
  slicec : Addr
  sliceb : Addr
  slicew : Addr
  shapeb : Addr
  saveb : Addr
  saves : Addr
  ranges : Addr
  qrange : Addr
  flog : Addr
  tlbinv : Addr
  shapec : Addr
  flogw : Nat
  flogr : Nat
  flogLost : Bool
  thand : List Addr
  tlb : List TlbEntry
  egress : List (TlbEntry × Nat)
  routing : Assoc Word
  frames : List SliceFrame
  pins : List Nat
  deriving DecidableEq, Repr, Inhabited

/-- The saved image of a workgroup: its groups, matrix operations, faulting accesses and batches, and tile state (R326, R327),
beside its bytes in the save region. -/
structure Saved where
  wg : Wg
  groups : List Group
  mops : List Mop
  accs : List Access
  batches : List Batch
  tile : Option (Assoc Addr × TMem)
  base : Nat
  size : Nat
  deriving DecidableEq, Repr, Inhabited

/-- An ECC mark (R336): structure and index or physical address, and whether the granule is uncorrectable; a mark that is not `bad` is a
Mantle line that stays locked in its way. -/
structure EccMark where
  region : Nat
  loc : Nat
  bad : Bool
  deriving DecidableEq, Repr, Inhabited

/-- A location-table entry (R337). -/
structure LocEntry where
  loc : Nat
  t1 : Option Nat
  t2 : Nat
  lasting : Bool
  deriving DecidableEq, Repr, Inhabited

/-- The RAS block and the error engines (R335 to R343): `unspared` lists the units for which a kind 5 record stands, `boundary` holds
what PRELOAD has put into the boundary register. -/
structure Ras where
  ctl : Addr
  logb : Addr
  logi : Nat
  logr : Nat
  lost : Bool
  locs : Assoc (List LocEntry)
  rate : Assoc Nat
  counts : Assoc Nat
  seen : List (Nat × Nat)
  unspared : List (Nat × Nat)
  marks : List EccMark
  spared : List (Nat × Nat)
  sparesUsed : Assoc Nat
  frozen : Bool
  tapOut : List Byte
  lastScrub : Assoc Nat
  toRetire : List Nat
  boundary : List Byte
  deriving DecidableEq, Repr, Inhabited

/-- Boot, identity and attestation (R344 to R348). -/
structure Boot where
  state : Nat
  force : Bool
  att : Bool
  rpt : Bool
  rlen : Nat
  cfg : Addr
  cfgn : Addr
  retire : Addr
  wlen : Addr
  nonce : List Byte
  asked : List Byte
  report : List Byte
  flash : List Byte
  window : Mem
  dbg : Bool
  version : Nat
  measure : List Byte
  confDigest : List Byte
  aliasSeed : List Byte
  aliasCert : List Byte
  keysCleared : Bool
  repairMap : List (Addr × Addr)
  deriving DecidableEq, Repr, Inhabited

/-- Power (R349): the host's cap in watts; powered down. -/
structure Power where
  capW : Nat
  off : Bool
  deriving DecidableEq, Repr, Inhabited

/-- What the outside world does that is no row of the table (1): host stores to memory, cache and buffer replacement,
loads and stores of the host to register blocks (`vf` names a virtual function), soft errors, progress of engines inside one operation,
changes of the UALink domain and what its schedulers tell (R282), the cleaning of the UALink egress buffers (E003). -/
inductive Env where
  | hostStore (pa : Nat) (bs : List Byte)
  | hostStoreVa (part va : Nat) (bs : List Byte)
  | hostLoad (vf : Option Nat) (off : Nat)
  | vfWrite (vf off : Nat) (v : Addr)
  | bootWindow (off : Nat) (bs : List Byte)
  | bootNonce (bs : List Byte)
  | flashImage (bs : List Byte)
  | l1Replace (core part va : Nat)
  | icacheReplace (cluster part va : Nat)
  | tlbDrop (part vpn bits : Nat)
  | softError (region loc : Nat) (bad : Bool)
  | mantleEvict (region loc : Nat)
  | matrixBlock (id : Nat)
  | copyStep (id : Nat)
  | openRange (base size : Nat)
  | peer (accel : Nat) (up : Bool)
  | retiredTo (l n accel sender snode bound : Nat)
  | egressClean (part : Nat)
  | linkFree (cluster : Nat) (up : Bool)
  | linkReset (cluster : Nat) (up : Bool)
  | capW (w : Nat)
  deriving DecidableEq, Repr, Inhabited

/-- One turn: an event, the issue of a word, time passing, or an act of the outside world (1, 3). -/
inductive Turn where
  | ev (i : Instr)
  | issue (p : IssuePort)
  | tick (ns : Nat)
  | env (e : Env)
  deriving DecidableEq, Repr, Inhabited

/-- A message that this accelerator sends to another over UALink (R275 to R278): to the launch and proxy that `launch` and
`proxy` name at the receiver of the message, or to the port and node; and the answers to accesses of R316. -/
inductive Msg where
  | connect (launch proxy port rnode size : Nat)
  | grant (launch proxy permits : Nat)
  | record (port rnode : Nat) (r : RecMsg)
  | permits (launch proxy permits : Nat)
  | close (port rnode launch : Nat)
  | report (launch proxy held : Nat)
  | reply (bs : List Byte)
  | refused
  deriving DecidableEq, Repr, Inhabited

/-- The state of the module. -/
structure State where
  agenda : List Turn
  cur : Option Nat
  uidNext : Nat
  freeCtr : Nat
  time : Nat
  mem : Mem
  clusters : Assoc Cluster
  cores : Assoc Core
  parts : Assoc Partition
  queues : Assoc Queue
  scan : List Nat
  dsems : Assoc Addr
  posted : List (Nat × Nat)
  hostData : Addr
  launches : List Launch
  launchNext : Nat
  connects : List Connect
  sent : List (Nat × Msg)
  wgs : List Wg
  groups : List Group
  accs : List Access
  batches : List Batch
  mops : List Mop
  sliceqs : List SliceQ
  saved : List Saved
  openRanges : List (Nat × Nat)
  peers : List Nat
  retired : Addr
  ras : Ras
  boot : Boot
  power : Power
  deriving DecidableEq, Repr, Inhabited

/-- The reasons a step stops with a fault. -/
inductive Fault where
  /-- Raised by every step of a frozen module but a module reset or TAP read: "Only module reset leaves a freeze" (R342). Safe. -/
  | frozen
  /-- Raised by every step of a module that powered down at 115 °C (R349) but a power-on. Safe. -/
  | poweredDown
  deriving DecidableEq, Repr, Inhabited

/-- The reasons a step has no meaning. -/
inductive Refusal where
  /-- An instruction whose meaning is not written yet. Safe. -/
  | notModelled (mnemonic : String)
  /-- Raised by the meaning of an instruction word when no group and no Sleeve context issues: no word can issue then. Safe. -/
  | noIssuer
  deriving DecidableEq, Repr, Inhabited

/-- An empty tagged memory: zero bytes with tag FULL (R163). -/
def TMem.empty : TMem := ⟨[], []⟩

/-- A free command-link channel: eight permits (R305). -/
def Channel.reset : Channel := ⟨8, 0, [], [], false, none⟩

/-- A core at module reset (R145, R161, R172). -/
def Core.reset : Core := ⟨none, 0, none, [], TMem.empty, 0, List.replicate 8 0, [], none⟩

/-- A cluster at module reset (R175, R349). -/
def Cluster.reset : Cluster := ⟨0, 26, none, [], [], none, none, Channel.reset, Channel.reset⟩

/-- A queue at module reset (Tables 12.4, 12.5): RLOG 6 and FETCHW aside, every field 0. -/
def Queue.reset : Queue := ⟨0, 0x600, 0, 0, 0, false, 0, 0, 0, false, [], none⟩

/-- A partition at module reset (Tables 13.2, 13.3): MATW 1, FETCHW 8. -/
def Partition.reset : Partition :=
  ⟨0, 0, 0x10008, 0, 0, 0, 0, 0, 0, 0, 0, 0, 0, 0, 0, 0, 0, 0, false, List.replicate 13 0, [], [], [], [], []⟩

/-- The RAS block at module reset (Table 15.4): RTH 1,000, AREP 1. -/
def Ras.reset : Ras := ⟨0x3E80001, 0, 0, 0, false, [], [], [], [], [], [], [], [], false, [], [], [], []⟩

/-- The boot block at module reset (Tables 15.7b, 15.7c). -/
def Boot.reset : Boot :=
  ⟨0, false, false, false, 0, 0, 0, 0, 0, List.replicate 32 0, [], [], [], [], false, 0, [], [], [], [], false, []⟩

/-- The module right after reset: no partition enabled, no launch, no group, no turn waiting. -/
def State.reset : State where
  agenda := []
  cur := none
  uidNext := 0
  freeCtr := 0
  time := 0
  mem := []
  clusters := []
  cores := []
  parts := []
  queues := []
  scan := [0, 0, 0, 0]
  dsems := []
  posted := []
  hostData := 0
  launches := []
  launchNext := 1
  connects := []
  sent := []
  wgs := []
  groups := []
  accs := []
  batches := []
  mops := []
  sliceqs := []
  saved := []
  openRanges := []
  peers := []
  retired := 0
  ras := Ras.reset
  boot := Boot.reset
  power := ⟨3400, false⟩

end Sys2Proof.Machine
end

