-- ==== Sys2Proof/Machine/Mem.lean ====
section
/-! DEFINITION. Byte memory in canonical form, memory with tags, and the tables keyed by number. -/
namespace Sys2Proof.Machine
open Sys2Proof

/-- Reads a table by key, with a default. -/
def aget {α : Type} (d : α) : Assoc α → Nat → α
  | [], _ => d
  | (k, v) :: m, i => if k = i then v else aget d m i

/-- Writes a table at a key, keeping the keys rising. -/
def aset {α : Type} : Assoc α → Nat → α → Assoc α
  | [], i, v => [(i, v)]
  | (k, w) :: m, i, v => if i < k then (i, v) :: (k, w) :: m else if i = k then (i, v) :: m else (k, w) :: aset m i v

/-- Changes the elements of a list that satisfy a condition. -/
def updWhere {α : Type} (p : α → Bool) (f : α → α) (l : List α) : List α := l.map fun x => if p x then f x else x

/-- Changes the element at an index. -/
def modAt {α : Type} (f : α → α) : Nat → List α → List α
  | _, [] => []
  | 0, x :: xs => f x :: xs
  | n + 1, x :: xs => x :: modAt f n xs

/-- The canonical form: addresses strictly rising from `lo`, and no byte 0 listed (2). -/
def memWfFrom : Nat → Mem → Bool
  | _, [] => true
  | lo, (a, b) :: m => lo ≤ a && b != 0 && memWfFrom (a + 1) m

/-- The canonical form of a memory (2). -/
def Memory.wf (m : Mem) : Bool := memWfFrom 0 m

/-- The byte at an address; an unlisted address reads 0 (2). -/
def memGet : Mem → Nat → Byte
  | [], _ => 0
  | (c, x) :: m, a => if c = a then x else memGet m a

/-- Writes a byte, keeping the canonical form. -/
def memSet : Mem → Nat → Byte → Mem
  | [], a, b => if b = 0 then [] else [(a, b)]
  | (c, x) :: m, a, b =>
    if a < c then (if b = 0 then (c, x) :: m else (a, b) :: (c, x) :: m)
    else if a = c then (if b = 0 then m else (a, b) :: m)
    else (c, x) :: memSet m a b

/-- The `n` bytes from an address. -/
def memRead (m : Mem) (a n : Nat) : List Byte := (upFrom a n).map (memGet m)

/-- Writes bytes from an address up. -/
def memWrite : Mem → Nat → List Byte → Mem
  | m, _, [] => m
  | m, a, b :: bs => memWrite (memSet m a b) (a + 1) bs

/-- The number that `n` bytes from an address hold (R7). -/
def memNum (m : Mem) (a n : Nat) : Nat := ofBytes (memRead m a n)

/-- Whether a tagged memory is in canonical form. -/
def tmemWf (m : TMem) : Bool := Memory.wf m.bytes && Memory.wf m.tags

/-- The tag of the word at word index `w` of a tagged memory; an unlisted word has FULL (R163). -/
def tmTag (m : TMem) (w : Nat) : Tag := 63 - (memGet m.tags w).toNat

/-- Sets the tag of a word. -/
def tmSetTag (m : TMem) (w : Nat) (t : Tag) : TMem := { m with tags := memSet m.tags w (BitVec.ofNat 8 (63 - t)) }

/-- Sets the tags of the words that bytes `a` to `a + n - 1` touch. -/
def tmSetTags (m : TMem) (a n : Nat) (t : Tag) : TMem :=
  (upFrom (a / 4) ((a + n + 3) / 4 - a / 4)).foldl (fun m w => tmSetTag m w t) m

/-- A tag code read from a byte of memory: [7:6] ignored, 54 to 62 become 0 (R58, R59). -/
def tagOfByte (b : Byte) : Tag := let c := b.toNat % 64; if 53 < c && c < 63 then 0 else c

/-- The host-link address space, where host memory lies, begins at this key (15). -/
abbrev hostBase : Nat := 2 ^ 64

/-- The key of a physical address of this accelerator: bit 51 names host memory (R315, 15). -/
def physKey (pa : Nat) : Nat := if pa < 2 ^ 51 then pa else hostBase + (pa - 2 ^ 51)

/-- The key of a physical address of accelerator `acc` in the domain (R316). -/
def remoteKey (acc pa : Nat) : Nat := 2 ^ 72 * (acc + 1) + pa

end Sys2Proof.Machine
end

