-- ==== Sys2Proof/Machine/Philox.lean ====
section
/-! DEFINITION. Philox4x32-10 (R108). -/
namespace Sys2Proof.Machine
open Sys2Proof

/-- One round: the counter words and the key words (R108). -/
def philoxRound (c : Nat × Nat × Nat × Nat) (k0 k1 : Nat) : Nat × Nat × Nat × Nat :=
  let pA := 0xD2511F53 * c.1
  let pB := 0xCD9E8D57 * c.2.2.1
  let lo (v : Nat) : Nat := v % 2 ^ 32
  let hi (v : Nat) : Nat := v / 2 ^ 32
  ((hi pB ^^^ c.2.1) ^^^ k0, lo pB, (hi pA ^^^ c.2.2.2) ^^^ k1, lo pA)

/-- `n` rounds from a key. -/
def philoxRounds : Nat → Nat × Nat × Nat × Nat → Nat → Nat → Nat × Nat × Nat × Nat
  | 0, c, _, _ => c
  | n + 1, c, k0, k1 => philoxRounds n (philoxRound c k0 k1) ((k0 + 0x9E3779B9) % 2 ^ 32) ((k1 + 0xBB67AE85) % 2 ^ 32)

/-- philox4x32_10 of a counter and a key (R108). -/
def philox (c0 c1 c2 c3 k0 k1 : Nat) : List Nat :=
  let r := philoxRounds 10 (c0, c1, c2, c3) k0 k1
  [r.1, r.2.1, r.2.2.1, r.2.2.2]

end Sys2Proof.Machine
end

