-- ==== Sys2Proof/Machine/Ops.lean ====
section
/-! DEFINITION. The named operations over the state: groups, registers, lanes, handles, translation, clauses, and the one
operation that takes a trap with its return (R319 to R324). -/
namespace Sys2Proof.Machine
open Sys2Proof

/-- The outcome of a step of this machine. -/
abbrev Out := Host.Outcome State Fault Refusal

/-- Inserts into a list sorted by a key; equal keys keep their order. -/
def insertBy {α : Type} (key : α → Nat) (x : α) : List α → List α
  | [] => [x]
  | y :: ys => if key x ≤ key y then x :: y :: ys else y :: insertBy key x ys

/-- Sorts a list by a key; equal keys keep their order. -/
def sortBy {α : Type} (key : α → Nat) (l : List α) : List α := l.foldr (insertBy key) []

/-! ## Finding and changing parts of the state -/

/-- A group by its identity. -/
def State.group? (s : State) (uid : Nat) : Option Group := s.groups.find? (fun g => g.uid == uid)
/-- A group that is known to exist. -/
def State.group (s : State) (uid : Nat) : Group := (s.group? uid).getD default
/-- Replaces a group. -/
def State.setGroup (s : State) (g : Group) : State := { s with groups := updWhere (fun h => h.uid == g.uid) (fun _ => g) s.groups }
/-- Changes a group by its identity. -/
def State.modGroup (s : State) (uid : Nat) (f : Group → Group) : State :=
  { s with groups := updWhere (fun h => h.uid == uid) f s.groups }
/-- A workgroup by its identity. -/
def State.wg? (s : State) (uid : Nat) : Option Wg := s.wgs.find? (fun w => w.uid == uid)
/-- A workgroup that is known to exist. -/
def State.wg (s : State) (uid : Nat) : Wg := (s.wg? uid).getD default
/-- Changes a workgroup. -/
def State.modWg (s : State) (uid : Nat) (f : Wg → Wg) : State := { s with wgs := updWhere (fun w => w.uid == uid) f s.wgs }
/-- A launch by its number. -/
def State.launch? (s : State) (n : Nat) : Option Launch := s.launches.find? (fun l => l.num == n)
/-- A launch that is known to exist. -/
def State.launch (s : State) (n : Nat) : Launch := (s.launch? n).getD default
/-- Changes a launch. -/
def State.modLaunch (s : State) (n : Nat) (f : Launch → Launch) : State :=
  { s with launches := updWhere (fun l => l.num == n) f s.launches }
/-- A core. -/
def State.core (s : State) (c : Nat) : Core := aget Core.reset s.cores c
/-- Changes a core. -/
def State.modCore (s : State) (c : Nat) (f : Core → Core) : State := { s with cores := aset s.cores c (f (s.core c)) }
/-- A cluster; one that nothing has changed since module reset runs at its reset clock (3). -/
def State.cluster (s : State) (c : Nat) : Cluster := aget { Cluster.reset with clk := s.time * Cluster.reset.f50 } s.clusters c
/-- Changes a cluster. -/
def State.modCluster (s : State) (c : Nat) (f : Cluster → Cluster) : State := { s with clusters := aset s.clusters c (f (s.cluster c)) }
/-- A partition. -/
def State.part (s : State) (n : Nat) : Partition := aget Partition.reset s.parts n
/-- Changes a partition. -/
def State.modPart (s : State) (n : Nat) (f : Partition → Partition) : State := { s with parts := aset s.parts n (f (s.part n)) }
/-- A queue. -/
def State.queue (s : State) (q : Nat) : Queue := aget Queue.reset s.queues q
/-- Changes a queue. -/
def State.modQueue (s : State) (q : Nat) (f : Queue → Queue) : State := { s with queues := aset s.queues q (f (s.queue q)) }
/-- The cluster of a core (R1). -/
def clusterOf (core : Nat) : Nat := core / 4
/-- The die of a cluster. -/
def dieOf (cluster : Nat) : Nat := cluster / 16
/-- The clock of a core's cluster, in whole clocks (3). -/
def State.clock (s : State) (core : Nat) : Nat := (s.cluster (clusterOf core)).clk / 20
/-- Whether no clause of a cluster is under way: no core holds its port, and no Sleeve context is in a clause. -/
def State.clusterIdle (s : State) (c : Nat) : Bool :=
  ((upFrom (4 * c) 4).all fun k => (s.core k).port.isNone) && s.groups.all fun g => g.sleeve.isNone || g.clause.isNone || clusterOf g.core != c
/-- A frequency that waits for a clause boundary takes effect (R349). -/
def Cluster.takeClock (c : Cluster) : Cluster := match c.nextF50 with | some f => { c with f50 := f, nextF50 := none } | none => c
/-- Sets the frequency of a cluster, from its next clause boundary on (R349). -/
def State.setClock (s : State) (c f50 : Nat) : State :=
  let s := s.modCluster c fun k => { k with nextF50 := some f50 }
  if s.clusterIdle c then s.modCluster c Cluster.takeClock else s
/-- The highest frequency under the host's cap (R349, 37): 0.4 GHz to 1.3 GHz. -/
def State.clockCap (s : State) : Nat := max 8 (min 26 (Config.capClock s.power.capW))
/-- The node entry a group runs. -/
def State.nodeOf (s : State) (g : Group) : Node := (s.launch g.launch).nodes.getD g.node default
/-- A fresh identity. -/
def State.fresh (s : State) : Nat × State := (s.uidNext, { s with uidNext := s.uidNext + 1 })

/-- Whether a cluster is retired (R341). -/
def State.clusterRetired (s : State) (c : Nat) : Bool := s.retired.getLsbD c
/-- The clusters of a partition that run, ascending (R310, R341). -/
def State.partClusters (s : State) (n : Nat) : List Nat :=
  let cfg := (s.part n).cfg.toNat
  (upFrom (bits cfg 7 3 * 8) (8 * (bits cfg 10 3 + 1))).filter (fun c => !s.clusterRetired c)
/-- The cores of a partition by partition core index (R306). -/
def State.partCores (s : State) (n : Nat) : List Nat := (s.partClusters n).flatMap fun c => [4 * c, 4 * c + 1, 4 * c + 2, 4 * c + 3]
/-- The core that logical core `l` maps to (R306). -/
def State.logicalCore (s : State) (n l : Nat) : Nat :=
  let cs := s.partCores n
  cs.getD (l % cs.length) 0
/-- The accelerator id (Table 13.2). -/
def State.accel (s : State) (n : Nat) : Nat := bits (s.part n).cfg.toNat 16 8
/-- The clock that a partition's graph scheduler counts by (R264, R277), in whole clocks: that of the lowest cluster of the partition
that runs. DESIGN CHOICE (22, 23): the spec names no cluster for those waits. -/
def State.partClock (s : State) (n : Nat) : Nat := (s.cluster ((s.partClusters n).headD 0)).clk / 20
/-- Posts vector `v`; the owner is a partition 0 to 7, or 8 for the physical function (R312, R338). -/
def State.post (s : State) (owner v : Nat) : State := { s with posted := s.posted ++ [(owner, v)] }

/-! ## Lanes -/

/-- The lane record of a slot. -/
def Group.lane (g : Group) (l : Nat) : Lane := g.lanes.getD l default
/-- Changes the lane record of a slot. -/
def Group.modLane (g : Group) (l : Nat) (f : Lane → Lane) : Group := { g with lanes := modAt f l g.lanes }
/-- Changes the lane records of the slots in a mask. -/
def Group.modLanes (g : Group) (m : Mask) (f : Nat → Lane → Lane) : Group :=
  { g with lanes := g.lanes.mapIdx fun l x => if m.getLsbD l then f l x else x }
/-- A predicate in a lane; P63 reads true (R18). -/
def Group.pred (g : Group) (p l : Nat) : Bool := p == 63 || (g.p.getD p 0).getLsbD l
/-- The lanes in which a guard passes (R65, R34). -/
def Group.guard (g : Group) (gp : Nat) (gn : Bool) : Mask :=
  let m : Mask := if gp == 63 then BitVec.allOnes 32 else g.p.getD gp 0
  if gn then ~~~m else m
/-- writeSet (R34). -/
def Group.writeSet (g : Group) (gp : Nat) (gn : Bool) : Mask := g.active &&& g.guard gp gn &&& ~~~g.helper
/-- The mask of the positions of the slots in a mask (R129). -/
def Group.posMask (g : Group) (m : Mask) : Mask := maskOf ((maskBits m).map fun l => (g.lane l).pos)
/-- The slots ordered by ascending position (R200). -/
def Group.byPos (g : Group) (m : Mask) : List Nat :=
  sortBy (fun l => (g.lane l).pos) (maskBits m)
/-- Whether MODE governs with SIGTE and EJT at 0, in a handler (R319). -/
def Group.inHandler (g : Group) : Bool := g.frame.isSome
/-- MODE.SIGTE as it acts. -/
def Group.sigte (g : Group) : Bool := modeSigte g.mode && !g.inHandler

/-! ## Vector registers -/

/-- The number of declared registers (R9). -/
def Decl.total (d : Decl) : Nat := d.ng + d.na + d.nu
/-- Rank of a shape: uniform, affine, general. -/
def Shape.rank : Shape → Nat | .uniform => 0 | .affine => 1 | .general => 2
/-- The capacity of a register (R9). -/
def Decl.capacity (d : Decl) (r : Nat) : Shape := if r < d.ng then .general else if r < d.ng + d.na then .affine else .uniform
/-- The shape of a register's contents (R11). -/
def RegVal.shape : RegVal → Shape | .uniform .. => .uniform | .affine .. => .affine | .general _ => .general
/-- The value that the lane in slot `l` with home lane `h` reads (R11). -/
def RegVal.at (v : RegVal) (l h : Nat) : Word × Tag :=
  match v with
  | .uniform w t => (w, t)
  | .affine w0 w1 t => (w0 + BitVec.ofNat 32 h * w1, t)
  | .general ws => ws.getD l (0, FULL)
/-- The value at formation: +0, uniform, FULL (Table 1.1). -/
def RegVal.zero : RegVal := .uniform 0 FULL
/-- The stored contents of a register. -/
def Group.reg (g : Group) (r : Nat) : RegVal := g.v.getD r RegVal.zero
/-- The stored word of a register in a lane. -/
def Group.stored (g : Group) (r l : Nat) : Word × Tag := (g.reg r).at l (g.lane l).home
/-- What a lane reads: the newest open bypass result of the register whose write set holds the lane, else the stored word (R31, R34). -/
def Group.read (g : Group) (r l : Nat) : Word × Tag :=
  match g.window.find? (fun b => b.reg == r && b.w.getLsbD l) with
  | some b => b.val.at l (g.lane l).home
  | none => g.stored r l
/-- A register's contents as a whole, seen through the bypass (R31). -/
def Group.view (g : Group) (r : Nat) : RegVal :=
  match g.window.find? (fun b => b.reg == r) with
  | none => g.reg r
  | some b => if g.live &&& ~~~b.w == 0 then b.val else .general (laneSlots.map (g.read r))
/-- The register as 32 words by slot. -/
def Group.spread (g : Group) (r : Nat) : List (Word × Tag) := laneSlots.map (g.stored r)
/-- Whether a write set covers every live lane that the result's shape depends on (R13, R15). -/
def Group.covers (g : Group) (w : Mask) : Bool :=
  g.sleeve.isNone && g.live &&& ~~~w == 0 && (match g.merge with | .host _ _ whole => whole | _ => true)

/-- The contents a register takes by a write of `v` in the lanes of `w`: R12's shape only when the write set covers every
live lane, else general with the other lanes kept (R13). -/
def Group.merged (g : Group) (r : Nat) (w : Mask) (v : RegVal) : RegVal :=
  if g.covers w then
    match v with
    | .general ws => .general (laneSlots.map fun l => if w.getLsbD l then ws.getD l (0, FULL) else g.stored r l)
    | v => v
  else .general (laneSlots.map fun l => if w.getLsbD l then v.at l (g.lane l).home else g.stored r l)

/-- The shape a write of shape `sh` takes with the write set `w` (R13). -/
def Group.shapeOf (g : Group) (w : Mask) (sh : Shape) : Shape := if g.covers w then sh else .general

/-- A trap that an instruction raises: cause and sub-cause, the lanes concerned as slots, the faulting address where it is
not the word's, INFO0 and INFO1, the P-form slot, and whether the instruction completes first (Tables 13.6, 13.7). -/
structure Trap where
  cause : Nat
  sub : Nat
  lanes : Mask
  addr : Option Addr
  info0 : Word
  info1 : Word
  slot1 : Bool
  after : Bool
  deriving DecidableEq, Repr, Inhabited

/-- A trap with no address of its own and no second information word. -/
def trapOf (cause sub : Nat) (lanes : Mask) (info0 : Word) : Trap := ⟨cause, sub, lanes, none, info0, 0, false, false⟩

/-- The trap causes of Table 13.6. -/
abbrev cILLEGAL : Nat := 1
/-- Table 13.6. -/
abbrev cSIGLOSS : Nat := 2
/-- Table 13.6. -/
abbrev cUNIMIS : Nat := 3
/-- Table 13.6. -/
abbrev cEJECTILL : Nat := 4
/-- Table 13.6. -/
abbrev cSCOPEMIS : Nat := 5
/-- Table 13.6. -/
abbrev cOVERDRAW : Nat := 6
/-- Table 13.6. -/
abbrev cDEPTH : Nat := 7
/-- Table 13.6. -/
abbrev cPARAMUNB : Nat := 8
/-- Table 13.6. -/
abbrev cDATAERR : Nat := 9
/-- Table 13.6. -/
abbrev cMEMFLT : Nat := 10
/-- Table 13.6. -/
abbrev cPRIV : Nat := 11
/-- Table 13.6. -/
abbrev cBPT : Nat := 12

/-- The bound above which an ejected lane may not touch general-capacity registers (R124). -/
def Group.beyondBound (g : Group) (r : Nat) : Bool :=
  match g.sleeve with
  | none => false
  | some x => x.bound < r && r < g.decl.ng

/-- Whether register `r` can take shape `sh` with write set `w`, else the trap: "shape capacity" (R13, R15). -/
def Group.writable (g : Group) (r : Nat) (w : Mask) (sh : Shape) : Option Trap :=
  if w == 0 then none
  else if (g.decl.capacity r).rank < (g.shapeOf w sh).rank then some (trapOf cILLEGAL 0x10 g.active (BitVec.ofNat 32 r))
  else none

/-- A write of a register ends its open bypass results and its operand latch (R31, R33). -/
def Group.settled (g : Group) (r : Nat) : Group :=
  { g with window := g.window.filter (fun b => b.reg != r), latch := g.latch.filter (fun x => x.2 != r) }

/-- Stores a register write (R34 writeResult): nothing for an empty write set; open bypass results of the register end (R31). -/
def Group.put (g : Group) (r : Nat) (w : Mask) (v : RegVal) : Group :=
  if w == 0 then g
  else ({ g with v := modAt (fun _ => g.merged r w v) r g.v }).settled r

/-- Stores the words of a load or another late result in the lanes of `w` that are still live (R126), with the shape `sh` that R13
gave the write when its instruction issued. -/
def Group.putLate (g : Group) (r : Nat) (w : Mask) (sh : Shape) (ws : List (Word × Tag)) : Group :=
  if w == 0 then g
  else
    let x := ws.headD (0, FULL)
    let v : RegVal := match sh with
      | .uniform => .uniform x.1 x.2
      | _ => .general (laneSlots.map fun l => if w.getLsbD l then ws.getD l (0, FULL) else g.stored r l)
    ({ g with v := modAt (fun _ => v) r g.v }).settled r

/-- Writes a predicate in the lanes of `w`; a write to P63 is discarded (R18). -/
def Group.putPred (g : Group) (p : Nat) (w m : Mask) : Group :=
  if p == 63 then g else { g with p := modAt (fun old => (old &&& ~~~w) ||| (m &&& w)) p g.p }

/-- Whether a slot holds a lane moved here by a merge (R150). -/
def Group.isMoved (g : Group) (l : Nat) : Bool :=
  match g.merge with | .host _ moved _ => moved.any (fun x => x.1 == l) | _ => false

/-- ORs the flags of a lane into STATUS; beside a lane that is ejected or merged, or whose home group is another, they accrue
(R27, `State.postFlags`). -/
def Group.raise (g : Group) (l : Nat) (f : FlagSet) : Group :=
  if f == 0 then g
  else if g.sleeve.isSome || g.isMoved l || (g.lane l).homeUid != g.uid then g.modLane l (fun x => { x with accr := x.accr ||| f })
  else { g with status := orStatus g.status f }

/-- Raises flags in every lane of a mask. -/
def Group.raiseAll (g : Group) (w : Mask) (f : Nat → FlagSet) : Group := (maskBits w).foldl (fun g l => g.raise l (f l)) g

/-- Brings the accrued flags of the lanes that run in a group, and are not merged into it, to the STATUS of their home groups (R27). -/
def State.postFlags (s : State) (uid : Nat) : State :=
  match s.group? uid with
  | none => s
  | some g =>
    let ls := laneSlots.filter fun l => g.sleeve.isNone && (g.lane l).accr != 0 && !g.isMoved l
    if ls.isEmpty then s
    else ls.foldl (fun s l => s.modGroup (g.lane l).homeUid fun h => { h with status := orStatus h.status (g.lane l).accr })
      (s.modGroup uid fun h => h.modLanes (maskOf ls) fun _ x => { x with accr := 0 })

/-! ## Completion flags and handles -/

/-- Adds one to a completion flag (R23). -/
def Group.cfInc (g : Group) (i : Option Nat) : Group := match i with | none => g | some i => { g with cf := modAt (· + 1) i g.cf }
/-- Takes one from a completion flag (R23). -/
def Group.cfDec (g : Group) (i : Option Nat) : Group := match i with | none => g | some i => { g with cf := modAt (· - 1) i g.cf }

/-- A handle word (Table 1.5). -/
def handleWord (st kind gen ent : Nat) : Word := BitVec.ofNat 32 (st * 2 ^ 30 + kind * 2 ^ 27 + gen * 2 ^ 8 + ent)

/-- The entry that has been free for longest, the lowest number first (R22). -/
def freeEntry (hs : List HEntry) : Nat :=
  let r := hs.zipIdx.foldl (fun (b : Option (Nat × Nat)) x =>
    if x.1.st == 1 then b else match b with
      | none => some (x.1.freeAt, x.2)
      | some (t, i) => if x.1.freeAt < t then some (x.1.freeAt, x.2) else some (t, i)) none
  match r with | some (_, i) => i | none => 0

/-- Takes an entry for an operation of kind `k` (R22): the workgroup and the handle word. A complete operation frees it at once. -/
def Wg.takeHandle (w : Wg) (kind : Nat) (pending : Bool) : Wg × Word :=
  let i := freeEntry w.handles
  let e := w.handles.getD i default
  let gen := (e.gen + 1) % 2 ^ 16
  let st := if pending then 1 else 2
  ({ w with handles := modAt (fun e => { e with gen := gen, kind := kind, st := st, freeAt := w.handleClock }) i w.handles },
   handleWord st kind gen i)

/-- Ends the operation of an entry with a final state (R22). -/
def Wg.endHandle (w : Wg) (ent st : Nat) : Wg :=
  { w with handles := modAt (fun e => { e with st := st, freeAt := w.handleClock }) ent w.handles }

/-- The next moment of a handle table. DESIGN CHOICE (33): the entries that one word, or one event, frees are free for equal times. -/
def Wg.handleTick (w : Wg) : Wg := { w with handleClock := w.handleClock + 1 }

/-- The state a handle word reads: 0 empty, 1 pending, 2 complete, 3 cancelled (R21, R22). DESIGN CHOICE (27): a word whose own ST
is 0 reads empty even where its GEN is that of its entry. -/
def Wg.handleSt (w : Wg) (h : Word) : Nat :=
  if bits h.toNat 30 2 == 0 then 0
  else
    let e := w.handles.getD (bits h.toNat 0 8) default
    if e.gen == bits h.toNat 8 16 then e.st else 0

/-- A handle word with its ST field as it stands now (R205). -/
def Wg.handleNow (w : Wg) (h : Word) : Word := BitVec.ofNat 32 (w.handleSt h * 2 ^ 30 + h.toNat % 2 ^ 30)

/-- The pending handled operations of a workgroup (R22). -/
def Wg.pendingHandles (w : Wg) : Nat := w.handles.countP (fun e => e.st == 1)

/-! ## Translation (R314 to R316) -/

/-- A page: the key of the accessed byte, the entry, the page size in bits. -/
structure Page where
  key : Nat
  pte : Nat
  size : Nat
  deriving DecidableEq, Repr, Inhabited

/-- Whether a leaf entry holds no reserved value (R315). -/
def leafOk (e size : Nat) : Bool :=
  bits e 60 4 == 0 && bits e 15 1 == 0 && bits e 12 3 < 6 && bits e 5 2 < 2 && (bits e 16 36 * 2 ^ 16) % 2 ^ size == 0
/-- Whether an entry is a valid pointer to the next table (R314). -/
def pointerOk (e : Nat) : Bool := bits e 0 2 == 1 && bits e 2 10 == 0 && bits e 52 12 == 0

/-- The walk below the root: (level index bit, leaf size) of levels 2, 1, 0. -/
def walkFrom (m : Mem) (va : Nat) : List Nat → Nat → Option (Nat × Nat)
  | [], _ => none
  | lo :: rest, table =>
    let e := memNum m (physKey (table + 8 * bits va lo 9)) 8
    if bits e 0 1 == 0 then none
    else if bits e 1 1 == 1 then (if leafOk e lo then some (e, lo) else none)
    else if pointerOk e && !rest.isEmpty then walkFrom m va rest (bits e 12 40 * 2 ^ 12)
    else none

/-- The page-table walk: the leaf entry and its size, or none for "not mapped" (R314, R315). -/
def walk (m : Mem) (root va : Nat) : Option (Nat × Nat) :=
  let e := memNum m (physKey (root + 8 * bits va 43 14)) 8
  if pointerOk e then walkFrom m va [34, 25, 16] (bits e 12 40 * 2 ^ 12) else none

/-- The entry that serves an access: a held one when the access uses it, else the tables (R316). An entry of a REMOTE page that was
invalidated serves until the egress buffers are clean (E003). -/
def State.entryFor (s : State) (part va : Nat) (useTlb : Bool) : Option (Nat × Nat) :=
  let p := s.part part
  match (if useTlb then (p.egress.map Prod.fst ++ p.tlb).find? (fun t => t.vpn == va / 2 ^ t.bits) else none) with
  | some t => some (t.pte.toNat, t.bits)
  | none => walk s.mem (p.ptroot.toNat) va

/-- MEMFLT kinds (Table 13.8). -/
abbrev kNotMapped : Nat := 1
/-- Table 13.8. -/
abbrev kPermission : Nat := 2
/-- Table 13.8. -/
abbrev kNonCanonical : Nat := 3
/-- Table 13.8. -/
abbrev kAlignment : Nat := 4
/-- Table 13.8. -/
abbrev kSpBound : Nat := 5
/-- Table 13.8. -/
abbrev kPrvBound : Nat := 6
/-- Table 13.8. -/
abbrev kNotSync : Nat := 7
/-- Table 13.8. -/
abbrev kBind : Nat := 8
/-- Table 13.8. -/
abbrev kOrdReturn : Nat := 9
/-- Table 13.8. -/
abbrev kOrdFull : Nat := 10
/-- Table 13.8. -/
abbrev kTileInvalid : Nat := 11
/-- Table 13.8. -/
abbrev kTilePlace : Nat := 12
/-- Table 13.8. -/
abbrev kBatchFull : Nat := 13
/-- Table 13.8. -/
abbrev kCopyLen : Nat := 14
/-- Table 13.8. -/
abbrev kMatrixBlock : Nat := 15
/-- Table 13.8. -/
abbrev kRemote : Nat := 16

/-- What an access needs of a page: read, write, fetch (R315). -/
structure Need where
  r : Bool
  w : Bool
  x : Bool
  deriving DecidableEq, Repr, Inhabited

/-- A load. -/
abbrev needR : Need := ⟨true, false, false⟩
/-- A store. -/
abbrev needW : Need := ⟨false, true, false⟩
/-- An atomic. -/
abbrev needRW : Need := ⟨true, true, false⟩
/-- An instruction fetch. -/
abbrev needX : Need := ⟨false, false, true⟩

/-- Whether HBM or a carved Mantle segment holds a physical address below 2^51: 384 · 10^9 bytes of HBM (R1, R166). DESIGN CHOICE (34):
an access to an address that no storage holds is "not mapped". -/
def physPresent (pa : Nat) : Bool := pa < 384000000000 || bits pa 51 1 == 1 || (Config.carvedSegment pa).isSome

/-- Translates an address for a need: the page, or the MEMFLT kind, checked in the order of R166 and R315. A REMOTE page of an
accelerator that is not reachable, or refuses, is "remote unreachable" (R316). -/
def State.translate (s : State) (part va : Nat) (need : Need) (useTlb : Bool) : Except Nat Page :=
  if 2 ^ 57 ≤ va then .error kNonCanonical
  else
    match s.entryFor part va useTlb with
    | none => .error kNotMapped
    | some (e, size) =>
      if (need.r && bits e 2 1 == 0) || (need.w && bits e 3 1 == 0) || (need.x && bits e 4 1 == 0) then .error kPermission
      else
        let pa := bits e 16 36 * 2 ^ 16 + va % 2 ^ size
        if bits e 10 1 == 1 then
          let acc := bits e 52 8
          if acc == s.accel part then
            (if s.openRanges.any (fun o => o.1 ≤ pa && pa < o.1 + o.2) then .ok ⟨physKey pa, e, size⟩ else .error kRemote)
          else if s.peers.contains acc then .ok ⟨remoteKey acc pa, e, size⟩
          else .error kRemote
        else if physPresent pa then .ok ⟨physKey pa, e, size⟩
        else .error kNotMapped

/-- Records an entry that a walk has read in the translation buffers (R316). -/
def State.tlbFill (s : State) (part va : Nat) : State :=
  match walk s.mem ((s.part part).ptroot.toNat) va with
  | none => s
  | some (e, size) =>
    let t : TlbEntry := ⟨va / 2 ^ size, size, BitVec.ofNat 64 e⟩
    if (s.part part).tlb.contains t then s else s.modPart part fun p => { p with tlb := t :: p.tlb }

/-- Whether a page keeps tags (R58). -/
def Page.sig (p : Page) : Bool := bits p.pte 9 1 == 1
/-- Whether a page is ORD (R194). -/
def Page.ord (p : Page) : Bool := bits p.pte 8 1 == 1
/-- Whether L1 may hold lines of the page (R168). -/
def Page.l1able (p : Page) : Bool := bits p.pte 7 1 == 0 && bits p.pte 5 2 == 0
/-- The maximum scope of a page (R315). -/
def Page.maxScope (p : Page) : Nat := bits p.pte 12 3
/-- The key of the tag byte of the word that holds a byte of a SIG page (R58). -/
def Page.tagKey (p : Page) (va : Nat) : Nat := p.key - va % 2 ^ p.size + 2 ^ p.size + va % 2 ^ p.size / 4

/-- The tag of the word at an address of a page (R59). -/
def State.tagAt (s : State) (p : Page) (va : Nat) : Tag := if p.sig then tagOfByte (memGet s.mem (p.tagKey va)) else FULL

/-- Reads `n` bytes at an address at the home, within one page. -/
def State.homeRead (s : State) (p : Page) (n : Nat) : List Byte := memRead s.mem p.key n

/-! ## L1 (R168) -/

/-- Removes the lines of a core's L1 that satisfy a condition (Table 7.2). -/
def State.l1Drop (s : State) (core : Nat) (f : L1Line → Bool) : State :=
  s.modCore core fun c => { c with l1 := c.l1.filter (fun x => !f x) }

/-- Whether a line overlaps `len` bytes from `va`. -/
def L1Line.overlaps (x : L1Line) (part va len : Nat) : Bool := x.part == part && x.va < va + len && va < x.va + 128

/-- The L1 line of a core that holds an address. -/
def State.l1Line (s : State) (core part va : Nat) : Option L1Line :=
  (s.core core).l1.find? (fun x => x.part == part && x.va == va / 128 * 128)

/-- Puts bytes into a line. -/
def patch (bs : List Byte) (off : Nat) (new : List Byte) : List Byte :=
  bs.zipIdx.map fun x => if off ≤ x.2 && x.2 < off + new.length then new.getD (x.2 - off) x.1 else x.1

/-- A store updates the issuing core's copy if one is held (R168). -/
def State.l1Update (s : State) (core part va : Nat) (bs : List Byte) (tags : List Tag) : State :=
  s.modCore core fun c => { c with l1 := c.l1.map fun x =>
    if x.part == part && x.va == va / 128 * 128 then
      { x with bytes := patch x.bytes (va % 128) bs
               tags := x.tags.zipIdx.map fun y => if va % 128 / 4 ≤ y.2 && y.2 < va % 128 / 4 + tags.length then
                 tags.getD (y.2 - va % 128 / 4) y.1 else y.1 }
    else x }

/-- Fills a copy of a line from its home (R168). An L1 holds 2,048 lines of 128 bytes (R1): the line filled longest ago makes room
(35). -/
def State.l1Fill (s : State) (core part va : Nat) (p : Page) : State :=
  let base := va / 128 * 128
  let pb : Page := { p with key := p.key - (va - base) }
  let x : L1Line := ⟨part, base, memRead s.mem pb.key 128, (upFrom 0 32).map fun i => s.tagAt { pb with key := pb.key + 4 * i } (base + 4 * i)⟩
  s.modCore core fun c => { c with l1 := x :: (c.l1.filter (fun y => !(y.part == part && y.va == base))).take 2047 }

/-! ## Clauses, paths and helper lanes (R60, R115 to R117, R148) -/

/-- LEN of a header. -/
def hdrLen (h : Addr) : Nat := bits h.toNat 0 4
/-- WAIT of a header. -/
def hdrWait (h : Addr) : Nat := bits h.toNat 4 12
/-- The flag that SFA (false) or SFB (true) names, if any (R61). -/
def hdrFlag (h : Addr) (b : Bool) : Option Nat :=
  let v := bits h.toNat (if b then 20 else 16) 4
  if v < 12 then some v else none
/-- YLD of a header. -/
def hdrYld (h : Addr) : Nat := bits h.toNat 24 3
/-- PF of a header. -/
def hdrPf (h : Addr) : Nat := bits h.toNat 27 4
/-- EJ of a header. -/
def hdrEj (h : Addr) : Bool := h.getLsbD 33
/-- The faults of a header (R62). -/
def hdrBad (h : Addr) : Bool :=
  let a := bits h.toNat 16 4
  let b := bits h.toNat 20 4
  hdrLen h == 0 || (12 ≤ a && a < 15) || (12 ≤ b && b < 15) || bits h.toNat 34 30 != 0

/-- The clause in progress, or an empty one. -/
def Group.cl (g : Group) : Clause := g.clause.getD ⟨0, 1, [], 0⟩
/-- The address of the word about to issue. -/
def Group.pc (g : Group) : Addr := g.cl.addr + BitVec.ofNat 64 (8 * (g.cl.pos + 1))
/-- The address of the next clause in address order (R119). -/
def Group.fall (g : Group) : Addr := g.cl.addr + BitVec.ofNat 64 (8 * (hdrLen g.cl.hdr + 1))
/-- A meeting address as MEET holds it: bits [63:57] and [2:0] are zero (R20). -/
def meetOf (a : Addr) : Addr := a &&& 0x01FFFFFFFFFFFFF8
/-- rel() (R116). -/
def Group.rel (g : Group) (v : BitVec 16) : Addr := g.cl.addr + (v.signExtend 64) * 8

/-- The lanes of a quad, lowest first. -/
def quadOf (l : Nat) : List Nat := upFrom (l / 4 * 4) 4
/-- Whether a lane is live and on a path (R115, R117). -/
def Group.onPath (g : Group) (l : Nat) : Bool := g.live.getLsbD l && (g.lane l).state == .onPath
/-- The anchor of a lane's quad (R117). -/
def Group.anchor? (g : Group) (l : Nat) : Option Nat := (quadOf l).find? g.onPath

/-- Every helper lane takes its anchor's next-clause address, and is active exactly when its anchor is (R117). -/
def Group.helperSync (g : Group) : Group :=
  let g1 := g.modLanes g.helper fun l x =>
    match g.anchor? l with
    | some a => { x with next := (g.lane a).next, resume := (g.lane a).resume }
    | none => x
  let on := (maskBits g.helper).filter fun l => match g.anchor? l with | some a => g.active.getLsbD a | none => false
  { g1 with active := (g.active &&& ~~~g.helper) ||| maskOf on }

/-- The paths of a group: each next-clause address with its resume point (R115). -/
def Group.paths (g : Group) : List (Addr × Option Addr) := ((laneSlots.filter g.onPath).map fun l => ((g.lane l).next, (g.lane l).resume)).eraseDups

/-- The lanes of a path. -/
def Group.pathLanes (g : Group) (p : Addr × Option Addr) : Mask :=
  maskOf (laneSlots.filter fun l => g.onPath l && (g.lane l).next == p.1 && (g.lane l).resume == p.2)

/-- The lowest of a list of paths by next-clause address. -/
def lowestPath : List (Addr × Option Addr) → Option (Addr × Option Addr)
  | [] => none
  | p :: ps => match lowestPath ps with | none => some p | some q => if q.1.toNat < p.1.toNat then some q else some p

/-- The path that runs next (R148): one with a resume point first; after a quantum, another than the one that ran it; else the
path still running, else the lowest next-clause address. `ran` holds the lanes of the path that ran last. -/
def Group.choosePath (g : Group) : Option (Addr × Option Addr) :=
  let ps := g.paths
  match ps.find? (fun p => p.2.isSome) with
  | some p => some p
  | none =>
    let ran := ps.filter fun p => g.pathLanes p &&& g.active &&& ~~~g.helper != 0
    let others := ps.filter fun p => g.pathLanes p &&& g.active &&& ~~~g.helper == 0
    if 64 ≤ g.quantum then
      match lowestPath others with | some p => some p | none => lowestPath ps
    else match lowestPath ran with | some p => some p | none => lowestPath ps

/-- WAITJ passes at one word (R123): the lanes held there become a path with the new MEET, and K becomes 0. -/
def Group.passOne (g : Group) (a : Addr) (k : Nat) : Group :=
  let arr := maskOf (laneSlots.filter fun l => g.live.getLsbD l && match (g.lane l).state with | .held b _ _ => a == b | _ => false)
  if arr != 0 && (g.k.getD k 0) &&& g.live &&& ~~~arr == 0 then
    let g := g.modLanes arr fun _ x => match x.state with | .held _ _ m => { x with state := .onPath, meet := m, resume := none } | _ => x
    { g with k := modAt (fun _ => 0) k g.k, heldSince := none, heldFor := 0 }
  else g

/-- The WAITJ words at which lanes are held. -/
def Group.heldAt (g : Group) : List (Addr × Nat) :=
  (laneSlots.filterMap fun l => if g.live.getLsbD l then (match (g.lane l).state with | .held a k _ => some (a, k) | _ => none) else none).eraseDups

/-- Every WAITJ whose condition holds passes; passing one may let another pass (R123). -/
def Group.passWaitj (g : Group) : Group :=
  let round (g : Group) : Group := g.heldAt.foldl (fun g x => g.passOne x.1 x.2) g
  round (round (round (round g)))

/-- Stops the rejoin timer, which keeps its count (R158). -/
def Group.stopTimer (g : Group) (clk : Nat) : Group :=
  match g.heldSince with | none => g | some t => { g with heldSince := none, heldFor := g.heldFor + (clk - t) }

/-- The state of a group between clauses (Table 6.1): Waiting when a path can run, else Held. -/
def Group.settle (g : Group) (clk : Nat) : Group :=
  let g := g.passWaitj.helperSync
  if g.phase == .yielded || g.phase == .stopped || g.phase == .retired then g
  else if !g.paths.isEmpty then { g.stopTimer clk with phase := .waiting }
  else if g.heldAt.isEmpty then { g.stopTimer clk with phase := .held }
  else { g with phase := .held, heldSince := some (g.heldSince.getD clk) }

/-- Frees the issue port of a core if the group holds it (R145). -/
def State.freePort (s : State) (g : Group) : State :=
  if (s.core g.core).port == some g.uid then s.modCore g.core fun c => { c with port := none } else s

/-! ## Fault log and the end of a launch -/

/-- The eight words of a trap record (Table 13.7). -/
def TrapRecord.words (r : TrapRecord) : List Word :=
  let w0 := r.cause * 2 ^ 24 + r.sub * 2 ^ 16 + r.eng.toNat * 2 ^ 11 + r.slot1.toNat * 2 ^ 10 + r.ej.toNat * 2 ^ 9 +
    r.deferred.toNat * 2 ^ 8 + r.lane
  [BitVec.ofNat 32 w0, r.lanes, r.addr.setWidth 32, (r.addr >>> 32).setWidth 32, r.resume.setWidth 32,
   (r.resume >>> 32).setWidth 32, r.info0, r.info1]

/-- Writes a fault-log entry (R312): lost when the log is full; the next one written carries LOST. Vector 1 is posted. -/
def State.logFault (s : State) (g : Group) (r : TrapRecord) : State :=
  let p := s.part g.part
  let n := 2 ^ (bits p.flog.toNat 0 4 + 4)
  if p.flogw - p.flogr == n then s.modPart g.part fun p => { p with flogLost := true }
  else
    let idx := (s.partCores g.part).findIdx (· == g.core)
    let ws := r.words ++ [BitVec.ofNat 32 g.launch, BitVec.ofNat 32 idx, BitVec.ofNat 32 s.time, BitVec.ofNat 32 (s.time / 2 ^ 32),
      BitVec.ofNat 32 p.flogLost.toNat, 0, 0, 0]
    let a := hostBase + bits p.flog.toNat 12 45 * 2 ^ 12 + 64 * (p.flogw % n)
    let s := { s with mem := memWrite s.mem a (ws.flatMap fun (w : Word) => toBytes 4 w.toNat) }
    (s.modPart g.part fun p => { p with flogw := p.flogw + 1, flogLost := false }).post g.part 1

/-! ## Local spaces (R162, R163) -/

/-- Where the bytes of an access lie: one global page; words of a thread's own space with their data and tag pages; a scratchpad;
a tile area. -/
inductive Place where
  | mem (part va : Nat) (p : Page)
  | prv (launch part : Nat) (ws : List (Nat × Page × Page)) (sub : Nat)
  | sp (wg core off : Nat)
  | tile (core off : Nat)
  deriving DecidableEq, Repr

/-- The node a workgroup runs. -/
def State.wgNode (s : State) (w : Wg) : Node := (s.launch w.launch).nodes.getD w.node default
/-- Members of a neighbourhood. -/
def Node.members (n : Node) : Nat := match n.kind with | .neighbourhood => (n.nw + 1) * (n.nh + 1) | _ => 1
/-- Bytes of the tile area of a workgroup's launch. -/
def State.tileBytes (s : State) (w : Wg) : Nat := 64 * (s.wgNode w).lrec.tiles

/-- The place that `n` bytes at an offset of scratchpad space name, or none for "scratchpad bound" (R163). -/
def State.localPlace (s : State) (w : Wg) (off n : Nat) : Option Place :=
  if off < 0x04000000 then (if off + n ≤ w.spSize then some (.sp w.uid w.core off) else none)
  else if off < 0x08000000 then
    let rank := (off - 0x04000000) / 0x200000
    let o := (off - 0x04000000) % 0x200000
    if (s.wgNode w).members ≤ rank then none
    else
      match s.wgs.find? (fun m => m.launch == w.launch && m.nbr == w.nbr && m.wgrank == rank) with
      | some m => if o + n ≤ m.spSize then some (.sp m.uid m.core o) else none
      | none => none
  else if off - 0x08000000 + n ≤ s.tileBytes w then some (.tile w.core (off - 0x08000000))
  else none

/-- The word indices of a tagged memory that `n` bytes touch. -/
def touched (off n : Nat) : List Nat := upFrom (off / 4) ((off + n + 3) / 4 - off / 4)
/-- Writes bytes of a tagged memory with a tag for each word touched. -/
def tmWrite (m : TMem) (off : Nat) (bs : List Byte) (tags : List Tag) : TMem :=
  (touched off bs.length).zipIdx.foldl (fun m x => tmSetTag m x.1 (tags.getD x.2 FULL)) { m with bytes := memWrite m.bytes off bs }

/-! ## Errors of stored structures (R335 to R342) -/

/-- The counting region of a structure: that of the record SRAM of a die is the die's (Table 15.1). -/
def countRegion (region : Nat) : Nat := if 0x18 ≤ region && region < 0x1C then region - 8 else region

/-- Writes an error record (R338, Table 15.5): lost when the ring is full; vector 0 of the physical function is posted. -/
def State.errRecord (s : State) (region kind part loc : Nat) : State :=
  let r := s.ras
  let n := 2 ^ (bits r.logb.toNat 0 4 + 4)
  if r.logi - r.logr == n then { s with ras := { r with lost := true } }
  else
    let w0 := region * 2 ^ 56 + kind * 2 ^ 48 + part * 2 ^ 40 + aget 0 r.counts (countRegion region) % 2 ^ 40
    let ws : List Nat := [w0, loc, s.time % 2 ^ 64, (Config.syndrome s.freeCtr).toNat]
    let a := hostBase + bits r.logb.toNat 12 45 * 2 ^ 12 + 32 * (r.logi % n)
    ({ s with mem := memWrite s.mem a (ws.flatMap (toBytes 8)), freeCtr := s.freeCtr + 1, ras := { r with logi := r.logi + 1 } }).post 8 0

/-- FUE of RAS.CTL (Table 15.4). -/
def Ras.fue (r : Ras) : Bool := r.ctl.getLsbD 1
/-- The module freezes: every clock domain stops and derived keys are cleared (R342). -/
def State.freeze (s : State) : State :=
  { s with ras := { s.ras with frozen := true }, boot := { s.boot with keysCleared := true, aliasSeed := [] } }
/-- What a trap or fault cause does to the module: an uncorrectable error while FUE is 1 freezes it (R336, R342). -/
def State.detect (s : State) (cause : Nat) : State := if cause == cDATAERR && s.ras.fue then s.freeze else s

/-- Whether a mark on a cluster structure names it: structure code and index (Table 15.1). -/
def State.badCluster (s : State) (core kind idx : Nat) : Bool :=
  s.ras.marks.any fun m => m.bad && m.region == 0x40 + clusterOf core && m.loc == kind * 2 ^ 48 + idx

/-- Clears the mark of a cluster structure that a write replaces. -/
def State.mendCluster (s : State) (core kind idx : Nat) : State :=
  if s.badCluster core kind idx then
    { s with ras := { s.ras with marks := s.ras.marks.filter fun m => !(m.region == 0x40 + clusterOf core && m.loc == kind * 2 ^ 48 + idx) } }
  else s

/-- The precise trap of a use of a register by the lanes of `w`: an ejected lane may not touch it (R124), or its word is uncorrectable
(R336, Table 15.2). -/
def State.regTrap (s : State) (g : Group) (w : Mask) (reads : Bool) (r : Nat) : Option Trap :=
  if g.beyondBound r then some (trapOf cEJECTILL 0 g.active (BitVec.ofNat 32 r))
  else if reads && s.badCluster g.core (if g.sleeve.isSome then 4 else 3) (g.uid * 2 ^ 8 + r) then
    some { trapOf cDATAERR (if g.sleeve.isSome then 5 else 3) w 0 with addr := some (BitVec.ofNat 64 (0xFF * 2 ^ 56 + r)) }
  else none

/-- The marks of the words of a scratchpad or tile area that a write of `n` bytes meets (R336): a word that it covers is correct again,
and one that it does not cover stays, listed in the answer, with an error record of kind 2. -/
def State.overMarks (s : State) (core kind base off n : Nat) : State × List Nat :=
  if s.ras.marks.isEmpty then (s, [])
  else (touched off n).foldl (fun x i =>
    if !x.1.badCluster core kind (base + i) then x
    else if off ≤ 4 * i && 4 * i + 4 ≤ off + n then (x.1.mendCluster core kind (base + i), x.2)
    else (x.1.errRecord (0x40 + clusterOf core) 2 0xFF (kind * 2 ^ 48 + base + i), i :: x.2)) (s, [])
/-- Writes bytes of a tagged memory except in the words of `keep` (R336). -/
def tmWriteBut (m : TMem) (off : Nat) (bs : List Byte) (tags : List Tag) (keep : List Nat) : TMem :=
  keep.foldl (fun x i => tmSetTag { x with bytes := memWrite x.bytes (4 * i) (memRead m.bytes (4 * i) 4) } i (tmTag m i)) (tmWrite m off bs tags)
/-- Writes bytes of a scratchpad. -/
def State.spWrite (s : State) (wg core off : Nat) (bs : List Byte) (tags : List Tag) : State :=
  let r := s.overMarks core 1 (wg * 2 ^ 24) off bs.length
  r.1.modWg wg fun w => { w with sp := tmWriteBut w.sp off bs tags r.2 }
/-- Writes bytes of the tile area of a core. -/
def State.tileWrite (s : State) (core off : Nat) (bs : List Byte) (tags : List Tag) : State :=
  let r := s.overMarks core 2 (core * 2 ^ 24) off bs.length
  r.1.modCore core fun x => { x with tile := tmWriteBut x.tile off bs tags r.2 }

/-! ## Fragment layouts and matrix reports (R237 to R240, R249) -/

/-- A fragment layout: first group, registers per group, first register, words (Table 9.4, R240). -/
structure Lay where
  g : Nat
  rpg : Nat
  v : Nat
  words : Nat
  deriving DecidableEq, Repr, Inhabited

/-- A layout by its descriptor word. -/
def layOf (d : Word) (words : Nat) : Lay := ⟨bits d.toNat 24 5, bits d.toNat 16 8, bits d.toNat 0 8, words⟩
/-- Registers of a layout (R240). -/
def Lay.regs (x : Lay) : Nat := (x.words + 31) / 32
/-- Whether a register of a group lies in a layout. -/
def Lay.has (x : Lay) (gid r : Nat) : Bool :=
  x.g ≤ gid && x.v ≤ r && r - x.v < x.rpg && (gid - x.g) * x.rpg + (r - x.v) < x.regs
/-- The groups of a layout. -/
def Lay.groups (x : Lay) : List Nat := upFrom x.g ((x.regs + x.rpg - 1) / x.rpg)
/-- The registers of a layout, as group and register, in order of u. -/
def Lay.places (x : Lay) : List (Nat × Nat) := (upFrom 0 x.regs).map fun u => (x.g + u / x.rpg, x.v + u % x.rpg)
/-- Whether two layouts share a register. -/
def Lay.meets (x y : Lay) : Bool := x.places.any fun p => y.has p.1 p.2

/-- The group of a workgroup by its GID. -/
def State.gidGroup? (s : State) (wg gid : Nat) : Option Group := s.groups.find? fun g => g.wg == wg && g.gid == gid && g.sleeve.isNone
/-- Word `j` of a fragment (R240). -/
def State.fragWord (s : State) (wg : Nat) (x : Lay) (j : Nat) : Word × Tag :=
  match s.gidGroup? wg (x.g + j / 32 / x.rpg) with
  | some g => g.stored (x.v + j / 32 % x.rpg) (j % 32)
  | none => (0, FULL)

/-- M, N, K, KB0 of a block (Table 9.3). -/
def blkM (b : List Word) : Nat := bits (b.getD 0 0).toNat 0 16
/-- Table 9.3. -/
def blkN (b : List Word) : Nat := bits (b.getD 0 0).toNat 16 16
/-- Table 9.3. -/
def blkK (b : List Word) : Nat := bits (b.getD 1 0).toNat 0 16
/-- Table 9.3. -/
def blkKB0 (b : List Word) : Nat := bits (b.getD 1 0).toNat 16 16
/-- M0. -/
def blkM0 (b : List Word) : Nat := (b.getD 2 0).toNat
/-- N0. -/
def blkN0 (b : List Word) : Nat := (b.getD 3 0).toNat
/-- Bits per element, positions per unit, words per unit of an element code of Table 2.4 (Table 9.5). -/
def eltUnit (c : Nat) : Nat × Nat × Nat :=
  match c with | 4 | 5 => (8, 4, 1) | 6 => (4, 8, 1) | 7 => (3, 32, 3) | 8 => (1, 32, 1) | _ => (16, 2, 1)
/-- Word rows of `p` packed positions of a format (R239). -/
def wordRows (c p : Nat) : Nat := (p + (eltUnit c).2.1 - 1) / (eltUnit c).2.1 * (eltUnit c).2.2
/-- The present positions of a bitmap (R244). -/
def present (bm : List Byte) (k : Nat) : List Nat := (upFrom 0 k).filter fun i => (bm.getD (i / 8) 0).getLsbD (i % 8)
/-- Packed positions of an operand: those of its bitmap, or K. -/
def packed (sparse : Bool) (bm : List Byte) (k : Nat) : Nat := if sparse then (present bm k).length else k

/-- The A layout of an operation on a block. -/
def layA (b : List Word) (fs : Addr) (p : Nat) : Lay := layOf (b.getD 4 0) (wordRows (bits fs.toNat 0 4) p * blkM b)
/-- The B layout. -/
def layB (b : List Word) (fs : Addr) (p : Nat) : Lay := layOf (b.getD 5 0) (wordRows (bits fs.toNat 4 4) p * blkN b)
/-- The accumulator layout. -/
def layC (b : List Word) : Lay := layOf (b.getD 6 0) (blkM b * blkN b)

/-- The layout of a fragment that an operand latch holds. -/
def OpLatch.lay (x : OpLatch) : Lay := layOf x.desc (wordRows x.fmt x.npos * x.lines)
/-- A write to registers of a group clears an operand latch of its cluster that holds one of them (R248). -/
def State.unlatch (s : State) (g : Group) (f : Nat → Bool) : State :=
  let c := s.cluster (clusterOf g.core)
  let hit (o : Option OpLatch) : Bool := match o with
    | some x => x.wg == g.wg && x.lay.places.any fun p => p.1 == g.gid && f p.2
    | none => false
  if g.sleeve.isSome || !(hit c.latchA || hit c.latchB) then s
  else s.modCluster (clusterOf g.core) fun c =>
    { c with latchA := if hit c.latchA then none else c.latchA, latchB := if hit c.latchB then none else c.latchB }

/-- Whether an operation is a pass. -/
def Mop.isPass (m : Mop) : Bool := match m.kind with | .pass _ => true | _ => false
/-- Whether an operation is an MSTF. -/
def Mop.isStore (m : Mop) : Bool := match m.kind with | .mstf .. => true | _ => false
/-- Whether a pass is binary. -/
def Mop.binary (m : Mop) : Bool := match m.kind with | .pass .xor => true | .pass .and => true | _ => false
/-- Whether an operation uses bitmaps. -/
def Mop.sparse (m : Mop) : Bool := match m.kind with | .pass .sparse => true | .mldf _ sp => sp | _ => false
/-- The A layout of an operation. -/
def Mop.la (m : Mop) : Lay := layA m.blk (m.fs.headD 0) (packed m.sparse m.bma (blkK m.blk))
/-- The B layout. -/
def Mop.lb (m : Mop) : Lay := layB m.blk (m.fs.headD 0) (packed m.sparse m.bmb (blkK m.blk))
/-- The accumulator layout. -/
def Mop.lc (m : Mop) : Lay := layC m.blk
/-- The layouts an operation reads (R233). -/
def Mop.reads (m : Mop) : List Lay := match m.kind with | .pass _ => [m.la, m.lb, m.lc] | .mldf .. => [] | .mstf .. => [m.lc]
/-- The layouts an operation writes (R233). -/
def Mop.writes (m : Mop) : List Lay :=
  match m.kind with
  | .pass _ => [m.lc]
  | .mldf w _ => [match w with | .a => m.la | .b => m.lb | .c => m.lc]
  | .mstf .. => []

/-- Writes bytes of scratchpad or tile area for an engine. -/
def State.engineStore (s : State) (w : Wg) (off : Nat) (bs : List Byte) (tags : List Tag) : State :=
  match s.localPlace w off bs.length with
  | some (.sp wg c o) => s.spWrite wg c o bs tags
  | some (.tile c o) => s.tileWrite c o bs tags
  | _ => s

/-- The report words of a pass (R249): STEP, PERF, LOW, LOWFIRST. -/
def State.mopReport (s : State) (m : Mop) : List Word :=
  let ts := if m.binary || !m.touched then [] else (upFrom 0 m.lc.words).map fun j => (s.fragWord m.wg m.lc j).2
  let thr := modeSigthr m.mode
  let low := ts.zipIdx.filter fun x => x.1 < 63 && x.1 < thr
  [BitVec.ofNat 32 m.step, BitVec.ofNat 32 m.perf, BitVec.ofNat 32 (ts.foldl min 63 * 2 ^ 16 + low.length),
   match low with | x :: _ => BitVec.ofNat 32 x.2 | [] => 0xFFFFFFFF]

/-- Ends an operation: the report of a pass, the state of its handle, its flag, its entry with its locks (R249, R255). -/
def State.endMop (s : State) (m : Mop) (st : Nat) : State :=
  let s := if m.isPass then s.engineStore (s.wg m.wg) (m.blkAddr + 0x30) ((s.mopReport m).flatMap fun w => toBytes 4 w.toNat)
    (List.replicate 4 FULL) else s
  let s := { s with mops := s.mops.filter (fun x => x.id != m.id) }
  let s := s.modWg m.wg fun w => w.endHandle m.ent st
  s.modGroup m.uid fun g => g.cfDec m.cf

/-- Cancels a matrix operation (R256). -/
def State.cancelMop (s : State) (m : Mop) : State := s.endMop m 3

/-- Ends a launch early with a completion status (R324, R294): staged updates are discarded, matrix operations cancelled,
cancellable batches cancelled, record queues freed. Groups of an ending launch issue nothing more. -/
def State.endLaunch (s : State) (n status : Nat) : State :=
  match (s.launch n).ending with
  | some _ => s
  | none =>
    let s := s.modLaunch n fun l => { l with ending := some status, staged := [], queues := l.queues.map fun _ => [], grids := [] }
    let mine := s.mops.filter fun m => (s.wg m.wg).launch == n
    let s := mine.foldl State.cancelMop s
    let s := { s with wgs := s.wgs.map fun (w : Wg) => if w.launch == n then w.handleTick else w }
    { s with batches := s.batches.map fun b => if b.cancellable && (s.wg b.wg).launch == n then { b with state := .cancelling } else b }

/-! ## Merges (R150, R151) -/

/-- Puts 32-lane contents into one lane of a register. -/
def setLaneWord (g : Group) (r l : Nat) (x : Word × Tag) : Group :=
  { g with v := modAt (fun _ => .general (modAt (fun _ => x) l (g.spread r))) r g.v }

/-- Copies a lane from slot `a` of `src` to slot `b` of `dst`: general-capacity registers, predicates and the lane record (R150). -/
def copyLane (src dst : Group) (a b : Nat) (st : LaneState) : Group :=
  let dst := (upFrom 0 src.decl.ng).foldl (fun d r => setLaneWord d r b (src.stored r a)) dst
  let dst := { dst with p := dst.p.zipIdx.map fun (x : Mask × Nat) =>
    if (src.p.getD x.2 0).getLsbD a then x.1 ||| bit1 b else x.1 &&& ~~~bit1 b }
  dst.modLane b fun _ => { src.lane a with state := st }

/-- The record of a trap of a group (Table 13.7). -/
def Group.record (g : Group) (t : Trap) (eng deferred : Bool) (resume : Addr) : TrapRecord :=
  ⟨t.cause, t.sub, eng, t.slot1, g.sleeve.isSome, deferred,
   (g.lane ((maskBits t.lanes).headD 0)).home, g.posMask t.lanes, t.addr.getD g.pc, resume, t.info0, t.info1⟩

/-- The trap of the lanes of an access that faulted (R201): cause, sub-cause and address of the lowest of them. -/
def Access.trap (a : Access) : Option Trap :=
  let bad := a.lanes.filter fun q => q.fault.isSome
  match bad.head? with
  | none => none
  | some q =>
    let f := q.fault.getD (0, 0, 0)
    some { trapOf f.1 f.2.1 (maskOf (bad.map LaneReq.slot)) 0 with addr := some f.2.2 }

/-- The trap of an access that only waits for its replay, due in the group whose registers it uses (R201). -/
def Access.dueTrap (g : Group) (a : Access) : List DueTrap :=
  match (if a.noted then a.trap else none) with
  | some t => [⟨g.record t false true a.pc, .deferred a.id, a.seq⟩]
  | none => []

/-- The accesses of a merged group, each with lanes on both sides split in two when the merge dissolves (R151, R159): the part of the
moved lanes belongs to the donor, under an identity from `n` up, and keeps its place in issue order. -/
def splitAccesses (host donor : Nat) (moved : List (Nat × Nat)) : List Access → Nat → List Access × Nat
  | [], n => ([], n)
  | a :: as, n =>
    let back := a.lanes.filterMap fun q => (moved.find? (fun x => x.1 == q.slot)).map fun x => { q with slot := x.2 }
    let own := a.lanes.filter fun q => !moved.any (fun x => x.1 == q.slot)
    let part (a : Access) (ls : List LaneReq) : Access :=
      { a with lanes := ls, w := maskOf (ls.map LaneReq.slot), noted := a.noted && ls.any (fun q => q.fault.isSome) }
    if a.uid != host || back.isEmpty then let r := splitAccesses host donor moved as n; (a :: r.1, r.2)
    else if own.isEmpty then let r := splitAccesses host donor moved as n; (part { a with uid := donor } back :: r.1, r.2)
    else let r := splitAccesses host donor moved as (n + 1); (part a own :: part { a with uid := donor, id := n } back :: r.1, r.2)

/-- An open bypass result as the donor of a merge holds it after dissolution (R31, R151). -/
def Bypass.back (moved : List (Nat × Nat)) (b : Bypass) : Bypass :=
  { b with
    val := match b.val with
      | .general ws => .general (laneSlots.map fun l => match moved.find? (fun x => x.2 == l) with
          | some x => ws.getD x.1 (0, FULL) | none => (0, FULL))
      | v => v
    w := maskOf ((moved.filter fun x => b.w.getLsbD x.1).map Prod.snd) }

/-- The part of a wait at a gating word that lanes have after a change of slots; a lane that `f` does not place drops out. -/
def Gate.place (f : Nat → Option Nat) (gt : Gate) : Gate :=
  let lanes (m : Mask) : Mask := maskOf ((maskBits m).filterMap f)
  match gt with
  | .accesses w c => .accesses (lanes w) c
  | .objects need => .objects (need.filterMap fun x => (f x.1).map fun l => (l, x.2))
  | .handles need => .handles (need.filterMap fun x => (f x.1).map fun l => (l, x.2))
  | .sem n need sat => .sem n (need.filterMap fun x => (f x.1).map fun l => (l, x.2)) (lanes sat)
  | .tile b need sat => .tile b (need.filterMap fun x => (f x.1).map fun l => (l, x.2)) (lanes sat)
  | x => x

/-- The lane record of a slot of a group that no thread occupies: an exited or never launched lane of the group itself. -/
def Group.vacant (g : Group) (l : Nat) (x : Lane) : Lane :=
  { x with state := if g.launched.getLsbD l then .exited else .notLaunched
           tid := g.gseq * 32 + l, home := l, homeUid := g.uid, gid := g.gid, pos := l, accr := 0, resume := none, batch := [], byp := [] }

/-- Dissolves the merge of a host (R151): every moved lane returns to its home slot with its state and its flags. In the middle of a
clause the donor goes on at the word about to issue, with the moved lanes' part of the open bypass results and of a wait. The
accesses, copy batches, slice queries and due faults of the moved lanes become the donor's. -/
def State.dissolve (s : State) (uid : Nat) : State :=
  let g := s.group uid
  match g.merge with
  | .host du moved _ =>
    let d := s.group du
    let to' (l : Nat) : Option Nat := (moved.find? fun x => x.1 == l).map Prod.snd
    let gone := maskOf (moved.map Prod.fst)
    let act := maskOf ((maskBits g.active).filterMap to')
    let d := moved.foldl (fun d x =>
      let st : LaneState := match (g.lane x.1).state with | .exited => .exited | t => if t == .helper then .onPath else t
      { copyLane g d x.1 x.2 st with live := if g.live.getLsbD x.1 then d.live else d.live &&& ~~~bit1 x.2 }) d
    let mid := g.clause.isSome && act != 0
    let accs := splitAccesses uid du moved s.accs s.uidNext
    let shared := s.accs.filter fun a => a.uid == uid && a.lanes.any (fun q => (to' q.slot).isSome)
    let left := shared.filter fun a => a.lanes.any fun q => (to' q.slot).isNone
    let mine (x : DueTrap) : Bool := match x.kind with
      | .deferred i => !shared.any fun a => a.id == i
      | .batch i => !s.batches.any fun b => b.id == i && b.uid == uid && (to' b.slot).isSome
      | _ => true
    let d := { d with
      v := d.v.zipIdx.map fun (x : RegVal × Nat) => if g.decl.ng ≤ x.2 then g.reg x.2 else x.1
      repc := g.repc, reps := g.reps, merge := .none, phase := .waiting, readyAt := none, active := act
      clause := if mid then g.clause else none
      window := if mid then g.window.map (Bypass.back moved) else []
      latch := if mid then g.latch else []
      gate := if mid then g.gate.place to' else .none
      cf := (shared.foldl (fun (d : Group) (a : Access) => d.cfInc a.cf) d).cf }
    let d := { d with due := d.due ++ (g.due.filter fun x => !mine x && (match x.kind with | .batch _ => true | _ => false)) ++
      (accs.1.filter fun (a : Access) => a.uid == du && shared.any fun b => b.seq == a.seq).flatMap (Access.dueTrap d) }
    let g := { g.modLanes gone g.vacant with
      merge := .none, live := g.live &&& ~~~gone, active := g.active &&& ~~~gone
      gate := g.gate.place fun l => if (to' l).isSome then none else some l
      cf := ((shared.filter fun a => !left.contains a).foldl (fun (g : Group) (a : Access) => g.cfDec a.cf) g).cf }
    let g := { g with due := g.due.filter mine ++ (accs.1.filter fun (a : Access) => a.uid == uid && left.any fun b => b.id == a.id).flatMap (Access.dueTrap g) }
    let fresh := accs.1.filter fun a => s.uidNext ≤ a.id
    let s := { s with accs := accs.1, uidNext := accs.2
                      batches := s.batches.map fun (b : Batch) => match (if b.uid == uid then to' b.slot else none) with
                        | some l => { b with uid := du, slot := l } | none => b
                      sliceqs := s.sliceqs.map fun (q : SliceQ) => match (if q.uid == uid then to' q.slot else none) with
                        | some l => { q with uid := du, slot := l } | none => q }
    let s := s.modCore g.core fun c => { c with coll := c.coll.map fun k =>
      { k with accs := (fresh.filter fun a => left.any fun b => b.seq == a.seq && k.accs.contains b.id).map Access.id ++ k.accs } }
    let s := (s.setGroup g.helperSync).setGroup (if mid then d.helperSync else d.settle (s.clock d.core))
    (s.postFlags du).unlatch d fun _ => true
  | _ => s

/-- Dissolves the merge that a group takes part in, as host or as donor. -/
def State.dissolveOf (s : State) (uid : Nat) : State :=
  s.dissolve (match (s.group uid).merge with | .donor h => h | _ => uid)

/-! ## The end of a word and of a clause -/

/-- The instructions that end a clause (R64). -/
def Instr.endsClause : Instr → Bool
  | .bra .. | .brau .. | .brx .. | .call .. | .callReg .. | .ret .. | .waitj .. | .rep .. | .repImm .. | .loop .. | .exit ..
  | .yield .. | .bsig .. | .bany .. | .ball .. => true
  | _ => false

/-- The bypass window one word later (R31). -/
def ageWindow (w : List Bypass) : List Bypass := (w.filter fun b => 1 < b.left).map fun b => { b with left := b.left - 1 }

/-- REPC and REPS as a group or Sleeve context works on them: an ejected lane on its home group's, those in the trap frame while that
group is in a handler (R8, R28). -/
def State.repOf (s : State) (g : Group) : Nat × Addr :=
  match g.sleeve with
  | none => (g.repc, g.reps)
  | some x => let h := s.group x.homeUid; match h.frame with | some f => (f.repc, f.reps) | none => (h.repc, h.reps)
/-- Sets the REPC that ejected lanes of a group work on. -/
def Group.setRepc (h : Group) (n : Nat) : Group :=
  match h.frame with | some f => { h with frame := some { f with repc := n } } | none => { h with repc := n }

/-- The end of a clause (R119, R125, R148): each active lane goes to its destination. `ctl` is whether its last word is an
instruction of R64. -/
def State.clauseOver (s : State) (g : Group) (ctl : Bool) (dest : Nat → Addr) : State :=
  let c := g.cl
  let o := s.repOf g
  let mine := o.1 != 0 && c.addr == o.2
  let n := if !mine then o.1 else if ctl then 0 else o.1 - 1
  let goal (l : Nat) : Addr := if mine && !ctl && n != 0 then o.2 else dest l
  let g := g.modLanes (g.active &&& g.live) fun l x => if x.state == .onPath then { x with next := goal l, resume := none } else x
  let clk := s.clock g.core
  let g := { g with repc := if g.sleeve.isSome then g.repc else n
                    clause := none, window := [], latch := [], yldUntil := clk + hdrYld c.hdr + (hdrYld c.hdr != 0).toNat
                    quantum := if 1 < g.paths.length then g.quantum + 1 else 0
                    readyAt := none, gate := .none }
  let s := match g.sleeve with | some x => s.modGroup x.homeUid fun h => h.setRepc n | none => s
  let s := s.freePort g
  s.setGroup (g.settle clk)

/-- The step past a word of a restored clause that completes without effect, or has completed before its trap (R127, R322). -/
def State.passWord (s : State) (g : Group) : State :=
  match g.clause with
  | none => s.setGroup g
  | some c =>
    if c.pos + 1 < c.words.length then s.setGroup { g with clause := some { c with pos := c.pos + 1 } }
    else s.clauseOver g (Instr.endsClause (readWord (c.words.getD c.pos 0).toNat).val) fun _ => g.fall

/-! ## Taking a trap and returning from one (R319 to R322) -/

/-- Whether MEMFLT with this kind stops the group for the host when no handler is set (R320). -/
def hostResumes (r : TrapRecord) : Bool := r.cause == cMEMFLT && (r.sub == kNotMapped || r.sub == kPermission || r.sub == kRemote)

/-- Delivers a trap to a group at its delivery point (R319, R320): a double fault or a cause without a handler ends the launch
as HALTG gives, or stops the group for the host; else the trap frame is saved and every live lane that is not ejected becomes
one path at the handler clause. -/
def State.deliver (s : State) (uid : Nat) (r : TrapRecord) (kind : ReturnKind) : State :=
  let s := s.dissolveOf uid
  let g := s.group uid
  let s := s.freePort g
  if g.inHandler then (s.logFault g r).endLaunch g.launch 0x11
  else
    let fr : Frame := ⟨r, kind, g.lanes.map fun l => (l.state, l.next, l.resume), g.active, g.clause, s.uidNext, g.repc, g.reps⟩
    let g0 := { g.stopTimer (s.clock g.core) with frame := some fr, window := [], latch := [], clause := none, gate := .none,
                                                   quantum := 0, readyAt := none }
    let h := if g.live == 0 then 0 else (s.part g.part).thand.getD (r.cause - 1) 0
    if h == 0 then
      if hostResumes r then (s.setGroup { g0 with phase := .stopped }).logFault g r
      else ((s.setGroup { g0 with phase := .stopped }).logFault g r).endLaunch g.launch 0x11
    else
      let on := maskOf (laneSlots.filter fun l => g.live.getLsbD l && (g.lane l).state != .ejected)
      let g1 := g0.modLanes on fun _ x => { x with state := .onPath, next := h, resume := none }
      s.setGroup ({ g1 with phase := .waiting, active := on }).helperSync

/-- Puts back the trap frame of a group (R322): every lane's path, the active mask, the clause at the trapping word. -/
def Group.restoreFrame (g : Group) (f : Frame) : Group :=
  let lanes := g.lanes.zipIdx.map fun x =>
    match f.lanes[x.2]? with
    | some (st, n, r) => if x.1.state == .exited || !g.live.getLsbD x.2 then x.1
        else if st == .ejected && x.1.state != .ejected then x.1 else { x.1 with state := st, next := n, resume := r }
    | none => x.1
  { g with lanes := lanes, active := f.active &&& (g.live ||| g.helper), clause := f.clause, frame := none, retPending := none,
           repc := f.repc, reps := f.reps, window := [], latch := [] }

/-- Whether an operation is a load: a skipped lane of it writes zero bits with tag 0 (R322). -/
def AccOp.isLoad : AccOp → Bool
  | .load .. | .loadS _ | .loadH | .semrd _ | .rdrec _ => true
  | _ => false
/-- Replays the faulting lanes of an access, or completes them without access: loads with zero bits and tag 0, while stores and
atomics write nothing, neither to memory nor to a destination (R322). -/
def Access.afterFault (a : Access) (skip : Bool) : Access :=
  let replayed (q : LaneReq) : LaneReq := { q with fault := none }
  let zeroed (q : LaneReq) : LaneReq := { q with fault := none, done := true, res := List.replicate 4 (0, 0) }
  let lanes :=
    if !skip then a.lanes.map replayed
    else if a.op.isLoad then a.lanes.map fun q => if q.fault.isSome then zeroed q else q
    else a.lanes.filter fun q => q.fault.isNone
  { a with noted := false, lanes := lanes }

/-- Moves the resume point of a recalled lane past the word it names (R157, R322). -/
def State.skipResume (s : State) (g : Group) (home : Nat) : Group :=
  g.modLanes (maskOf (laneSlots.filter fun l => (g.lane l).home == home && g.live.getLsbD l)) fun _ x =>
    match x.resume, s.translate g.part x.next.toNat needX false with
    | some r, .ok p =>
      let fall := x.next + BitVec.ofNat 64 (8 * (memNum s.mem p.key 8 % 16 + 1))
      if r + 8 == fall then { x with next := fall, resume := none } else { x with resume := some (r + 8) }
    | _, _ => x

/-- The return from a trap frame by cause (R322); also what PART.FRESUME does to a stopped group (R320). -/
def State.trapReturn (s : State) (uid : Nat) (skip : Bool) : State :=
  let g := s.group uid
  match g.frame with
  | none => s
  | some f =>
    let s := s.freePort g
    let g := g.restoreFrame f
    let g := { g with phase := .waiting, quantum := 0 }
    let ready (g : Group) : Group := if g.clause.isSome then g.helperSync else g.settle (s.clock g.core)
    match f.kind with
    | .bpt => s.setGroup (ready g)
    | .precise =>
      if f.tr.ej then s.setGroup (ready (if skip then s.skipResume g f.tr.lane else g))
      else if skip && g.clause.isSome then s.passWord g.helperSync else s.setGroup (ready g)
    | .deferred id =>
      { s.setGroup (ready g) with accs := updWhere (fun a => a.id == id) (fun a => a.afterFault skip) s.accs }
    | .matrix id =>
      let s := s.setGroup (ready g)
      if skip then (match s.mops.find? (fun m => m.id == id) with | some m => (s.cancelMop m).modWg g.wg Wg.handleTick | none => s)
      else { s with mops := updWhere (fun m => m.id == id) (fun m => { m with state := .posted, granted := false }) s.mops }
    | .batch id =>
      let st : BatchState := if skip then .cancelling else .running
      { s.setGroup (ready g) with batches := updWhere (fun b => b.id == id) (fun b => { b with state := st }) s.batches }
    | .fetch => if skip then ((s.setGroup (ready g)).logFault g f.tr).endLaunch g.launch 0x11 else s.setGroup (ready g)

/-- The end of a clause by its last word; a pending TRAPRET returns instead (R322). -/
def State.endClause (s : State) (g : Group) (ctl : Bool) (dest : Nat → Addr) : State :=
  match g.retPending with
  | some skip => (s.setGroup { g with clause := none }).trapReturn g.uid skip
  | none => s.clauseOver g ctl dest

/-- The step past a word that transfers no control: to the next word, or the end of the clause. -/
def State.nextWord (s : State) (g : Group) : State :=
  let c := g.cl
  if c.pos + 1 < c.words.length then s.setGroup { g with clause := some { c with pos := c.pos + 1 } }
  else s.endClause g false fun _ => g.fall

/-- What a trap of the current word does (R319, R157): in a merged group the merge dissolves and the word issues again in each
home group; in an ejected lane the trap is kept until the lane has been recalled; else it is delivered here. A BPT trap has its
word complete first, so it resumes at the next word (R127). -/
def State.takeTrap (s : State) (g : Group) (t : Trap) : State :=
  let s := s.detect t.cause
  match g.merge with
  | .host .. => s.dissolve g.uid
  | _ =>
    let s1 := if t.after then s.nextWord g else s
    let h := if t.after then s1.group g.uid else g
    let resume := if !t.after then g.pc else match h.clause with
      | some _ => h.pc
      | none => (h.lane ((maskBits t.lanes).headD 0)).next
    let kind : ReturnKind := if t.after then .bpt else .precise
    let r := g.record t false false resume
    match g.sleeve with
    | some x => (s1.freePort h).setGroup { h with phase := .stopped, window := [], latch := [], sleeve := some { x with trap := some ⟨r, kind, 0⟩ } }
    | none => (s1.setGroup { h with window := [], latch := [] }).deliver g.uid r kind

/-- The group once a word has issued: the window ages, results sent to the bypass join it, and the latch holds the registers
of a word with the reuse bit (R31, R33). -/
def Group.issued (g : Group) (add : List Bypass) (latch : List (Nat × Nat)) : Group :=
  { g with window := add ++ ageWindow g.window, latch := latch }

/-- Runs a meaning for the issuing group or context; no word can issue without one. -/
def withIssuer (s : State) (k : Group → State) : Out :=
  match s.cur with
  | none => .refused .noIssuer
  | some u =>
    match s.group? u with
    | none => .refused .noIssuer
    | some g => .next (k g)

end Sys2Proof.Machine
end

