-- ==== Sys2Proof/Machine/Ras.lean ====
section
/-! DEFINITION. Uncorrectable granules of HBM and the Mantle, and writes over them (R336). -/
namespace Sys2Proof.Machine
open Sys2Proof

/-- The granule of a mark: first key and size (Table 15.1). -/
def EccMark.granule (m : EccMark) : Nat × Nat :=
  let z := if m.region < 8 then 64 else 32
  (m.loc / z * z, z)
/-- Whether a mark is an uncorrectable granule of HBM or the Mantle that touches `n` bytes from a key. -/
def EccMark.hits (m : EccMark) (key n : Nat) : Bool :=
  m.bad && m.region < 0x18 && m.granule.1 < key + n && key < m.granule.1 + m.granule.2

/-- Whether a store of `n` bytes from a key covers the line of a mark that is a locked Mantle line (R336). -/
def EccMark.lineCovered (m : EccMark) (key n : Nat) : Bool := !m.bad && key ≤ m.loc && m.loc + 128 ≤ key + n

/-- Writes bytes of physical memory where marks stand (R336): a granule that is uncorrectable is replaced by a write that covers it, and
discards one that does not, with an error record of kind 2; a write that covers a locked Mantle line ends the lock. -/
def State.markedWrite (s : State) (key : Nat) (bs : List Byte) : State :=
  let n := bs.length
  let hit := s.ras.marks.filter (·.hits key n)
  let full (m : EccMark) : Bool := key ≤ m.granule.1 && m.granule.1 + m.granule.2 ≤ key + n
  let part := hit.filter fun m => !full m
  let mem := bs.zipIdx.foldl (fun (mem : Mem) (x : Byte × Nat) =>
    if part.any (·.hits (key + x.2) 1) then mem else memSet mem (key + x.2) x.1) s.mem
  let s := { s with mem := mem, ras := { s.ras with marks := s.ras.marks.filter fun m => !(m.hits key n && full m) && !m.lineCovered key n } }
  part.foldl (fun s m => s.errRecord m.region 2 0xFF m.loc) s
/-- Writes bytes of physical memory (R176, R336). -/
def State.physWrite (s : State) (key : Nat) (bs : List Byte) : State :=
  if s.ras.marks.isEmpty then { s with mem := memWrite s.mem key bs } else s.markedWrite key bs

/-- Writes bytes of one page at their home, with the tag of each word touched (R59, R176). -/
def State.pageWrite (s : State) (p : Page) (va : Nat) (bs : List Byte) (tags : List Tag) : State :=
  let s := s.physWrite p.key bs
  if p.sig then s.physWrite (p.tagKey va) (tags.map (BitVec.ofNat 8)) else s

/-- Whether a read of `n` bytes at a key meets an uncorrectable granule of HBM or the Mantle (R336). -/
def State.badAt (s : State) (key n : Nat) : Bool := s.ras.marks.any (·.hits key n)

end Sys2Proof.Machine
end

