-- ==== Sys2Proof/Machine/Operands.lean ====
section
/-! DEFINITION. Operands (R67 to R70, R34), and the shared course of an arithmetic word: read, compute, check, write (R82). -/
namespace Sys2Proof.Machine
open Sys2Proof

/-- How a source is read: raw bits or an integer of a width, signed or not, a float format, or a packed pair (R68, R70). -/
inductive OTy where
  | int (w : Nat) (sg : Bool)
  | flt (f : Fmt)
  | pair (h : HlfTy)
  deriving DecidableEq, Repr

/-- Registers a source of this type names (R14). -/
def OTy.regs : OTy → Nat | .int w _ => if w == 64 then 2 else 1 | .flt f => f.regs | .pair _ => 1

/-- The integer column of Table 3.5. -/
def constInt (c : Nat) : Int := [0, 1, -1, 2, 3, 4, 8, 16, -2, 31, 32, 63, 64, 128, 255, 256].getD c 0
/-- The FP64 column of Table 3.5. -/
def constF64 (c : Nat) : Nat :=
  [0x0000000000000000, 0x3FF0000000000000, 0xBFF0000000000000, 0x3FE0000000000000, 0x4000000000000000, 0x4010000000000000,
   0xBFE0000000000000, 0x3FF71547652B82FE, 0xC000000000000000, 0xC010000000000000, 0x3FD0000000000000, 0x3FE62E42FEFA39EF,
   0x400921FB54442D18, 0x3FC45F306DC9C883, 0x3FC0000000000000, 0x4020000000000000].getD c 0
/-- The FP32 column of Table 3.5. -/
def constF32 (c : Nat) : Nat :=
  [0x00000000, 0x3F800000, 0xBF800000, 0x3F000000, 0x40000000, 0x40800000, 0xBF000000, 0x3FB8AA3B, 0xC0000000, 0xC0800000,
   0x3E800000, 0x3F317218, 0x40490FDB, 0x3E22F983, 0x3E000000, 0x41000000].getD c 0
/-- The FP16 column of Table 3.5. -/
def constF16 (c : Nat) : Nat :=
  [0x0000, 0x3C00, 0xBC00, 0x3800, 0x4000, 0x4400, 0xB800, 0x3DC5, 0xC000, 0xC400, 0x3400, 0x398C, 0x4248, 0x3118, 0x3000,
   0x4800].getD c 0
/-- The BF16 column of Table 3.5. -/
def constBf16 (c : Nat) : Nat :=
  [0x0000, 0x3F80, 0xBF80, 0x3F00, 0x4000, 0x4080, 0xBF00, 0x3FB9, 0xC000, 0xC080, 0x3E80, 0x3F31, 0x4049, 0x3E23, 0x3E00,
   0x4100].getD c 0

/-- An inline constant read at a type (R68). -/
def OTy.const (t : OTy) (c : Nat) : Nat :=
  match t with
  | .int w _ => ofSigned w (constInt c)
  | .flt .f64 => constF64 c
  | .flt .f32 => constF32 c
  | .flt .f16 => constF16 c
  | .flt .bf16 => constBf16 c
  | .flt _ => 0
  | .pair .f16 => constF16 c * 65537
  | .pair .bf16 => constBf16 c * 65537

/-- An immediate read at a type (R70). -/
def OTy.imm (t : OTy) (v : Nat) : Nat :=
  match t with
  | .int w sg => if sg then sext 16 w v else v
  | .flt .f64 => v * 2 ^ 48
  | .flt .f32 => v * 2 ^ 16
  | .flt _ => v
  | .pair _ => v * 65537

/-- A source made ready for reading: registers, or one value for every lane with its tag and the flag its read raises. -/
inductive Opnd where
  | reg (r n : Nat)
  | uni (v : Nat) (t : Tag) (fl : FlagSet)
  deriving DecidableEq, Repr, Inhabited

/-- The value and tag of a source in a lane (R34, R14, R17). -/
def Opnd.at (g : Group) (l : Nat) : Opnd → Nat × Tag
  | .uni v t _ => (v, t)
  | .reg r n =>
    let x := g.read r l
    if n == 1 then (x.1.toNat, x.2) else (x.1.toNat + 2 ^ 32 * (g.read (r + 1) l).1.toNat, x.2)
/-- The shape of a source (R12). -/
def Opnd.shape (g : Group) : Opnd → Shape
  | .uni .. => .uniform
  | .reg r n => if n == 1 then (g.view r).shape else
      if (g.view r).shape.rank < (g.view (r + 1)).shape.rank then (g.view (r + 1)).shape else (g.view r).shape
/-- Flags that reading a source raises: PWOOB (R165). -/
def Opnd.fl : Opnd → FlagSet | .uni _ _ f => f | .reg .. => flNone
/-- Whether every source is uniform (R12 row 3). -/
def allUniform (g : Group) (os : List Opnd) : Bool := os.all fun o => o.shape g == .uniform

/-- One word of a parameter window inside its bound, or the trap of its read (R165). -/
def State.windowWord (s : State) (g : Group) (w : Mask) (base off : Nat) : Except Trap (Word × Tag) :=
  let va := base + 4 * off
  match s.translate g.part va needR false with
  | .error k => .error { trapOf cMEMFLT k w 0 with addr := some (BitVec.ofNat 64 va) }
  | .ok p =>
    if s.badAt p.key 4 then .error { trapOf cDATAERR 1 w 0 with addr := some (BitVec.ofNat 64 va) }
    else .ok (BitVec.ofNat 32 (memNum s.mem p.key 4), s.tagAt p va)

/-- Collects results, the first error deciding. -/
def collect {α ε : Type} : List (Except ε α) → Except ε (List α)
  | [] => .ok []
  | x :: xs =>
    match x with
    | .error e => .error e
    | .ok v => match collect xs with | .error e => .error e | .ok vs => .ok (v :: vs)

/-- The words of a window value at word offset `off` (R165): zero beyond the bound, and then tag 0 on the whole and PWOOB. The
lanes of `w` are those the read concerns. -/
def State.window (s : State) (g : Group) (w : Mask) (n off cnt : Nat) : Except Trap (List (Word × Tag) × FlagSet) :=
  let win := (s.nodeOf g).lrec.win.getD n (0, 0)
  if win.2 == 0 then .error (trapOf cPARAMUNB n w 0)
  else
    let offs := (upFrom off cnt).map (· % 2 ^ 32)
    let inside (o : Nat) : Bool := 4 * o + 4 ≤ win.2
    match collect (offs.map fun o => if inside o then s.windowWord g w win.1 o else .ok (0, 0)) with
    | .error t => .error t
    | .ok ws => if offs.all inside then .ok (ws, flNone) else .ok (ws.map fun x => (x.1, 0), flPWOOB)

/-- Makes a source ready (R67 to R70). -/
def State.operand (s : State) (g : Group) (w : Mask) (x : Src) (t : OTy) : Except Trap Opnd :=
  match x with
  | .reg r => .ok (.reg r.val t.regs)
  | .const c => .ok (.uni (t.const c.val) FULL flNone)
  | .imm v => .ok (.uni (t.imm v.toNat) FULL flNone)
  | .win n o =>
    match s.window g w n.val o.toNat t.regs with
    | .error e => .error e
    | .ok (ws, f) => .ok (.uni (ofWords (ws.map Prod.fst)) (ws.headD (0, 0)).2 f)

/-- Makes a list of sources ready. -/
def State.operands (s : State) (g : Group) (w : Mask) (xs : List (Src × OTy)) : Except Trap (List Opnd) :=
  collect (xs.map fun x => s.operand g w x.1 x.2)

/-! ## Random words (R42) -/

/-- The k-th random word a lane would draw next (R42 srBits). -/
def State.srWord (s : State) (g : Group) (l k : Nat) : Nat :=
  let x := g.lane l
  let n := (x.srcnt.toNat + k) % 2 ^ 32
  let seed := (s.nodeOf g).lrec.seed.toNat
  (philox x.tid (n / 4) (modeSrsel g.mode * 2 ^ 12 + g.node) 0 (seed % 2 ^ 32) (seed / 2 ^ 32)).getD (n % 4) 0

/-- rm() (R82). -/
def rmMode (g : Group) (r : Rm) : Nat := if r == .mode then modeRnd g.mode else r.code

/-- The rounding environment of a lane; `off` words are drawn before its first. -/
def State.renv (s : State) (g : Group) (m off l : Nat) : REnv := ⟨m, modeFtzo g.mode, fun k => s.srWord g l (off + k)⟩

/-! ## Results -/

/-- What an instruction computes in one lane: value and tag, flags, and the source tags that SIGLOSS records where the result
tag comes from a function of R55 (R57). -/
structure LaneOut where
  val : Nat
  tag : Tag
  fl : FlagSet
  sig : Option (List Nat)

/-- A lane result that no flag and no SIGLOSS goes with, tagged FULL (R17). -/
def plainOut (v : Nat) : LaneOut := ⟨v, FULL, flNone, none⟩
/-- A lane result that carries a tag (R17). -/
def carried (v : Nat) (t : Tag) : LaneOut := ⟨v, t, flNone, none⟩

/-- What an arithmetic word does: register writes, predicate writes, flags per lane, random words drawn per lane. -/
structure AluOut where
  regs : List (Nat × RegVal)
  pred : Option (Nat × Mask)
  fl : Nat → FlagSet
  draws : Nat

/-- The SIGLOSS trap of R57, if one is due. -/
def sigLoss (g : Group) (w : Mask) (out : Nat → LaneOut) : Option Trap :=
  if !g.sigte then none
  else
    let low := (maskBits w).filter fun l => match (out l).sig with | some _ => (out l).tag < modeSigthr g.mode | none => false
    match low with
    | [] => none
    | l :: _ =>
      let ts := (out l).sig.getD []
      let w4 := (out l).tag * 2 ^ 24 + ts.getD 0 63 * 2 ^ 16 + ts.getD 1 63 * 2 ^ 8 + ts.getD 2 63
      some (trapOf cSIGLOSS 0 (maskOf low) (BitVec.ofNat 32 w4))

/-- Word `i` of a result. -/
def resWord (v i : Nat) : Word := BitVec.ofNat 32 (v / 2 ^ (32 * i))

/-- The register contents a result of `n` words gives: uniform from the lowest lane, or general (R12). -/
def resRegs (d n : Nat) (w : Mask) (uniform : Bool) (out : Nat → LaneOut) : List (Nat × RegVal) :=
  if uniform then
    let x := out ((maskBits w).headD 0)
    (upFrom 0 n).map fun i => (d + i, .uniform (resWord x.val i) x.tag)
  else
    let xs := laneSlots.map fun l => if w.getLsbD l then some (out l) else none
    (upFrom 0 n).map fun i => (d + i, .general (xs.map fun x => match x with | some x => (resWord x.val i, x.tag) | none => (0, FULL)))

/-- The first register of a result that cannot take its shape (R83, R13). -/
def regTrap (g : Group) (w : Mask) (rs : List (Nat × RegVal)) : Option Trap :=
  rs.findSome? fun x => g.writable x.1 w x.2.shape

/-- A result of one register value of `n` words: SIGLOSS, then the shape (R82). `dep` is whether the operation depends on the
lane (R12 row 3); `aff` is the affine result where R12 rows 5 and 6 give one. DESIGN CHOICE (28): a transient result wider than the
capacity of its destination takes the shape-capacity trap too. -/
def aluResult (g : Group) (w : Mask) (d n : Nat) (os : List Opnd) (dep : Bool) (aff : Option RegVal) (draws : Nat)
    (out : Nat → LaneOut) : Except Trap AluOut :=
  let uniform := allUniform g os && !dep
  let out1 : Nat → LaneOut := if uniform then (let x := out ((maskBits w).headD 0); fun _ => x) else
    (let xs := laneSlots.map fun l => if w.getLsbD l then out l else plainOut 0; fun l => xs.getD l (plainOut 0))
  let fl0 := os.foldl (fun f o => f ||| o.fl) flNone
  match sigLoss g w out1 with
  | some t => .error t
  | none =>
    let rs := match aff with | some v => [(d, v)] | none => resRegs d n w uniform out1
    match regTrap g w rs with
    | some t => .error t
    | none => .ok ⟨rs, none, fun l => (out1 l).fl ||| fl0, draws⟩

/-- A result of a register range (R83): one lane result for each of the `n` registers from `d`, each with its own tag. SIGLOSS
tests the smallest tag of the range that R57 covers. -/
def aluMany (g : Group) (w : Mask) (d n : Nat) (os : List Opnd) (dep : Bool) (draws : Nat) (out : Nat → List LaneOut) :
    Except Trap AluOut :=
  let uniform := allUniform g os && !dep
  let first := out ((maskBits w).headD 0)
  let tab := if uniform then [] else laneSlots.map fun l => if w.getLsbD l then out l else []
  let out1 (l : Nat) : List LaneOut := if uniform then first else tab.getD l []
  let worst (l : Nat) : LaneOut := (out1 l).foldl (fun b x => match x.sig, b.sig with
    | some _, some _ => if x.tag < b.tag then x else b
    | some _, none => x
    | none, _ => b) (plainOut 0)
  let fl0 := os.foldl (fun f o => f ||| o.fl) flNone
  match sigLoss g w worst with
  | some t => .error t
  | none =>
    let rs := (upFrom 0 n).flatMap fun i => resRegs (d + i) 1 w uniform fun l => (out1 l).getD i (plainOut 0)
    match regTrap g w rs with
    | some t => .error t
    | none => .ok ⟨rs, none, fun l => (out1 l).foldl (fun f x => f ||| x.fl) fl0, draws⟩

/-- A predicate result (R18): the lanes in which it holds, and flags. -/
def predResult (w : Mask) (p : Nat) (os : List Opnd) (fl : Nat → FlagSet) (f : Nat → Bool) : Except Trap AluOut :=
  let fl0 := os.foldl (fun f o => f ||| o.fl) flNone
  .ok ⟨[], some (p, maskOf ((maskBits w).filter f)), fun l => fl l ||| fl0, 0⟩

/-- Writes what an arithmetic word computed: registers or the bypass, predicate, STATUS, SRCNT (R82, R31). -/
def Group.commit (g : Group) (trn : Bool) (w : Mask) (o : AluOut) : Group :=
  let add : List Bypass := if trn then o.regs.map fun x => ⟨x.1, g.merged x.1 w x.2, w, 3⟩ else []
  let g := g.issued add g.latch
  let g := if trn then g else o.regs.foldl (fun g x => g.put x.1 w x.2) g
  let g := match o.pred with | some (p, m) => g.putPred p w m | none => g
  let g := g.raiseAll w o.fl
  if o.draws == 0 then g else g.modLanes w fun _ x => { x with srcnt := x.srcnt + BitVec.ofNat 32 o.draws }

/-- The reuse latch that a word leaves: the registers of its source positions when it carries the reuse bit (R33). -/
def latchOf (c : Ctl) (xs : List Src) : List (Nat × Nat) :=
  if c.ru then xs.zipIdx.filterMap fun x => match x.1 with | .reg r => some (x.2, r.val) | _ => none else []

/-- The course of an arithmetic word (R82, R34): an empty write set writes nothing; a trap leaves every register, predicate,
STATUS and SRCNT as it was; else the result is written and the next word follows. -/
def aluWord (s : State) (c : Ctl) (srcs : List Src) (eval : Group → Mask → Except Trap AluOut) : Out :=
  withIssuer s fun g =>
    let w := g.writeSet c.gp.val c.gn
    if w == 0 then s.nextWord (g.issued [] (latchOf c srcs))
    else
      match eval g w with
      | .error t => s.takeTrap g t
      | .ok o => s.nextWord { g.commit c.tr w o with latch := latchOf c srcs }

/-- One-result arithmetic over ready sources: `f` computes a lane's result from the sources' values and tags. -/
def aluMap (s : State) (g : Group) (w : Mask) (d n : Nat) (xs : List (Src × OTy)) (dep : Bool) (draws : Nat)
    (f : Nat → List (Nat × Tag) → LaneOut) : Except Trap AluOut :=
  match s.operands g w xs with
  | .error t => .error t
  | .ok os => aluResult g w d n os dep none draws fun l => f l (os.map (Opnd.at g l))

/-- A predicate computed from ready sources. -/
def predMap (s : State) (g : Group) (w : Mask) (p : Nat) (xs : List (Src × OTy)) (f : List (Nat × Tag) → Bool × FlagSet) :
    Except Trap AluOut :=
  match s.operands g w xs with
  | .error t => .error t
  | .ok os => predResult w p os (fun l => (f (os.map (Opnd.at g l))).2) fun l => (f (os.map (Opnd.at g l))).1

end Sys2Proof.Machine
end

