-- ==== Sys2Proof/Machine/Integer.lean ====
section
/-! DEFINITION. Integer, logic, predicate and move instructions (R85 to R87). Each `eval…` computes a word's result from
ready operands; a P-form slot runs the same function (R72). -/
namespace Sys2Proof

/-- The width of an integer type. -/
def IntTy.w : IntTy → Nat | .s32 | .n32 => 32 | .s64 | .n64 => 64
/-- Whether an integer type is signed. -/
def IntTy.sg : IntTy → Bool | .s32 | .s64 => true | .n32 | .n64 => false
/-- The operand type of an integer type. -/
def IntTy.o (t : IntTy) : Machine.OTy := .int t.w t.sg
/-- The width of a bit type. -/
def BitTy.w : BitTy → Nat | .b32 => 32 | .b64 => 64
/-- The operand type of a bit type. -/
def BitTy.o (t : BitTy) : Machine.OTy := .int t.w false
/-- u(x) or s(x) of R86. -/
def IntTy.num (t : IntTy) (v : Nat) : Int := if t.sg then toSigned t.w v else (v : Int)
/-- The smallest value of an integer type. -/
def IntTy.lo (t : IntTy) : Int := if t.sg then -(2 ^ (t.w - 1) : Nat) else 0
/-- The largest value of an integer type. -/
def IntTy.hi (t : IntTy) : Int := if t.sg then (2 ^ (t.w - 1) : Nat) - 1 else (2 ^ t.w : Nat) - 1
/-- A value clamped to the range of a type. -/
def IntTy.clamp (t : IntTy) (v : Int) : Int := max t.lo (min t.hi v)
/-- The operand type of CMP. -/
def CmpTy.o : CmpTy → Machine.OTy | .int t => t.o | .bit t => t.o

end Sys2Proof

namespace Sys2Proof.Machine
open Sys2Proof

/-- A single 32-bit unsigned operand. -/
abbrev oN32 : OTy := .int 32 false

/-- A result that is a function of the source values alone, tagged FULL (R17). -/
def intMap (s : State) (g : Group) (w : Mask) (d n : Nat) (xs : List (Src × OTy)) (f : List Nat → Nat) : Except Trap AluOut :=
  aluMap s g w d n xs false 0 fun _ vs => plainOut (f (vs.map Prod.fst))

/-- The base of a uniform or affine source, and the stride of an affine one. -/
def Opnd.linear (g : Group) : Opnd → Option (Word × Option Word)
  | .uni v _ _ => some (BitVec.ofNat 32 v, none)
  | .reg r n => if n == 1 then (match g.view r with
      | .uniform w _ => some (w, none)
      | .affine a b _ => some (a, some b)
      | .general _ => none) else none

/-- A 32-bit result of two sources that R12 rows 5 and 6 may make affine: `lin` gives base and stride. -/
def affMap (s : State) (g : Group) (w : Mask) (d : Nat) (xs : List (Src × OTy))
    (lin : List (Word × Option Word) → Option (Word × Word)) (f : List Nat → Nat) : Except Trap AluOut :=
  match s.operands g w xs with
  | .error t => .error t
  | .ok os =>
    let ls := os.filterMap (Opnd.linear g)
    let aff := if ls.length == os.length && os.any (fun o => o.shape g == .affine)
      then (lin ls).map fun x => RegVal.affine x.1 x.2 FULL else none
    aluResult g w d 1 os false aff 0 fun l => plainOut (f (os.map fun o => (Opnd.at g l o).1))

/-- The i-th value of a list of operands. -/
abbrev nth (vs : List Nat) (i : Nat) : Nat := vs.getD i 0

/-- IADD and ISUB (R86): a + b or a − b, clamped with .sat. -/
def addVal (t : IntTy) (sub sat : Bool) (a b : Nat) : Nat :=
  let x : Int := if sub then t.num a - t.num b else t.num a + t.num b
  ofSigned t.w (if sat then t.clamp x else x)
/-- IADD and ISUB with the shapes of R12. -/
def evalAdd (sub sat : Bool) (t : IntTy) (d : VReg) (a b : Src) (s : State) (g : Group) (w : Mask) : Except Trap AluOut :=
  let f (vs : List Nat) := addVal t sub sat (nth vs 0) (nth vs 1)
  let xs := [(a, t.o), (b, t.o)]
  if t.w == 32 && !sat then
    affMap s g w d.val xs (fun ls => match ls with
      | [x, y] =>
        let dx := x.2.getD 0
        let dy := y.2.getD 0
        some (if sub then (x.1 - y.1, dx - dy) else (x.1 + y.1, dx + dy))
      | _ => none) f
  else intMap s g w d.val t.regs xs f

/-- IMUL (R86): the low bits of the product; of an affine source by a uniform one it is affine (R12 row 6). -/
def evalMul (t : IntTy) (d : VReg) (a b : Src) (s : State) (g : Group) (w : Mask) : Except Trap AluOut :=
  let f (vs : List Nat) := nth vs 0 * nth vs 1 % 2 ^ t.w
  let xs := [(a, t.o), (b, t.o)]
  if t.w == 32 then
    affMap s g w d.val xs (fun ls => match ls with
      | [(x, some d), (y, none)] => some (x * y, d * y)
      | [(x, none), (y, some d)] => some (x * y, x * d)
      | _ => none) f
  else intMap s g w d.val t.regs xs f

/-- IMULHI (R86): the high half of the exact product. -/
def mulhiVal (t : IntTy) (a b : Nat) : Nat := ofSigned t.w (t.num a * t.num b / (2 ^ t.w : Nat))
/-- IMIN and IMAX (R86). -/
def minmaxVal (t : IntTy) (mx : Bool) (a b : Nat) : Nat :=
  if mx then (if t.num a < t.num b then b else a) else (if t.num b < t.num a then b else a)
/-- IMIN and IMAX as a word. -/
def evalMinMax (mx : Bool) (t : IntTy) (d : VReg) (a b : Src) (s : State) (g : Group) (w : Mask) : Except Trap AluOut :=
  intMap s g w d.val t.regs [(a, t.o), (b, t.o)] fun vs => minmaxVal t mx (nth vs 0) (nth vs 1)

/-- IABS and INEG (R86) at the width of a signed type. -/
def absNegVal (t : IntTy) (neg sat : Bool) (b : Nat) : Nat :=
  let x : Int := t.num b
  let y : Int := if neg then -x else x.natAbs
  ofSigned t.w (if sat then t.clamp y else y)
/-- IABS and INEG as a word. -/
def evalAbsNeg (neg sat : Bool) (t : IntTy) (d : VReg) (b : Src) (s : State) (g : Group) (w : Mask) : Except Trap AluOut :=
  intMap s g w d.val t.regs [(b, t.o)] fun vs => absNegVal t neg sat (nth vs 0)

/-- The shifts of R86. -/
inductive ShiftOp where | shl | shr | sar | rot
  deriving DecidableEq, Repr

/-- SHL, SHR, SAR, ROT (R86): the count is b[7:0]. -/
def shiftVal (o : ShiftOp) (w a b : Nat) : Nat :=
  let n := b % 256
  match o with
  | .shl => if w ≤ n then 0 else a * 2 ^ n % 2 ^ w
  | .shr => if w ≤ n then 0 else a / 2 ^ n
  | .sar => ofSigned w (toSigned w a / (2 ^ min n w : Nat))
  | .rot => let k := n % w; (a * 2 ^ k + a / 2 ^ (w - k)) % 2 ^ w
/-- A shift as a word; SHL of an affine source by a uniform amount is affine (R12 row 6). -/
def evalShift (o : ShiftOp) (t : BitTy) (d : VReg) (a b : Src) (s : State) (g : Group) (w : Mask) : Except Trap AluOut :=
  let f (vs : List Nat) := shiftVal o t.w (nth vs 0) (nth vs 1)
  let xs := [(a, t.o), (b, oN32)]
  if o == .shl && t.w == 32 then
    affMap s g w d.val xs (fun ls => match ls with
      | [(x, some d), (y, none)] =>
        let k (v : Word) : Word := BitVec.ofNat 32 (shiftVal .shl 32 v.toNat y.toNat)
        some (k x, k d)
      | _ => none) f
  else intMap s g w d.val t.regs xs f

/-- BFE (R86). -/
def bfeVal (t : IntTy) (a b : Nat) : Nat :=
  let pos := bits b 0 8
  let len := min (bits b 8 8) t.w
  let x := ofSigned 320 (t.num a)
  let fld := bits x pos len
  if len == 0 then 0 else if t.sg then sext len t.w fld else fld
/-- BFI (R86): `a` is the field, `b` the word, `c` the place. -/
def bfiVal (w a b c : Nat) : Nat :=
  let pos := bits c 0 8
  let stop := min (pos + min (bits c 8 8) w) w
  if w ≤ pos then b
  else b % 2 ^ pos + a % 2 ^ (stop - pos) * 2 ^ pos + b / 2 ^ stop * 2 ^ stop

/-- POPC (R86). -/
def popcVal (v : Nat) : Nat → Nat | 0 => 0 | n + 1 => (v / 2 ^ n) % 2 + popcVal v n
/-- CLZ (R86): the width for a zero source. -/
def clzVal (w v : Nat) : Nat := if v == 0 then w else w - 1 - v.log2
/-- CTZ (R86), from bit `i` up, `n` bits left. -/
def ctzVal (v : Nat) : Nat → Nat → Nat | _, 0 => 0 | i, n + 1 => if v.testBit i then 0 else 1 + ctzVal v (i + 1) n
/-- BREV (R86). -/
def brevVal (w v : Nat) : Nat → Nat | 0 => 0 | n + 1 => (if v.testBit n then 2 ^ (w - 1 - n) else 0) + brevVal w v n

/-- The one-source bit counts. -/
inductive CountOp where | popc | clz | ctz
  deriving DecidableEq, Repr
/-- POPC, CLZ, CTZ as a word (R86). -/
def evalCount (o : CountOp) (t : BitTy) (d : VReg) (b : Src) (s : State) (g : Group) (w : Mask) : Except Trap AluOut :=
  intMap s g w d.val 1 [(b, t.o)] fun vs =>
    let v := nth vs 0
    match o with | .popc => popcVal v t.w | .clz => clzVal t.w v | .ctz => ctzVal v 0 t.w
/-- BREV as a word (R86). -/
def evalBrev (t : BitTy) (d : VReg) (b : Src) (s : State) (g : Group) (w : Mask) : Except Trap AluOut :=
  intMap s g w d.val t.regs [(b, t.o)] fun vs => brevVal t.w (nth vs 0) t.w

/-- PERMB (R86). -/
def permbVal (a b c : Nat) : Nat :=
  let byte (i : Nat) : Nat :=
    let k := bits c (4 * i) 3
    let x := if k < 4 then bits a (8 * k) 8 else bits b (8 * (k - 4)) 8
    if bits c (4 * i + 3) 1 == 1 then (if 128 ≤ x then 255 else 0) else x
  byte 0 + 2 ^ 8 * byte 1 + 2 ^ 16 * byte 2 + 2 ^ 24 * byte 3

/-- The bitwise operations of R86. -/
inductive LogicOp where | and | or | xor | andn
  deriving DecidableEq, Repr
/-- AND, OR, XOR, ANDN (R86). -/
def logicVal (o : LogicOp) (w a b : Nat) : Nat :=
  match o with
  | .and => a &&& b
  | .or => a ||| b
  | .xor => a ^^^ b
  | .andn => a &&& (2 ^ w - 1 - b)
/-- A bitwise operation as a word (R86). -/
def evalLogic (o : LogicOp) (t : BitTy) (d : VReg) (a b : Src) (s : State) (g : Group) (w : Mask) : Except Trap AluOut :=
  intMap s g w d.val t.regs [(a, t.o), (b, t.o)] fun vs => logicVal o t.w (nth vs 0) (nth vs 1)
/-- NOT as a word (R86). -/
def evalNot (t : BitTy) (d : VReg) (b : Src) (s : State) (g : Group) (w : Mask) : Except Trap AluOut :=
  intMap s g w d.val t.regs [(b, t.o)] fun vs => 2 ^ t.w - 1 - nth vs 0

/-- MOV (R86): the value with its shape and its tag (R12 row 1, R17); a 64-bit value is never affine (R14). -/
def evalMov (t : BitTy) (d : VReg) (b : Src) (s : State) (g : Group) (w : Mask) : Except Trap AluOut :=
  match s.operand g w b t.o with
  | .error e => .error e
  | .ok o =>
    let aff := match o, t with
      | .reg r _, .b32 => (match g.view r with | .affine a c tg => some (RegVal.affine a c tg) | _ => none)
      | _, _ => none
    aluResult g w d.val t.regs [o] false aff 0 fun l => let x := Opnd.at g l o; carried x.1 x.2

/-- The condition of CMP (R87). -/
def cmpVal (cc : Cc) (t : CmpTy) (a b : Nat) : Bool :=
  let n (v : Nat) : Int := match t with | .int t => t.num v | .bit _ => v
  match cc with
  | .eq => a == b
  | .ne => a != b
  | .lt => n a < n b
  | .le => n a ≤ n b
  | .gt => n b < n a
  | .ge => n b ≤ n a
  | .c6 => a &&& b != 0
  | .c7 => a &&& b == 0

/-- A predicate computed from predicates (R87). -/
def predOnly (p : Pred) (w : Mask) (f : Nat → Bool) : Except Trap AluOut := predResult w p.val [] (fun _ => flNone) f

/-- IADD (R85, R86). -/
def execIadd (c : Ctl) (sat : Bool) (t : IntTy) (d : VReg) (a b : Src) (s : State) : Out :=
  aluWord s c [a, b] (evalAdd false sat t d a b s)
/-- ISUB (R85, R86). -/
def execIsub (c : Ctl) (sat : Bool) (t : IntTy) (d : VReg) (a b : Src) (s : State) : Out :=
  aluWord s c [a, b] (evalAdd true sat t d a b s)
/-- IMUL (R85, R86). -/
def execImul (c : Ctl) (t : IntTy) (d : VReg) (a b : Src) (s : State) : Out := aluWord s c [a, b] (evalMul t d a b s)
/-- IMULHI (R85, R86). -/
def execImulhi (c : Ctl) (t : IntTy) (d : VReg) (a b : Src) (s : State) : Out :=
  aluWord s c [a, b] fun g w => intMap s g w d.val t.regs [(a, t.o), (b, t.o)] fun vs => mulhiVal t (nth vs 0) (nth vs 1)
/-- IMAD (R85, R86). -/
def execImad (c : Ctl) (t : IntTy) (d : VReg) (a b e : Src) (s : State) : Out :=
  aluWord s c [a, b, e] fun g w => intMap s g w d.val t.regs [(a, t.o), (b, t.o), (e, t.o)] fun vs =>
    (nth vs 0 * nth vs 1 + nth vs 2) % 2 ^ t.w
/-- IMADW (R85, R86): the 32-bit factors extended, the pair Vc added. -/
def execImadw (c : Ctl) (sg : Bool) (d : VReg) (a b e : Src) (s : State) : Out :=
  aluWord s c [a, b, e] fun g w =>
    intMap s g w d.val 2 [(a, .int 32 sg), (b, .int 32 sg), (e, .int 64 sg)] fun vs =>
      let x (v : Nat) : Nat := if sg then sext 32 64 v else v
      (x (nth vs 0) * x (nth vs 1) + nth vs 2) % 2 ^ 64
/-- IMIN (R85, R86). -/
def execImin (c : Ctl) (t : IntTy) (d : VReg) (a b : Src) (s : State) : Out := aluWord s c [a, b] (evalMinMax false t d a b s)
/-- IMAX (R85, R86). -/
def execImax (c : Ctl) (t : IntTy) (d : VReg) (a b : Src) (s : State) : Out := aluWord s c [a, b] (evalMinMax true t d a b s)
/-- The signed type of IABS and INEG. -/
def sTy (w64 : Bool) : IntTy := if w64 then .s64 else .s32
/-- IABS (R85, R86). -/
def execIabs (c : Ctl) (sat w64 : Bool) (d : VReg) (b : Src) (s : State) : Out :=
  aluWord s c [b] (evalAbsNeg false sat (sTy w64) d b s)
/-- INEG (R85, R86). -/
def execIneg (c : Ctl) (sat w64 : Bool) (d : VReg) (b : Src) (s : State) : Out :=
  aluWord s c [b] (evalAbsNeg true sat (sTy w64) d b s)
/-- SHL (R85, R86). -/
def execShl (c : Ctl) (t : BitTy) (d : VReg) (a b : Src) (s : State) : Out := aluWord s c [a, b] (evalShift .shl t d a b s)
/-- SHR (R85, R86). -/
def execShr (c : Ctl) (t : BitTy) (d : VReg) (a b : Src) (s : State) : Out := aluWord s c [a, b] (evalShift .shr t d a b s)
/-- SAR (R85, R86). -/
def execSar (c : Ctl) (t : BitTy) (d : VReg) (a b : Src) (s : State) : Out := aluWord s c [a, b] (evalShift .sar t d a b s)
/-- ROT (R85, R86). -/
def execRot (c : Ctl) (t : BitTy) (d : VReg) (a b : Src) (s : State) : Out := aluWord s c [a, b] (evalShift .rot t d a b s)
/-- BFE (R85, R86). -/
def execBfe (c : Ctl) (t : IntTy) (d : VReg) (a b : Src) (s : State) : Out :=
  aluWord s c [a, b] fun g w => intMap s g w d.val t.regs [(a, t.o), (b, .int 32 t.sg)] fun vs => bfeVal t (nth vs 0) (nth vs 1)
/-- BFI (R85, R86). -/
def execBfi (c : Ctl) (t : BitTy) (d : VReg) (a b e : Src) (s : State) : Out :=
  aluWord s c [a, b, e] fun g w =>
    intMap s g w d.val t.regs [(a, t.o), (b, t.o), (e, oN32)] fun vs => bfiVal t.w (nth vs 0) (nth vs 1) (nth vs 2)
/-- POPC (R85, R86). -/
def execPopc (c : Ctl) (t : BitTy) (d : VReg) (b : Src) (s : State) : Out := aluWord s c [b] (evalCount .popc t d b s)
/-- CLZ (R85, R86). -/
def execClz (c : Ctl) (t : BitTy) (d : VReg) (b : Src) (s : State) : Out := aluWord s c [b] (evalCount .clz t d b s)
/-- CTZ (R85, R86). -/
def execCtz (c : Ctl) (t : BitTy) (d : VReg) (b : Src) (s : State) : Out := aluWord s c [b] (evalCount .ctz t d b s)
/-- BREV (R85, R86). -/
def execBrev (c : Ctl) (t : BitTy) (d : VReg) (b : Src) (s : State) : Out := aluWord s c [b] (evalBrev t d b s)
/-- PERMB (R85, R86). -/
def execPermb (c : Ctl) (d : VReg) (a b e : Src) (s : State) : Out :=
  aluWord s c [a, b, e] fun g w => intMap s g w d.val 1 [(a, oN32), (b, oN32), (e, oN32)] fun vs =>
    permbVal (nth vs 0) (nth vs 1) (nth vs 2)
/-- AND (R85, R86). -/
def execAnd (c : Ctl) (t : BitTy) (d : VReg) (a b : Src) (s : State) : Out := aluWord s c [a, b] (evalLogic .and t d a b s)
/-- OR (R85, R86). -/
def execOr (c : Ctl) (t : BitTy) (d : VReg) (a b : Src) (s : State) : Out := aluWord s c [a, b] (evalLogic .or t d a b s)
/-- XOR (R85, R86). -/
def execXor (c : Ctl) (t : BitTy) (d : VReg) (a b : Src) (s : State) : Out := aluWord s c [a, b] (evalLogic .xor t d a b s)
/-- NOT (R85, R86). -/
def execNot (c : Ctl) (t : BitTy) (d : VReg) (b : Src) (s : State) : Out := aluWord s c [b] (evalNot t d b s)
/-- ANDN (R85, R86). -/
def execAndn (c : Ctl) (t : BitTy) (d : VReg) (a b : Src) (s : State) : Out := aluWord s c [a, b] (evalLogic .andn t d a b s)
/-- SEL (R85, R86): the predicate makes the result general. -/
def execSel (c : Ctl) (t : BitTy) (d : VReg) (a b : Src) (p : Pred) (s : State) : Out :=
  aluWord s c [a, b] fun g w => aluMap s g w d.val t.regs [(a, t.o), (b, t.o)] true 0 fun l vs =>
    plainOut (nth (vs.map Prod.fst) (if g.pred p.val l then 0 else 1))
/-- ADDR (R85, R86). -/
def execAddr (c : Ctl) (sg : Bool) (d : VReg) (a b : Src) (sh : Fin 8) (s : State) : Out :=
  aluWord s c [a, b] fun g w => intMap s g w d.val 2 [(a, .int 64 sg), (b, .int 32 sg)] fun vs =>
    (nth vs 0 + (if sg then sext 32 64 (nth vs 1) else nth vs 1) * 2 ^ sh.val) % 2 ^ 64
/-- CMP (R85, R87). -/
def execCmp (c : Ctl) (cc : Cc) (t : CmpTy) (p : Pred) (a b : Src) (s : State) : Out :=
  aluWord s c [a, b] fun g w => predMap s g w p.val [(a, t.o), (b, t.o)] fun vs =>
    (cmpVal cc t (nth (vs.map Prod.fst) 0) (nth (vs.map Prod.fst) 1), flNone)
/-- PAND (R87). -/
def execPand (c : Ctl) (na nb : Bool) (d a b : Pred) (s : State) : Out :=
  aluWord s c [] fun g w => predOnly d w fun l => (g.pred a.val l != na) && (g.pred b.val l != nb)
/-- POR (R87). -/
def execPor (c : Ctl) (na nb : Bool) (d a b : Pred) (s : State) : Out :=
  aluWord s c [] fun g w => predOnly d w fun l => (g.pred a.val l != na) || (g.pred b.val l != nb)
/-- PXOR (R87). -/
def execPxor (c : Ctl) (na nb : Bool) (d a b : Pred) (s : State) : Out :=
  aluWord s c [] fun g w => predOnly d w fun l => (g.pred a.val l != na) != (g.pred b.val l != nb)
/-- PNOT (R87). -/
def execPnot (c : Ctl) (d b : Pred) (s : State) : Out := aluWord s c [] fun g w => predOnly d w fun l => !g.pred b.val l
/-- PMOV (R87). -/
def execPmov (c : Ctl) (d b : Pred) (s : State) : Out := aluWord s c [] fun g w => predOnly d w fun l => g.pred b.val l
/-- MOV (R85, R86). -/
def execMov (c : Ctl) (t : BitTy) (d : VReg) (b : Src) (s : State) : Out := aluWord s c [b] (evalMov t d b s)
/-- MOVI (R85, R86): `.h` reads Vd as a source. -/
def execMovi (c : Ctl) (t : MoviTy) (d : VReg) (v : BitVec 16) (s : State) : Out :=
  aluWord s c [] fun g w => match t with
    | .b32 => intMap s g w d.val 1 [] fun _ => v.toNat
    | .s32 => intMap s g w d.val 1 [] fun _ => sext 16 32 v.toNat
    | .f32 => intMap s g w d.val 1 [] fun _ => v.toNat * 2 ^ 16
    | .h => intMap s g w d.val 1 [(.reg d, oN32)] fun vs => v.toNat * 2 ^ 16 + nth vs 0 % 2 ^ 16

end Sys2Proof.Machine
end

