-- ==== Sys2Proof/Machine/FloatOps.lean ====
section
/-! DEFINITION. Floating-point arithmetic instructions (R88 to R93). -/
namespace Sys2Proof

/-- The format of a float type. -/
def FltTy.fmt : FltTy → Fmt | .f32 => .f32 | .f64 => .f64
/-- The format of a packed type. -/
def HlfTy.fmt : HlfTy → Fmt | .f16 => .f16 | .bf16 => .bf16
/-- The operand type of a float type. -/
def FltTy.o (t : FltTy) : Machine.OTy := .flt t.fmt

end Sys2Proof

namespace Sys2Proof.Machine
open Sys2Proof

/-- Random words a rounding draws: one for each value under RSR (R42). -/
def drawsFor (m k : Nat) : Nat := if m == 6 then k else 0

/-- A word of rounded results: `f` computes a lane's result and the source tags for SIGLOSS; `k` values are rounded per lane.
A stochastic word depends on the lane's own draws. -/
def fltMap (s : State) (g : Group) (w : Mask) (d n : Nat) (rm : Rm) (k : Nat) (xs : List (Src × OTy))
    (f : REnv → List (Nat × Tag) → FRes × List Nat) : Except Trap AluOut :=
  let m := rmMode g rm
  aluMap s g w d n xs (m == 6) (drawsFor m k) fun l vs =>
    let r := f (s.renv g m 0 l) vs
    ⟨r.1.bits, r.1.tag, r.1.fl, some r.2⟩

/-- The i-th source read through readF() (R82). -/
def rdF (g : Group) (f : Fmt) (vs : List (Nat × Tag)) (i : Nat) : FOp :=
  let x := vs.getD i (0, 0)
  readFl f (modeFtzi g.mode) x.1 x.2

/-- The source tags SIGLOSS records. -/
def tags (l : List FOp) : List Nat := l.map FOp.t

/-- The rounded binary operations. -/
inductive FBin where | add | sub | mul | div
  deriving DecidableEq, Repr
/-- FADD, FSUB, FMUL, FDIV of two values, drawing word `k` (R89). -/
def FBin.run (o : FBin) (e : REnv) (f : Fmt) (k : Nat) (a b : FOp) : FRes :=
  match o with
  | .add => fAdd e f k false a b
  | .sub => fAdd e f k true a b
  | .mul => fMul e f k a b
  | .div => fDiv e f k a b
/-- A rounded binary operation as a word (R89). -/
def evalFBin (o : FBin) (rm : Rm) (t : FltTy) (d : VReg) (a b : Src) (s : State) (g : Group) (w : Mask) : Except Trap AluOut :=
  fltMap s g w d.val t.regs rm 1 [(a, t.o), (b, t.o)] fun e vs =>
    let x := rdF g t.fmt vs 0
    let y := rdF g t.fmt vs 1
    (o.run e t.fmt 0 x y, tags [x, y])

/-- A result whose tag is carried (R90): no SIGLOSS. -/
def carryOut (r : FRes) : LaneOut := ⟨r.bits, r.tag, r.fl, none⟩

/-- FMIN and FMAX of two values; which of two equal operands is selected is a free value (14). -/
def minMaxRes (g : Group) (f : Fmt) (mx : Bool) (x y : FOp) : FRes :=
  fMinMax f (modeFtzo g.mode) mx (Config.minTakesLeft x.t y.t) x y
/-- FMIN and FMAX as a word (R90). -/
def evalFMinMax (mx : Bool) (t : FltTy) (d : VReg) (a b : Src) (s : State) (g : Group) (w : Mask) : Except Trap AluOut :=
  aluMap s g w d.val t.regs [(a, t.o), (b, t.o)] false 0 fun _ vs =>
    carryOut (minMaxRes g t.fmt mx (rdF g t.fmt vs 0) (rdF g t.fmt vs 1))
/-- FABS and FNEG as a word (R90). -/
def evalFAbsNeg (neg : Bool) (t : FltTy) (d : VReg) (b : Src) (s : State) (g : Group) (w : Mask) : Except Trap AluOut :=
  aluMap s g w d.val t.regs [(b, t.o)] false 0 fun _ vs => carryOut (fAbsNeg t.fmt (modeFtzo g.mode) neg (rdF g t.fmt vs 0))

/-- The condition of FCMP (R91). -/
def fcmpVal (cc : Cc) (a b : XR) : Bool :=
  match cc with
  | .eq => xeq a b
  | .ne => !xeq a b
  | .lt => xlt a b
  | .le => xlt a b || xeq a b
  | .gt => xlt b a
  | .ge => xlt b a || xeq a b
  | .c6 => !a.isNan && !b.isNan
  | .c7 => a.isNan || b.isNan

/-- The two 16-bit halves of a packed source (R93). -/
def rdHalf (g : Group) (f : Fmt) (vs : List (Nat × Tag)) (i : Nat) (hi : Bool) : FOp :=
  let x := vs.getD i (0, 0)
  readFl f (modeFtzi g.mode) (if hi then x.1 / 2 ^ 16 else x.1 % 2 ^ 16) x.2
/-- The word of two half results: the smaller tag, both flag sets (R93). -/
def joinHalves (lo hi : FRes) : FRes := ⟨lo.bits + 2 ^ 16 * hi.bits, min lo.tag hi.tag, lo.fl ||| hi.fl⟩
/-- FADD2 and FMUL2 as a word (R93). -/
def evalFBin2 (o : FBin) (rm : Rm) (t : HlfTy) (d : VReg) (a b : Src) (s : State) (g : Group) (w : Mask) : Except Trap AluOut :=
  fltMap s g w d.val 1 rm 2 [(a, .pair t), (b, .pair t)] fun e vs =>
    let h (hi : Bool) (k : Nat) : FRes := o.run e t.fmt k (rdHalf g t.fmt vs 0 hi) (rdHalf g t.fmt vs 1 hi)
    (joinHalves (h false 0) (h true 1), tags [rdHalf g t.fmt vs 0 false, rdHalf g t.fmt vs 1 false])
/-- FMIN2 and FMAX2 as a word (R93). -/
def evalFMinMax2 (mx : Bool) (t : HlfTy) (d : VReg) (a b : Src) (s : State) (g : Group) (w : Mask) : Except Trap AluOut :=
  aluMap s g w d.val 1 [(a, .pair t), (b, .pair t)] false 0 fun _ vs =>
    let h (hi : Bool) : FRes := minMaxRes g t.fmt mx (rdHalf g t.fmt vs 0 hi) (rdHalf g t.fmt vs 1 hi)
    carryOut (joinHalves (h false) (h true))

/-- FDOT2 (R93, R54): exact products, exact sum, one rounding to FP32. -/
def fDot2 (e : REnv) (al ah bl bh c : FOp) : FRes :=
  let p := xmul al.v bl.v
  let q := xmul ah.v bh.v
  let x := xadd (e.m == 4) p.1 q.1
  let y := xadd (e.m == 4) x.1 c.v
  let r := e.round .f32 0 y.1
  ⟨r.bits, tagSum .f32 [(p.1, min al.t bl.t), (q.1, min ah.t bh.t), (c.v, c.t)] r.val r.sat, p.2 ||| q.2 ||| x.2 ||| y.2 ||| r.fl⟩

/-- The ILLEGAL "rounding" of a mode that the entry refuses, found when the field selects MODE.RND (R40, R76). -/
def rmTrap (g : Group) (ok : Bool) : Except Trap Unit := if ok then .ok () else .error (trapOf cILLEGAL illRounding g.active 0)

/-- FADD (R88, R89). -/
def execFadd (c : Ctl) (rm : Rm) (t : FltTy) (d : VReg) (a b : Src) (s : State) : Out := aluWord s c [a, b] (evalFBin .add rm t d a b s)
/-- FSUB (R88, R89). -/
def execFsub (c : Ctl) (rm : Rm) (t : FltTy) (d : VReg) (a b : Src) (s : State) : Out := aluWord s c [a, b] (evalFBin .sub rm t d a b s)
/-- FMUL (R88, R89). -/
def execFmul (c : Ctl) (rm : Rm) (t : FltTy) (d : VReg) (a b : Src) (s : State) : Out := aluWord s c [a, b] (evalFBin .mul rm t d a b s)
/-- FDIV (R88, R89). -/
def execFdiv (c : Ctl) (rm : Rm) (t : FltTy) (d : VReg) (a b : Src) (s : State) : Out := aluWord s c [a, b] (evalFBin .div rm t d a b s)
/-- FFMA (R88, R89). -/
def execFfma (c : Ctl) (rm : Rm) (t : FltTy) (d : VReg) (a b e : Src) (s : State) : Out :=
  aluWord s c [a, b, e] fun g w => fltMap s g w d.val t.regs rm 1 [(a, t.o), (b, t.o), (e, t.o)] fun v vs =>
    let r := rdF g t.fmt vs
    (fFma v t.fmt 0 (r 0) (r 1) (r 2), tags [r 0, r 1, r 2])
/-- FMIN (R88, R90). -/
def execFmin (c : Ctl) (t : FltTy) (d : VReg) (a b : Src) (s : State) : Out := aluWord s c [a, b] (evalFMinMax false t d a b s)
/-- FMAX (R88, R90). -/
def execFmax (c : Ctl) (t : FltTy) (d : VReg) (a b : Src) (s : State) : Out := aluWord s c [a, b] (evalFMinMax true t d a b s)
/-- FABS (R88, R90). -/
def execFabs (c : Ctl) (t : FltTy) (d : VReg) (b : Src) (s : State) : Out := aluWord s c [b] (evalFAbsNeg false t d b s)
/-- FNEG (R88, R90). -/
def execFneg (c : Ctl) (t : FltTy) (d : VReg) (b : Src) (s : State) : Out := aluWord s c [b] (evalFAbsNeg true t d b s)
/-- FCMP (R88, R91). -/
def execFcmp (c : Ctl) (cc : Cc) (t : FltTy) (p : Pred) (a b : Src) (s : State) : Out :=
  aluWord s c [a, b] fun g w => predMap s g w p.val [(a, t.o), (b, t.o)] fun vs =>
    let x := (rdF g t.fmt vs 0).v
    let y := (rdF g t.fmt vs 1).v
    (fcmpVal cc x y, sigNV [x, y])
/-- FCLASS (R88, R91). -/
def execFclass (c : Ctl) (t : Fmt) (p : Pred) (a b : Src) (s : State) : Out :=
  aluWord s c [a, b] fun g w => predMap s g w p.val [(a, .flt t), (b, oN32)] fun vs =>
    ((nth (vs.map Prod.fst) 1).testBit (classOf t (fdec t (nth (vs.map Prod.fst) 0))), flNone)
/-- FRND (R88, R92): MODE.RND of 6 or 7 is refused too. -/
def execFrnd (c : Ctl) (rm : Rm) (t : FltTy) (d : VReg) (b : Src) (s : State) : Out :=
  aluWord s c [b] fun g w =>
    match rmTrap g (rmMode g rm < 6) with
    | .error e => .error e
    | .ok _ => fltMap s g w d.val t.regs rm 0 [(b, t.o)] fun v vs => let x := rdF g t.fmt vs 0; (fRnd v t.fmt x, [63, x.t])
/-- FSCALE (R88, R92): the tag of the power of two is p(F). DESIGN CHOICE (29): a SIGLOSS record names p(F) as the exponent's tag. -/
def execFscale (c : Ctl) (rm : Rm) (t : FltTy) (d : VReg) (a b : Src) (s : State) : Out :=
  aluWord s c [a, b] fun g w => fltMap s g w d.val t.regs rm 1 [(a, t.o), (b, .int 32 true)] fun v vs =>
    let x := rdF g t.fmt vs 0
    (fScale v t.fmt 0 x (toSigned 32 (nth (vs.map Prod.fst) 1)), [x.t, fmtP t.fmt])
/-- FDOT2 (R88, R93). -/
def execFdot2 (c : Ctl) (rm : Rm) (t : HlfTy) (d : VReg) (a b e : Src) (s : State) : Out :=
  aluWord s c [a, b, e] fun g w => fltMap s g w d.val 1 rm 1 [(a, .pair t), (b, .pair t), (e, .flt .f32)] fun v vs =>
    let h := rdHalf g t.fmt vs
    let z := rdF g .f32 vs 2
    (fDot2 v (h 0 false) (h 0 true) (h 1 false) (h 1 true) z, tags [h 0 false, h 1 false, z])
/-- FADD2 (R88, R93). -/
def execFadd2 (c : Ctl) (rm : Rm) (t : HlfTy) (d : VReg) (a b : Src) (s : State) : Out := aluWord s c [a, b] (evalFBin2 .add rm t d a b s)
/-- FMUL2 (R88, R93). -/
def execFmul2 (c : Ctl) (rm : Rm) (t : HlfTy) (d : VReg) (a b : Src) (s : State) : Out := aluWord s c [a, b] (evalFBin2 .mul rm t d a b s)
/-- FFMA2 (R88, R93). -/
def execFfma2 (c : Ctl) (rm : Rm) (t : HlfTy) (d : VReg) (a b e : Src) (s : State) : Out :=
  aluWord s c [a, b, e] fun g w => fltMap s g w d.val 1 rm 2 [(a, .pair t), (b, .pair t), (e, .pair t)] fun v vs =>
    let h := rdHalf g t.fmt vs
    let one (hi : Bool) (k : Nat) : FRes := fFma v t.fmt k (h 0 hi) (h 1 hi) (h 2 hi)
    (joinHalves (one false 0) (one true 1), tags [h 0 false, h 1 false, h 2 false])
/-- FMIN2 (R88, R93). -/
def execFmin2 (c : Ctl) (t : HlfTy) (d : VReg) (a b : Src) (s : State) : Out := aluWord s c [a, b] (evalFMinMax2 false t d a b s)
/-- FMAX2 (R88, R93). -/
def execFmax2 (c : Ctl) (t : HlfTy) (d : VReg) (a b : Src) (s : State) : Out := aluWord s c [a, b] (evalFMinMax2 true t d a b s)

end Sys2Proof.Machine
end

