-- ==== Sys2Proof/Machine/Sfu.lean ====
section
/-! DEFINITION. Square root and the special functions (R100 to R103). R101 fixes each coefficient as a real number rounded to a
grid; the model computes it in fixed point with 240 fraction bits. -/
namespace Sys2Proof.Machine
open Sys2Proof

/-- An exact fraction `n/d`. -/
structure Fr where
  n : Int
  d : Nat
  deriving DecidableEq, Repr

/-- The sum of two fractions. -/
def Fr.add (a b : Fr) : Fr := ⟨a.n * b.d + b.n * a.d, a.d * b.d⟩
/-- The product of two fractions. -/
def Fr.mul (a b : Fr) : Fr := ⟨a.n * b.n, a.d * b.d⟩
/-- A fraction times 2^e. -/
def Fr.scale (a : Fr) (e : Int) : Fr := if 0 ≤ e then ⟨a.n * 2 ^ e.toNat, a.d⟩ else ⟨a.n, a.d * 2 ^ (-e).toNat⟩
/-- The greatest integer at or below a fraction. -/
def Fr.floor (a : Fr) : Int := a.n / a.d
/-- A whole number. -/
def Fr.whole (n : Int) : Fr := ⟨n, 1⟩
/-- A fraction as an exact real; zero has sign +. -/
def Fr.toXR (a : Fr) : XR := .fin (a.n < 0) a.n.natAbs a.d
/-- A finite value as a fraction. -/
def XR.toFr : XR → Fr | .fin s n d => ⟨if s then -n else n, d⟩ | _ => ⟨0, 1⟩

/-! ## Constants and functions in fixed point -/

/-- Fraction bits of the fixed-point numbers. -/
abbrev fxP : Nat := 240
/-- One. -/
abbrev fx1 : Int := (2 ^ fxP : Nat)
/-- A product of two fixed-point numbers. -/
def fxMul (a b : Int) : Int := a * b / fx1
/-- A fraction in fixed point. -/
def fxOf (a : Fr) : Int := a.n * fx1 / a.d
/-- The series Σ t^(2i+1)/(2i+1) with alternating signs or not: atan and atanh. `p` is the current power, `k` the next odd number. -/
def fxArc (alt : Bool) (t2 : Int) : Nat → Nat → Int → Int
  | 0, _, _ => 0
  | f + 1, k, p => p / k + fxArc alt t2 f (k + 2) (if alt then -(fxMul p t2) else fxMul p t2)
/-- atanh of a fraction of magnitude at most 1/3. -/
def fxAtanh (a : Fr) : Int := let t := fxOf a; fxArc false (fxMul t t) 90 1 t
/-- atan of a small fraction. -/
def fxAtan (a : Fr) : Int := let t := fxOf a; fxArc true (fxMul t t) 70 1 t
/-- ln 2. -/
def fxLn2 : Int := 2 * fxAtanh ⟨1, 3⟩
/-- 2π. -/
def fxTau : Int := 32 * fxAtan ⟨1, 5⟩ - 8 * fxAtan ⟨1, 239⟩
/-- The series Σ x^i/i! from a term `p` of index `k`. -/
def fxExpFrom (x : Int) : Nat → Nat → Int → Int
  | 0, _, _ => 0
  | f + 1, k, p => p + fxExpFrom x f (k + 1) (fxMul p x / (k : Int))
/-- e^x for |x| at most 1. -/
def fxExp (x : Int) : Int := fxExpFrom x 64 1 fx1
/-- The series of sine or cosine from a term `p` of index `k`. -/
def fxTrigFrom (x2 : Int) : Nat → Nat → Int → Int
  | 0, _, _ => 0
  | f + 1, k, p => p + fxTrigFrom x2 f (k + 2) (-(fxMul p x2) / ((k * (k + 1) : Nat) : Int))
/-- sin x and cos x for x from 0 to π/2. -/
def fxSinCos (x : Int) : Int × Int := let x2 := fxMul x x; (fxTrigFrom x2 50 2 x, fxTrigFrom x2 50 1 fx1)
/-- ln m for m from 1 to 2: 2·atanh((m−1)/(m+1)). -/
def fxLn (m : Fr) : Int := 2 * fxAtanh ⟨m.n - m.d, (m.n + m.d).toNat⟩
/-- 2^u for u from 0 to 1. -/
def fxExp2 (u : Fr) : Int := fxExp (fxMul (fxOf u) fxLn2)
/-- e^(−y) for y at or above 0. -/
def fxExpNeg (y : Int) : Int :=
  let q := y / fxLn2
  fxExp (-(y - q * fxLn2)) / (2 ^ q.toNat : Nat)
/-- tanh a for a above 0. -/
def fxTanh (a : Fr) : Int := let e := fxExpNeg (2 * fxOf a); (fx1 - e) * fx1 / (fx1 + e)
/-- m^(−1/2). -/
def fxRsqrt (m : Fr) : Int := (isqrt (m.d * 2 ^ (2 * fxP) / m.n.toNat) : Int)

/-- rneGrid (R101) of a fixed-point number at the grid 2^e, as a multiple of the grid. -/
def fxRne (v : Int) (e : Int) : Int :=
  let d : Int := (2 ^ ((fxP : Int) + e).toNat : Nat)
  let q := v / d
  let r := v % d
  if d < 2 * r || (2 * r == d && q % 2 == 1) then q + 1 else q

/-- rneGrid at 2^−40, the grid of the series bands (R101). -/
def series40 (v : Int) : Fr := ⟨fxRne v (-40), 2 ^ 40⟩

/-! ## The kernel (R101) -/

/-- The functions of the tables. -/
inductive SfuFn where | rcp | rsqrt | exp2 | log2 | sin | tanh
  deriving DecidableEq, Repr

/-- w^i · f^(i)(xm) / i! for i = 0 to 3. -/
def SfuFn.coeffs (f : SfuFn) (w xm : Fr) : List Int :=
  let W := fxOf w
  match f with
  | .rcp =>
    let r := fxOf ⟨xm.d, xm.n.toNat⟩
    let k := fxMul W r
    [r, -(fxMul r k), fxMul (fxMul r k) k, -(fxMul (fxMul (fxMul r k) k) k)]
  | .rsqrt =>
    let r := fxRsqrt xm
    let k := fxMul W (fxOf ⟨xm.d, xm.n.toNat⟩)
    let k2 := fxMul k k
    [r, -(fxMul r k / 2), 3 * fxMul r k2 / 8, -(5 * fxMul r (fxMul k2 k) / 16)]
  | .exp2 =>
    let r := fxExp2 xm
    let k := fxMul W fxLn2
    [r, fxMul r k, fxMul r (fxMul k k) / 2, fxMul r (fxMul k (fxMul k k)) / 6]
  | .log2 =>
    let k := fxMul W (fxOf ⟨xm.d, xm.n.toNat⟩)
    let inv (x : Int) : Int := x * fx1 / fxLn2
    [inv (fxLn xm), inv k, -(inv (fxMul k k) / 2), inv (fxMul k (fxMul k k)) / 3]
  | .sin =>
    let sc := fxSinCos (fxMul fxTau (fxOf xm))
    let k := fxMul W fxTau
    [sc.1, fxMul sc.2 k, -(fxMul sc.1 (fxMul k k) / 2), -(fxMul sc.2 (fxMul k (fxMul k k)) / 6)]
  | .tanh =>
    let y := fxTanh xm
    let y2 := fxMul y y
    let u := fx1 - y2
    [y, fxMul W u, -(fxMul (fxMul W W) (fxMul y u)), fxMul (fxMul W (fxMul W W)) (fxMul u (3 * y2 - fx1)) / 3]

/-- sfuKernel (R101) for a table that begins at `x0` with segments of width 2^we. -/
def sfuKernel (f : SfuFn) (x0 : Fr) (we : Int) (x : Fr) : Fr :=
  let rel := x.add ⟨-x0.n, x0.d⟩
  let j := (rel.scale (-we)).floor
  let half : Fr := ⟨2 * j + 1, 2⟩
  let xm := x0.add (half.scale we)
  let t := (rel.scale (-we)).add ⟨-half.n, 2⟩
  let cs := f.coeffs ((Fr.whole 1).scale we) xm
  let ge : Int := (((cs.headD 0).natAbs.log2 : Nat) : Int) - (fxP : Int) - 29
  let c (i : Nat) : Fr := Fr.whole (fxRne (cs.getD i 0) ge)
  let r := (c 0).add (t.mul ((c 1).add (t.mul ((c 2).add (t.mul (c 3))))))
  r.scale ge

/-- A finite nonzero magnitude as m·2^e with m from 1 to 2 (R102). -/
def splitExp (n d : Nat) : Fr × Int := let e := ilog2 n d; ((⟨n, d⟩ : Fr).scale (-e), e)
/-- Whether a fraction is 1. -/
def Fr.isOne (a : Fr) : Bool := a.n == a.d
/-- A power of two as an exact real. -/
def pow2X (neg : Bool) (e : Int) : XR := let s := scale2 1 1 e; .fin neg s.1 s.2
/-- A fraction with a sign, as an exact real. -/
def signedX (neg : Bool) (a : Fr) : XR := if neg then .fin (a.n ≥ 0) a.n.natAbs a.d else a.toXR

/-- FRCP (R102): the exact real R, and flags. -/
def sfuRcp (x : XR) : XR × FlagSet :=
  match x with
  | .nan _ => (x, flNone)
  | .inf s => (.fin s 0 1, flNone)
  | .fin s n d =>
    if n == 0 then (.inf s, flDZ)
    else
      let m := splitExp n d
      if m.1.isOne then (pow2X s (-m.2), flNone)
      else (signedX s ((sfuKernel .rcp (Fr.whole 1) (-7) m.1).scale (-m.2)), flNone)

/-- FRSQ (R102). -/
def sfuRsq (x : XR) : XR × FlagSet :=
  match x with
  | .nan _ => (x, flNone)
  | .inf s => if s then (.nan false, flNV) else (.fin false 0 1, flNone)
  | .fin s n d =>
    if n == 0 then (.inf s, flDZ)
    else if s then (.nan false, flNV)
    else
      let m := splitExp n d
      let k := m.2 / 2
      if m.2 % 2 == 0 then
        (if m.1.isOne then (pow2X false (-k), flNone) else (((sfuKernel .rsqrt (Fr.whole 1) (-7) m.1).scale (-k)).toXR, flNone))
      else (((sfuKernel .rsqrt (Fr.whole 2) (-6) (m.1.scale 1)).scale (-k)).toXR, flNone)

/-- FEXP2 (R102). -/
def sfuExp2 (x : XR) : XR × FlagSet :=
  match x with
  | .nan _ => (x, flNone)
  | .inf s => (if s then .fin false 0 1 else x, flNone)
  | .fin .. =>
    let v := x.toFr
    if 200 * (v.d : Int) < v.n then (pow2X false 200, flNone)
    else if v.n < -200 * (v.d : Int) then (pow2X false (-200), flNone)
    else
      let n := v.floor
      let u := v.add (Fr.whole (-n))
      if u.n == 0 then (pow2X false n, flNone) else (((sfuKernel .exp2 (Fr.whole 0) (-7) u).scale n).toXR, flNone)

/-- FLOG2 (R102). -/
def sfuLog2 (x : XR) : XR × FlagSet :=
  match x with
  | .nan _ => (x, flNone)
  | .inf s => if s then (.nan false, flNV) else (x, flNone)
  | .fin s n d =>
    if n == 0 then (.inf true, flDZ)
    else if s then (.nan false, flNV)
    else
      let v : Fr := ⟨(n : Int) - d, d⟩
      if -(d : Int) ≤ 128 * v.n && 128 * v.n < d then
        let c (i : Nat) : Fr := let q := series40 (fx1 * fx1 / (fxLn2 * i)); if i % 2 == 0 then ⟨-q.n, q.d⟩ else q
        let r := v.mul ((c 1).add (v.mul ((c 2).add (v.mul ((c 3).add (v.mul ((c 4).add (v.mul (c 5)))))))))
        (r.toXR, flNone)
      else
        let m := splitExp n d
        if m.1.isOne then ((Fr.whole m.2).toXR, flNone)
        else (((Fr.whole m.2).add (sfuKernel .log2 (Fr.whole 1) (-7) m.1)).toXR, flNone)

/-- FSIN and FCOS (R102): the argument is in revolutions. -/
def sfuSinCos (cosine : Bool) (x : XR) : XR × FlagSet :=
  match x with
  | .nan _ => (x, flNone)
  | .inf _ => (.nan false, flNV)
  | .fin _ n0 _ =>
    if n0 == 0 && !cosine then (x, flNone)
    else
      let y := if cosine then x.toFr.add ⟨1, 4⟩ else x.toFr
      let u := y.add (Fr.whole (-y.floor))
      let k := ((u.scale 1).add ⟨1, 2⟩).floor
      let q := u.add ⟨-k, 2⟩
      let neg := (k % 2 == 1) != (q.n < 0)
      let a : Fr := ⟨q.n.natAbs, q.d⟩
      if a.n == 0 then (.fin false 0 1, flNone)
      else if 4 * a.n == a.d then (.fin neg 1 1, flNone)
      else if 128 * a.n < a.d then
        let t2 := fxMul fxTau fxTau
        let p : List Int := [fxTau, -(fxMul fxTau t2 / 6), fxMul fxTau (fxMul t2 t2) / 120, -(fxMul fxTau (fxMul t2 (fxMul t2 t2)) / 5040)]
        let c (i : Nat) : Fr := series40 (p.getD i 0)
        let a2 := a.mul a
        (signedX neg (a.mul ((c 0).add (a2.mul ((c 1).add (a2.mul ((c 2).add (a2.mul (c 3)))))))), flNone)
      else (signedX neg (sfuKernel .sin (Fr.whole 0) (-8) a), flNone)

/-- FTANH (R102). -/
def sfuTanh (x : XR) : XR × FlagSet :=
  match x with
  | .nan _ => (x, flNone)
  | .inf s => (.fin s 1 1, flNone)
  | .fin s n d =>
    let a : Fr := ⟨n, d⟩
    if n * 4096 < d then (x, flNone)
    else if 16 * d ≤ n then (.fin s 1 1, flNone)
    else if n * 32 < d then
      let a2 := a.mul a
      let c3 := series40 (fx1 / 3)
      let c5 := series40 (2 * fx1 / 15)
      (signedX s (a.mul ((Fr.whole 1).add (a2.mul ((⟨-c3.n, c3.d⟩ : Fr).add (a2.mul c5))))), flNone)
    else
      let e := ilog2 n d
      (signedX s (sfuKernel .tanh ((Fr.whole 1).scale e) (e - 7) a), flNone)

/-- A special function as a word (R100): rounded once under RNE, tagged by tagFn() with trust 23 (Table 4.6). -/
def evalSfu (f : XR → XR × FlagSet) (d : VReg) (b : Src) (s : State) (g : Group) (w : Mask) : Except Trap AluOut :=
  aluMap s g w d.val 1 [(b, .flt .f32)] false 0 fun _ vs =>
    let x := rdF g .f32 vs 0
    let r := f x.v
    let y := roundTo .f32 1 false (modeFtzo g.mode) none 0 r.1
    ⟨y.bits, tagFn .f32 x.t 23 y.val, sigNV [x.v] ||| r.2 ||| y.fl, some [63, x.t]⟩

/-- FRCP (R100, R102). -/
def execFrcp (c : Ctl) (d : VReg) (b : Src) (s : State) : Out := aluWord s c [b] (evalSfu sfuRcp d b s)
/-- FRSQ (R100, R102). -/
def execFrsq (c : Ctl) (d : VReg) (b : Src) (s : State) : Out := aluWord s c [b] (evalSfu sfuRsq d b s)
/-- FSQRT (R100). -/
def execFsqrt (c : Ctl) (rm : Rm) (t : FltTy) (d : VReg) (b : Src) (s : State) : Out :=
  aluWord s c [b] fun g w => fltMap s g w d.val t.regs rm 1 [(b, t.o)] fun e vs =>
    let x := rdF g t.fmt vs 0
    (fSqrt e t.fmt 0 x, [63, x.t])
/-- FEXP2 (R100, R102). -/
def execFexp2 (c : Ctl) (d : VReg) (b : Src) (s : State) : Out := aluWord s c [b] (evalSfu sfuExp2 d b s)
/-- FLOG2 (R100, R102). -/
def execFlog2 (c : Ctl) (d : VReg) (b : Src) (s : State) : Out := aluWord s c [b] (evalSfu sfuLog2 d b s)
/-- FSIN (R100, R102). -/
def execFsin (c : Ctl) (d : VReg) (b : Src) (s : State) : Out := aluWord s c [b] (evalSfu (sfuSinCos false) d b s)
/-- FCOS (R100, R102). -/
def execFcos (c : Ctl) (d : VReg) (b : Src) (s : State) : Out := aluWord s c [b] (evalSfu (sfuSinCos true) d b s)
/-- FTANH (R100, R102). -/
def execFtanh (c : Ctl) (d : VReg) (b : Src) (s : State) : Out := aluWord s c [b] (evalSfu sfuTanh d b s)

end Sys2Proof.Machine
end

