-- ==== Sys2Proof/Machine/Convert.lean ====
section
/-! DEFINITION. Format slots (R49, R50) and conversions (R94 to R99). -/
namespace Sys2Proof

/-- The width of an integer type of a conversion. -/
def CvtInt.w : CvtInt → Nat | .s8 | .n8 => 8 | .s16 | .n16 => 16 | .s32 | .n32 => 32 | .s64 | .n64 => 64
/-- Whether an integer type of a conversion is signed. -/
def CvtInt.sg : CvtInt → Bool | .s8 | .s16 | .s32 | .s64 => true | _ => false

end Sys2Proof

namespace Sys2Proof.Machine
open Sys2Proof

/-! ## Format slots -/

/-- A format slot as an instruction sees it: control word, ASB, BSB, GSB; all zeros where the launch record binds none (R49). -/
def State.fslot (s : State) (g : Group) (n : Nat) : List Addr := (s.nodeOf g).lrec.fs.getD n []
/-- The control word of a slot. -/
def fsCtl (f : List Addr) : Nat := (f.getD 0 0).toNat
/-- AFMT. -/
def fsA (f : List Addr) : Nat := bits (fsCtl f) 0 4
/-- BFMT. -/
def fsB (f : List Addr) : Nat := bits (fsCtl f) 4 4
/-- ACCF. -/
def fsAcc (f : List Addr) : Nat := bits (fsCtl f) 8 2
/-- ASCL. -/
def fsAscl (f : List Addr) : Nat := bits (fsCtl f) 10 2
/-- BSCL. -/
def fsBscl (f : List Addr) : Nat := bits (fsCtl f) 12 2
/-- GSC. -/
def fsGsc (f : List Addr) : Bool := bits (fsCtl f) 14 1 == 1
/-- SAT. -/
def fsSat (f : List Addr) : Bool := bits (fsCtl f) 15 1 == 1
/-- FTZ. -/
def fsFtz (f : List Addr) : Bool := bits (fsCtl f) 16 1 == 1
/-- GPITCH. -/
def fsGpitch (f : List Addr) : Nat := bits (fsCtl f) 24 16
/-- BPITCH. -/
def fsBpitch (f : List Addr) : Nat := bits (fsCtl f) 40 12
/-- APITCH. -/
def fsApitch (f : List Addr) : Nat := bits (fsCtl f) 52 12
/-- ASB, BSB or GSB by number 1 to 3. -/
def fsBase (f : List Addr) (i : Nat) : Nat := (f.getD i 0).toNat

/-- Whether a slot is empty (R50). -/
def fsEmpty (f : List Addr) : Bool :=
  fsA f == 0 || 8 < fsA f || 8 < fsB f || 1 < fsAcc f || 1 < fsAscl f || 1 < fsBscl f || bits (fsCtl f) 17 7 != 0 ||
  fsGsc f != (fsB f == 6 || fsB f == 7) || [1, 2, 3].any (fun i => 2 ^ 57 ≤ fsBase f i)
/-- AFMT values that CVTQ, CVTDQ and SCALEMAX accept (R96). -/
def fsQuant (f : List Addr) : Bool := !fsEmpty f && 2 ≤ fsA f && fsA f ≤ 6
/-- The float format of an element code of Table 2.4; int4, int3 and 1-bit have none. -/
def eltFmt (c : Nat) : Option Fmt :=
  match c with | 1 => some .f32 | 2 => some .f16 | 3 => some .bf16 | 4 => some .e4m3 | 5 => some .e5m2 | _ => none
/-- The number of elements of CVTQ and CVTDQ for an AFMT (R96). -/
def cvtCount (a : Nat) : Nat := match a with | 4 | 5 => 4 | 6 => 8 | _ => 2
/-- The width of an element of CVTQ and CVTDQ. -/
def cvtBits (a : Nat) : Nat := 32 / cvtCount a

/-! ## Conversions between types -/

/-- FCVTI (R95): the integer and its flags; `m` is the rounding mode, `rnd` the word drawn under RSR. -/
def fcvtiVal (t : CvtInt) (m rnd : Nat) (b : XR) : Int × FlagSet :=
  let lo : Int := if t.sg then -(2 ^ (t.w - 1) : Nat) else 0
  let hi : Int := if t.sg then (2 ^ (t.w - 1) : Nat) - 1 else (2 ^ t.w : Nat) - 1
  match b with
  | .nan _ => (0, flNV)
  | .inf s => (if s then lo else hi, flNV)
  | .fin s n d =>
    let k := if roundUp m s (n / d % 2 == 1) (n % d) d rnd then n / d + 1 else n / d
    let z : Int := if s then -(k : Int) else k
    if z < lo then (lo, flNV)
    else if hi < z then (hi, flNV)
    else (z, if n % d == 0 then flNone else flNX)

/-- An integer as an exact real. -/
def intXR (v : Int) : XR := .fin (v < 0) v.natAbs 1

/-- FCVT (R94, R95). -/
def execFcvt (c : Ctl) (rm : Rm) (sat : Bool) (td ts : Fmt) (d : VReg) (b : Src) (s : State) : Out :=
  aluWord s c [b] fun g w => fltMap s g w d.val td.regs rm 1 [(b, .flt ts)] fun e vs =>
    let x := rdF g ts vs 0
    let y := roundTo td e.m sat e.ftzo none (e.rnd 0) x.v
    (⟨y.bits, tagCvt td x.t x.v y.val y.sat, sigNV [x.v] ||| y.fl⟩, [63, x.t])
/-- FCVTI (R94, R95): MODE.RND of 7 is refused too; a narrow result is extended to the word. -/
def execFcvti (c : Ctl) (rm : Rm) (td : CvtInt) (ts : Fmt) (d : VReg) (b : Src) (s : State) : Out :=
  aluWord s c [b] fun g w =>
    match rmTrap g (rmMode g rm < 7) with
    | .error e => .error e
    | .ok _ =>
      let m := rmMode g rm
      aluMap s g w d.val td.regs [(b, .flt ts)] (m == 6) (drawsFor m 1) fun l vs =>
        let r := fcvtiVal td m (s.srWord g l 0) (rdF g ts vs 0).v
        ⟨ofSigned (max 32 td.w) r.1, FULL, r.2, none⟩
/-- ICVTF (R94, R95): the integer is read as FULL. DESIGN CHOICE (29): a SIGLOSS record names p(td) as the integer's tag. -/
def execIcvtf (c : Ctl) (rm : Rm) (sat : Bool) (td : Fmt) (ts : CvtInt) (d : VReg) (b : Src) (s : State) : Out :=
  aluWord s c [b] fun g w => fltMap s g w d.val td.regs rm 1 [(b, .int (max 32 ts.w) ts.sg)] fun e vs =>
    let n := nth (vs.map Prod.fst) 0 % 2 ^ ts.w
    let x := intXR (if ts.sg then toSigned ts.w n else n)
    let y := roundTo td e.m sat e.ftzo none (e.rnd 0) x
    (⟨y.bits, tagCvt td (fmtP td) x y.val y.sat, y.fl⟩, [63, fmtP td])

/-! ## Packed conversions -/

/-- Whether an FP32 value is a valid scale: finite, positive, normal (R96). -/
def scaleOk (v : XR) : Bool := classOf .f32 v == 8

/-- The scale of CVTQ and CVTDQ in one lane (R96): operand b, or the word read at ASB + 4·(m·APITCH + kb). DESIGN CHOICE (31): the
read is made at the home, by a walk of its own, and never from an L1 copy or a held translation. -/
def State.cvtScale (s : State) (g : Group) (l : Nat) (f : List Addr) (b : Nat) : Except Trap XR :=
  if fsAscl f == 0 then .ok (fdec .f32 b)
  else
    let va := fsBase f 1 + 4 * (bits b 16 16 * fsApitch f + bits b 0 16)
    let at' (t : Trap) : Except Trap XR := .error { t with addr := some (BitVec.ofNat 64 va) }
    match s.translate g.part va needR false with
    | .error k => at' (trapOf cMEMFLT k (bit1 l) 0)
    | .ok p => if va % 4 != 0 then at' (trapOf cMEMFLT kAlignment (bit1 l) 0)
        else if s.badAt p.key 4 then at' (trapOf cDATAERR 1 (bit1 l) 0)
        else .ok (fdec .f32 (memNum s.mem p.key 4))

/-- The scales of the lanes of a write set. DESIGN CHOICE (32): when the reads of several lanes fault, the trap names the lowest. -/
def State.cvtScales (s : State) (g : Group) (w : Mask) (f : List Addr) (b : Opnd) : Except Trap (List XR) :=
  collect (laneSlots.map fun l => if w.getLsbD l then s.cvtScale g l f (Opnd.at g l b).1 else .ok (.fin false 1 1))

/-- One element of CVTQ (R97): its code, tag and flags. -/
def cvtqElt (e : REnv) (a : Nat) (f : List Addr) (k : Nat) (sc : XR) (x : FOp) : Nat × Nat × FlagSet :=
  match eltFmt a with
  | none =>
    if !scaleOk sc then (0, FULL, flNV)
    else match (xdiv x.v sc).1 with
      | .nan _ => (0, FULL, flNV)
      | .inf s => (if s then 8 else 7, FULL, flOF ||| flNX)
      | .fin s n d =>
        let m := if roundUp e.m s (n / d % 2 == 1) (n % d) d (e.rnd k) then n / d + 1 else n / d
        let z : Int := if s then -(m : Int) else m
        if z < -8 then (8, FULL, flOF ||| flNX)
        else if 7 < z then (7, FULL, flOF ||| flNX)
        else (ofSigned 4 z, FULL, flNone)
  | some h =>
    if !scaleOk sc then (qnanBits h, 0, flNV)
    else
      let q := (xdiv x.v sc).1
      let y := roundTo h e.m (fsSat f) (fsFtz f) (some sc.mag) (e.rnd k) q
      (y.bits, tagCvt h x.t q y.val y.sat, sigNV [x.v] ||| y.fl)

/-- CVTQ (R94, R96, R97): one word of `n` quantised elements. -/
def execCvtq (c : Ctl) (rm : Rm) (fs : Fin 8) (d a : VReg) (b : Src) (s : State) : Out :=
  aluWord s c [.reg a, b] fun g w =>
    let f := s.fslot g fs.val
    let n := cvtCount (fsA f)
    let m := rmMode g rm
    match s.operand g w b (if fsAscl f == 0 then .flt .f32 else oN32) with
    | .error t => .error t
    | .ok ob =>
      match s.cvtScales g w f ob with
      | .error t => .error t
      | .ok scs =>
        let os := (upFrom 0 n).map fun i => Opnd.reg (a.val + i) 1
        aluResult g w d.val 1 (os ++ [ob]) (m == 6) none (drawsFor m n) fun l =>
          let sc := scs.getD l (.fin false 1 1)
          let e := s.renv g m 0 l
          let xs := os.map fun o => let v := Opnd.at g l o; readFl .f32 (modeFtzi g.mode) v.1 v.2
          let qs := xs.zipIdx.map fun x => cvtqElt e (fsA f) f x.2 sc x.1
          ⟨(qs.zipIdx.map fun (q : (Nat × Nat × FlagSet) × Nat) => q.1.1 * 2 ^ (cvtBits (fsA f) * q.2)).foldl (· + ·) 0,
           (qs.map fun q => q.2.1).foldl min FULL, (qs.map fun q => q.2.2).foldl (· ||| ·) flNone,
           some [Config.rangeTag (xs.map FOp.t), if fsAscl f == 0 then tagIn (Opnd.at g l ob).2 24 else (Opnd.at g l ob).2]⟩

/-- One element of CVTDQ (R98). -/
def cvtdqElt (e : REnv) (a : Nat) (f : List Addr) (k : Nat) (sc : XR) (code tw : Nat) : LaneOut :=
  let x : XR := match eltFmt a with
    | none => if scaleOk sc then intXR (toSigned 4 code) else .fin false 0 1
    | some h => if scaleOk sc then flushIn h (fsFtz f) (some sc.mag) (fdec h code) else .nan false
  let t := match eltFmt a with | none => 24 | some h => tagIn tw (fmtP h)
  let p : XR := if scaleOk sc then (xmul x sc).1 else x
  let y := roundTo .f32 e.m false e.ftzo none (e.rnd k) p
  let fl := if scaleOk sc then sigNV [x] ||| y.fl else flNV
  let src := match eltFmt a with | none => tw | some h => tagIn tw (fmtP h)
  ⟨y.bits, tagMul .f32 t 24 y.val x (.fin false 1 1) y.sat, fl, some [src]⟩

/-- How CVTDQ reads its packed word: packed 16-bit floats, or packed narrower elements (R68, R98). -/
def packedTy (a : Nat) : OTy :=
  match eltFmt a with | some .f16 => .pair .f16 | some .bf16 => .pair .bf16 | _ => oN32

/-- CVTDQ (R94, R96, R98): `n` FP32 registers. -/
def execCvtdq (c : Ctl) (rm : Rm) (fs : Fin 8) (d : VReg) (a b : Src) (s : State) : Out :=
  aluWord s c [a, b] fun g w =>
    let f := s.fslot g fs.val
    let n := cvtCount (fsA f)
    let m := rmMode g rm
    match s.operands g w [(a, packedTy (fsA f)), (b, if fsAscl f == 0 then .flt .f32 else oN32)] with
    | .error t => .error t
    | .ok os =>
      let oa := os.getD 0 default
      let ob := os.getD 1 default
      match s.cvtScales g w f ob with
      | .error t => .error t
      | .ok scs =>
        aluMany g w d.val n os (m == 6) (drawsFor m n) fun l =>
          let v := Opnd.at g l oa
          let e := s.renv g m 0 l
          let tb := if fsAscl f == 0 then tagIn (Opnd.at g l ob).2 24 else (Opnd.at g l ob).2
          (upFrom 0 n).map fun i =>
            let r := cvtdqElt e (fsA f) f i (scs.getD l (.fin false 1 1)) (bits v.1 (cvtBits (fsA f) * i) (cvtBits (fsA f))) v.2
            { r with sig := r.sig.map fun ts => ts ++ [tb] }

/-- M of R99: the largest magnitude of a quantised format. -/
def quantMax (a : Nat) : Nat × Nat := match eltFmt a with | none => (7, 1) | some h => fmtMax h

/-- SCALEMAX (R94, R99). -/
def execScalemax (c : Ctl) (p2 : Bool) (fs : Fin 8) (d : VReg) (b : Src) (s : State) : Out :=
  aluWord s c [b] fun g w => aluMap s g w d.val 1 [(b, .flt .f32)] false 0 fun _ vs =>
    let x := rdF g .f32 vs 0
    match x.v.abs with
    | .fin _ n e =>
      if n == 0 then ⟨fenc .f32 (.fin false 1 1), min x.t 24, flNone, none⟩
      else
        let m := quantMax (fsA (s.fslot g fs.val))
        let q := (n * m.2, e * m.1)
        let k := ilog2 q.1 q.2
        let z := scale2 1 1 k
        let y : XR := if p2 then pow2X false (if ratLt z.1 z.2 q.1 q.2 then k + 1 else k)
          else (roundTo .f32 3 false false none 0 (.fin false q.1 q.2)).val
        let y := if xlt y (pow2X false (-126)) then pow2X false (-126) else if xlt (pow2X false 127) y then pow2X false 127 else y
        ⟨fenc .f32 y, min x.t 24, flNone, none⟩
    | _ => ⟨qnanBits .f32, 0, flNV, none⟩

end Sys2Proof.Machine
end

