-- ==== Sys2Proof/Machine/Special.lean ====
section
/-! DEFINITION. Significance, mode, random, tree-walk and top-k instructions (R104 to R114). -/
namespace Sys2Proof

/-- The operand type of SIGGET and SIGCMP. -/
def SigTy.o : SigTy → Machine.OTy | .bit t => t.o | .flt f => .flt f
/-- How SIGGET and SIGCMP read a tag code (R104). -/
def SigTy.readTag : SigTy → Tag → Nat | .bit _, t => t | .flt f, t => Machine.tagIn t (Machine.fmtP f)

end Sys2Proof

namespace Sys2Proof.Machine
open Sys2Proof

/-! ## Significance (R104, R105) -/

/-- The tag code that SIGSET and SIGMIN make of b (R104). -/
def sigCode (b : Nat) : Tag := if b ≤ 53 then b else FULL

/-- SIGGET (R104). -/
def execSigget (c : Ctl) (t : SigTy) (d : VReg) (b : Src) (s : State) : Out :=
  aluWord s c [b] fun g w => aluMap s g w d.val 1 [(b, t.o)] false 0 fun _ vs => plainOut (t.readTag (vs.getD 0 (0, 0)).2)
/-- SIGSET (R104). -/
def execSigset (c : Ctl) (t : BitTy) (d : VReg) (a b : Src) (s : State) : Out :=
  aluWord s c [a, b] fun g w => aluMap s g w d.val t.regs [(a, t.o), (b, oN32)] false 0 fun _ vs =>
    carried (vs.getD 0 (0, 0)).1 (sigCode (vs.getD 1 (0, 0)).1)
/-- SIGMIN (R104). -/
def execSigmin (c : Ctl) (t : BitTy) (d : VReg) (a b : Src) (s : State) : Out :=
  aluWord s c [a, b] fun g w => aluMap s g w d.val t.regs [(a, t.o), (b, oN32)] false 0 fun _ vs =>
    carried (vs.getD 0 (0, 0)).1 (min (vs.getD 0 (0, 0)).2 (sigCode (vs.getD 1 (0, 0)).1))
/-- The condition of SIGCMP (R105): 6 is below SIGTHR, 7 is FULL. -/
def sigcmpVal (g : Group) (cc : Cc) (t : SigTy) (tag : Tag) (b : Nat) : Bool :=
  let x := t.readTag tag
  match cc with
  | .eq => x == b
  | .ne => x != b
  | .lt => x < b
  | .le => x ≤ b
  | .gt => b < x
  | .ge => b ≤ x
  | .c6 => x < modeSigthr g.mode
  | .c7 => tag == FULL
/-- SIGCMP (R104, R105). -/
def execSigcmp (c : Ctl) (cc : Cc) (t : SigTy) (p : Pred) (a b : Src) (s : State) : Out :=
  aluWord s c [a, b] fun g w =>
    let xs := if cc == .c6 || cc == .c7 then [(a, t.o)] else [(a, t.o), (b, oN32)]
    predMap s g w p.val xs fun vs => (sigcmpVal g cc t (vs.getD 0 (0, 0)).2 (vs.getD 1 (0, 0)).1, flNone)

/-! ## MODE and STATUS (R106, R107) -/

/-- The STATUS that a lane reads (R106, R84): its home group's, with an ejected or merged lane's own flags. -/
def State.statusOf (s : State) (g : Group) (l : Nat) : Word :=
  match g.sleeve, g.merge with
  | some x, _ => orStatus x.status0 (g.lane l).accr
  | none, .host du moved _ =>
    if g.isMoved l then moved.foldl (fun st x => orStatus st (g.lane x.1).accr) (s.group du).status else g.status
  | none, _ => g.status
/-- MODERD (R106). -/
def execModerd (c : Ctl) (d : VReg) (status : Bool) (s : State) : Out :=
  aluWord s c [] fun g w =>
    let merged := match g.merge with | .host .. => status | _ => false
    aluResult g w d.val 1 [] merged none 0 fun l => plainOut (if status then s.statusOf g l else g.mode).toNat

/-- Whether a list holds one value throughout. -/
def allSame {α : Type} [BEq α] : List α → Bool | [] => true | x :: xs => xs.all (· == x)

/-- MODEWR (R107): a uniform masked write of MODE or STATUS. -/
def execModewr (c : Ctl) (status : Bool) (a b : Src) (s : State) : Out :=
  withIssuer s fun g0 =>
    if g0.sleeve.isSome then s.takeTrap g0 (trapOf cEJECTILL 0 g0.active 0xFF)
    else
      let s := s.dissolve g0.uid
      let g := s.group g0.uid
      let w := g.writeSet c.gp.val c.gn
      let fin (g : Group) : State := s.nextWord (g.issued [] (latchOf c [a, b]))
      if w == 0 then fin g
      else
        match s.operands g w [(a, oN32), (b, oN32)] with
        | .error t => s.takeTrap g t
        | .ok os =>
          let vs := (maskBits w).map fun l => os.map fun o => (Opnd.at g l o).1
          if !allSame vs then s.takeTrap g (trapOf cUNIMIS 0 g.active w)
          else
            let v := vs.headD []
            let x : Word := BitVec.ofNat 32 (nth v 0)
            let m : Word := BitVec.ofNat 32 (nth v 1)
            let new := ((if status then g.status else g.mode) &&& ~~~m) ||| (x &&& m)
            let bad := if status then new >>> 7 != 0 else modeReserved new
            if bad then s.takeTrap g (trapOf cILLEGAL illField g.active 0)
            else
              let g := if status then { g with status := new } else { g with mode := new }
              fin (g.raiseAll w fun _ => os.foldl (fun f o => f ||| o.fl) flNone)

/-! ## Random numbers (R108, R109) -/

/-- The six source registers of PHILOX. -/
def philoxRegs (a b : VReg) : List Opnd :=
  [.reg a.val 1, .reg (a.val + 1) 1, .reg (a.val + 2) 1, .reg (a.val + 3) 1, .reg b.val 1, .reg (b.val + 1) 1]
/-- The four outputs in a lane. -/
def philoxOut (g : Group) (l : Nat) (a b : VReg) : List Nat :=
  let v (i : Nat) : Nat := (Opnd.at g l ((philoxRegs a b).getD i default)).1
  philox (v 0) (v 1) (v 2) (v 3) (v 4) (v 5)
/-- PHILOX (R108). -/
def execPhilox (c : Ctl) (d a b : VReg) (s : State) : Out :=
  aluWord s c [.reg a, .reg b] fun g w =>
    aluMany g w d.val 4 (philoxRegs a b) false 0 fun l => (philoxOut g l a b).map plainOut
/-- A float m·2^−p with its tag (R109). -/
def unitFloat (f : Fmt) (m : Nat) : XR × Nat :=
  let v : XR := .fin false m (2 ^ fmtP f)
  (v, tagCvt f (fmtP f) v v false)
/-- PHILOXF (R109): uniform floats in [0, 1). DESIGN CHOICE (29): a SIGLOSS record names 63 for counter and key, which carry no tag
into the result. -/
def execPhiloxf (c : Ctl) (t : FltTy) (d a b : VReg) (s : State) : Out :=
  aluWord s c [.reg a, .reg b] fun g w =>
    aluMany g w d.val 4 (philoxRegs a b) false 0 fun l =>
      let o := philoxOut g l a b
      match t with
      | .f32 => o.map fun x => let y := unitFloat .f32 (x / 2 ^ 8); ⟨fenc .f32 y.1, y.2, flNone, some [63]⟩
      | .f64 => [0, 1].flatMap fun i =>
          let y := unitFloat .f64 ((nth o (2 * i) * 2 ^ 32 + nth o (2 * i + 1)) / 2 ^ 11)
          let v := fenc .f64 y.1
          [⟨v % 2 ^ 32, y.2, flNone, some [63]⟩, ⟨v / 2 ^ 32, y.2, flNone, some [63]⟩]

/-! ## Tree walk (R110 to R112) -/

/-- The walk of one lane: the node reached after `n` levels, and whether a word beyond the bound was read. `rd` reads a window
word at a word offset from the tree. -/
def twalkLoop (g : Group) (chk : Nat → Option Trap) (l : Nat) (b : Nat) (rd : Nat → Except Trap (List (Word × Tag) × FlagSet)) :
    Nat → Nat → FlagSet → Except Trap (Nat × FlagSet)
  | 0, i, fl => .ok (i, fl)
  | n + 1, i, fl =>
    match rd (2 * i), rd (2 * i + 1) with
    | .error t, _ => .error t
    | _, .error t => .error t
    | .ok (tw, f1), .ok (cw, f2) =>
      match (let r := b + (cw.headD (0, 0)).1.toNat % 32; if g.decl.total ≤ r then none else chk r) with
      | some t => .error t
      | none =>
      let ftz := modeFtzi g.mode
      let thr := flushIn .f32 ftz none (fdec .f32 (tw.headD (0, 0)).1.toNat)
      let ctl := (cw.headD (0, 0)).1.toNat
      let r := b + ctl % 32
      let x := if g.decl.total ≤ r then XR.nan false else flushIn .f32 ftz none (fdec .f32 (g.read r l).1.toNat)
      let right := if x.isNan then ctl.testBit 5 else !xlt x thr
      twalkLoop g chk l b rd n (2 * i + 1 + right.toNat) (fl ||| f1 ||| f2)

/-- TWALK in one lane (R112): the result with its tag, and flags. The word sets the lanes of a trap. -/
def State.twalk (s : State) (g : Group) (l : Nat) (idx : Bool) (n dep b o : Nat) : Except Trap LaneOut :=
  let rd (k : Nat) := s.window g 0 n ((o + k) % 2 ^ 32) 1
  match twalkLoop g (s.regTrap g (bit1 l) true) l b rd dep 0 flNone with
  | .error t => .error t
  | .ok (i, fl) =>
    let j := i - (2 ^ dep - 1)
    if idx then .ok { plainOut j with fl := fl }
    else match rd (2 * (2 ^ dep - 1) + j) with
      | .error t => .error t
      | .ok (ws, f) => let x := ws.headD (0, 0); .ok ⟨x.1.toNat, x.2, fl ||| f, none⟩

/-- TWALK (R110 to R112). Its sources for the shape are the offset and the declared registers a feature index can name. -/
def execTwalk (c : Ctl) (idx : Bool) (n dep : Fin 8) (d : VReg) (a : Src) (b : VReg) (s : State) : Out :=
  aluWord s c [a, .reg b] fun g w =>
    if ((s.nodeOf g).lrec.win.getD n.val (0, 0)).2 == 0 then .error (trapOf cPARAMUNB n.val w 0)
    else
      match s.operand g w a oN32 with
      | .error t => .error t
      | .ok oa =>
        let feats := ((upFrom b.val 32).filter fun r => r < g.decl.total).map fun r => Opnd.reg r 1
        let rs := laneSlots.map fun l =>
          if w.getLsbD l then s.twalk g l idx n.val (dep.val + 1) b.val (Opnd.at g l oa).1 else .ok (plainOut 0)
        match collect rs with
        | .error t => .error { t with lanes := maskOf ((maskBits w).filter fun l =>
            match rs.getD l (.ok (plainOut 0)) with | .error _ => true | .ok _ => false) }
        | .ok outs => aluResult g w d.val 1 (oa :: feats) false none 0 fun l => outs.getD l (plainOut 0)

/-! ## Top-k lists (R113, R114) -/

/-- An entry of a list: score word with its tag, index word with its tag. -/
abbrev TopEntry := (Word × Tag) × (Word × Tag)

/-- Whether entry `x` is better than `y` (R113). -/
def topBetter (asc : Bool) (x y : TopEntry) : Bool :=
  let a := fdec .f32 x.1.1.toNat
  let b := fdec .f32 y.1.1.toNat
  if a.isNan != b.isNan then b.isNan
  else if a.isNan then x.2.1 < y.2.1
  else if (if asc then xlt a b else xlt b a) then true
  else xeq a b && x.2.1 < y.2.1
/-- The list of a lane at a register. -/
def topList (g : Group) (l r k : Nat) : List TopEntry := (upFrom 0 k).map fun i => (g.read (r + i) l, g.read (r + k + i) l)
/-- Inserts an entry before the first that it is better than (R114). -/
def topInsert (asc : Bool) (e : TopEntry) : List TopEntry → List TopEntry
  | [] => [e]
  | y :: ys => if topBetter asc e y then e :: y :: ys else y :: topInsert asc e ys
/-- A moved entry: its index carries FULL (R113). -/
def topMoved (e : TopEntry) : TopEntry := (e.1, (e.2.1, FULL))
/-- TOPKINS in one lane: entries before the insertion keep their registers, those after it move. -/
def topkIns (asc : Bool) (k : Nat) (e : TopEntry) (l : List TopEntry) : List TopEntry :=
  if (fdec .f32 e.1.1.toNat).isNan then l
  else
    let p := l.findIdx (fun y => topBetter asc e y)
    if k ≤ p then l else l.take p ++ topMoved e :: ((l.drop p).map topMoved).take (k - 1 - p)
/-- The registers of a list: scores, then indices. -/
def topOut (l : List TopEntry) : List LaneOut := (l.map fun e => carried e.1.1.toNat e.1.2) ++ l.map fun e => carried e.2.1.toNat e.2.2
/-- The operands of a list at a register. -/
def topRegs (r k : Nat) : List Opnd := (upFrom r (2 * k)).map fun i => .reg i 1

/-- TOPKINS (R113, R114). -/
def execTopkins (c : Ctl) (asc : Bool) (k : Fin 8) (d : VReg) (a b : Src) (s : State) : Out :=
  aluWord s c [a, b] fun g w =>
    let n := k.val + 1
    match s.operands g w [(a, .flt .f32), (b, oN32)] with
    | .error t => .error t
    | .ok os =>
      aluMany g w d.val (2 * n) (topRegs d.val n ++ os) false 0 fun l =>
        let x := Opnd.at g l (os.getD 0 default)
        let y := Opnd.at g l (os.getD 1 default)
        topOut (topkIns asc n ((BitVec.ofNat 32 x.1, x.2), (BitVec.ofNat 32 y.1, FULL)) (topList g l d.val n))
/-- TOPKMRG (R113, R114). -/
def execTopkmrg (c : Ctl) (asc : Bool) (k : Fin 8) (d a : VReg) (s : State) : Out :=
  aluWord s c [.reg a] fun g w =>
    let n := k.val + 1
    aluMany g w d.val (2 * n) (topRegs d.val n ++ topRegs a.val n) false 0 fun l =>
      let L := topList g l d.val n
      if a == d then topOut L
      else topOut (((L ++ topList g l a.val n).foldl (fun acc e => topInsert asc (topMoved e) acc) []).take n)

end Sys2Proof.Machine
end

