-- ==== Sys2Proof/Machine/Control.lean ====
section
/-! DEFINITION. Control instructions (R115 to R128), and the choice of a side to eject (R152). -/
namespace Sys2Proof.Machine
open Sys2Proof

/-- Adds to an event counter of a core (Table 6.5), by its number. -/
def State.bump (s : State) (core i n : Nat) : State :=
  s.modCore core fun c => { c with ev := modAt (fun v => v + BitVec.ofNat 64 n) i c.ev }

/-- A merge of a group ends when its lanes have parted, or every moved lane has exited (Table 6.2). -/
def State.splitMerge (s : State) (uid : Nat) : State :=
  let g := s.group uid
  match g.merge with
  | .host _ moved _ =>
    let ends := ((maskBits g.active).filter g.onPath).map fun l => (g.lane l).next
    if 1 < ends.eraseDups.length || moved.all (fun x => !g.live.getLsbD x.1) then s.dissolve uid else s
  | _ => s

/-- The end of a clause by a control instruction: each active lane goes to its destination (R119). -/
def State.goTo (s : State) (g : Group) (dest : Nat → Addr) : State := (s.endClause g true dest).splitMerge g.uid

/-- The misaligned-target trap of a register form, in the lanes concerned (R63, R119). -/
def targetTrap (w : Mask) (dest : Nat → Addr) : Option Trap :=
  let bad := (maskBits w).filter fun l => (dest l).toNat % 8 != 0
  if bad.isEmpty then none else some (trapOf cILLEGAL illTarget (maskOf bad) 0)

/-- The 64-bit pair a lane reads as an address. -/
def Group.pairAt (g : Group) (r l : Nat) : Addr := BitVec.ofNat 64 (Opnd.at g l (.reg r 2)).1

/-! ## Ejection (R152) -/

/-- Sleeve contexts in use or promised in a cluster, by the cores that a condition names (R152). -/
def State.sleeveUse (s : State) (cluster : Nat) (f : Nat → Bool) : Nat :=
  s.groups.foldl (fun n g =>
    if clusterOf g.core == cluster && f g.core then
      n + (if g.sleeve.isSome then 1 else 0) + (match g.ejectNext with | some m => (maskBits m).length | none => 0)
    else n) 0

/-- The side of a BRA that is eligible and chosen (R152): `t` taken, `n` not taken. -/
def ejectSide (e : Nat) (t n : Mask) : Option Mask :=
  let ct := (maskBits t).length
  let cn := (maskBits n).length
  let et := 0 < ct && ct ≤ e
  let en := 0 < cn && cn ≤ e
  if et && en then some (if cn < ct then n else t)
  else if et then some t
  else if en then some n
  else none

/-- Whether the conditions of R152 other than free contexts hold. -/
def Group.mayEject (g : Group) (side : Mask) : Bool :=
  modeEjt g.mode != 0 && !g.inHandler && g.merge == .none && g.sleeve.isNone && g.joinBound.isSome &&
  (maskBits side).all fun l => (g.lane l).meet != 0 && !(g.lane l).noEject

/-- The side that a BRA of a group ejects, and whether ejection was denied for want of contexts (R152). -/
def State.ejection (s : State) (g : Group) (w : Mask) : Option Mask × Bool :=
  if !hdrEj g.cl.hdr then (none, false)
  else
    let a := g.active &&& ~~~g.helper
    match ejectSide (modeEjt g.mode) (w &&& a) (a &&& ~~~w) with
    | none => (none, false)
    | some side =>
      if !g.mayEject side then (none, false)
      else
        let n := (maskBits side).length
        if s.sleeveUse (clusterOf g.core) (fun _ => true) + n ≤ 128 && s.sleeveUse (clusterOf g.core) (· == g.core) + n ≤ 64
        then (some side, false) else (none, true)

/-- BRA (R119, R152): lanes of the write set go to `dest`, the others to the next clause; the smaller side may be ejected. -/
def State.branch (s : State) (g : Group) (w : Mask) (dest : Addr) : State :=
  let e := s.ejection g w
  let s := if e.2 then s.bump g.core 4 1 else s
  let s := s.goTo g fun l => if w.getLsbD l then dest else g.fall
  match e.1 with | some m => s.modGroup g.uid fun g => { g with ejectNext := some m } | none => s

/-- An instruction that an ejected lane may not run: EJECTILL; a merged group dissolves before it issues (Table 5.7). -/
def State.dissolving (s : State) (ill : Bool) (k : State → Group → State) : Out :=
  withIssuer s fun g =>
    if ill && g.sleeve.isSome then s.takeTrap g (trapOf cEJECTILL 0 g.active 0xFF)
    else let s := s.dissolve g.uid; k s (s.group g.uid)

/-! ## Branches, calls, loops (R119 to R121) -/

/-- BRA (R118, R119). -/
def execBra (c : Ctl) (off : BitVec 16) (s : State) : Out :=
  withIssuer s fun g => s.branch g (g.writeSet c.gp.val c.gn) (g.rel off)
/-- BRAU (R118, R121): a uniform one moves the group as one path; a demoted one acts as BRA, which may eject (R152). -/
def execBrau (c : Ctl) (off : BitVec 16) (s : State) : Out :=
  s.dissolving true fun s g =>
    let w := g.writeSet c.gp.val c.gn
    let a := g.active &&& ~~~g.helper
    if w == 0 || w == a then s.goTo g fun l => if w.getLsbD l then g.rel off else g.fall
    else if modeUmp g.mode then (s.bump g.core 7 1).branch (g.raiseAll w fun _ => flUDEM) w (g.rel off)
    else s.takeTrap g (trapOf cUNIMIS 0 a w)
/-- A transfer to a register pair's address (R119): BRX and RET. -/
def State.jumpReg (s : State) (g : Group) (w : Mask) (b : VReg) : State :=
  let dest (l : Nat) : Addr := g.pairAt b.val l
  match targetTrap w dest with
  | some t => s.takeTrap g t
  | none => s.goTo g fun l => if w.getLsbD l then dest l else g.fall
/-- BRX (R118, R119). -/
def execBrx (c : Ctl) (b : VReg) (s : State) : Out := withIssuer s fun g => s.jumpReg g (g.writeSet c.gp.val c.gn) b
/-- The write of a return address and the transfer of a CALL (R119). -/
def State.callTo (s : State) (g : Group) (w : Mask) (d : VReg) (dest : Nat → Addr) : State :=
  if w == 0 then s.goTo g fun _ => g.fall
  else
    match targetTrap w dest with
    | some t => s.takeTrap g t
    | none =>
      match aluResult g w d.val 2 [] false none 0 fun _ => plainOut g.fall.toNat with
      | .error t => s.takeTrap g t
      | .ok o => s.goTo (g.commit false w o) fun l => if w.getLsbD l then dest l else g.fall
/-- CALL Vd, label (R118, R119). -/
def execCall (c : Ctl) (d : VReg) (off : BitVec 16) (s : State) : Out :=
  withIssuer s fun g => s.callTo g (g.writeSet c.gp.val c.gn) d fun _ => g.rel off
/-- CALL Vd, Vb (R118, R119). -/
def execCallReg (c : Ctl) (d : VReg) (b : VReg) (s : State) : Out :=
  withIssuer s fun g => s.callTo g (g.writeSet c.gp.val c.gn) d (g.pairAt b.val)
/-- RET (R118, R119). -/
def execRet (c : Ctl) (b : VReg) (s : State) : Out := withIssuer s fun g => s.jumpReg g (g.writeSet c.gp.val c.gn) b
/-- LOOP (R118, R120). -/
def execLoop (c : Ctl) (d : VReg) (off : BitVec 16) (s : State) : Out :=
  withIssuer s fun g =>
    let w := g.writeSet c.gp.val c.gn
    if w == 0 then s.goTo g fun _ => g.fall
    else
      match evalAdd true false .n32 d (.reg d) (.const 1) s g w with
      | .error t => s.takeTrap g t
      | .ok o =>
        let old (l : Nat) : Word := (g.read d.val l).1
        s.goTo (g.commit false w o) fun l => if w.getLsbD l && old l != 1 then g.rel off else g.fall

/-! ## Regions (R122 to R124) -/

/-- JOIN (R122, R124): opens a region; in an ejected lane it writes MEET and counts. -/
def execJoin (c : Ctl) (k : Fin 16) (n : VReg) (off : BitVec 16) (s : State) : Out :=
  s.dissolving false fun s g =>
    let w := g.writeSet c.gp.val c.gn
    let g1 := g.modLanes w fun _ x => { x with meet := meetOf (g.rel off) }
    match g.sleeve with
    | some x => s.nextWord ((if w == 0 then g else { g1 with sleeve := some { x with nest := x.nest + 1 } }).issued [] [])
    | none => s.nextWord ({ g1 with k := modAt (fun _ => w) k.val g.k
                                    joinBound := some (min n.val (g.decl.ng - 1)) }.issued [] [])
/-- WAITJ (R123, R124): lanes of the write set are held until the lanes that K expects have arrived; an ejected lane whose count
is 0 waits for its recall. -/
def execWaitj (c : Ctl) (k : Fin 16) (off : Option (BitVec 16)) (s : State) : Out :=
  s.dissolving false fun s g =>
    let w := g.writeSet c.gp.val c.gn
    let m : Addr := match off with | some o => meetOf (g.rel o) | none => 0
    match g.sleeve with
    | some x =>
      if w == 0 then s.goTo g fun _ => g.fall
      else if 0 < x.nest then
        s.goTo { g.modLanes w (fun _ y => { y with meet := m }) with sleeve := some { x with nest := x.nest - 1 } } fun _ => g.fall
      else
        let g := g.modLanes w fun _ y => { y with state := .held g.pc k.val m, next := g.fall, resume := none }
        s.setGroup { g with phase := .stopped, window := [], latch := [], sleeve := some { x with arrived := some g.pc } }
    | none =>
      let pc := g.pc
      let g1 := g.modLanes w fun _ y => { y with state := .held pc k.val m, next := g.fall, resume := none }
      s.goTo g1 fun _ => g.fall

/-! ## Repeats (R125) -/

/-- The address of the clause after the one at an address, from the length in its header; none where the fetch faults (R125). -/
def State.clauseAfter (s : State) (g : Group) (a : Addr) : Except Nat Addr :=
  match s.translate g.part a.toNat needX false with
  | .error k => .error k
  | .ok p => .ok (a + BitVec.ofNat 64 (8 * (memNum s.mem p.key 8 % 16 + 1)))

/-- REP with its count per lane (R125). -/
def State.repeatClause (s : State) (g : Group) (w : Mask) (n : Nat → Nat) (fl : FlagSet) : State :=
  if w == 0 then s.goTo g fun _ => g.fall
  else
    let ns := (maskBits w).map n
    if !allSame ns || w != g.live then s.takeTrap g (trapOf cUNIMIS 0 g.active w)
    else
      let v := ns.headD 0
      if 65535 < v then s.takeTrap g (trapOf cILLEGAL illField g.active 0)
      else
        let g1 := g.raiseAll w fun _ => fl
        let open' (s : State) : State := s.modGroup g.uid fun h => { h with repc := v, reps := g.fall }
        if v == 0 then
          match s.clauseAfter g g.fall with
          | .error e => s.takeTrap g { trapOf cMEMFLT e g.active 0 with addr := some g.fall }
          | .ok a => open' (s.goTo g1 fun _ => a)
        else open' (s.goTo g1 fun _ => g.fall)
/-- REP with a source operand (R118, R125). -/
def execRep (c : Ctl) (b : Src) (s : State) : Out :=
  s.dissolving true fun s g =>
    let w := g.writeSet c.gp.val c.gn
    match s.operand g w b oN32 with
    | .error t => if w == 0 then s.goTo g (fun _ => g.fall) else s.takeTrap g t
    | .ok o => s.repeatClause g w (fun l => (Opnd.at g l o).1) o.fl
/-- REP with an immediate (R118, R125). -/
def execRepImm (c : Ctl) (n : BitVec 16) (s : State) : Out :=
  s.dissolving true fun s g => s.repeatClause g (g.writeSet c.gp.val c.gn) (fun _ => n.toNat) flNone

/-! ## Traps, yield, no operation (R127) -/

/-- The BPT trap after an instruction (R127). -/
def State.bpt (s : State) (c : Ctl) (info : Word) : Out :=
  withIssuer s fun g =>
    let w := g.writeSet c.gp.val c.gn
    let g := g.issued [] []
    if w == 0 then s.nextWord g else s.takeTrap g { trapOf cBPT 0 w info with after := true }
/-- TRAP #c (R127). -/
def execTrap (c : Ctl) (code : BitVec 16) (s : State) : Out := s.bpt c (code.setWidth 32)
/-- BPT (R127). -/
def execBpt (c : Ctl) (s : State) : Out := s.bpt c 0xFFFFFFFF
/-- YIELD (R127): the next clause goes behind the others that are ready; a NOP in an ejected lane. -/
def execYield (_c : Ctl) (s : State) : Out :=
  withIssuer s fun g => s.goTo (if g.sleeve.isSome then g else { g with yielded := true }) fun _ => g.fall
/-- NOP (R127). -/
def execNop (_c : Ctl) (s : State) : Out := withIssuer s fun g => s.nextWord (g.issued [] [])

/-! ## Group-wide branches (R128) -/

/-- The whole active mask goes to the target or falls through (R128). -/
def State.groupBranch (s : State) (g : Group) (cond : Bool) (off : BitVec 16) : State :=
  s.goTo g fun _ => if cond then g.rel off else g.fall
/-- BSIG (R118, R128). -/
def execBsig (c : Ctl) (allq : Bool) (t : Fmt) (thr : Option (Fin 54)) (a : Src) (off : BitVec 16) (s : State) : Out :=
  s.dissolving true fun s g =>
    let w := g.writeSet c.gp.val c.gn
    let th := match thr with | some v => v.val | none => modeSigthr g.mode
    match s.operand g w a (.flt t) with
    | .error e => if w == 0 then s.groupBranch g allq off else s.takeTrap g e
    | .ok o =>
      let below (l : Nat) : Bool := tagIn (Opnd.at g l o).2 (fmtP t) < th
      let g1 := g.raiseAll w fun _ => o.fl
      s.groupBranch g1 (if allq then (maskBits w).all below else (maskBits w).any below) off
/-- BANY (R118, R128). -/
def execBany (c : Ctl) (p : Pred) (off : BitVec 16) (s : State) : Out :=
  s.dissolving true fun s g => s.groupBranch g ((maskBits (g.writeSet c.gp.val c.gn)).any (g.pred p.val)) off
/-- BALL (R118, R128). -/
def execBall (c : Ctl) (p : Pred) (off : BitVec 16) (s : State) : Out :=
  s.dissolving true fun s g => s.groupBranch g ((maskBits (g.writeSet c.gp.val c.gn)).all (g.pred p.val)) off

end Sys2Proof.Machine
end

