-- ==== Sys2Proof/Machine/CrossLane.lean ====
section
/-! DEFINITION. Cross-lane, regroup and inspection instructions (R129 to R141). -/
namespace Sys2Proof

/-- The segment width of a width code. -/
def Width.w : Width → Nat | .w2 => 2 | .w4 => 4 | .w8 => 8 | .w16 => 16 | .w32 => 32

end Sys2Proof

namespace Sys2Proof.Machine
open Sys2Proof

/-! ## Positions (R129) -/

/-- The slot of the present lane at a position. -/
def Group.presentAt (g : Group) (p : Nat) : Option Nat := laneSlots.find? fun l => g.active.getLsbD l && (g.lane l).pos == p
/-- The slot of the contributor at a position. -/
def Group.contribAt (g : Group) (w : Mask) (p : Nat) : Option Nat := laneSlots.find? fun l => w.getLsbD l && (g.lane l).pos == p
/-- The value a source position supplies: +0 with tag 0 when no lane is present there. -/
def Group.supply (g : Group) (o : Opnd) (p : Nat) : Nat × Tag :=
  match g.presentAt p with | some l => Opnd.at g l o | none => (0, 0)

/-- The course of a cross-lane word: it dissolves a merge and raises EJECTILL in an ejected lane (Table 5.7). -/
def crossWord (s : State) (c : Ctl) (srcs : List Src) (eval : State → Group → Mask → Except Trap AluOut) : Out :=
  s.dissolving true fun s g =>
    let w := g.writeSet c.gp.val c.gn
    if w == 0 then s.nextWord (g.issued [] (latchOf c srcs))
    else
      match eval s g w with
      | .error t => s.takeTrap g t
      | .ok o => s.nextWord { g.commit false w o with latch := latchOf c srcs }

/-- A shuffle (R132): `src` gives the source position from the lane's position and its b. -/
def shuffle (s : State) (c : Ctl) (t : BitTy) (d : VReg) (a : Src) (b : Option Src) (src : Nat → Nat → Nat) : Out :=
  crossWord s c ([a] ++ b.toList) fun s g w =>
    match s.operand g w a t.o, s.operand g w (b.getD (.const 0)) oN32 with
    | .error e, _ => .error e
    | _, .error e => .error e
    | .ok oa, .ok ob =>
      aluResult g w d.val t.regs [oa, ob] true none 0 fun l =>
        let x := g.supply oa (src (g.lane l).pos (Opnd.at g l ob).1)
        carried x.1 x.2

/-- SHFL (R131, R132). -/
def execShfl (c : Ctl) (t : BitTy) (w : Width) (d : VReg) (a b : Src) (s : State) : Out :=
  shuffle s c t d a (some b) fun p b => p - p % w.w + b % w.w
/-- SHFLUP (R131, R132). -/
def execShflup (c : Ctl) (t : BitTy) (w : Width) (d : VReg) (a b : Src) (s : State) : Out :=
  shuffle s c t d a (some b) fun p b => if b < w.w && p - p % w.w + b ≤ p then p - b else p
/-- SHFLDN (R131, R132). -/
def execShfldn (c : Ctl) (t : BitTy) (w : Width) (d : VReg) (a b : Src) (s : State) : Out :=
  shuffle s c t d a (some b) fun p b => if b < w.w && p + b < p - p % w.w + w.w then p + b else p
/-- SHFLX (R131, R132). -/
def execShflx (c : Ctl) (t : BitTy) (w : Width) (d : VReg) (a b : Src) (s : State) : Out :=
  shuffle s c t d a (some b) fun p b => p - p % w.w + (p ^^^ b) % w.w
/-- QSWPH (R131, R132). -/
def execQswph (c : Ctl) (t : BitTy) (d : VReg) (a : Src) (s : State) : Out := shuffle s c t d a none fun p _ => p ^^^ 1
/-- QSWPV (R131, R132). -/
def execQswpv (c : Ctl) (t : BitTy) (d : VReg) (a : Src) (s : State) : Out := shuffle s c t d a none fun p _ => p ^^^ 2
/-- QSWPD (R131, R132). -/
def execQswpd (c : Ctl) (t : BitTy) (d : VReg) (a : Src) (s : State) : Out := shuffle s c t d a none fun p _ => p ^^^ 3
/-- QBCAST (R131, R132). -/
def execQbcast (c : Ctl) (t : BitTy) (d : VReg) (a : Src) (q : Fin 4) (s : State) : Out :=
  shuffle s c t d a none fun p _ => p - p % 4 + q.val

/-! ## Votes, ballots, matches (R133) -/

/-- VOTEANY (R131, R133). -/
def execVoteany (c : Ctl) (na : Bool) (d a : Pred) (s : State) : Out :=
  crossWord s c [] fun _ g w => predOnly d w fun _ => (maskBits w).any fun j => g.pred a.val j != na
/-- VOTEALL (R131, R133). -/
def execVoteall (c : Ctl) (na : Bool) (d a : Pred) (s : State) : Out :=
  crossWord s c [] fun _ g w => predOnly d w fun _ => (maskBits w).all fun j => g.pred a.val j != na
/-- VOTEUNI (R131, R133). -/
def execVoteuni (c : Ctl) (t : BitTy) (d : Pred) (a : Src) (s : State) : Out :=
  crossWord s c [a] fun s g w =>
    match s.operand g w a t.o with
    | .error e => .error e
    | .ok o => predResult w d.val [o] (fun _ => flNone) fun _ => allSame ((maskBits w).map fun l => (Opnd.at g l o).1)
/-- BALLOT (R131, R133). -/
def execBallot (c : Ctl) (na : Bool) (d : VReg) (a : Pred) (s : State) : Out :=
  crossWord s c [] fun _ g w =>
    let m := g.posMask (maskOf ((maskBits w).filter fun j => g.pred a.val j != na))
    aluResult g w d.val 1 [] true none 0 fun _ => plainOut m.toNat
/-- MATCH (R131, R133). -/
def execMatchLanes (c : Ctl) (t : BitTy) (d : VReg) (a : Src) (s : State) : Out :=
  crossWord s c [a] fun s g w =>
    match s.operand g w a t.o with
    | .error e => .error e
    | .ok o =>
      let v (l : Nat) : Nat := (Opnd.at g l o).1
      aluResult g w d.val 1 [o] true none 0 fun l => plainOut (g.posMask (maskOf ((maskBits w).filter fun j => v j == v l))).toNat

/-! ## Reductions and scans (R134, R135) -/

/-- The fixed tree of R52: adjacent partial sums combine, the lower position on the left. -/
def treeLevel {α : Type} (f : α → α → α) : List α → List α
  | x :: y :: r => f x y :: treeLevel f r
  | r => r
/-- The tree over a segment of 2^n values. -/
def tree {α : Type} (f : α → α → α) : Nat → List α → List α
  | 0, l => l
  | n + 1, l => tree f n (treeLevel f l)
/-- A step of the scan of R53 at distance `d` over 32 positions in segments of `w`. -/
def scanStep {α : Type} (f : α → α → α) (w d : Nat) (l : List α) : List α :=
  l.zipIdx.map fun (x : α × Nat) => if d ≤ x.2 % w then (match l[x.2 - d]? with | some y => f y x.1 | none => x.1) else x.1
/-- The inclusive scan (R53). -/
def scan {α : Type} (f : α → α → α) (w : Nat) (l : List α) : List α :=
  [1, 2, 4, 8, 16].foldl (fun l d => if d < w then scanStep f w d l else l) l
/-- The result of each segment of `w` positions, at every position. -/
def segTree {α : Type} (f : α → α → α) (z : α) (w : Nat) (l : List α) : List α :=
  laneSlots.map fun p => (tree f 5 ((l.drop (p / w * w)).take w)).headD z

/-- A partial sum of a floating-point reduction: value, tag, flags. -/
structure Part where
  v : XR
  t : Nat
  fl : FlagSet
/-- A node of a floating-point tree: its operation's result as a partial sum. -/
def Part.node (f : Fmt) (op : FOp → FOp → FRes) (a b : Part) : Part :=
  let r := op ⟨a.v, a.t⟩ ⟨b.v, b.t⟩
  ⟨fdec f r.bits, r.tag, a.fl ||| b.fl ||| r.fl⟩
/-- A partial sum as a lane result. -/
def Part.out (f : Fmt) (x : Part) (sig : Option (List Nat)) : LaneOut := ⟨fenc f x.v, x.t, x.fl, sig⟩

/-- The 32 values by position of a reduction, with an identity where no lane contributes. -/
def byPosition {α : Type} (g : Group) (w : Mask) (z : α) (f : Nat → α) : List α :=
  laneSlots.map fun p => match g.contribAt w p with | some l => f l | none => z

/-- An integer reduction or scan: `run` makes the 32 results by position of the 32 values. -/
def redInt (s : State) (c : Ctl) (t : IntTy) (d : VReg) (a : Src) (z : Nat) (run : List Nat → List Nat) : Out :=
  crossWord s c [a] fun s g w =>
    match s.operand g w a t.o with
    | .error e => .error e
    | .ok o =>
      let rs := run (byPosition g w z fun l => (Opnd.at g l o).1)
      aluResult g w d.val t.regs [o] true none 0 fun l => plainOut (rs.getD (g.lane l).pos 0)

/-- A floating-point reduction or scan over partial sums; `sig` is whether SIGLOSS is tested. -/
def redFlt (s : State) (c : Ctl) (f : FltTy) (d : VReg) (a : Src) (z : XR) (sig : Bool) (ok : Group → Bool)
    (run : Group → List Part → List Part) : Out :=
  crossWord s c [a] fun s g w =>
    match rmTrap g (ok g), s.operand g w a f.o with
    | .error e, _ => .error e
    | _, .error e => .error e
    | .ok _, .ok o =>
      let src (l : Nat) : FOp := let x := Opnd.at g l o; readFl f.fmt (modeFtzi g.mode) x.1 x.2
      let rs := run g (byPosition g w ⟨z, fmtP f.fmt, flNone⟩ fun l => let x := src l; ⟨x.v, x.t, flNone⟩)
      aluResult g w d.val f.regs [o] true none 0 fun l =>
        (rs.getD (g.lane l).pos ⟨z, 0, flNone⟩).out f.fmt (if sig then some [(src l).t] else none)

/-- One addition of a reduction (R134). -/
def addNode (g : Group) (rm : Rm) (f : Fmt) : Part → Part → Part :=
  Part.node f fun x y => fAdd ⟨rmMode g rm, modeFtzo g.mode, fun _ => 0⟩ f 0 false x y
/-- One minimum or maximum of a reduction; equal operands give the left (R134). -/
def mmNode (g : Group) (mx : Bool) (f : Fmt) : Part → Part → Part := Part.node f fun x y => fMinMax f (modeFtzo g.mode) mx true x y
/-- The rounding modes that the floating-point forms take (R131). -/
def noStoch (rm : Rm) (g : Group) : Bool := rmMode g rm != 6

/-- REDADD (R131, R134). -/
def execRedadd (c : Ctl) (t : IntTy) (w : Width) (d : VReg) (a : Src) (s : State) : Out :=
  redInt s c t d a 0 (segTree (fun x y => (x + y) % 2 ^ t.w) 0 w.w)
/-- REDFADD (R131, R134). -/
def execRedfadd (c : Ctl) (rm : Rm) (t : FltTy) (w : Width) (d : VReg) (a : Src) (s : State) : Out :=
  redFlt s c t d a (.fin true 0 1) true (noStoch rm) fun g => segTree (addNode g rm t.fmt) ⟨.nan false, 0, flNone⟩ w.w
/-- REDMIN (R131, R134). -/
def execRedmin (c : Ctl) (t : RedTy) (w : Width) (d : VReg) (a : Src) (s : State) : Out :=
  match t with
  | .int t => redInt s c t d a (ofSigned t.w t.hi) (segTree (minmaxVal t false) 0 w.w)
  | .flt t => redFlt s c t d a (.inf false) false (fun _ => true) fun g => segTree (mmNode g false t.fmt) ⟨.nan false, 0, flNone⟩ w.w
/-- REDMAX (R131, R134). -/
def execRedmax (c : Ctl) (t : RedTy) (w : Width) (d : VReg) (a : Src) (s : State) : Out :=
  match t with
  | .int t => redInt s c t d a (ofSigned t.w t.lo) (segTree (minmaxVal t true) 0 w.w)
  | .flt t => redFlt s c t d a (.inf true) false (fun _ => true) fun g => segTree (mmNode g true t.fmt) ⟨.nan false, 0, flNone⟩ w.w
/-- An exclusive scan from an inclusive one: the lowest position of a segment receives `z` (R135). -/
def shiftScan {α : Type} (w : Nat) (z : α) (l : List α) : List α :=
  l.zipIdx.map fun (x : α × Nat) => if x.2 % w == 0 then z else l.getD (x.2 - 1) z
/-- SCANADD (R131, R135); each lane raises the flags of its own position's additions; on stepping A0 the lowest position of an exclusive floating-point scan has tag FULL (R350 E001). -/
def execScanadd (c : Ctl) (excl : Bool) (rm : Rm) (t : RedTy) (w : Width) (d : VReg) (a : Src) (s : State) : Out :=
  match t with
  | .int t => redInt s c t d a 0 fun l =>
      let r := scan (fun x y => (x + y) % 2 ^ t.w) w.w l
      if excl then shiftScan w.w 0 r else r
  | .flt t => redFlt s c t d a (.fin true 0 1) true (noStoch rm) fun g l =>
      let r := scan (addNode g rm t.fmt) w.w l
      if excl then (shiftScan w.w ⟨.fin true 0 1, FULL, flNone⟩ r).zipIdx.map fun x => { x.1 with fl := (r.getD x.2 x.1).fl } else r

/-! ## Inspection (R138 to R140) -/

/-- The group whose LIVE, ACTIVE, GID and GSEQ a lane reads: a moved lane's own home group (R139, R141). -/
def State.homeOf (s : State) (g : Group) (l : Nat) : Group :=
  match g.merge with | .host du _ _ => if g.isMoved l then s.group du else g | _ => g
/-- Whether a group is merged; the quantities of a home group are then read lane by lane. -/
def Group.isHost (g : Group) : Bool := match g.merge with | .host .. => true | _ => false

/-- GRPINFO (R131, R138). -/
def execGrpinfo (c : Ctl) (d : VReg) (sel : Fin 4) (s : State) : Out :=
  aluWord s c [] fun g w =>
    let rg := (s.wg g.wg).regrouped
    aluResult g w d.val 1 [] (sel.val != 3) none 0 fun l =>
      let x := g.lane l
      plainOut (match sel.val with
        | 0 => if rg then x.rank else x.gid * 32 + x.pos
        | 1 => if rg then x.kfirst else x.gid * 32 + x.pos
        | 2 => if rg then x.kcount else 1
        | _ => rg.toNat)

/-- LIVE of a lane (R139): by position, of its home group; in an ejected lane as it stood at ejection. -/
def State.liveOf (s : State) (g : Group) (l : Nat) : Mask :=
  match g.sleeve, g.merge with
  | some x, _ => x.live0
  | none, .host du moved _ =>
    if g.isMoved l then
      let dn := s.group du
      dn.posMask (dn.live &&& ~~~maskOf (moved.map Prod.snd)) ||| maskOf ((moved.filter fun x => g.live.getLsbD x.1).map fun x => (g.lane x.1).pos)
    else g.posMask (g.live &&& ~~~maskOf (moved.map Prod.fst))
  | none, _ => g.posMask g.live
/-- ACTIVE of a lane (R139). -/
def State.activeOf (_s : State) (g : Group) (l : Nat) : Mask :=
  match g.sleeve, g.merge with
  | some _, _ => bit1 (g.lane l).pos
  | none, .host _ moved _ =>
    let m := maskOf (moved.map Prod.fst)
    if g.isMoved l then g.posMask (g.active &&& m) else g.posMask (g.active &&& ~~~m)
  | none, _ => g.posMask g.active

/-- The quantity of Table 1.8 that a lane reads. -/
def State.special (s : State) (g : Group) (idx l : Nat) : Nat :=
  let x := g.lane l
  let wg := s.wg g.wg
  match idx with
  | 0x00 => x.tid
  | 0x01 => x.home
  | 0x02 => x.pos
  | 0x03 => x.gid
  | 0x04 => (s.homeOf g l).gseq
  | 0x05 => wg.wgid
  | 0x06 => wg.wgrank
  | 0x07 => g.node
  | 0x08 => (match (s.nodeOf g).kind with | .lane => x.home | .collect => x.gid * 32 + x.home | _ => 0)
  | 0x09 => (s.homeOf g l).nrec
  | 0x0A => wg.lcore
  | 0x0B => g.core
  | 0x0C => s.clock g.core % 2 ^ 32
  | 0x0D => s.clock g.core / 2 ^ 32 % 2 ^ 32
  | 0x0E => (s.liveOf g l).toNat
  | 0x0F => (s.activeOf g l).toNat
  | 0x10 => x.depth
  | 0x11 => g.part
  | 0x12 => s.accel g.part
  | 0x13 => x.srcnt.toNat
  | 0x14 => g.sleeve.isSome.toNat
  | _ => wg.groups.length
/-- The quantities that are general, or lane by lane in a merged group (Table 1.8). -/
def specLane (g : Group) (idx : Nat) : Bool :=
  [0x02, 0x10, 0x13, 0x14].contains idx || (g.isHost && [0x03, 0x04, 0x09, 0x0E, 0x0F].contains idx)
/-- RDSPEC (R131, R139, R12 row 7): TID, HLANE and RIDX are affine where they are linear in the home lane. -/
def execRdspec (c : Ctl) (d : VReg) (idx : Fin 22) (s : State) : Out :=
  aluWord s c [] fun g w =>
    let l0 := (maskBits w).headD 0
    let lin : Option Nat := match idx.val with
      | 0x00 => if (s.wg g.wg).regrouped || g.isHost then none else some ((g.lane l0).tid - (g.lane l0).home)
      | 0x01 => some 0
      | 0x08 => (match (s.nodeOf g).kind with
          | .lane => some 0
          | .collect => if g.isHost then none else some ((g.lane l0).gid * 32)
          | _ => none)
      | _ => none
    let aff := lin.map fun b => RegVal.affine (BitVec.ofNat 32 b) 1 FULL
    let dep := specLane g idx.val || idx.val == 0x00 || idx.val == 0x01 ||
      (idx.val == 0x08 && (match (s.nodeOf g).kind with | .collect => true | .lane => true | _ => false))
    aluResult g w d.val 1 [] dep aff 0 fun l => plainOut (s.special g idx.val l)

/-- SHAPE (R131, R140): the shape code of its source, whose value it does not read. -/
def execShape (c : Ctl) (d : VReg) (b : Src) (s : State) : Out :=
  aluWord s c [b] fun g w => aluResult g w d.val 1 [] false none 0 fun _ =>
    plainOut (match b with | .reg r => (g.view r.val).shape.rank | _ => Shape.uniform.rank)
/-- MOVG (R131, R140). -/
def execMovg (c : Ctl) (t : BitTy) (d : VReg) (b : Src) (s : State) : Out :=
  aluWord s c [b] fun g w => aluMap s g w d.val t.regs [(b, t.o)] true 0 fun _ vs =>
    carried (vs.getD 0 (0, 0)).1 (vs.getD 0 (0, 0)).2

/-! ## Regrouping (R136, R137, R160) -/

/-- The groups of a workgroup that have not retired, by GID. -/
def State.groupsOf (s : State) (wg : Nat) : List Group :=
  sortBy Group.gid (s.groups.filter fun g => g.wg == wg && g.sleeve.isNone && g.phase != .retired)

/-- Whether a group has a register write pending, of an access, a slice query or a write lock (R199, R241). -/
def State.writesPending (s : State) (uid : Nat) : Bool :=
  let g := s.group uid
  (s.accs.any fun a => a.uid == uid && a.dst != .none) || (s.sliceqs.any fun q => q.uid == uid) ||
  s.mops.any fun m => m.wg == g.wg && m.writes.any fun x => x.groups.contains g.gid

/-- Whether a register write is pending into lanes of a group, of an access, a slice query or a write lock (R153, R241). -/
def State.writesInto (s : State) (uid : Nat) (m : Mask) : Bool :=
  let g := s.group uid
  (s.accs.any fun a => a.uid == uid && a.dst != .none && a.lanes.any fun q => m.getLsbD q.slot) ||
  (s.sliceqs.any fun q => q.uid == uid && m.getLsbD q.slot) ||
  s.mops.any fun x => x.wg == g.wg && x.writes.any fun y => y.groups.contains g.gid

/-- Whether the collective of the word at `pc` can complete (R136): every live thread of the workgroup is there, every
completion flag is clear and no register write is pending. -/
def State.collectiveReady (s : State) (gs : List Group) (uid : Nat) (pc : Addr) : Bool :=
  (s.mops.all fun m => gs.all fun g => g.wg != m.wg) && gs.all fun g =>
    (g.live == 0 || ((g.uid == uid || g.gate == .regroup) && g.clause.isSome && g.pc == pc)) &&
    g.cf.all (· == 0) && !s.writesPending g.uid

/-- The identity of R15 between groups. -/
def sameUniform (g h : Group) : Bool := g.v.drop g.decl.ng == h.v.drop h.decl.ng && g.mode == h.mode && g.repc == h.repc && g.reps == h.reps

/-- A thread that moves: its group and slot, where it goes, and its lane record there. -/
structure Move where
  src : Nat
  slot : Nat
  dst : Nat
  to' : Nat
  lane : Lane

/-- The open bypass results after a move of threads (R31, R136): per lane for registers of general capacity, where `at'` gives what
comes to a slot; those of narrower capacity stay, as they are identical in every group. -/
def carriedWindow (lead : Group) (gs : List Group) (at' : Nat → Option Move) : List Bypass :=
  let keys := sortBy (fun (k : Nat × Nat) => 3 - k.2) (gs.flatMap fun h => h.window.map fun b => (b.reg, b.left)).eraseDups
  let ent (h : Group) (k : Nat × Nat) : Option Bypass := h.window.find? fun b => b.reg == k.1 && b.left == k.2
  keys.map fun k =>
    let word (l : Nat) : Option (Word × Tag) :=
      match at' l with
      | none => none
      | some m =>
        let src := (gs.find? fun h => h.uid == m.src).getD lead
        match ent src k with
        | some b => if b.w.getLsbD m.slot then some (b.val.at m.slot (src.lane m.slot).home) else none
        | none => none
    let val : RegVal := .general (laneSlots.map fun l => (word l).getD (0, FULL))
    ⟨k.1, if k.1 < lead.decl.ng then val else (match ent lead k with | some b => b.val | none => val),
     maskOf (laneSlots.filter fun l => (word l).isSome), k.2⟩

/-- A group after the Gusset has moved threads into it (R136, R137). -/
def Group.receive (d lead : Group) (gs : List Group) (moves : List Move) (status : Word) (helper : Mask) : Group :=
  let mine := moves.filter fun m => m.dst == d.uid
  let at' (l : Nat) : Option Move := mine.find? fun m => m.to' == l
  let grp (u : Nat) : Group := (gs.find? fun g => g.uid == u).getD d
  let word (r l : Nat) : Word × Tag := match at' l with | some m => (grp m.src).stored r m.slot | none => d.stored r l
  let live := maskOf (mine.map Move.to')
  { d with
    v := (upFrom 0 d.decl.ng).map (fun r => RegVal.general (laneSlots.map (word r))) ++ lead.v.drop lead.decl.ng
    p := (upFrom 0 64).map fun p => maskOf (laneSlots.filter fun l => match at' l with
      | some m => ((grp m.src).p.getD p 0).getLsbD m.slot | none => (d.p.getD p 0).getLsbD l)
    k := List.replicate 16 0
    status := status
    mode := lead.mode, repc := lead.repc, reps := lead.reps
    live := live, active := live ||| helper, helper := helper
    lanes := d.lanes.zipIdx.map fun (x : Lane × Nat) => match at' x.2 with
      | some m => m.lane
      | none => let y := d.vacant x.2 x.1; if helper.getLsbD x.2 then { y with state := .helper } else y
    clause := if live == 0 then none else lead.clause
    phase := if live == 0 then .held else if d.uid == lead.uid then d.phase else .waiting
    gate := .none, window := carriedWindow lead gs at', latch := [] }

/-- Moves threads and lets every group that holds one go on at the next word. -/
def State.rearrange (s : State) (lead : Group) (gs : List Group) (moves : List Move) (helper : Group → Mask → Mask) (rg : Bool) : State :=
  let status := gs.foldl (fun st g => st ||| g.status) 0
  let gs' := gs.map fun d =>
    let live := maskOf ((moves.filter fun m => m.dst == d.uid).map Move.to')
    d.receive lead gs moves status (helper d live)
  let s := gs'.foldl (fun (s : State) g => (s.setGroup g).unlatch g fun _ => true) s
  let s := s.modWg lead.wg fun w => { w with regrouped := rg }
  gs'.foldl (fun s g => if g.live == 0 then s else s.nextWord (g.issued [] [])) s

/-- The groups among which REGROUP and UNGROUP move threads (R136, R137): while the workgroup is not regrouped, a group with no live
lane, whose flags are clear by then, has retired (Table 6.1). -/
def State.collectiveMembers (s : State) (wg : Nat) : List Group :=
  (s.groupsOf wg).filter fun h => h.live != 0 || (s.wg wg).regrouped

/-- The course of REGROUP and UNGROUP (R136, R160): UNIMIS unless every live lane of the group is here, then a wait until the
collective is complete. -/
def State.collective (s : State) (c : Ctl) (k : State → Group → List Group → State) : Out :=
  s.dissolving true fun s g =>
    let w := g.writeSet c.gp.val c.gn
    if w == 0 then s.nextWord (g.issued [] [])
    else if w != g.live then s.takeTrap g (trapOf cUNIMIS 0 g.active w)
    else
      let all := s.groupsOf g.wg
      if !s.collectiveReady all g.uid g.pc then (s.freePort g).setGroup { g with gate := .regroup, phase := .waiting }
      else
        let gs := s.collectiveMembers g.wg
        if gs.all (sameUniform g) then k s g gs
        else (gs.filter fun h => h.live != 0).foldl (fun s h => s.takeTrap (s.group h.uid) (trapOf cILLEGAL illShape h.active 0)) s

/-- The live threads of groups: group, slot. -/
def threadsOf (gs : List Group) : List (Group × Nat) := gs.flatMap fun g => (maskBits g.live).map fun l => (g, l)

/-- REGROUP (R136). -/
def execRegroup (c : Ctl) (a : Src) (s : State) : Out :=
  s.collective c fun s g gs =>
    match s.operand g g.live a oN32 with
    | .error t => s.takeTrap g t
    | .ok o =>
      let key (x : Group × Nat) : Nat := (Opnd.at x.1 x.2 o).1
      let ts := sortBy (fun x => key x * 2 ^ 32 + (x.1.lane x.2).tid) (threadsOf gs)
      let ks := ts.map key
      let moves := ts.zipIdx.map fun (x : (Group × Nat) × Nat) =>
        let d := gs.getD (x.2 / 32) g
        let kk := key x.1
        (⟨x.1.1.uid, x.1.2, d.uid, x.2 % 32,
          { x.1.1.lane x.1.2 with gid := d.gid, pos := x.2 % 32, rank := x.2, kfirst := ks.findIdx (· == kk), kcount := ks.count kk }⟩ : Move)
      s.rearrange g gs moves (fun _ _ => 0) true

/-- The helper lanes of quads that hold a live lane (R117, R137). -/
def helperOf (launched live : Mask) : Mask :=
  maskOf (laneSlots.filter fun l => !launched.getLsbD l && (quadOf l).any live.getLsbD)

/-- UNGROUP (R137). -/
def execUngroup (c : Ctl) (s : State) : Out :=
  s.collective c fun s g gs =>
    if (s.wg g.wg).regrouped then
      let moves := (threadsOf gs).map fun x =>
        let y := x.1.lane x.2
        let d := (gs.find? fun h => h.uid == y.homeUid).getD g
        (⟨x.1.uid, x.2, d.uid, y.home, { y with gid := d.gid, pos := y.home }⟩ : Move)
      s.rearrange g gs moves (fun d live => helperOf d.launched live) false
    else (gs.filter fun h => h.live != 0).foldl (fun s h => s.nextWord ({ h with gate := .none }.issued [] [])) s

end Sys2Proof.Machine
end

