-- ==== Sys2Proof/Machine/Access.lean ====
section
/-! DEFINITION. Where the bytes of an access lie, reading and writing them with tags (R58, R59, R162 to R167), and the values
that atomics compute (R209, R210). -/
namespace Sys2Proof

/-- Bytes of a load type. -/
def LdTy.size : LdTy → Nat | .b8 | .s8 | .n8 => 1 | .b16 | .s16 | .n16 => 2 | .b32 => 4 | .b64 => 8 | .b128 => 16
/-- Bytes of a store type. -/
def StTy.size : StTy → Nat | .b8 => 1 | .b16 => 2 | .b32 => 4 | .b64 => 8 | .b128 => 16
/-- Bytes of a window type. -/
def WinTy.size : WinTy → Nat | .b32 => 4 | .b64 => 8 | .b128 => 16
/-- A window type as a load type. -/
def WinTy.ld : WinTy → LdTy | .b32 => .b32 | .b64 => .b64 | .b128 => .b128
/-- A bit type as a load type. -/
def BitTy.ld : BitTy → LdTy | .b32 => .b32 | .b64 => .b64
/-- A bit type as a store type. -/
def BitTy.st : BitTy → StTy | .b32 => .b32 | .b64 => .b64
/-- Bytes of an atomic operation (Table 8.3). -/
def Aop.size : Aop → Nat
  | .addI t | .sub t | .minI t | .maxI t => t.w / 8
  | .addF t | .minF t | .maxF t => 4 * t.regs
  | .and t | .or t | .xor t => t.w / 8
  | .exch t | .cas t => t.size
  | .inc | .dec => 4

end Sys2Proof

namespace Sys2Proof.Machine
open Sys2Proof

/-! ## A thread's own space (R164, R261) -/

/-- The data and tag pages of the words that `n` bytes at an offset touch. -/
def State.prvPlace (s : State) (w : Wg) (tid off n : Nat) (need : Need) (useTlb : Bool) : Except (Nat × Nat × Addr) Place :=
  let nd := s.wgNode w
  let base := nd.lrec.prvb + tid * 20 * nd.prv
  let top := nd.lrec.prvb + nd.lrec.prvs
  let w0 := off / 4
  let k := (n + 3) / 4
  if 16 * nd.prv < off + n || top < base + off + n || top < base + 16 * nd.prv + w0 + k then
    .error (cMEMFLT, kPrvBound, BitVec.ofNat 64 off)
  else
    let page (i : Nat) : Except (Nat × Nat × Addr) (Nat × Page × Page) :=
      let va := base + 4 * (w0 + i)
      match s.translate w.part va need useTlb, s.translate w.part (base + 16 * nd.prv + w0 + i) need useTlb with
      | .ok p, .ok t => .ok (va, p, t)
      | .error e, _ => .error (cMEMFLT, e, BitVec.ofNat 64 off)
      | _, .error e => .error (cMEMFLT, e, BitVec.ofNat 64 off)
    match collect ((upFrom 0 k).map page) with
    | .error e => .error e
    | .ok ws => .ok (.prv w.launch w.part ws (off % 4))

/-! ## Reading and writing a place -/

/-- The bytes of a place and the tag of each word they touch (R59). -/
def State.readPlace (s : State) (pl : Place) (n : Nat) : List Byte × List Tag :=
  match pl with
  | .mem _ va p => (s.homeRead p n, (touched va n).zipIdx.map fun x => s.tagAt { p with key := p.key + 4 * x.2 } (va + 4 * x.2))
  | .prv launch _ ws sub =>
    let seen := (s.launch launch).prvSeen
    let one (x : Nat × Page × Page) : List Byte := if seen.contains (x.1 / 4) then memRead s.mem x.2.1.key 4 else [0, 0, 0, 0]
    (((ws.flatMap one).drop sub).take n,
     ws.map fun x => if seen.contains (x.1 / 4) then tagOfByte (memGet s.mem x.2.2.key) else FULL)
  | .sp wg _ off => let m := (s.wg wg).sp; (memRead m.bytes off n, (touched off n).map (tmTag m))
  | .tile core off => let m := (s.core core).tile; (memRead m.bytes off n, (touched off n).map (tmTag m))

/-- The DATAERR sub-cause and address of a read of a place, if it meets an uncorrectable granule (R336, Table 15.2). -/
def State.placeBad (s : State) (pl : Place) (n : Nat) (a : Nat) : Option (Nat × Nat × Addr) :=
  if s.ras.marks.isEmpty then none
  else
    let hit := match pl with
      | .mem _ va p => s.badAt p.key n || (p.sig && s.badAt (p.tagKey va) ((n + 3) / 4))
      | .prv _ _ ws _ => ws.any fun x => s.badAt x.2.1.key 4 || s.badAt x.2.2.key 1
      | .sp wg core off => (touched off n).any fun i => s.badCluster core 1 (wg * 2 ^ 24 + i)
      | .tile core off => (touched off n).any fun i => s.badCluster core 2 (core * 2 ^ 24 + i)
    if !hit then none
    else match pl with
      | .mem .. => some (cDATAERR, 1, BitVec.ofNat 64 a)
      | .prv _ _ ws sub => some (cDATAERR, 1, BitVec.ofNat 64 ((ws.headD default).1 + sub))
      | _ => some (cDATAERR, 2, BitVec.ofNat 64 (0xFE * 2 ^ 56 + a))

/-- Writes bytes at a place for core `core`, with a tag for each word touched: at the home, and in the core's L1 copy where it
holds one (R168, R59, R336). -/
def State.writePlace (s : State) (core : Nat) (pl : Place) (bs : List Byte) (tags : List Tag) : State :=
  match pl with
  | .mem part va p => (s.pageWrite p va bs tags).l1Update core part va bs (if p.sig then tags else tags.map fun _ => FULL)
  | .prv launch part ws sub =>
    let put (s : State) (x : (Nat × Page × Page) × Nat) : State :=
      let seen := (s.launch launch).prvSeen.contains (x.1.1 / 4)
      let s := if seen then s else
        (s.physWrite x.1.2.1.key [0, 0, 0, 0]).modLaunch launch fun l => { l with prvSeen := (x.1.1 / 4) :: l.prvSeen }
      s.physWrite x.1.2.2.key [BitVec.ofNat 8 (tags.getD x.2 FULL)]
    let s := ws.zipIdx.foldl put s
    let w0 := ws.headD default
    if ws.length ≤ 1 then (s.physWrite (w0.2.1.key + sub) bs).l1Update core part (w0.1 + sub) bs [FULL]
    else ws.zipIdx.foldl (fun s (x : (Nat × Page × Page) × Nat) =>
      let b := (bs.drop (4 * x.2)).take 4
      (s.physWrite x.1.2.1.key b).l1Update core part x.1.1 b [FULL]) s
  | .sp wg c off => s.spWrite wg c off bs tags
  | .tile c off => s.tileWrite c off bs tags

/-- Words of bytes with the tag of each. -/
def wordsAt : List Byte → List Tag → List (Word × Tag)
  | a :: b :: c :: d :: bs, t :: ts => (BitVec.ofNat 32 (ofBytes [a, b, c, d]), t) :: wordsAt bs ts
  | [], _ => []
  | bs, t :: _ => [(BitVec.ofNat 32 (ofBytes bs), t)]
  | bs, [] => [(BitVec.ofNat 32 (ofBytes (bs.take 3)), FULL)]

/-- The register words of a load of a type (R205): extension of a narrow value, the low word's tag for a pair. -/
def ldWords (t : LdTy) (bs : List Byte) (tags : List Tag) : List (Word × Tag) :=
  let ws := wordsAt bs tags
  match t with
  | .s8 => ws.map fun x => (BitVec.ofNat 32 (sext 8 32 x.1.toNat), x.2)
  | .s16 => ws.map fun x => (BitVec.ofNat 32 (sext 16 32 x.1.toNat), x.2)
  | .b64 => let t0 := tags.headD FULL; ws.map fun x => (x.1, t0)
  | _ => ws

/-- The bytes that a store of a type writes from register words, with the tag of each word (R59, R205). -/
def stBytes (t : StTy) (ws : List (Word × Tag)) : List Byte × List Tag :=
  let bs := toBytes t.size (ofWords (ws.map Prod.fst))
  match t with
  | .b128 => (bs, ws.map Prod.snd)
  | .b64 => (bs, [(ws.headD (0, FULL)).2, (ws.headD (0, FULL)).2])
  | _ => (bs, [(ws.headD (0, FULL)).2])

/-! ## Atomics (R209 to R211) -/

/-- What an atomic writes: the new value with the tag of each word, or nothing for a compare that fails; flags. -/
structure AtomOut where
  new : Option (Nat × List Tag)
  fl : FlagSet

/-- The new value at the location (Table 8.3), of the old value with its tag and the operands with their tags. -/
def aopApply (op : Aop) (mode : Word) (old : Nat) (told : Tag) (b c : List (Word × Tag)) : AtomOut :=
  let bv := ofWords (b.map Prod.fst)
  let tb := (b.headD (0, FULL)).2
  let full (v n : Nat) : AtomOut := ⟨some (v, List.replicate n FULL), flNone⟩
  let flt (t : FltTy) (f : FOp → FOp → FRes) : AtomOut :=
    let r := f (readFl t.fmt (modeFtzi mode) old told) (readFl t.fmt (modeFtzi mode) bv tb)
    ⟨some (r.bits, List.replicate t.regs r.tag), r.fl⟩
  let swap (t : WinTy) (x : List (Word × Tag)) : AtomOut :=
    let ts := match t with | .b128 => x.map Prod.snd | _ => List.replicate t.regs (x.headD (0, FULL)).2
    ⟨some (ofWords (x.map Prod.fst), ts), flNone⟩
  match op with
  | .addI t => full ((old + bv) % 2 ^ t.w) t.regs
  | .sub t => full (ofSigned t.w ((old : Int) - bv)) t.regs
  | .minI t => full (minmaxVal t false old bv) t.regs
  | .maxI t => full (minmaxVal t true old bv) t.regs
  | .addF t => flt t fun x y => fAdd ⟨modeRnd mode, modeFtzo mode, fun _ => 0⟩ t.fmt 0 false x y
  | .minF t => flt t fun x y => fMinMax t.fmt (modeFtzo mode) false (Config.minTakesLeft x.t y.t) x y
  | .maxF t => flt t fun x y => fMinMax t.fmt (modeFtzo mode) true (Config.minTakesLeft x.t y.t) x y
  | .and t => full (old &&& bv) t.regs
  | .or t => full (old ||| bv) t.regs
  | .xor t => full (old ^^^ bv) t.regs
  | .exch t => swap t b
  | .cas t => if old == bv then swap t c else ⟨none, flNone⟩
  | .inc => full (if bv ≤ old then 0 else old + 1) 1
  | .dec => full (if old == 0 || bv < old then bv else old - 1) 1

/-- The register type of an atomic's result. -/
def aopLd (op : Aop) : LdTy := match op.size with | 16 => .b128 | 8 => .b64 | _ => .b32

/-! ## Semaphores and tile descriptors (R172, R175) -/

/-- Whether a SEMWAIT threshold holds for a value (R175). -/
def semHolds (v th : Word) : Bool := (v - th).toNat < 2 ^ 31

/-- Writes a cluster semaphore, and marks the lanes waiting in SEMWAIT whose condition now holds (R219). -/
def State.semSet (s : State) (cl n : Nat) (v : Word) : State :=
  let s := s.modCluster cl fun c => { c with sems := aset c.sems n v }
  { s with groups := s.groups.map fun g =>
    match g.gate with
    | .sem m need sat =>
      if clusterOf g.core == cl && m == n then
        { g with gate := .sem m need (sat ||| maskOf ((need.filter fun x => semHolds v x.2).map Prod.fst)) }
      else g
    | _ => g }
/-- The value of a cluster semaphore. -/
def State.semGet (s : State) (cl n : Nat) : Word := aget 0 (s.cluster cl).sems n

/-- FULL of a descriptor. -/
def tileFull (d : Addr) : Bool := d.getLsbD 63
/-- Whether a descriptor names a range of a tile area of `bytes` bytes (R172). -/
def tileValid (d : Addr) (bytes : Nat) : Bool :=
  d.getLsbD 62 && bits d.toNat 32 16 != 0 && 64 * (bits d.toNat 0 14 + bits d.toNat 32 16) ≤ bytes

/-- Writes a tile descriptor, and marks the lanes waiting in TILEWAIT whose condition now holds (R221). -/
def State.descSet (s : State) (core idx : Nat) (d : Addr) : State :=
  let s := s.modCore core fun c => { c with desc := aset c.desc idx d }
  { s with groups := s.groups.map fun g =>
    match g.gate with
    | .tile full need sat =>
      if g.core == core && tileValid d (s.tileBytes (s.wg g.wg)) && tileFull d == full then
        { g with gate := .tile full need (sat ||| maskOf ((need.filter fun x => x.2 == idx).map Prod.fst)) }
      else g
    | _ => g }
/-- A tile descriptor of a core. -/
def State.descGet (s : State) (core idx : Nat) : Addr := aget 0 (s.core core).desc idx

/-! ## Threads -/

/-- The group or Sleeve context and slot in which a thread of a workgroup lives now. -/
def State.threadAt (s : State) (wg tid : Nat) : Option (Nat × Nat) :=
  s.groups.findSome? fun g =>
    if g.wg == wg then
      (laneSlots.find? fun l => g.live.getLsbD l && (g.lane l).tid == tid &&
        (match (g.lane l).state with | .onPath | .held .. => true | _ => false)).map fun l => (g.uid, l)
    else none
/-- Raises flags in a thread, wherever it lives (R27, R210). -/
def State.raiseThread (s : State) (wg tid : Nat) (f : FlagSet) : State :=
  if f == 0 then s
  else match s.threadAt wg tid with
    | some (u, l) => (s.modGroup u fun g => g.raise l f).postFlags u
    | none => s

/-- Whether a thread has an access in flight that was issued before place `n` of issue order. -/
def State.threadBusy (s : State) (wg tid n : Nat) : Bool :=
  s.accs.any fun b => b.wg == wg && b.seq < n && b.lanes.any fun q => q.tid == tid && !q.done
/-- Whether a thread has a sealed copy batch that has not ended, or an MSTF that counts as one (R252), begun before place `n` of issue
order. -/
def State.threadCopies (s : State) (wg tid n : Nat) : Bool :=
  (s.batches.any fun b => b.wg == wg && b.tid == tid && b.id < n) ||
  s.mops.any fun m => m.isStore && m.wg == wg && m.id < n && m.tids.contains tid

end Sys2Proof.Machine
end

