-- ==== Sys2Proof/Machine/MemOps.lean ====
section
/-! DEFINITION. The issue of long-latency memory instructions (R199, R204 to R211, R214, R219, R220), and the memory
instructions that complete at issue (R206, R212, R213). -/
namespace Sys2Proof.Machine
open Sys2Proof

/-! ## Addresses (R204) -/

/-- The sources a memory operand names. -/
def offSrcs : Off → List Src | .imm _ => [] | .reg r => [.reg r]
/-- The signed offset of a lane. -/
def offAt (g : Group) (l : Nat) : Off → Int
  | .imm v => v.toInt
  | .reg r => toSigned 32 (g.read r.val l).1.toNat
/-- Whether an offset is the same in every lane. -/
def offUniform (g : Group) : Off → Bool | .imm _ => true | .reg r => (g.view r.val).shape == .uniform

/-- The registers a global base names: a pair when even. -/
def baseOpnd (a : VReg) : Opnd := .reg a.val (if a.val % 2 == 0 then 2 else 1)
/-- A global base in a lane. -/
def Group.base (g : Group) (a : VReg) (l : Nat) : Nat := (Opnd.at g l (baseOpnd a)).1
/-- A global address in a lane. -/
def Group.globalAddr (g : Group) (a : VReg) (o : Off) (l : Nat) : Nat := ofSigned 64 ((g.base a l : Int) + offAt g l o)
/-- A 32-bit offset in a lane. -/
def Group.localAddr (g : Group) (a : VReg) (o : Off) (l : Nat) : Nat := ofSigned 32 (((g.read a.val l).1.toNat : Int) + offAt g l o)
/-- A gather address in a lane. -/
def Group.gatherAddr (g : Group) (a b : VReg) (sx : Bool) (sh : Nat) (l : Nat) : Nat :=
  let i := (g.read b.val l).1.toNat
  ofSigned 64 ((g.base a l : Int) + (if sx then toSigned 32 i else (i : Int)) * (2 ^ sh : Nat))

/-- The words of `n` registers in a lane. -/
def Group.words (g : Group) (r n l : Nat) : List (Word × Tag) := (upFrom r n).map fun i => g.read i l

/-! ## Issue (R199, R200) -/

/-- What an L-class word starts: operation, destination, whether its address is uniform, and the request of each lane. -/
structure AccPlan where
  op : AccOp
  dst : AccDst
  same : Bool
  req : Nat → Nat × List (Word × Tag) × List (Word × Tag)

/-- A request that nothing has been done for. -/
def newReq (g : Group) (l : Nat) (r : Nat × List (Word × Tag) × List (Word × Tag)) : LaneReq :=
  ⟨l, (g.lane l).tid, r.1, r.2.1, r.2.2, false, [], flNone, none⟩

/-- Starts an access in the lanes of `w`, in ascending position, counting on the flag that the header names (R61, R23). -/
def State.startAccess (s : State) (g : Group) (f : Bool) (w : Mask) (p : AccPlan) (latch : List (Nat × Nat)) : State :=
  let n := s.fresh
  let cf := hdrFlag g.cl.hdr f
  let a : Access := ⟨n.1, n.1, g.uid, g.uid, g.wg, p.op, cf, p.dst, w, (g.byPos w).map fun l => newReq g l (p.req l), p.same, g.mode, g.pc, false, false⟩
  { n.2 with accs := n.2.accs ++ [a] }.nextWord ((g.cfInc cf).issued [] latch)

/-- The course of an L-class word (R199, R200): an empty write set starts nothing; a trap starts nothing. -/
def accWord (s : State) (c : Ctl) (f : Bool) (srcs : List Src) (mk : Group → Mask → Except Trap AccPlan) : Out :=
  withIssuer s fun g =>
    let w := g.writeSet c.gp.val c.gn
    if w == 0 then s.nextWord (g.issued [] (latchOf c srcs))
    else
      match mk g w with
      | .error t => s.takeTrap g t
      | .ok p => s.startAccess g f w p (latchOf c srcs)

/-- A register destination of `n` words with the shape that R13 gives the write as it issues, or the trap of a capacity that cannot
take it (R13, R200). -/
def regDst (g : Group) (w : Mask) (d n : Nat) (sh : Shape) : Except Trap AccDst :=
  match (upFrom d n).findSome? fun r => g.writable r w sh with
  | some t => .error t
  | none => .ok (.regs d n (g.shapeOf w sh))
/-- The shape a read takes: uniform from a uniform address (R12, R200). -/
def shapeFor (same : Bool) : Shape := if same then .uniform else .general

/-- A plan that reads into registers. -/
def readPlan (g : Group) (w : Mask) (op : AccOp) (d n : Nat) (same : Bool)
    (req : Nat → Nat × List (Word × Tag) × List (Word × Tag)) : Except Trap AccPlan :=
  match regDst g w d n (shapeFor same) with
  | .error t => .error t
  | .ok dst => .ok ⟨op, dst, same, req⟩

/-! ## Loads and stores (R205, R208) -/

/-- LD (R197, R205). -/
def execLd (c : Ctl) (f prv : Bool) (cp : LdCp) (t : LdTy) (d a : VReg) (o : Off) (s : State) : Out :=
  accWord s c f (.reg a :: offSrcs o) fun g w =>
    let same := !prv && (baseOpnd a).shape g == .uniform && offUniform g o
    readPlan g w (.load prv cp t) d.val t.regs same fun l => (if prv then g.localAddr a o l else g.globalAddr a o l, [], [])
/-- ST (R197, R205). -/
def execSt (c : Ctl) (f prv : Bool) (t : StTy) (d a : VReg) (o : Off) (s : State) : Out :=
  accWord s c f (.reg a :: offSrcs o) fun g _ =>
    .ok ⟨.store prv t, .none, false, fun l => (if prv then g.localAddr a o l else g.globalAddr a o l, g.words d.val t.regs l, [])⟩
/-- LDS and LDS.h (R197, R205). -/
def execLds (c : Ctl) (f : Bool) (t : LdTy) (d : VReg ⊕ HReg) (a : VReg) (o : Off) (s : State) : Out :=
  accWord s c f (.reg a :: offSrcs o) fun g w =>
    let req (l : Nat) : Nat × List (Word × Tag) × List (Word × Tag) := (g.localAddr a o l, [], [])
    match d with
    | .inl r => readPlan g w (.loadS t) r.val t.regs ((g.view a.val).shape == .uniform && offUniform g o) req
    | .inr h => .ok ⟨.loadH, .handle h.val, false, req⟩
/-- STS and STS.h (R197, R205): the handle word is stored with its ST at the store. -/
def execSts (c : Ctl) (f : Bool) (t : StTy) (d : VReg ⊕ HReg) (a : VReg) (o : Off) (s : State) : Out :=
  accWord s c f (.reg a :: offSrcs o) fun g _ =>
    match d with
    | .inl r => .ok ⟨.storeS t, .none, false, fun l => (g.localAddr a o l, g.words r.val t.regs l, [])⟩
    | .inr h => .ok ⟨.storeH, .none, false, fun l => (g.localAddr a o l, [((g.lane l).h.getD h.val 0, FULL)], [])⟩
/-- GATHER (R197, R208). -/
def execGather (c : Ctl) (f : Bool) (t : BitTy) (d a b : VReg) (sx : Bool) (sh : Fin 5) (s : State) : Out :=
  accWord s c f [.reg a, .reg b] fun g w =>
    let same := (baseOpnd a).shape g == .uniform && (g.view b.val).shape == .uniform
    readPlan g w (.load false .none t.ld) d.val t.regs same fun l => (g.gatherAddr a b sx sh.val l, [], [])
/-- SCATTER (R197, R208). -/
def execScatter (c : Ctl) (f : Bool) (t : BitTy) (d a b : VReg) (sx : Bool) (sh : Fin 5) (s : State) : Out :=
  accWord s c f [.reg a, .reg b] fun g _ =>
    .ok ⟨.store false t.st, .none, false, fun l => (g.gatherAddr a b sx sh.val l, g.words d.val t.regs l, [])⟩

/-! ## Atomics (R209, R210) -/

/-- The trap of a float add whose MODE.RND is stochastic (R210, R76). -/
def atomRound (g : Group) (op : Aop) : Option Trap :=
  match op with
  | .addF _ => if modeRnd g.mode == 6 then some (trapOf cILLEGAL illRounding g.active 0) else none
  | _ => none
/-- The plan of an atomic in a lane space. -/
def atomPlan (g : Group) (w : Mask) (op : Aop) (kind : AccOp) (d : Option VReg) (b : VReg) (e : Option VReg) (addr : Nat → Nat) :
    Except Trap AccPlan :=
  let n := op.size / 4
  match atomRound g op with
  | some t => .error t
  | none =>
    let req (l : Nat) : Nat × List (Word × Tag) × List (Word × Tag) :=
      (addr l, g.words b.val n l, match e with | some r => g.words r.val n l | none => [])
    match d with
    | some d =>
      match regDst g w d.val n .general with
      | .error t => .error t
      | .ok dst => .ok ⟨kind, dst, false, req⟩
    | none => .ok ⟨kind, .none, false, req⟩
/-- The sources of an atomic. -/
def atomSrcs (a b : VReg) (e : Option VReg) : List Src := [.reg a, .reg b] ++ (match e with | some r => [.reg r] | none => [])
/-- ATOM (R197, R210). -/
def execAtom (c : Ctl) (f : Bool) (op : Aop) (d a b : VReg) (e : Option VReg) (s : State) : Out :=
  accWord s c f (atomSrcs a b e) fun g w => atomPlan g w op (.atom op) (some d) b e (g.base a)
/-- RED (R197, R210, R211). -/
def execRed (c : Ctl) (f : Bool) (op : Aop) (a b : VReg) (s : State) : Out :=
  accWord s c f (atomSrcs a b none) fun g w => atomPlan g w op (.red op) none b none (g.base a)
/-- ATOMS (R197, R210). -/
def execAtoms (c : Ctl) (f : Bool) (op : Aop) (d a b : VReg) (e : Option VReg) (s : State) : Out :=
  accWord s c f (atomSrcs a b e) fun g w => atomPlan g w op (.atoms op) (some d) b e fun l => (g.read a.val l).1.toNat

/-! ## Objects, semaphores, tiles, records, counters, hints -/

/-- The code of a scope (Table 7.8). -/
def scopeNum : Scope → Nat | .grp => 0 | .wg => 1 | .nbr => 2 | .dev => 3 | .dom => 4 | .sys => 5
/-- BIND (R182, R214). -/
def execBind (c : Ctl) (f : Bool) (sc : Scope) (a b e : VReg) (s : State) : Out :=
  accWord s c f [.reg a, .reg b, .reg e] fun g _ =>
    .ok ⟨.bind (scopeNum sc), .none, false, fun l => (g.base a l, g.words b.val 2 l, g.words e.val 2 l)⟩
/-- SEMINC with a register, constant or window amount (R175, R219). -/
def execSeminc (c : Ctl) (f : Bool) (n : BitVec 8) (b : Src) (s : State) : Out :=
  accWord s c f [b] fun g w =>
    match s.operand g w b (.int 32 true) with
    | .error t => .error t
    | .ok o => .ok ⟨.seminc n.toNat, .none, false, fun l => (n.toNat, [(BitVec.ofNat 32 (Opnd.at g l o).1, FULL), (0, o.fl.toNat)], [])⟩
/-- SEMINC with an immediate amount (R175, R219, R70). -/
def execSemincImm (c : Ctl) (f : Bool) (n : BitVec 8) (v : BitVec 16) (s : State) : Out :=
  accWord s c f [] fun _ _ => .ok ⟨.seminc n.toNat, .none, false, fun _ => (n.toNat, [(v.signExtend 32, FULL), (0, 0)], [])⟩
/-- SEMRD (R219): read once when the write set is uniform, that is for every lane of it. -/
def execSemrd (c : Ctl) (f : Bool) (d : VReg) (n : BitVec 8) (s : State) : Out :=
  accWord s c f [] fun g w => readPlan g w (.semrd n.toNat) d.val 1 true fun _ => (n.toNat, [], [])
/-- TILEST.set (R172, R220). -/
def execTilestSet (c : Ctl) (f : Bool) (a b : VReg) (s : State) : Out :=
  accWord s c f [.reg a, .reg b] fun g _ => .ok ⟨.tileSet, .none, false, fun l => ((g.read a.val l).1.toNat, g.words b.val 2 l, [])⟩
/-- TILEST.full (R174, R220). -/
def execTilestFull (c : Ctl) (f : Bool) (a : VReg) (s : State) : Out :=
  accWord s c f [.reg a] fun g _ => .ok ⟨.tileBit true, .none, false, fun l => ((g.read a.val l).1.toNat, [], [])⟩
/-- TILEST.empty (R174, R220). -/
def execTilestEmpty (c : Ctl) (f : Bool) (a : VReg) (s : State) : Out :=
  accWord s c f [.reg a] fun g _ => .ok ⟨.tileBit false, .none, false, fun l => ((g.read a.val l).1.toNat, [], [])⟩
/-- RDREC (R167, R207). -/
def execRdrec (c : Ctl) (f : Bool) (t : WinTy) (d a : VReg) (o : Option (BitVec 16)) (s : State) : Out :=
  accWord s c f [.reg a] fun g w =>
    let off := match o with | some v => v.toNat | none => 0
    readPlan g w (.rdrec t) d.val t.regs ((g.view a.val).shape == .uniform) fun l =>
      (((g.read a.val l).1.toNat + off) % 2 ^ 32, [], [])
/-- RCSNAP (R229): the field holds n − 1. -/
def execRcsnap (c : Ctl) (f : Bool) (n : BitVec 8) (a b : VReg) (s : State) : Out :=
  accWord s c f [.reg a, .reg b] fun g _ => .ok ⟨.rcsnap (n.toNat + 1), .none, false, fun l => (g.base a l, g.words b.val 1 l, [])⟩
/-- A slice hint. -/
def hintPlan (g : Group) (op : AccOp) (b : VReg) (e : Option VReg) : AccPlan :=
  ⟨op, .none, false, fun l => ((g.read b.val l).1.toNat, match e with | some r => g.words r.val 1 l | none => [], [])⟩
/-- SLICEHINT.pin (R230). -/
def execSlicehintPin (c : Ctl) (f : Bool) (b : VReg) (s : State) : Out :=
  accWord s c f [.reg b] fun g _ => .ok (hintPlan g (.hintPin true) b none)
/-- SLICEHINT.unpin (R230). -/
def execSlicehintUnpin (c : Ctl) (f : Bool) (b : VReg) (s : State) : Out :=
  accWord s c f [.reg b] fun g _ => .ok (hintPlan g (.hintPin false) b none)
/-- SLICEHINT.rep (R230). -/
def execSlicehintRep (c : Ctl) (f : Bool) (b e : VReg) (s : State) : Out :=
  accWord s c f [.reg b, .reg e] fun g _ => .ok (hintPlan g .hintRep b (some e))
/-- SLICEHINT.drop (R230). -/
def execSlicehintDrop (c : Ctl) (f : Bool) (b e : VReg) (s : State) : Out :=
  accWord s c f [.reg b, .reg e] fun g _ => .ok (hintPlan g .hintDrop b (some e))

/-! ## Window loads, prefetch, cache control -/

/-- The results of per-lane reads, or the trap of the first lane that has one, in every lane that has one. -/
def laneReads {α : Type} (g : Group) (w : Mask) (f : Nat → Except Trap α) : Except Trap (List (Nat × α)) :=
  let rs := (g.byPos w).map fun l => (l, f l)
  let bad := rs.filterMap fun x => match x.2 with | .error t => some (x.1, t) | .ok _ => none
  match bad with
  | (_, t) :: _ => .error { t with lanes := maskOf (bad.map Prod.fst) }
  | [] => .ok (rs.filterMap fun x => match x.2 with | .ok v => some (x.1, v) | .error _ => none)

/-- LDP (R165, R206). -/
def execLdp (c : Ctl) (t : WinTy) (n : Fin 8) (d a : VReg) (o : Option (BitVec 16)) (s : State) : Out :=
  aluWord s c [.reg a] fun g w =>
    let off (l : Nat) : Nat := ((g.read a.val l).1.toNat + (match o with | some v => v.toNat | none => 0)) % 2 ^ 32
    match laneReads g w fun l => s.window g (bit1 l) n.val (off l) t.regs with
    | .error e => .error e
    | .ok rs =>
      aluMany g w d.val t.regs [.reg a.val 1] false 0 fun l =>
        match rs.find? (fun x => x.1 == l) with
        | none => []
        | some x =>
          let ws : List (Word × Tag) := match t with | .b64 => x.2.1.map (fun y => (y.1, (x.2.1.headD (0, FULL)).2)) | _ => x.2.1
          ws.map fun (y : Word × Tag) => ⟨y.1.toNat, y.2, x.2.2, none⟩

/-- An X or G word with no register result: its effect in the lanes of the write set. -/
def laneWord (s : State) (c : Ctl) (srcs : List Src) (f : Group → State → Nat → State) : Out :=
  withIssuer s fun g =>
    let w := g.writeSet c.gp.val c.gn
    ((g.byPos w).foldl (f g) s).nextWord (g.issued [] (latchOf c srcs))

/-- PREF (R212): fills the core's L1; dropped when translation fails or the page is not held in L1. -/
def execPref (c : Ctl) (mt : Bool) (a : VReg) (o : Off) (s : State) : Out :=
  laneWord s c (.reg a :: offSrcs o) fun g s l =>
    let va := g.globalAddr a o l
    if mt then s
    else match s.translate g.part va needR true with
      | .error _ => s
      | .ok p =>
        let k := p.key - va % 128
        if p.l1able && !s.badAt k 128 && (s.l1Line g.core g.part va).isNone then s.l1Fill g.core g.part va p else s

/-- CCTL.ivl (R213). -/
def execCctlIvl (c : Ctl) (a : VReg) (o : Off) (s : State) : Out :=
  laneWord s c (.reg a :: offSrcs o) fun g s l =>
    let va := g.globalAddr a o l
    s.l1Drop g.core fun x => x.part == g.part && x.va == va / 128 * 128
/-- CCTL.ivr (R213). -/
def execCctlIvr (c : Ctl) (a b : VReg) (s : State) : Out :=
  laneWord s c [.reg a, .reg b] fun g s l =>
    let va := g.base a l / 128 * 128
    let n := (g.read b.val l).1.toNat
    s.l1Drop g.core fun x => x.part == g.part && (2048 ≤ n || (va ≤ x.va && x.va < va + 128 * n))
/-- CCTL.iva (R213). -/
def execCctlIva (c : Ctl) (s : State) : Out :=
  laneWord s c [] fun g s _ => s.l1Drop g.core fun x => x.part == g.part

end Sys2Proof.Machine
end

