-- ==== Sys2Proof/Machine/Slice.lean ====
section
/-! DEFINITION. The slice cache and the routing counters (R228 to R230, R329, R330). -/
namespace Sys2Proof.Machine
open Sys2Proof

/-- The key a register word names. -/
def sliceKey (w : Nat) : Nat := w % 2 ^ 12
/-- Bytes of a slice. -/
def Partition.sliceBytes (p : Partition) : Nat := 2 ^ bits p.slicec.toNat 0 5
/-- Frames of a die's slice region (R329). -/
def Partition.dieFrames (p : Partition) (die : Nat) : Nat :=
  ((upFrom (16 * die) 16).countP fun i => p.slice.getLsbD i) * 2 ^ (24 - bits p.slicec.toNat 0 5)
/-- The number of the first frame of a die. -/
def Partition.firstFrame (p : Partition) (die : Nat) : Nat := ((upFrom 0 die).map p.dieFrames).sum
/-- The virtual address of a frame. -/
def Partition.frameVa (p : Partition) (f : Nat) : Nat := p.slicew.toNat + f * p.sliceBytes
/-- The routing counter of a key. -/
def Partition.count (p : Partition) (k : Nat) : Nat := (aget 0 p.routing k).toNat

/-- The die whose frames a fill by a core of die `d` takes: its own, or the lowest of the region (R329). -/
def Partition.fillDie (p : Partition) (d : Nat) : Option Nat :=
  if 0 < p.dieFrames d then some d else (upFrom 0 4).find? fun x => 0 < p.dieFrames x

/-- The resident frame that a fill replaces: unpinned, of the smallest routing counter, the lower key first (R329). -/
def Partition.victim (p : Partition) (die : Nat) : Option SliceFrame :=
  (sortBy (fun x => p.count x.key * 2 ^ 12 + x.key) (p.frames.filter fun x => x.die == die && !p.pins.contains x.key)).head?

/-- The frame that a fill of a die takes (R329). -/
def Partition.pickFrame (p : Partition) (die : Nat) : Option Nat :=
  match (upFrom (p.firstFrame die) (p.dieFrames die)).find? fun f => !p.frames.any (·.frame == f) with
  | some f => some f
  | none => (p.victim die).map SliceFrame.frame

/-- Whether `n` bytes from an address can be read, and met no uncorrectable granule. -/
def State.readable (s : State) (part va n : Nat) : Bool :=
  (upFrom 0 (n / 32)).all fun i =>
    match s.translate part (va + 32 * i) needR true with
    | .ok p => !s.badAt p.key 32
    | .error _ => false

/-- Copies one aligned word of global memory with its tag (R59), to a page that need not allow writes. -/
def State.copyWord (s : State) (part dst src : Nat) : State :=
  match s.translate part src needR true, s.translate part dst needR true with
  | .ok p, .ok q => s.pageWrite q dst (s.homeRead p 4) [if p.sig && q.sig then s.tagAt p src else FULL]
  | _, _ => s

/-- Copies `n` words. -/
def State.copyWords : Nat → State → Nat → Nat → Nat → State
  | 0, s, _, _, _ => s
  | n + 1, s, part, dst, src => State.copyWords n (s.copyWord part dst src) part (dst + 4) (src + 4)

/-- Copies a slice into the frame that the rule of R329 gives on a die; none when it cannot be made. -/
def State.sliceCopy (s : State) (part key die src : Nat) (replica : Bool) : Option State :=
  let p := s.part part
  match p.pickFrame die with
  | none => none
  | some f =>
    let dst := p.frameVa f
    let n := p.sliceBytes
    if s.readable part src n && s.readable part dst n then
      let s := State.copyWords (n / 4) s part dst src
      some (s.modPart part fun p => { p with frames := ⟨key, f, die, replica⟩ :: p.frames.filter fun x => x.frame != f })
    else none

/-- The primary copy of a key. -/
def Partition.primary (p : Partition) (key : Nat) : Option SliceFrame := p.frames.find? fun x => x.key == key && !x.replica
/-- The copy that a query from a die returns (R329). -/
def Partition.lookup (p : Partition) (key die : Nat) : Option SliceFrame :=
  match p.frames.find? fun x => x.key == key && x.die == die with
  | some x => some x
  | none => p.primary key

/-- A fill of a key for a core (R329): nothing when the key has no region or the fill cannot be made. -/
def State.sliceFill (s : State) (part core key : Nat) : State :=
  let p := s.part part
  match p.fillDie (dieOf (clusterOf core)) with
  | none => s
  | some die =>
    match s.sliceCopy part key die (p.sliceb.toNat + key * p.sliceBytes) false with
    | some s => s
    | none => s

/-- The dies a partition's clusters lie on. -/
def State.partDies (s : State) (n : Nat) : List Nat := ((s.partClusters n).map dieOf).eraseDups

/-- SLICEHINT.rep (R230): the primary is filled first when absent; a replica is a copy of the primary. -/
def State.sliceRep (s : State) (part core key die : Nat) : State :=
  if !(s.partDies part).contains die then s
  else
    let s := if ((s.part part).primary key).isSome then s else s.sliceFill part core key
    let p := s.part part
    match p.primary key with
    | none => s
    | some x =>
      if x.die == die || p.frames.any (fun y => y.key == key && y.die == die) then s
      else match s.sliceCopy part key die (p.frameVa x.frame) true with | some t => t | none => s

/-- SLICEHINT.drop (R230). -/
def State.sliceDrop (s : State) (part key die : Nat) : State :=
  s.modPart part fun p => { p with frames := p.frames.filter fun x => !(x.key == key && x.die == die && x.replica) }
/-- SLICEHINT.pin and .unpin (R230). -/
def State.slicePin (s : State) (part key : Nat) (on : Bool) : State :=
  s.modPart part fun p => { p with pins := if on then (if p.pins.contains key then p.pins else key :: p.pins) else p.pins.filter (· != key) }

/-- Increments a routing counter, saturating (R228). -/
def State.routeCount (s : State) (part key : Nat) : State :=
  s.modPart part fun p => { p with routing := aset p.routing key (BitVec.ofNat 32 (min (p.count key + 1) (2 ^ 32 - 1))) }

/-- SLICEQ (R228): a handle and a query for each lane of the write set, in lane order. -/
def execSliceq (c : Ctl) (fill : Bool) (h : HReg) (d b : VReg) (s : State) : Out :=
  withIssuer s fun g =>
    let w := g.writeSet c.gp.val c.gn
    if w == 0 then s.nextWord (g.issued [] (latchOf c [.reg b]))
    else
      match regDst g w d.val 2 .general with
      | .error t => s.takeTrap g t
      | .ok _ =>
        let one (x : State × Group) (l : Nat) : State × Group :=
          let key := sliceKey (g.read b.val l).1.toNat
          let wg := (x.1.wg g.wg).takeHandle 2 true
          let n := (x.1.routeCount g.part key).fresh
          let q : SliceQ := ⟨n.1, g.wg, g.uid, l, wg.2.toNat % 256, g.core, g.part, key, fill, d.val, false⟩
          ({ n.2 with sliceqs := n.2.sliceqs ++ [q] }.modWg g.wg fun _ => wg.1,
           x.2.modLane l fun y => { y with h := modAt (fun _ => wg.2) h.val y.h })
        let r := (g.byPos w).foldl one (s, g)
        (r.1.modWg g.wg Wg.handleTick).nextWord (r.2.issued [] (latchOf c [.reg b]))

/-- Ends a slice query with its result pair and the final state of its handle (R228, R225). -/
def State.endSliceq (s : State) (q : SliceQ) (st val : Nat) : State :=
  let s := { s with sliceqs := s.sliceqs.filter fun x => x.id != q.id }
  let s := s.modWg q.wg fun w => w.endHandle q.ent st
  let s := s.unlatch (s.group q.uid) fun r => q.dst ≤ r && r < q.dst + 2
  s.modGroup q.uid fun g =>
    let m := bit1 q.slot &&& g.live
    if m == 0 then g
    else (upFrom 0 2).foldl (fun g i =>
      g.putLate (q.dst + i) m .general (laneSlots.map fun _ => (BitVec.ofNat 32 (val / 2 ^ (32 * i)), FULL))) g

/-- The result word of a query of a resident slice (R228). -/
def State.sliceResult (s : State) (q : SliceQ) : Nat :=
  let p := s.part q.part
  match p.lookup q.key (dieOf (clusterOf q.core)) with
  | none => 0
  | some x => 2 ^ 63 + (p.pins.contains q.key).toNat * 2 ^ 62 + p.frameVa x.frame % 2 ^ 57

/-- SLICE_QUERY_COMPLETE (R228, R329, R330). -/
def execSliceQueryComplete (id : Nat) (s : State) : Out :=
  match s.sliceqs.find? (fun q => q.id == id) with
  | none => .next s
  | some q =>
    let done (s : State) (val : Nat) : Out := .next ((s.endSliceq q 2 val).modWg q.wg Wg.handleTick)
    if q.flushed then done s 0
    else
      let s := if q.fill && ((s.part q.part).lookup q.key (dieOf (clusterOf q.core))).isNone then s.sliceFill q.part q.core q.key else s
      done s (s.sliceResult q)

end Sys2Proof.Machine
end

