-- ==== Sys2Proof/Machine/Records.lean ====
section
/-! DEFINITION. Emission of records (R226, R267, R270, R277) and queue packets placed by programs (R227). -/
namespace Sys2Proof.Machine
open Sys2Proof

/-! ## EMIT and EMITX (R226) -/

/-- The edge of a node, if declared. -/
def State.edge? (s : State) (g : Group) (e : Nat) : Option Edge := (s.nodeOf g).edges[e]?
/-- The target node of an edge. -/
def State.target (s : State) (g : Group) (e : Edge) : Node := (s.launch g.launch).nodes.getD e.target default

/-- The group whose emissions a lane's records count with: the home group of a moved or an ejected lane. -/
def State.emitGroup (s : State) (g : Group) (l : Nat) : Nat :=
  match g.sleeve with
  | some x => x.homeUid
  | none => (s.homeOf g l).uid

/-- Records of a group on an edge so far. -/
def State.edgeUsed (s : State) (uid e : Nat) : Nat := (s.group uid).edgeUsed.getD e 0

/-- The first failing check of R226, in its order; `e` gives the edge of a lane. -/
def State.emitTrap (s : State) (g : Group) (w : Mask) (a : VReg) (e : Nat → Nat) : Option Trap :=
  let ls := g.byPos w
  let beyond := ls.any fun l => match s.edge? g (e l) with
    | some x => g.decl.total ≤ a.val + (s.target g x).z / 4 - 1
    | none => false
  let need (l : Nat) : Nat := ls.countP fun m => e m == e l && s.emitGroup g m == s.emitGroup g l
  let overdraw (l : Nat) : Bool := match s.edge? g (e l) with
    | none => true
    | some x => x.maxout < s.edgeUsed (s.emitGroup g l) (e l) + need l || (g.lane l).ecount == 65535
  let depth (l : Nat) : Nat := (g.lane l).depth + (match s.edge? g (e l) with | some x => x.inc | none => 0)
  let deep (l : Nat) : Bool := match s.edge? g (e l) with | some x => (s.target g x).dbound < depth l | none => false
  if g.sleeve.isSome && ls.any (fun l => match s.edge? g (e l) with
      | some x => (match (s.target g x).kind with | .collect => true | _ => false) | none => false)
  then some (trapOf cEJECTILL 0 g.active 0xFF)
  else if beyond then some (trapOf cILLEGAL illBeyond g.active (BitVec.ofNat 32 a.val))
  else match ls.find? overdraw with
    | some l => some (trapOf cOVERDRAW (e l % 256) w (BitVec.ofNat 32 (s.edgeUsed (s.emitGroup g l) (e l))))
    | none =>
      match ls.find? deep with
      | some l => some (trapOf cDEPTH (e l % 256) (maskOf (ls.filter deep)) (BitVec.ofNat 32 (depth l)))
      | none => none

/-- EMIT with the edge of each lane (R226): the checks, the keys and the counts at issue; the records travel as an access. -/
def emitWord (s : State) (c : Ctl) (f : Bool) (srcs : List Src) (a : VReg) (edge : Group → Nat → Nat) : Out :=
  withIssuer s fun g =>
    let w := g.writeSet c.gp.val c.gn
    let e := edge g
    if w == 0 then s.nextWord (g.issued [] (latchOf c srcs))
    else
      match s.emitTrap g w a e with
      | some t => s.takeTrap g t
      | none =>
        let z (l : Nat) : Nat := match s.edge? g (e l) with | some x => (s.target g x).z / 4 | none => 0
        let inc (l : Nat) : Nat := match s.edge? g (e l) with | some x => x.inc | none => 0
        let plan : AccPlan := ⟨.emit, .none, false, fun l =>
          let x := g.lane l
          (e l, g.words a.val (z l) l,
           [(BitVec.ofNat 32 (s.homeOf g l).gseq, 0), (BitVec.ofNat 32 (x.home * 2 ^ 16 + x.ecount), 0), (BitVec.ofNat 32 (x.depth + inc l), 0),
            (BitVec.ofNat 32 (s.emitGroup g l), 0)])⟩
        let g1 := g.modLanes w fun _ x => { x with ecount := x.ecount + 1 }
        let count (s : State) (l : Nat) : State :=
          s.modGroup (s.emitGroup g l) fun h => { h with edgeUsed := modAt (· + 1) (e l) h.edgeUsed }
        let s1 := (g.byPos w).foldl count s
        let g1 := { g1 with edgeUsed := (s1.group g.uid).edgeUsed }
        s1.startAccess g1 f w plan (latchOf c srcs)

/-- EMIT (R197, R226). -/
def execEmit (c : Ctl) (f : Bool) (a : VReg) (e : Fin 8) (s : State) : Out := emitWord s c f [.reg a] a fun _ _ => e.val
/-- EMITX (R197, R226). -/
def execEmitx (c : Ctl) (f : Bool) (a b : VReg) (s : State) : Out :=
  emitWord s c f [.reg a, .reg b] a fun g l => (g.read b.val l).1.toNat

/-! ## Records in queues (R267, R270, R277) -/

/-- Puts a record in the queue of a node, in order of arrival and with the clock of its arrival (R264); a launch that is ending drops it (R324). -/
def State.putRecord (s : State) (ln node : Nat) (r : Rec) : State :=
  s.modLaunch ln fun l =>
    if l.ending.isSome then l
    else { l with queues := modAt (fun q => q ++ [{ r with arrival := l.arrivals, time := s.partClock l.part }]) node l.queues, arrivals := l.arrivals + 1 }

/-- Consumes a reserved slot or permit of a group on an edge (R269, R277): the record takes the first slot still reserved. -/
def State.useReserve (s : State) (ln uid edge : Nat) : State :=
  s.modLaunch ln fun l => { l with reserves := updWhere (fun r => r.uid == uid && r.edge == edge) (fun r => { r with slots := r.slots.drop 1 }) l.reserves }

/-- Sends a message to another accelerator. -/
def State.send (s : State) (acc : Nat) (m : Msg) : State := { s with sent := s.sent ++ [(acc, m)] }

/-- A record of an access becomes visible to the graph scheduler of its target (R226, R277, R191). -/
def State.deliverEmit (s : State) (ln node part : Nat) (edge : Nat) (data meta' : List (Word × Tag)) : State :=
  let l := s.launch ln
  let nd := l.nodes.getD node default
  match nd.edges[edge]? with
  | none => s
  | some e =>
    let m (i : Nat) : Nat := (meta'.getD i (0, 0)).1.toNat
    let store := match l.reserves.find? fun r => r.uid == m 3 && r.edge == edge with | some r => r.slots.headD 2 | none => 2
    let s := s.useReserve ln (m 3) edge
    let t := l.nodes.getD e.target default
    let acc := s.accel part
    if t.remote then s.send t.accel (.record t.rport t.rnode ⟨acc, node, m 0, m 1, m 2, data.map Prod.fst, data.map Prod.snd, ln * 4096 + e.target⟩)
    else s.putRecord ln e.target ⟨1, acc, node, m 0, m 1, m 2, data.map Prod.fst, data.map Prod.snd, 0, 0, none, store⟩

/-! ## ENQ (R227) -/

/-- Whether a partition owns a queue (R310). -/
def State.ownsQueue (s : State) (n q : Nat) : Bool :=
  let r := (s.part n).qrange.toNat
  bits r 0 16 ≤ q && q < bits r 0 16 + bits r 16 16
/-- QUEUE.CTL fields (Table 12.4). -/
def Queue.en (q : Queue) : Bool := q.ctl.getLsbD 0
/-- PLANE. -/
def Queue.plane (q : Queue) : Nat := bits q.ctl.toNat 4 2
/-- KIND: whether it is a copy queue. -/
def Queue.copyKind (q : Queue) : Bool := q.ctl.getLsbD 6
/-- DEVOPEN. -/
def Queue.devopen (q : Queue) : Bool := q.ctl.getLsbD 7
/-- Ring words. -/
def Queue.ring (q : Queue) : Nat := 2 ^ bits q.ctl.toNat 8 5

/-- Whether ENQ of a lane raises PRIV (R227). -/
def State.enqDenied (s : State) (g : Group) (q : Nat) : Bool :=
  4095 < q || !s.ownsQueue g.part q || !(s.queue q).devopen

/-- ENQ (R197, R227). -/
def execEnq (c : Ctl) (f : Bool) (n : Fin 8) (p : Pred) (a b : VReg) (s : State) : Out :=
  accWord s c f [.reg a, .reg b] fun g w =>
    let q (l : Nat) : Nat := (g.read a.val l).1.toNat
    match (g.byPos w).filter fun l => s.enqDenied g (q l) with
    | [] => .ok ⟨.enq (n.val + 1), .pred p.val, false, fun l => (q l, g.words b.val (2 * (n.val + 1)) l, [])⟩
    | l :: ls => .error (trapOf cPRIV 0 (maskOf (l :: ls)) (BitVec.ofNat 32 (q l)))

/-- Writes one packet of a lane into its ring: success, or a fault (R227). -/
def State.enqueue (s : State) (part q n : Nat) (ws : List (Word × Tag)) : Except (Nat × Nat × Addr) (State × Bool) :=
  let x := s.queue q
  if !x.en || x.st == 2 || x.st == 3 || x.ring < x.widx.toNat + n - x.ridx.toNat || x.widx.toNat + n < x.ridx.toNat then .ok (s, false)
  else
    let va (i : Nat) : Nat := x.base.toNat + 8 * ((x.widx.toNat + i) % x.ring)
    match collect ((upFrom 0 n).map fun i => match s.translate part (va i) needW true with
      | .error k => (.error (cMEMFLT, k, BitVec.ofNat 64 (va i)) : Except (Nat × Nat × Addr) (Nat × Page))
      | .ok p => .ok (i, p)) with
    | .error e => .error e
    | .ok ps =>
      let put (s : State) (y : Nat × Page) : State :=
        s.pageWrite y.2 (va y.1) (((ws.drop (2 * y.1)).take 2).flatMap fun z => toBytes 4 z.1.toNat) [FULL, FULL]
      let s := ps.foldl put s
      .ok (s.modQueue q fun x => { x with widx := x.widx + BitVec.ofNat 64 n, pending := true }, true)

end Sys2Proof.Machine
end

