-- ==== Sys2Proof/Machine/Complete.lean ====
section
/-! DEFINITION. Performing the accesses of long-latency instructions, their faults and their completion (R171, R178 to R180,
R199 to R201, R205 to R211, R214, R219, R220, R226, R227, R229, R230, R336). -/
namespace Sys2Proof.Machine
open Sys2Proof

/-! ## Order between accesses (R177, R179, R200) -/

/-- A range of a space: kind of space, owner, start, length. -/
structure Span where
  kind : Nat
  owner : Nat
  start : Nat
  len : Nat
  deriving DecidableEq, Repr

/-- Whether two ranges share a location. -/
def Span.meets (a b : Span) : Bool := a.kind == b.kind && a.owner == b.owner && a.start < b.start + b.len && b.start < a.start + a.len

/-- The range of a place. -/
def localSpan : Option Place → Nat → Option Span
  | some (.sp wg _ off), n => some ⟨2, wg, off, n⟩
  | some (.tile core off), n => some ⟨3, core, off, n⟩
  | _, _ => none

/-- What the request of a lane touches. -/
def State.span (s : State) (a : Access) (q : LaneReq) : Option Span :=
  let w := s.wg a.wg
  let glob (n : Nat) : Option Span := some ⟨0, w.part, q.addr, n⟩
  let loc (n : Nat) : Option Span := localSpan (s.localPlace w q.addr n) n
  match a.op with
  | .load prv _ t => if prv then some ⟨1, a.wg * 2 ^ 40 + q.tid, q.addr, t.size⟩ else glob t.size
  | .store prv t => if prv then some ⟨1, a.wg * 2 ^ 40 + q.tid, q.addr, t.size⟩ else glob t.size
  | .loadS t => loc t.size
  | .storeS t => loc t.size
  | .loadH | .storeH => loc 4
  | .atom op | .red op => glob op.size
  | .atoms op => loc op.size
  | .bind _ => glob 64
  | .rcsnap n => glob (4 * n)
  | .seminc n | .semrd n => some ⟨4, clusterOf w.core, n, 1⟩
  | .tileSet | .tileBit _ => some ⟨5, w.core, q.addr, 1⟩
  | _ => none

/-- Whether access `b` comes before access `a` for lane requests `r` and `q`: one group or sequencer, one thread, a group before its
ejected lane (Table 7.5), or two SCATTERs of one core (R171). -/
def State.ordered (s : State) (b a : Access) (r q : LaneReq) : Bool :=
  b.uid == a.uid || b.issuer == a.issuer || (b.wg == a.wg && r.tid == q.tid) ||
  (match (s.group a.uid).sleeve with | some x => (x.homeUid == b.uid || x.homeUid == b.issuer) && b.seq < a.uid | none => false) ||
  (b.coll && a.coll && b.dst == .none && a.dst == .none && r.fault.isNone && (s.wg b.wg).core == (s.wg a.wg).core)

/-- Whether the lanes of an operation act in ascending position whatever they touch (R200, R210, R214, R219, R220, R226, R227, R229). -/
def AccOp.inLaneOrder : AccOp → Bool
  | .load .. | .store .. | .loadS _ | .storeS _ | .loadH | .storeH | .rdrec _ => false
  | _ => true

/-- Whether an access waits in the open window of its core's collector (R171). -/
def State.collected (s : State) (a : Access) : Bool :=
  match (s.core (s.wg a.wg).core).coll with | some c => c.accs.contains a.id | none => false

/-- Whether the requests of two accesses touch a common location. -/
def State.clash (s : State) (a b : Access) (q r : LaneReq) : Bool :=
  match s.span a q, s.span b r with | some x, some y => x.meets y | _, _ => false
/-- The lanes of an access before one of its lanes. -/
def Access.lower (a : Access) (q : LaneReq) : List LaneReq := a.lanes.takeWhile fun r => r.slot != q.slot
/-- Whether an operation is an ENQ, whose lanes also keep their order behind a lane that faulted (R227). -/
def AccOp.isEnq : AccOp → Bool | .enq _ => true | _ => false
/-- The lanes of an access that wait for its replay (R201): those that faulted, and every lane that shares a location with a
lower lane that waits, or of an ENQ follows one. -/
def State.awaitReplay (s : State) (a : Access) : List LaneReq :=
  if a.lanes.any fun q => q.fault.isSome then
    a.lanes.foldl (fun w q =>
      if q.done then w
      else if q.fault.isSome || w.any (fun r => s.clash a a q r || a.op.isEnq) then w ++ [q] else w) []
  else []
/-- Whether a list of lanes holds a lane. -/
def hasLane (w : List LaneReq) (q : LaneReq) : Bool := w.any fun r => r.slot == q.slot

/-- Whether the order of accesses and lanes lets the request of a lane be performed now; `probe` passes over lower lanes that
wait for their replay. -/
def State.orderAllows (s : State) (a : Access) (q : LaneReq) (probe : Bool) : Bool :=
  !q.done && q.fault.isNone && !s.collected a &&
  (s.accs.all fun b => a.seq ≤ b.seq || b.lanes.all fun r => r.done || !s.ordered b a r q || !s.clash a b q r) &&
  (let w := s.awaitReplay a
   (a.lower q).all fun r => r.done || (probe && hasLane w r && !a.op.isEnq) ||
    (!s.clash a a q r && !(a.op.inLaneOrder && (!hasLane w r || a.op.isEnq)))) &&
  (match a.op with
   | .emit | .enq _ | .tileBit false => !s.threadBusy a.wg q.tid a.seq
   | .tileBit true => !s.threadBusy a.wg q.tid a.seq && !s.threadCopies a.wg q.tid a.seq
   | _ => true)
/-- Whether the request of a lane may be performed now. -/
def State.mayPerform (s : State) (a : Access) (q : LaneReq) : Bool := s.orderAllows a q false

/-! ## Performing one request -/

/-- What performing a request gives: the state, register words, flags; or cause, sub-cause and address of a fault. -/
abbrev Performed := Except (Nat × Nat × Addr) (State × List (Word × Tag) × FlagSet)

/-- A MEMFLT outcome. -/
def memFault (k a : Nat) : Nat × Nat × Addr := (cMEMFLT, k, BitVec.ofNat 64 a)

/-- The page of an aligned global access (R166, R176, R315). -/
def State.globalPage (s : State) (part va align : Nat) (need : Need) (useTlb : Bool) : Except (Nat × Nat × Addr) Page :=
  if 2 ^ 57 ≤ va then .error (memFault kNonCanonical va)
  else if va % align != 0 then .error (memFault kAlignment va)
  else match s.translate part va need useTlb with
    | .error k => .error (memFault k va)
    | .ok p => .ok p

/-- The entry that a walk read stays in the translation buffers (R316). -/
def State.noteWalk (s : State) (part va : Nat) (useTlb : Bool) : State := if useTlb then s.tlbFill part va else s

/-- A global load (R168, R178, R205): from the core's copy where it holds one and the turn says so, else at the home. A copy that
the core holds is replaced then (Table 7.2), so that no later load of the thread returns an older write (R179), and a new one is
filled when the page and the CP field allow it. -/
def State.loadGlobal (s : State) (core part va : Nat) (cp : LdCp) (t : LdTy) (fromCopy useTlb : Bool) : Performed :=
  if 2 ^ 57 ≤ va then .error (memFault kNonCanonical va)
  else if va % t.size != 0 then .error (memFault kAlignment va)
  else
    match (if fromCopy && cp != .home then s.l1Line core part va else none) with
    | some x => .ok (s, ldWords t ((x.bytes.drop (va % 128)).take t.size) (x.tags.drop (va % 128 / 4)), flNone)
    | none =>
      match s.translate part va needR useTlb with
      | .error k => .error (memFault k va)
      | .ok p =>
        let pl : Place := .mem part va p
        match s.placeBad pl t.size va with
        | some e => .error e
        | none =>
          let r := s.readPlace pl t.size
          let s := s.noteWalk part va useTlb
          let s := if p.l1able && cp != .home && !s.badAt (p.key - va % 128) 128 then s.l1Fill core part va p
            else s.l1Drop core fun x => x.part == part && x.va == va / 128 * 128
          .ok (s, ldWords t r.1 r.2, flNone)

/-- Reads a place into register words, or the DATAERR it meets. -/
def State.loadPlace (s : State) (pl : Place) (t : LdTy) (a : Nat) : Performed :=
  match s.placeBad pl t.size a with
  | some e => .error e
  | none => let r := s.readPlace pl t.size; .ok (s, ldWords t r.1 r.2, flNone)

/-- The place of an aligned access to scratchpad space (R163, R176). -/
def State.spPlace (s : State) (w : Wg) (off n : Nat) : Except (Nat × Nat × Addr) Place :=
  if off % n != 0 then .error (memFault kAlignment off)
  else match s.localPlace w off n with
    | some pl => .ok pl
    | none => .error (memFault kSpBound off)

/-- A read-modify-write of a place (R180, R210). -/
def State.atomicAt (s : State) (core : Nat) (pl : Place) (op : Aop) (mode : Word) (q : LaneReq) : Performed :=
  match s.placeBad pl op.size q.addr with
  | some e => .error e
  | none =>
    let r := s.readPlace pl op.size
    let o := aopApply op mode (ofBytes r.1) (r.2.headD FULL) q.data q.data2
    let s := match o.new with | some (v, ts) => s.writePlace core pl (toBytes op.size v) ts | none => s
    .ok (s, ldWords (aopLd op) r.1 r.2, o.fl)

/-- Stages an update of an ORD page (R194, R196, R211). -/
def State.stageOrd (s : State) (a : Access) (op : Aop) (q : LaneReq) : Performed :=
  let w := s.wg a.wg
  let l := s.launch w.launch
  if (s.wgNode w).lrec.ords / 32 ≤ l.staged.countP (fun x => x.node == w.node) then .error (memFault kOrdFull q.addr)
  else
    let home := q.tid % 32
    let key := w.node * 2 ^ 40 + q.tid
    let n := s.fresh
    let x : Staged := ⟨w.node, q.tid / 32, home, aget 0 l.ordIdx key, n.1, q.addr, op, q.data, a.mode⟩
    .ok (n.2.modLaunch w.launch fun l => { l with staged := l.staged ++ [x], ordIdx := aset l.ordIdx key (aget 0 l.ordIdx key + 1) }, [], flNone)

/-- BIND of one lane (R182): BASE, LEN, CTL and the checker words in one access. -/
def State.bindObject (s : State) (core part sc : Nat) (q : LaneReq) (useTlb : Bool) : Performed :=
  let base := ofWords (q.data.map Prod.fst)
  let len := ofWords (q.data2.map Prod.fst)
  if 2 ^ 57 ≤ q.addr || q.addr % 64 != 0 then .error (memFault kNotSync q.addr)
  else if 2 ^ 57 ≤ base || 2 ^ 57 < base + len then .error (memFault kBind q.addr)
  else match s.translate part q.addr needW useTlb with
    | .error k => .error (memFault k q.addr)
    | .ok p =>
      let bs := toBytes 8 base ++ toBytes 8 len ++ toBytes 8 sc ++ List.replicate 24 0
      let s := (s.noteWalk part q.addr useTlb).pageWrite { p with key := p.key + 8 } (q.addr + 8) bs (List.replicate 12 FULL)
      .ok (s.l1Drop core fun x => x.overlaps part q.addr 64, [], flNone)

/-- RDREC of one lane (R167, R207, R336). -/
def State.readRecord (s : State) (w : Wg) (t : WinTy) (off : Nat) : Performed :=
  if off % t.size != 0 then .error (memFault kAlignment off)
  else if s.ras.marks.any fun m => m.bad && 0x18 ≤ m.region && m.region < 0x1C && m.loc == w.launch then
    .error (cDATAERR, 4, BitVec.ofNat 64 (0xFD * 2 ^ 56 + off))
  else
    let z := (s.wgNode w).z
    let one (i : Nat) : Option (Word × Tag) :=
      let o := off + 4 * i
      match w.records[o / z]? with
      | some r => some (r.words.getD (o % z / 4) 0, r.tags.getD (o % z / 4) FULL)
      | none => none
    let ws := (upFrom 0 t.regs).map one
    if ws.all Option.isSome then
      let vs := ws.map fun x => x.getD (0, 0)
      .ok (s, (match t with | .b64 => vs.map fun x => (x.1, (vs.headD (0, 0)).2) | _ => vs), flNone)
    else .ok (s, ws.map fun x => ((x.getD (0, 0)).1, 0), flPWOOB)

/-- RCSNAP of one lane (R229): stores and clears in one step. -/
def State.snapCounters (s : State) (core part n : Nat) (q : LaneReq) (useTlb : Bool) : Performed :=
  if 2 ^ 57 ≤ q.addr then .error (memFault kNonCanonical q.addr)
  else if q.addr % 4 != 0 then .error (memFault kAlignment q.addr)
  else
    let k0 := (q.data.headD (0, 0)).1.toNat
    match collect ((upFrom 0 n).map fun i => match s.globalPage part (q.addr + 4 * i) 4 needW useTlb with
      | .ok p => (.ok (i, p) : Except (Nat × Nat × Addr) (Nat × Page)) | .error e => .error e) with
    | .error e => .error e
    | .ok ps =>
      let cnt (i : Nat) : Nat := if k0 + i < 4096 then (s.part part).count (k0 + i) else 0
      let put (s : State) (x : Nat × Page) : State :=
        s.writePlace core (.mem part (q.addr + 4 * x.1) x.2) (toBytes 4 (cnt x.1)) [FULL]
      let s1 := ps.foldl put s
      .ok (s1.modPart part fun p =>
        { p with routing := (upFrom k0 n).foldl (fun r k => if k < 4096 then aset r k 0 else r) p.routing }, [], flNone)

/-- TILEST of one lane (R172, R220); reserved bits of a descriptor are kept zero. -/
def State.tileStore (s : State) (w : Wg) (q : LaneReq) (f : Addr → Option Addr) : Performed :=
  if 1024 ≤ q.addr then .error (memFault kTileInvalid q.addr)
  else match f (s.descGet w.core q.addr) with
    | some d => .ok (s.descSet w.core q.addr d, [], flNone)
    | none => .error (memFault kTileInvalid q.addr)

/-- Performs the request of one lane. -/
def State.performLane (s : State) (a : Access) (q : LaneReq) (fromCopy useTlb : Bool) : Performed :=
  let w := s.wg a.wg
  let core := w.core
  let part := w.part
  match a.op with
  | .load false cp t => s.loadGlobal core part q.addr cp t fromCopy useTlb
  | .load true _ t =>
    if q.addr % t.size != 0 then .error (memFault kAlignment q.addr)
    else match s.prvPlace w q.tid q.addr t.size needR useTlb with
      | .error e => .error e
      | .ok pl => s.loadPlace pl t q.addr
  | .store false t =>
    match s.globalPage part q.addr t.size needW useTlb with
    | .error e => .error e
    | .ok p =>
      let b := stBytes t q.data
      .ok ((s.noteWalk part q.addr useTlb).writePlace core (.mem part q.addr p) b.1 b.2, [], flNone)
  | .store true t =>
    if q.addr % t.size != 0 then .error (memFault kAlignment q.addr)
    else match s.prvPlace w q.tid q.addr t.size needW useTlb with
      | .error e => .error e
      | .ok pl => let b := stBytes t q.data; .ok (s.writePlace core pl b.1 b.2, [], flNone)
  | .loadS t => (match s.spPlace w q.addr t.size with | .error e => .error e | .ok pl => s.loadPlace pl t q.addr)
  | .storeS t => (match s.spPlace w q.addr t.size with
      | .error e => .error e
      | .ok pl => let b := stBytes t q.data; .ok (s.writePlace core pl b.1 b.2, [], flNone))
  | .loadH => (match s.spPlace w q.addr 4 with | .error e => .error e | .ok pl => s.loadPlace pl .b32 q.addr)
  | .storeH => (match s.spPlace w q.addr 4 with
      | .error e => .error e
      | .ok pl => .ok (s.writePlace core pl (toBytes 4 (w.handleNow (q.data.headD (0, 0)).1).toNat) [FULL], [], flNone))
  | .atom op =>
    (match s.globalPage part q.addr op.size needRW useTlb with
     | .error e => .error e
     | .ok p =>
       if p.ord then .error (memFault kOrdReturn q.addr)
       else ((s.noteWalk part q.addr useTlb).l1Drop core fun x => x.overlaps part q.addr op.size).atomicAt core (.mem part q.addr p) op a.mode q)
  | .red op =>
    (match s.globalPage part q.addr op.size needRW useTlb with
     | .error e => .error e
     | .ok p =>
       let s := (s.noteWalk part q.addr useTlb).l1Drop core fun x => x.overlaps part q.addr op.size
       if p.ord then s.stageOrd a op q else s.atomicAt core (.mem part q.addr p) op a.mode q)
  | .atoms op => (match s.spPlace w q.addr op.size with | .error e => .error e | .ok pl => s.atomicAt core pl op a.mode q)
  | .bind sc => s.bindObject core part sc q useTlb
  | .seminc n =>
    .ok (s.semSet (clusterOf core) n (s.semGet (clusterOf core) n + (q.data.headD (0, 0)).1), [],
      BitVec.ofNat 7 (q.data.getD 1 (0, 0)).2)
  | .semrd n => .ok (s, [(s.semGet (clusterOf core) n, FULL)], flNone)
  | .tileSet => s.tileStore w q fun _ => some (BitVec.ofNat 64 (ofWords (q.data.map Prod.fst)) &&& 0xC000FFFF00003FFF)
  | .tileBit full => s.tileStore w q fun d =>
      if tileValid d (s.tileBytes w) then some (if full then d ||| BitVec.ofNat 64 (2 ^ 63) else d &&& ~~~BitVec.ofNat 64 (2 ^ 63)) else none
  | .emit => .ok (s.deliverEmit w.launch w.node part q.addr q.data q.data2, [], flNone)
  | .rdrec t => s.readRecord w t q.addr
  | .enq n => (match s.enqueue part q.addr n q.data with
      | .error e => .error e
      | .ok (s, b) => .ok (s, [(BitVec.ofNat 32 b.toNat, FULL)], flNone))
  | .rcsnap n => s.snapCounters core part n q useTlb
  | .hintPin on => .ok (s.slicePin part (sliceKey q.addr) on, [], flNone)
  | .hintRep => .ok (s.sliceRep part core (sliceKey q.addr) (q.data.headD (0, 0)).1.toNat, [], flNone)
  | .hintDrop => .ok (s.sliceDrop part (sliceKey q.addr) (q.data.headD (0, 0)).1.toNat, [], flNone)

/-! ## Completion -/

/-- Replaces an access. -/
def State.setAccess (s : State) (a : Access) : State := { s with accs := updWhere (fun b => b.id == a.id) (fun _ => a) s.accs }

/-- Performs the request in one slot of an access, if it may be performed; one performance serves every lane of a uniform
address (R200). A request that only waits behind a faulting lane of its access is tried for a fault of its own (R201). -/
def State.performSlot (s : State) (id slot : Nat) (fromCopy useTlb : Bool) : State :=
  match s.accs.find? (fun a => a.id == id) with
  | none => s
  | some a =>
    match a.lanes.find? (fun q => q.slot == slot) with
    | none => s
    | some q =>
      let r := s.performLane a q fromCopy useTlb
      let fault (s : State) (e : Nat × Nat × Addr) (hit : LaneReq → Bool) : State :=
        let s := s.detect e.1
        { s with accs := updWhere (fun b => b.id == id)
                  (fun b => { b with lanes := updWhere hit (fun x => { x with fault := some e }) b.lanes }) s.accs }
      if !s.mayPerform a q then
        (match r with
         | .error e =>
           if s.orderAllows a q true then fault s e fun x => x.slot == slot else s
         | .ok _ => s)
      else
        let hit (x : LaneReq) : Bool := x.slot == slot || (a.same && !x.done && x.fault.isNone)
        match r with
        | .error e => fault s e hit
        | .ok (t, ws, f) =>
          { t with accs := updWhere (fun b => b.id == id)
                    (fun b => { b with lanes := updWhere hit (fun x => { x with done := true, res := ws, fl := f }) b.lanes }) t.accs }

/-- Writes the results of an access whose requests are all done: destinations in the lanes still live (R126), flags (R27, R210),
and the completion flag falls (R23). -/
def State.finishAccess (s : State) (a : Access) : State :=
  let s := { s with accs := s.accs.filter fun b => b.id != a.id }
  let res (l i : Nat) : Word × Tag := match a.lanes.find? (fun q => q.slot == l) with | some q => q.res.getD i (0, 0) | none => (0, 0)
  let first := a.lanes.headD default
  let s := match a.dst with
    | .regs r n _ => s.unlatch (s.group a.uid) fun i => r ≤ i && i < r + n
    | _ => s
  let s := s.modGroup a.uid fun g =>
    let w := maskOf (a.lanes.map LaneReq.slot) &&& g.live
    let g := match a.dst with
      | .none => g
      | .regs r n sh =>
        if w == 0 then g
        else (upFrom 0 n).foldl (fun g i =>
          g.putLate (r + i) w sh (match sh with | .uniform => [first.res.getD i (0, 0)] | _ => laneSlots.map fun l => res l i)) g
      | .pred p => g.putPred p w (maskOf ((maskBits w).filter fun l => (res l 0).1 != 0))
      | .handle h => g.modLanes w fun l x => { x with h := modAt (fun _ => (res l 0).1) h x.h }
    g.cfDec a.cf
  a.lanes.foldl (fun s q => s.raiseThread a.wg q.tid q.fl) s

/-- What follows once requests have been performed: completion when all are done, a due trap when only faulted ones remain. The fault
of a group that has retired ends its launch as HALTG does (36). -/
def State.afterPerform (s : State) (id : Nat) : State :=
  match s.accs.find? (fun a => a.id == id) with
  | none => s
  | some a =>
    if a.lanes.all LaneReq.done then s.finishAccess a
    else if a.noted || a.lanes.any (fun q => !q.done && q.fault.isNone &&
      !(hasLane (s.awaitReplay a) q && (a.op.isEnq || !(s.orderAllows a q true && (s.performLane a q false true).toOption.isNone)))) then s
    else
      let a := { a with noted := true }
      let g := s.group a.uid
      let due := Access.dueTrap g a
      if g.phase == .retired then (due.foldl (fun s d => s.logFault g d.tr) s).endLaunch g.launch 0x11
      else (s.setAccess a).modGroup a.uid fun g => { g with due := g.due ++ due }

/-- MEMORY_ACCESS_COMPLETE (R199): the chosen lanes of an access, in ascending position, as far as order allows. -/
def execMemoryAccessComplete (id : Nat) (lanes : Mask) (fromCopy useTlb : Bool) (s : State) : Out :=
  match s.accs.find? (fun a => a.id == id) with
  | none => .next s
  | some a =>
    let slots := (a.lanes.map LaneReq.slot).filter fun l => lanes.getLsbD l
    .next ((slots.foldl (fun s l => s.performSlot id l fromCopy useTlb) s).afterPerform id)

/-! ## The request collector (R171) -/

/-- COLLECTOR_WINDOW_CLOSE (R171): 24 clocks after a window has opened, its merged accesses go out. -/
def execCollectorWindowClose (core : Nat) (s : State) : Out :=
  match (s.core core).coll with
  | none => .next s
  | some c => if c.openedAt + 24 ≤ s.clock core then .next (s.modCore core fun x => { x with coll := none }) else .next s

end Sys2Proof.Machine
end

