-- ==== Sys2Proof/Machine/Sync.lean ====
section
/-! DEFINITION. Synchronisation objects, fences, barriers, waits on semaphores and tiles (R183 to R188, R195, R215 to R219, R221). -/
namespace Sys2Proof.Machine
open Sys2Proof

/-- The group waits at a gating word: the port is free, the word issues again once it can complete (R145, R199). -/
def State.gateAt (s : State) (g : Group) (gt : Gate) : State :=
  (s.freePort g).setGroup { g with gate := gt, phase := if g.phase == .issuing then .waiting else g.phase }

/-- A gating word that has completed. -/
def State.gateDone (s : State) (g : Group) (latch : List (Nat × Nat)) : State :=
  s.nextWord ({ g with gate := .none }.issued [] latch)

/-! ## Synchronisation objects (R181 to R186) -/

/-- The object that a lane names: key of its line, page, and the words of Table 7.6. -/
structure SyncObj where
  key : Nat
  va : Nat
  page : Page
  lock : Nat
  gen : Nat
  base : Nat
  len : Nat
  scope : Nat
  chk0 : Nat
  chk1 : Nat
  chk2 : Nat

/-- Reads the object at an address, or cause, sub-cause and address of the precise trap (R181, R215, R336). -/
def State.syncObj (s : State) (part va : Nat) : Except (Nat × Nat × Addr) SyncObj :=
  if 2 ^ 57 ≤ va || va % 64 != 0 then .error (memFault kNotSync va)
  else match s.translate part va needRW true with
    | .error k => .error (memFault k va)
    | .ok p =>
      if s.badAt p.key 64 then .error (cDATAERR, 1, BitVec.ofNat 64 va)
      else
        let n (o k : Nat) : Nat := memNum s.mem (p.key + o) k
        .ok ⟨p.key, va, p, n 0 4, n 4 4, n 8 8, n 0x10 8, n 0x18 8 % 8, n 0x20 8, n 0x28 8, n 0x30 8⟩

/-- The key of a thread at a scope (Table 7.8). -/
def State.instKey (s : State) (g : Group) (l sc : Nat) : List Nat :=
  let w := s.wg g.wg
  let a := s.accel g.part
  match sc with
  | 0 => [a, g.launch % 2 ^ 32, (s.homeOf g l).gseq % 2 ^ 32]
  | 1 => [a, g.launch % 2 ^ 32, w.wgid % 2 ^ 32]
  | 2 => [a, g.launch % 2 ^ 32, (w.wgid - w.wgrank) % 2 ^ 32]
  | 3 => [a]
  | _ => []
/-- The same key of the last releaser recorded (R186). -/
def SyncObj.recKey (o : SyncObj) (sc : Nat) : List Nat :=
  let a := bits o.chk0 48 8
  let n := bits o.chk0 0 32
  match sc with
  | 0 => [a, n, bits o.chk2 0 32]
  | 1 => [a, n, bits o.chk1 0 32]
  | 2 => [a, n, bits o.chk1 32 32]
  | 3 => [a]
  | _ => []

/-- The SCOPEMIS sub-cause of an acquire, if any (R186). -/
def State.acqScope (s : State) (g : Group) (l sc : Nat) (o : SyncObj) : Option Nat :=
  if o.scope < sc || o.page.maxScope < sc then some 2
  else if bits o.chk0 63 1 == 1 then
    let m := min (bits o.chk0 60 3) sc
    if o.recKey m != s.instKey g l m then some 1 else none
  else none

/-- Traps of several lanes: the lowest lane's, in every lane with the same cause and sub-cause. -/
def lanesTrap (bad : List (Nat × Nat × Nat × Addr)) : Option Trap :=
  match bad with
  | [] => none
  | x :: _ =>
    let f := x.2
    some { trapOf f.1 f.2.1 (maskOf ((bad.filter fun y => y.2.1 == f.1 && y.2.2.1 == f.2.1).map Prod.fst)) 0 with addr := some f.2.2 }

/-- Whether a thread or its group still has an access in flight to bytes of an object (R177). -/
def State.objectBusy (s : State) (g : Group) (l va : Nat) : Bool :=
  s.accs.any fun b =>
    let own := b.uid == g.uid || b.issuer == g.uid
    (own || b.wg == g.wg) && b.lanes.any fun r =>
    !r.done && (own || r.tid == (g.lane l).tid) &&
    (match s.span b r with | some x => x.meets ⟨0, g.part, va, 64⟩ | none => false)

/-- The success of each lane of an ACQ, in lane order, on the objects as they stand (R184, R215). -/
def acqWins (g1 : Nat → Option (Nat × Nat)) : List (Nat × SyncObj) → List Nat → List (Nat × SyncObj × Bool)
  | [], _ => []
  | (l, o) :: rest, taken =>
    match g1 l with
    | some (n, _) => (l, o, ((o.gen + 2 ^ 32 - n) % 2 ^ 32 < 2 ^ 31 : Bool)) :: acqWins g1 rest taken
    | none =>
      let win := o.lock == 0 && !taken.contains o.key
      (l, o, win) :: acqWins g1 rest (if win then o.key :: taken else taken)

/-- What a successful acquire does (R184): the lock, and the removal of L1 lines; the object's own line is removed as an atomic's. -/
def State.acquire (s : State) (g : Group) (sc : Nat) (lock : Bool) (x : Nat × SyncObj × Bool) : State :=
  let o := x.2.1
  let s := s.l1Drop g.core fun y => y.overlaps g.part o.va 64
  if !x.2.2 then s
  else
    let s := if lock then s.pageWrite o.page o.va (toBytes 4 1) [FULL] else s
    if 2 ≤ sc && o.len != 0 then s.l1Drop g.core fun y => y.overlaps g.part o.base o.len else s

/-- ACQ (R184, R186, R215): `gen` is the value register of a generation acquire. -/
def acqWord (s : State) (c : Ctl) (sc : Scope) (p : Pred) (a : VReg) (gen : Option VReg) : Out :=
  withIssuer s fun g =>
    let w := g.writeSet c.gp.val c.gn
    let srcs : List Src := .reg a :: (match gen with | some b => [.reg b] | none => [])
    if w == 0 then s.gateDone g (latchOf c srcs)
    else
      let n := scopeNum sc
      let ls := g.byPos w
      if ls.any fun l => s.objectBusy g l (g.base a l) then s.gateAt g (.objects (ls.map fun l => (l, g.base a l)))
      else
        let objs := ls.map fun l => (l, s.syncObj g.part (g.base a l))
        let ok := objs.filterMap fun x => match x.2 with | .ok o => some (x.1, o) | .error _ => none
        let val (l : Nat) : Option (Nat × Nat) := gen.map fun b => ((g.read b.val l).1.toNat, 0)
        let wins := acqWins val ok []
        let bad := ls.filterMap fun l =>
          match objs.find? (fun x => x.1 == l) with
          | some (_, .error e) => some (l, e)
          | _ => match wins.find? (fun x => x.1 == l) with
            | some (_, o, true) => (s.acqScope g l n o).map fun k => (l, cSCOPEMIS, k, BitVec.ofNat 64 o.va)
            | _ => none
        match lanesTrap bad with
        | some t => s.takeTrap { g with gate := .none } t
        | none =>
          let s := wins.foldl (fun s x => s.acquire g n gen.isNone x) s
          let m := maskOf ((wins.filter fun x => x.2.2).map Prod.fst)
          s.gateDone (g.putPred p.val w m) (latchOf c srcs)

/-- ACQ.l (R197, R215). -/
def execAcqLock (c : Ctl) (sc : Scope) (p : Pred) (a : VReg) (s : State) : Out := acqWord s c sc p a none
/-- ACQ.g (R197, R215). -/
def execAcqGen (c : Ctl) (sc : Scope) (p : Pred) (a b : VReg) (s : State) : Out := acqWord s c sc p a (some b)

/-! ## Ordered updates (R195) -/

/-- The order of staged updates: node, sequence number, home lane, index, then staging order (R194, R195). -/
def Staged.rank (x : Staged) : Nat := (((x.node * 2 ^ 40 + x.gseq) * 2 ^ 8 + x.home) * 2 ^ 40 + x.idx) * 2 ^ 64 + x.seq

/-- Applies one staged update as the operation on a page without ORD would be; its flags go to no STATUS (R195, R211). -/
def State.applyStaged (s : State) (part : Nat) (x : Staged) : State :=
  match s.translate part x.va needRW true with
  | .error _ => s
  | .ok p =>
    let r := s.readPlace (.mem part x.va p) x.op.size
    match (aopApply x.op x.mode (ofBytes r.1) (r.2.headD FULL) x.data []).new with
    | some (v, ts) => s.pageWrite p x.va (toBytes x.op.size v) ts
    | none => s

/-- Applies, in key order, the staged updates of a partition that satisfy a condition. -/
def State.applyOrd (s : State) (part : Nat) (f : Nat → Staged → Bool) : State :=
  let all := s.launches.flatMap fun l => if l.part == part then l.staged.filter (f l.num) else []
  let s1 := (sortBy Staged.rank all).foldl (fun s x => s.applyStaged part x) s
  { s1 with launches := s1.launches.map fun l => if l.part == part then { l with staged := l.staged.filter fun x => !f l.num x } else l }

/-! ## REL and FENCE (R183, R187, R216, R217) -/

/-- Step 3 and step 4 of a release in one lane (R183). -/
def State.release (s : State) (g : Group) (sc : Nat) (unlock : Bool) (l va : Nat) : State :=
  match s.syncObj g.part va with
  | .error _ => s
  | .ok o =>
    let s := if o.len == 0 then s else s.applyOrd g.part fun _ x => o.base < x.va + x.op.size && x.va < o.base + o.len
    let w := s.wg g.wg
    let s := s.l1Drop g.core fun y => y.overlaps g.part va 64
    let s := if unlock then s.pageWrite o.page va (toBytes 4 0) [FULL] else s
    let s := s.pageWrite { o.page with key := o.key + 4 } (va + 4) (toBytes 4 (o.gen + 1)) [FULL]
    let chk0 := 2 ^ 63 + sc * 2 ^ 60 + s.accel g.part * 2 ^ 48 + g.launch % 2 ^ 32
    let chk1 := (w.wgid - w.wgrank) % 2 ^ 32 * 2 ^ 32 + w.wgid % 2 ^ 32
    s.pageWrite { o.page with key := o.key + 0x20 } (va + 0x20)
      (toBytes 8 chk0 ++ toBytes 8 chk1 ++ toBytes 8 ((s.homeOf g l).gseq % 2 ^ 32)) (List.replicate 6 FULL)

/-- Whether every access, and where asked every sealed copy batch, of the threads of a mask is performed (R183, R187). -/
def State.threadsDone (s : State) (g : Group) (w : Mask) (copies : Bool) : Bool :=
  (maskBits w).all fun l =>
    !s.threadBusy g.wg (g.lane l).tid s.uidNext && !(copies && s.threadCopies g.wg (g.lane l).tid s.uidNext)

/-- REL (R183, R197, R216). -/
def execRel (c : Ctl) (unlock : Bool) (sc : Scope) (a : VReg) (s : State) : Out :=
  withIssuer s fun g =>
    let w := g.writeSet c.gp.val c.gn
    if w == 0 then s.gateDone g (latchOf c [.reg a])
    else
      let n := scopeNum sc
      let ls := g.byPos w
      let bad := ls.filterMap fun l =>
        match s.syncObj g.part (g.base a l) with
        | .error e => some (l, e)
        | .ok o => if g.gate == .none && (o.scope < n || o.page.maxScope < n) then some (l, cSCOPEMIS, 2, BitVec.ofNat 64 o.va) else none
      match lanesTrap bad with
      | some t => s.takeTrap { g with gate := .none } t
      | none =>
        if !s.threadsDone g w true then s.gateAt g (.accesses w true)
        else (ls.foldl (fun s l => s.release g n unlock l (g.base a l)) s).gateDone g (latchOf c [.reg a])

/-- FENCE (R187, R197, R217). -/
def execFence (c : Ctl) (_sc : Scope) (s : State) : Out :=
  withIssuer s fun g =>
    let w := g.writeSet c.gp.val c.gn
    if s.threadsDone g w false then s.gateDone g [] else s.gateAt g (.accesses w false)

/-! ## Barriers (R188, R218) -/

/-- Arrival at a barrier (R218). -/
def State.arrive (s : State) (c : Ctl) (gt : Gate) : Out :=
  s.dissolving true fun s g =>
    let w := g.writeSet c.gp.val c.gn
    if w != g.live then s.takeTrap g (trapOf cUNIMIS 0 g.active w) else s.gateAt g gt
/-- BAR (R197, R218). -/
def execBar (c : Ctl) (pub : Bool) (s : State) : Out := s.arrive c (.bar pub)
/-- NBAR (R197, R218). -/
def execNbar (c : Ctl) (pub : Bool) (s : State) : Out := s.arrive c (.nbar pub)

/-- The groups of a collective with a nonempty live mask: of a workgroup, or of its neighbourhood. -/
def State.collectiveGroups (s : State) (w : Wg) (nbar : Bool) : List Group :=
  s.groups.filter fun g => g.sleeve.isNone && g.live != 0 &&
    (if nbar then (let x := s.wg g.wg; x.launch == w.launch && x.nbr == w.nbr) else g.wg == w.uid)
/-- Whether a group has arrived, and whether it publishes. -/
def Group.arrived (g : Group) (nbar : Bool) : Option Bool :=
  match g.gate with | .bar p => if nbar then none else some p | .nbar p => if nbar then some p else none | _ => none

/-- Whether a barrier can complete (R188, R218): with the accesses that it orders performed, no participant's fault waiting for its
replay (R192), and, where it publishes, every sealed copy ended, an MSTF among them (R252). -/
def State.barrierReady (s : State) (w : Wg) (nbar : Bool) : Bool :=
  let gs := s.collectiveGroups w nbar
  let pub := gs.any fun g => g.arrived nbar == some true
  let mine (b : Access) : Bool := gs.any fun g => b.wg == g.wg
  let localOnly (b : Access) : Bool := match b.op with | .loadS _ | .storeS _ | .loadH | .storeH | .atoms _ => true | _ => false
  !gs.isEmpty && gs.all (fun g => (g.arrived nbar).isSome) &&
  !(nbar && s.saved.any fun x => x.wg.launch == w.launch && x.wg.nbr == w.nbr) &&
  (s.accs.all fun b => !mine b || (nbar && !pub && !localOnly b && b.lanes.all fun q => q.fault.isNone)) &&
  (!pub || ((s.batches.all fun b => !gs.any fun g => g.wg == b.wg) && s.mops.all fun m => !m.isStore || !gs.any fun g => g.wg == m.wg))

/-- BARRIER_COMPLETE (R218): every arrived group goes on; NBAR with publish removes the partition's L1 lines (R188). -/
def execBarrierComplete (wg : Nat) (nbar : Bool) (s : State) : Out :=
  match s.wg? wg with
  | none => .next s
  | some w =>
    if !s.barrierReady w nbar then .next s
    else
      let gs := s.collectiveGroups w nbar
      let pub := gs.any fun g => g.arrived nbar == some true
      let s := if nbar && pub then gs.foldl (fun s g => s.l1Drop g.core fun x => x.part == g.part) s else s
      .next (gs.foldl (fun s g => s.gateDone g []) s)

/-! ## SEMWAIT and TILEWAIT (R219, R221) -/

/-- The course of a SEMWAIT with the threshold of each lane. -/
def semWaitWord (s : State) (c : Ctl) (n : BitVec 8) (srcs : List Src) (th : Group → Mask → Except Trap ((Nat → Word) × FlagSet)) : Out :=
  withIssuer s fun g =>
    let w := g.writeSet c.gp.val c.gn
    if w == 0 then s.gateDone g (latchOf c srcs)
    else
      match th g w with
      | .error t => s.takeTrap { g with gate := .none } t
      | .ok (f, fl) =>
        let v := s.semGet (clusterOf g.core) n.toNat
        let now := maskOf ((maskBits w).filter fun l => semHolds v (f l))
        let sat := match g.gate with | .sem _ _ m => m ||| now | _ => now
        if w &&& ~~~sat == 0 then s.gateDone (g.raiseAll w fun _ => fl) (latchOf c srcs)
        else s.gateAt g (.sem n.toNat ((maskBits w).map fun l => (l, f l)) sat)
/-- SEMWAIT with a register, constant or window threshold (R197, R219). -/
def execSemwait (c : Ctl) (n : BitVec 8) (b : Src) (s : State) : Out :=
  semWaitWord s c n [b] fun g w => match s.operand g w b oN32 with
    | .error t => .error t
    | .ok o => .ok (fun l => BitVec.ofNat 32 (Opnd.at g l o).1, o.fl)
/-- SEMWAIT with an immediate threshold (R197, R219, R70). -/
def execSemwaitImm (c : Ctl) (n : BitVec 8) (v : BitVec 16) (s : State) : Out :=
  semWaitWord s c n [] fun _ _ => .ok (fun _ => v.setWidth 32, flNone)

/-- The course of a TILEWAIT (R221). -/
def tileWaitWord (s : State) (c : Ctl) (full : Bool) (a : VReg) : Out :=
  withIssuer s fun g =>
    let w := g.writeSet c.gp.val c.gn
    if w == 0 then s.gateDone g (latchOf c [.reg a])
    else
      let idx (l : Nat) : Nat := (g.read a.val l).1.toNat
      let bytes := s.tileBytes (s.wg g.wg)
      let bad := if g.gate != .none then [] else (g.byPos w).filterMap fun l =>
        if 1024 ≤ idx l || !tileValid (s.descGet g.core (idx l)) bytes then some (l, memFault kTileInvalid (idx l)) else none
      match lanesTrap bad with
      | some t => s.takeTrap g t
      | none =>
        let now := maskOf ((maskBits w).filter fun l => tileFull (s.descGet g.core (idx l)) == full && tileValid (s.descGet g.core (idx l)) bytes)
        let sat := match g.gate with | .tile _ _ m => m ||| now | _ => now
        if w &&& ~~~sat == 0 then s.gateDone g (latchOf c [.reg a])
        else s.gateAt g (.tile full ((maskBits w).map fun l => (l, idx l)) sat)
/-- TILEWAIT.full (R197, R221). -/
def execTilewaitFull (c : Ctl) (a : VReg) (s : State) : Out := tileWaitWord s c true a
/-- TILEWAIT.empty (R197, R221). -/
def execTilewaitEmpty (c : Ctl) (a : VReg) (s : State) : Out := tileWaitWord s c false a

end Sys2Proof.Machine
end

