-- ==== Sys2Proof/Machine/Copy.lean ====
section
/-! DEFINITION. Copy batches (R189, R222, R223, R225), waits and tests of handles (R224), and EXIT (R126). -/
namespace Sys2Proof.Machine
open Sys2Proof

/-! ## COPY and SEAL -/

/-- An address of a COPY operand in a lane (R222). -/
def copyAddr (g : Group) (sp : CpSpace) (r : VReg) (l : Nat) : Nat :=
  match sp with | .g => g.base r l | .s => (g.read r.val l).1.toNat

/-- The precise MEMFLT of a COPY in a lane, if any (R222). -/
def copyFault (g : Group) (ds ss : CpSpace) (a b e : VReg) (l : Nat) : Option (Nat × Nat × Addr) :=
  let d := copyAddr g ds a l
  let x := copyAddr g ss b l
  let n := (g.read e.val l).1.toNat
  if d % 4 != 0 then some (memFault kAlignment d)
  else if x % 4 != 0 then some (memFault kAlignment x)
  else if n % 4 != 0 then some (memFault kAlignment d)
  else if 2 ^ 24 < n then some (memFault kCopyLen d)
  else if 64 ≤ (g.lane l).batch.length then some (memFault kBatchFull d)
  else none

/-- COPY (R197, R222): adds a copy to the open batch of each lane's thread. -/
def execCopy (c : Ctl) (ds ss : CpSpace) (a b e : VReg) (s : State) : Out :=
  withIssuer s fun g =>
    let w := g.writeSet c.gp.val c.gn
    match lanesTrap ((g.byPos w).filterMap fun l => (copyFault g ds ss a b e l).map fun f => (l, f)) with
    | some t => s.takeTrap g t
    | none =>
      let add (l : Nat) (x : Lane) : Lane :=
        let n := (g.read e.val l).1.toNat
        if n == 0 then x else { x with batch := x.batch ++ [⟨ds, ss, copyAddr g ds a l, copyAddr g ss b l, n⟩] }
      s.nextWord ((g.modLanes w add).issued [] (latchOf c [.reg a, .reg b, .reg e]))

/-- Seals the open batch of a lane (R189, R223): its handle word; an empty batch is complete at once. -/
def State.sealLane (s : State) (g : Group) (l : Nat) (cancellable : Bool) (sem : Option Nat) : State × Word :=
  let cs := (g.lane l).batch
  let h := (s.wg g.wg).takeHandle 1 (!cs.isEmpty)
  let s := s.modWg g.wg fun _ => h.1
  if cs.isEmpty then
    (match sem with | some n => s.semSet (clusterOf g.core) n (s.semGet (clusterOf g.core) n + 1) | none => s, h.2)
  else
    let n := s.fresh
    let b : Batch := ⟨n.1, g.wg, g.uid, l, (g.lane l).tid, h.2.toNat % 256, g.core, g.part, cs, 0, sem, cancellable, .running⟩
    ({ n.2 with batches := n.2.batches ++ [b] }, h.2)

/-- SEAL (R197, R223). -/
def execSeal (c : Ctl) (cancellable : Bool) (h : HReg) (sem : Option (BitVec 8)) (s : State) : Out :=
  withIssuer s fun g =>
    let w := g.writeSet c.gp.val c.gn
    let one (x : State × Group) (l : Nat) : State × Group :=
      let r := x.1.sealLane x.2 l cancellable (sem.map BitVec.toNat)
      (r.1, x.2.modLane l fun y => { y with batch := [], h := modAt (fun _ => r.2) h.val y.h })
    let r := (g.byPos w).foldl one (s, g)
    (r.1.modWg g.wg Wg.handleTick).nextWord (r.2.issued [] [])

/-! ## Handles (R224) -/

/-- The state of a lane's handle now. -/
def State.handleOf (s : State) (g : Group) (h : HReg) (l : Nat) : Nat := (s.wg g.wg).handleSt ((g.lane l).h.getD h.val 0)
/-- WAITF (R197, R224). -/
def execWaitf (c : Ctl) (h : HReg) (s : State) : Out :=
  withIssuer s fun g =>
    match (maskBits (g.writeSet c.gp.val c.gn)).filter fun l => s.handleOf g h l == 1 with
    | [] => s.gateDone g []
    | ls => s.gateAt g (.handles (ls.map fun l => (l, (g.lane l).h.getD h.val 0)))
/-- TESTF (R197, R224). -/
def execTestf (c : Ctl) (p : Pred) (h : HReg) (s : State) : Out :=
  withIssuer s fun g =>
    let w := g.writeSet c.gp.val c.gn
    s.nextWord ((g.putPred p.val w (maskOf ((maskBits w).filter fun l => s.handleOf g h l != 1))).issued [] [])

/-! ## The copy engine -/

/-- The place of `n` bytes of a copy operand, or the fault the engine meets. -/
def State.copyPlace (s : State) (b : Batch) (sp : CpSpace) (a n : Nat) (need : Need) : Except (Nat × Nat × Addr) Place :=
  match sp with
  | .g => (match s.globalPage b.part a 1 need true with | .error e => .error e | .ok p => .ok (.mem b.part a p))
  | .s => (match s.localPlace (s.wg b.wg) a n with | some pl => .ok pl | none => .error (memFault kSpBound a))

/-- Reads the words of the next piece at the homes. -/
def State.copyRead (s : State) (b : Batch) (c : CopyOp) (n : Nat) : Except (Nat × Nat × Addr) (List (List Byte × Tag)) :=
  collect ((upFrom 0 (n / 4)).map fun i =>
    let a := c.src + b.moved + 4 * i
    match s.copyPlace b c.ss a 4 needR with
    | .error e => .error e
    | .ok pl => match s.placeBad pl 4 a with
      | some e => .error e
      | none => let r := s.readPlace pl 4; .ok (r.1, r.2.headD FULL))

/-- Moves one piece of a batch, up to a 128-byte boundary of the destination (R189): the state and the batch after it, or the
fault. Tags are copied as R59 gives; the sealing core loses its copies of the line. -/
def State.copyPiece (s : State) (b : Batch) : Except (Nat × Nat × Addr) (State × Batch) :=
  match b.copies with
  | [] => .ok (s, b)
  | c :: rest =>
    let d := c.dst + b.moved
    let n := min (c.len - b.moved) (128 - d % 128)
    match s.copyRead b c n, s.copyPlace b c.ds d n needW with
    | .error e, _ => .error e
    | _, .error e => .error e
    | .ok ws, .ok pl =>
      let s := s.writePlace b.core pl (ws.flatMap Prod.fst) (ws.map Prod.snd)
      let s := match c.ds with | .g => s.l1Drop b.core fun x => x.overlaps b.part d n | .s => s
      .ok (s, if b.moved + n == c.len then { b with copies := rest, moved := 0 } else { b with moved := b.moved + n })

/-- Moves up to `k` pieces, until the batch ends or a fault stops it. -/
def State.copyRun : Nat → State → Batch → State × Batch × Option (Nat × Nat × Addr)
  | 0, s, b => (s, b, none)
  | k + 1, s, b =>
    if b.copies.isEmpty then (s, b, none)
    else match s.copyPiece b with
      | .error e => (s, b, some e)
      | .ok (s, b) => State.copyRun k s b

/-- Pieces that a batch takes at most. -/
def Batch.pieces (b : Batch) : Nat := (b.copies.map fun c => c.len / 128 + 2).sum

/-- Replaces a batch. -/
def State.setBatch (s : State) (b : Batch) : State := { s with batches := updWhere (fun x => x.id == b.id) (fun _ => b) s.batches }
/-- Whether the copies of a batch may run (R189). -/
def State.batchReady (s : State) (b : Batch) : Bool := b.state != .faulted && !s.threadBusy b.wg b.tid b.id

/-- The batch stops: its handle takes its final state, and the semaphore it names is incremented (R223). -/
def State.endBatch (s : State) (b : Batch) (st : Nat) : State :=
  let s := { s with batches := s.batches.filter fun x => x.id != b.id }
  let s := s.modWg b.wg fun w => w.endHandle b.ent st
  match b.sem with | some n => s.semSet (clusterOf b.core) n (s.semGet (clusterOf b.core) n + 1) | none => s

/-- COPY_BATCH_COMPLETE (R189, R223): the rest of the batch moves without a fault. -/
def execCopyBatchComplete (id : Nat) (s : State) : Out :=
  match s.batches.find? (fun b => b.id == id) with
  | none => .next s
  | some b =>
    if !s.batchReady b || b.state == .cancelling then .next s
    else match s.copyRun b.pieces b with
      | (t, b, none) => .next ((t.endBatch b 2).modWg b.wg Wg.handleTick)
      | _ => .next s

/-- An engine trap becomes due in a group (R223, R257). That of a group that has retired ends its launch as HALTG does (36). -/
def State.engineDue (s : State) (uid slot : Nat) (f : Nat × Nat × Addr) (h : Word) (kind : ReturnKind) (seq : Nat) : State :=
  let s := s.detect f.1
  let g := s.group uid
  let r := g.record { trapOf f.1 f.2.1 (bit1 slot) 0 with addr := some f.2.2, info1 := h } true true 0
  if g.phase == .retired then (s.logFault g r).endLaunch g.launch 0x11
  else s.setGroup { g with due := g.due ++ [⟨r, kind, seq⟩] }

/-- The handle word of an entry of a workgroup. -/
def State.entryWord (s : State) (wg ent : Nat) : Word :=
  let e := (s.wg wg).handles.getD ent default
  handleWord e.st e.kind e.gen ent

/-- COPY_ENGINE_FAULT (R223, R336): the engine stops at the faulting copy. -/
def execCopyEngineFault (id : Nat) (s : State) : Out :=
  match s.batches.find? (fun b => b.id == id) with
  | none => .next s
  | some b =>
    if !s.batchReady b || b.state == .cancelling then .next s
    else match s.copyRun b.pieces b with
      | (t, b, some e) =>
        let to' := (t.threadAt b.wg b.tid).getD (b.uid, b.slot)
        .next ((t.setBatch { b with state := .faulted }).engineDue to'.1 to'.2 e (s.entryWord b.wg b.ent) (.batch b.id) b.id)
      | _ => .next s

/-- COPY_BATCH_CANCELLED (R225, R223): a batch that is being cancelled stops at its next 128-byte boundary. -/
def execCopyBatchCancelled (id : Nat) (s : State) : Out :=
  match s.batches.find? (fun b => b.id == id) with
  | none => .next s
  | some b => if b.state == .cancelling then .next ((s.endBatch b 3).modWg b.wg Wg.handleTick) else .next s

/-! ## EXIT (R126) -/

/-- Seals the open batches of exiting lanes (R189). -/
def State.sealExit (s : State) (g : Group) (w : Mask) : State :=
  (((g.byPos w).filter fun l => !(g.lane l).batch.isEmpty).foldl (fun s l => (s.sealLane g l false none).1) s).modWg g.wg Wg.handleTick

/-- A group whose held lanes may pass, or which may run again, after a change of its masks from outside. -/
def State.nudge (s : State) (uid : Nat) : State :=
  let g := s.group uid
  if g.clause.isSome || g.frame.isSome then s.setGroup g.passWaitj
  else s.setGroup (g.settle (s.clock g.core))

/-- Lanes leave the live mask and the active mask (R126). -/
def Group.leave (g : Group) (w : Mask) : Group :=
  { g.modLanes w (fun _ x => { x with state := .exited, batch := [], resume := none }) with live := g.live &&& ~~~w, active := g.active &&& ~~~w }

/-- Marks a trap as one of a recalled lane with its resume point (R157, Table 13.7). -/
def DueTrap.ofLane (resume : Addr) (d : DueTrap) : DueTrap := { d with tr := { d.tr with ej := true, resume := resume } }

/-- The operations of a context become its home group's (R126, R157): an access that waits for the replay of its faults counts on the
group's flag, another on none when `flag` is false. -/
def State.passHome (s : State) (u home : Nat) (flag : Bool) : State :=
  let own (v : Nat) : Nat := if v == u then home else v
  let keep (a : Access) : Bool := a.uid == u && (flag || a.noted)
  let s := s.modGroup home fun h => (s.accs.filter keep).foldl (fun (h : Group) a => h.cfInc a.cf) h
  { s with
    groups := s.groups.filter (fun (h : Group) => h.uid != u)
    accs := s.accs.map (fun (a : Access) => { a with uid := own a.uid, cf := if a.uid == u && !keep a then none else a.cf })
    batches := s.batches.map (fun (b : Batch) => { b with uid := own b.uid })
    sliceqs := s.sliceqs.map (fun (q : SliceQ) => { q with uid := own q.uid }) }

/-- An ejected lane exits: its context is freed, its operations go on in the name of the group, its flags reach the STATUS of its home
group, and a fault of it that is due becomes the group's, to be delivered at its next clause boundary (R126, R157, R201). -/
def State.exitSleeve (s : State) (g : Group) (x : SleeveCtx) : State :=
  let l := x.slot
  let s := s.passHome g.uid x.homeUid false
  let s := s.modGroup x.homeUid fun h =>
    ({ h with due := h.due ++ g.due.map (DueTrap.ofLane g.fall) }.modLane l fun y => { y with accr := (g.lane l).accr }).leave (bit1 l)
  (s.postFlags x.homeUid).nudge x.homeUid

/-- EXIT (R118, R126, R189). -/
def execExit (c : Ctl) (s : State) : Out :=
  withIssuer s fun g =>
    let w := g.writeSet c.gp.val c.gn
    if w == 0 then s.goTo g fun _ => g.fall
    else
      let s := s.sealExit g w
      match g.sleeve with
      | some x => s.exitSleeve g x
      | none => s.goTo (g.leave w) fun _ => g.fall

end Sys2Proof.Machine
end

