-- ==== Sys2Proof/Machine/Matrix.lean ====
section
/-! DEFINITION. The matrix engine: passes, transfers, MZERO, MQRY, grants, faults and stops (R231 to R259), and CANCELF (R225). -/
namespace Sys2Proof.Machine
open Sys2Proof

/-! ## Issue (R231, R236 to R238) -/

/-- What an instruction reads of its block: kind of use of A, of B, of C, and whether the fields K to CTL count (Table 9.3). -/
structure BlkUse where
  a : Bool
  b : Bool
  c : Bool
  pass : Bool
  zero : Bool
  sparse : Bool

/-- Whether a descriptor breaks Table 9.4, or names registers or groups that are not there (R238). -/
def State.descBad (s : State) (w : Wg) (d : Word) (x : Lay) : Bool :=
  bits d.toNat 29 3 != 0 || bits d.toNat 8 8 != 0 || x.rpg == 0 || 224 < x.rpg || 223 < x.v ||
  (x.regs != 0 && (s.wgNode w).decl.ng < x.v + min x.rpg x.regs) ||
  x.groups.any fun i => match s.gidGroup? w.uid i with | some g => g.phase == .retired | none => true

/-- Whether a size is a multiple of 16 from 16 to `top`. -/
def sizeOk (v top : Nat) : Bool := 16 ≤ v && v ≤ top && v % 16 == 0

/-- Whether a field breaks Table 9.3 (R238). -/
def State.blkBad (s : State) (w : Wg) (u : BlkUse) (b : List Word) (fs : Addr) (pa pb start : Nat) : Bool :=
  let k := blkK b
  let la := layA b fs pa
  let lb := layB b fs pb
  let lc := layC b
  let wide (c : Nat) : Bool := c == 7 || c == 8
  !sizeOk (blkM b) 128 || !sizeOk (blkN b) 128 ||
  ((u.a || u.b) && (!sizeOk k 4096 || ((wide (bits fs.toNat 0 4) || wide (bits fs.toNat 4 4)) && k % 32 != 0))) ||
  (u.pass && (bits (b.getD 7 0).toNat 2 30 != 0 || k < start || (start % 128 != 0 && start != k))) ||
  (!u.zero && (b.getD 10 0 != 0 || b.getD 11 0 != 0)) ||
  (u.a && s.descBad w (b.getD 4 0) la) || (u.b && s.descBad w (b.getD 5 0) lb) ||
  (u.c && (s.descBad w (b.getD 6 0) lc || 16 < lc.groups.length))

/-- Bytes of scratchpad space, or the precise fault of their read (R238, R336). -/
def State.blkRead (s : State) (w : Wg) (off n : Nat) : Except (Nat × Nat × Addr) (List Byte) :=
  match s.localPlace w off n with
  | none => .error (memFault kSpBound off)
  | some pl => match s.placeBad pl n off with
    | some e => .error e
    | none => .ok (s.readPlace pl n).1

/-- Whether a group holds an ejected lane, or is about to. -/
def State.hasEjected (s : State) (uid : Nat) : Bool :=
  (s.group uid).ejectNext.isSome || s.groups.any fun g => match g.sleeve with | some x => x.homeUid == uid | none => false

/-- The block, bitmaps and layouts' groups of a matrix instruction, or its precise trap (R238). -/
def State.readBlock (s : State) (g : Group) (w : Mask) (u : BlkUse) (fs : Addr) (off start : Nat) :
    Except Trap (List Word × List Byte × List Byte × List Nat) :=
  let at' (e : Nat × Nat × Addr) : Trap := { trapOf e.1 e.2.1 w 0 with addr := some e.2.2 }
  let wg := s.wg g.wg
  if off % 64 != 0 then .error (at' (memFault kAlignment off))
  else match s.blkRead wg off 64 with
    | .error e => .error (at' e)
    | .ok bs =>
      let b := toWords 12 (ofBytes bs)
      let bm (used : Bool) (o : Nat) : Except (Nat × Nat × Addr) (List Byte) :=
        if !used then .ok []
        else if o % 4 != 0 then .error (memFault kAlignment o)
        else s.blkRead wg o ((min (blkK b) 4096 + 7) / 8)
      let oa := (b.getD 8 0).toNat
      let ob := (b.getD 9 0).toNat
      let ua := u.a && u.sparse
      let ub := u.b && u.sparse
      if ua && oa % 4 != 0 then .error (at' (memFault kAlignment oa))
      else if ub && ob % 4 != 0 then .error (at' (memFault kAlignment ob))
      else match bm ua oa, bm ub ob with
        | .error e, _ => .error (at' e)
        | _, .error e => .error (at' e)
        | .ok ba, .ok bb =>
          let pa := packed ua ba (blkK b)
          let pb := packed ub bb (blkK b)
          if s.blkBad wg u b fs pa pb start then .error (at' (memFault kMatrixBlock off))
          else
            let gids := (if u.a then (layA b fs pa).groups else []) ++ (if u.b then (layB b fs pb).groups else []) ++
              (if u.c then (layC b).groups else [])
            let uids := gids.filterMap fun i => (s.gidGroup? g.wg i).map Group.uid
            if (g.uid :: uids).any s.hasEjected then .error (trapOf cUNIMIS 0 g.active w)
            else .ok (b, ba, bb, uids)

/-- Whether an operand is the same in every lane of a write set. -/
def sameIn (w : Mask) (f : Nat → Nat) : Bool := allSame ((maskBits w).map f)

/-- What a matrix instruction names: what it uses, its kind, flag select, slot, and operands of a lane: block offset, base,
pitch, start. -/
structure MtxPlan where
  use : BlkUse
  kind : MopKind
  f : Bool
  fs : Nat
  h : HReg
  off : Nat → Nat
  base : Nat → Nat
  pitch : Nat → Nat
  start : Nat → Nat
  fl : FlagSet

/-- The course of a matrix instruction that posts an operation (R231, R238, R250). -/
def mtxWord (s : State) (c : Ctl) (srcs : List Src) (plan : State → Group → Mask → Except Trap MtxPlan) : Out :=
  s.dissolving true fun s g =>
    let w := g.writeSet c.gp.val c.gn
    if w == 0 then s.nextWord (g.issued [] (latchOf c srcs))
    else
      match plan s g w with
      | .error t => s.takeTrap g t
      | .ok p =>
        if !(sameIn w p.off && sameIn w p.base && sameIn w p.pitch && sameIn w p.start) then s.takeTrap g (trapOf cUNIMIS 0 g.active w)
        else
          let l := (maskBits w).headD 0
          let fs := s.fslot g p.fs
          match s.readBlock g w p.use (fs.headD 0) (p.off l) (p.start l) with
          | .error t => s.takeTrap g t
          | .ok (b, ba, bb, uids) =>
            if p.base l % 4 != 0 then s.takeTrap g { trapOf cMEMFLT kAlignment w 0 with addr := some (BitVec.ofNat 64 (p.base l)) }
            else if p.pitch l % 4 != 0 then s.takeTrap g { trapOf cMEMFLT kAlignment w 0 with addr := some (BitVec.ofNat 64 (p.base l)) }
            else
              let s := uids.foldl State.dissolveOf s
              let g := s.group g.uid
              let h := (s.wg g.wg).takeHandle 0 true
              let n := (s.modWg g.wg fun _ => h.1).fresh
              let cf := hdrFlag g.cl.hdr p.f
              let m : Mop := ⟨n.1, g.wg, g.uid, l, h.2.toNat % 256, g.core, g.part, p.kind, b, p.off l, ba, bb, fs, p.base l, p.pitch l,
                p.start l, g.mode, cf, (maskBits w).map (fun l => (g.lane l).tid), s.clock g.core, n.1, (s.nodeOf g).pri, .posted, false, p.start l, 0, false, false, none, flNone⟩
              let g := g.modLanes w fun _ x => { x with h := modAt (fun _ => h.2) p.h.val x.h }
              { n.2 with mops := n.2.mops ++ [m] }.nextWord (((g.raiseAll w fun _ => p.fl).cfInc cf).issued [] (latchOf c srcs))

/-- A register offset of a lane. -/
def offOf (g : Group) (a : VReg) (l : Nat) : Nat := (g.read a.val l).1.toNat
/-- The plan of a pass. -/
def passPlan (k : PassKind) (f : Bool) (fs : Fin 8) (h : HReg) (a : VReg) (g : Group) (start : Nat → Nat) (fl : FlagSet) : MtxPlan :=
  ⟨⟨true, true, true, true, false, k == .sparse⟩, .pass k, f, fs.val, h, offOf g a, fun _ => 0, fun _ => 0, start, fl⟩
/-- MMA (R234, R243). -/
def execMma (c : Ctl) (f : Bool) (fs : Fin 8) (_rm : Rm) (h : HReg) (a : VReg) (s : State) : Out :=
  mtxWord s c [.reg a] fun _ g _ => .ok (passPlan .dense f fs h a g (fun _ => 0) flNone)
/-- MMAS (R234, R244). -/
def execMmas (c : Ctl) (f : Bool) (fs : Fin 8) (_rm : Rm) (h : HReg) (a : VReg) (s : State) : Out :=
  mtxWord s c [.reg a] fun _ g _ => .ok (passPlan .sparse f fs h a g (fun _ => 0) flNone)
/-- MMAB (R234, R245). -/
def execMmab (c : Ctl) (f : Bool) (fs : Fin 8) (_rm : Rm) (and : Bool) (h : HReg) (a : VReg) (s : State) : Out :=
  mtxWord s c [.reg a] fun _ g _ => .ok (passPlan (if and then .and else .xor) f fs h a g (fun _ => 0) flNone)
/-- MRESUME (R234, R246). -/
def execMresume (c : Ctl) (f : Bool) (fs : Fin 8) (_rm : Rm) (k : PassKind) (h : HReg) (a : VReg) (b : Src) (s : State) : Out :=
  mtxWord s c [.reg a, b] fun s g w =>
    match s.operand g w b oN32 with
    | .error t => .error t
    | .ok o => .ok (passPlan k f fs h a g (fun l => (Opnd.at g l o).1) o.fl)
/-- MLDF (R234, R250). -/
def execMldf (c : Ctl) (f : Bool) (fs : Fin 8) (k : FragSel) (sp : Bool) (h : HReg) (a b e : VReg) (s : State) : Out :=
  mtxWord s c [.reg a, .reg b, .reg e] fun _ g _ =>
    .ok ⟨⟨k == .a, k == .b, k == .c, false, false, sp⟩, .mldf k sp, f, fs.val, h, offOf g a, g.base b, offOf g e, fun _ => 0, flNone⟩
/-- MSTF (R234, R251): the rounding mode and MODE are those at issue. -/
def execMstf (c : Ctl) (f : Bool) (fs : Fin 8) (rm : Rm) (t : MstTy) (h : HReg) (a b e : VReg) (s : State) : Out :=
  mtxWord s c [.reg a, .reg b, .reg e] fun _ g _ =>
    if rmMode g rm == 6 then .error (trapOf cILLEGAL illRounding g.active 0)
    else .ok ⟨⟨false, false, true, false, false, false⟩, .mstf t (rmMode g rm), f, fs.val, h, offOf g a, g.base b, offOf g e, fun _ => 0, flNone⟩

/-! ## Engine registers -/

/-- The DATAERR of an engine's read of a layout that holds an uncorrectable register, if any (R335, R336, Table 15.2). -/
def State.layBad (s : State) (wg : Nat) (x : Lay) : Option (Nat × Nat × Addr) :=
  if s.ras.marks.isEmpty then none
  else (x.places.find? fun p => match s.gidGroup? wg p.1 with
    | some g => s.badCluster g.core 3 (g.uid * 2 ^ 8 + p.2)
    | none => false).map fun p => (cDATAERR, 3, BitVec.ofNat 64 (0xFF * 2 ^ 56 + p.2))
/-- A write of every word of a layout replaces the uncorrectable ones of its registers (R336). -/
def State.layMend (s : State) (wg : Nat) (x : Lay) : State :=
  if s.ras.marks.isEmpty then s
  else x.places.foldl (fun s p => match s.gidGroup? wg p.1 with
    | some g => s.mendCluster g.core 3 (g.uid * 2 ^ 8 + p.2)
    | none => s) s

/-- Writes words of a layout (R240): every lane of it, whatever the masks; the registers become general, and their open bypass results
and latched operands end (R31, R33, R248). `ws` lists the word at each index j, in order. -/
def State.fragStore (s : State) (wg : Nat) (x : Lay) (ws : List (Word × Tag)) : State :=
  ((x.places.zip (upFrom 0 x.regs)).foldl (fun s p =>
    match s.gidGroup? wg p.1.1 with
    | none => s
    | some g =>
      let new := (ws.drop (32 * p.2)).take 32
      (s.setGroup ({ g with v := modAt (fun _ => .general (laneSlots.map fun l => new.getD l (g.stored p.1.2 l))) p.1.2 g.v }.settled
        p.1.2)).unlatch g fun r => r == p.1.2) s).layMend wg x

/-- Writes the word at one index of a layout. -/
def State.fragStoreAt (s : State) (wg : Nat) (x : Lay) (j : Nat) (w : Word × Tag) : State :=
  match s.gidGroup? wg (x.g + j / 32 / x.rpg) with
  | some g =>
    let v := x.v + j / 32 % x.rpg
    (s.setGroup ((setLaneWord g v (j % 32) w).settled v)).unlatch g fun r => r == v
  | none => s

/-- Whether a write still on its way goes to a layout of a workgroup (R241, R253). -/
def State.writePending (s : State) (wg id : Nat) (x : Lay) : Bool :=
  (s.accs.any fun a => a.wg == wg && a.seq < id && (match a.dst with
    | .regs r n _ => (upFrom r n).any fun i => x.has (s.group a.uid).gid i
    | _ => false)) ||
  (s.sliceqs.any fun q => q.wg == wg && q.id < id && (upFrom q.dst 2).any fun i => x.has (s.group q.uid).gid i)

/-- Whether a lock is held on a layout (R241). -/
def State.layLocked (s : State) (wg : Nat) (x : Lay) : Bool :=
  s.mops.any fun m => m.wg == wg && (m.reads ++ m.writes).any x.meets

/-- Whether the accumulators of a block stand under no lock, and under no write begun before place `n` of issue order (R253). -/
def State.accumFree (s : State) (wg : Nat) (b : List Word) (n : Nat) : Bool :=
  !s.layLocked wg (layC b) && !s.writePending wg n (layC b)

/-- The end of MZERO, or its wait (R253): the block is the one read at issue (R238). -/
def State.clearAccum (s : State) (g : Group) (b : List Word) (n : Nat) (latch : List (Nat × Nat)) : State :=
  if s.accumFree g.wg b n then
    let s := s.fragStore g.wg (layC b) (List.replicate (layC b).words (0, FULL))
    s.gateDone (s.group g.uid) latch
  else s.gateAt g (.accum b n)

/-- MZERO (R253): gates until no lock and no earlier write stands on the accumulators, then clears them. -/
def execMzero (c : Ctl) (a : VReg) (s : State) : Out :=
  s.dissolving true fun s g =>
    let w := g.writeSet c.gp.val c.gn
    let off := offOf g a
    match g.gate with
    | .accum b n => s.clearAccum g b n (latchOf c [.reg a])
    | _ =>
      if w == 0 then s.gateDone g (latchOf c [.reg a])
      else if !sameIn w off then s.takeTrap { g with gate := .none } (trapOf cUNIMIS 0 g.active w)
      else
        match s.readBlock g w ⟨false, false, true, false, true, false⟩ 0 (off ((maskBits w).headD 0)) 0 with
        | .error t => s.takeTrap { g with gate := .none } t
        | .ok (b, _, _, uids) =>
          let s := uids.foldl State.dissolveOf s
          s.clearAccum (s.group g.uid) b s.uidNext (latchOf c [.reg a])

/-- MQRY (R254, R350 E002): a pass that stopped at most 8 clocks ago still reads as running. -/
def execMqry (c : Ctl) (d : VReg) (h : HReg) (s : State) : Out :=
  s.dissolving true fun s g =>
    let w := g.writeSet c.gp.val c.gn
    if w == 0 then s.nextWord (g.issued [] [])
    else
      let out (l : Nat) : Nat :=
        let hw := (g.lane l).h.getD h.val 0
        let st := (s.wg g.wg).handleSt hw
        match (if st == 1 && bits hw.toNat 27 3 == 0 then s.mops.find? (fun m => m.wg == g.wg && m.ent == hw.toNat % 256) else none) with
        | none => 2 ^ 32 * (st * 2 ^ 30 + 3 * 2 ^ 28)
        | some m =>
          let ph := match m.state with
            | .posted => 0
            | .running | .stopping => 1
            | .stopped => if m.isPass && m.stopClk.any (fun t => s.clock g.core ≤ t + 8) then 1 else 2
          (if m.isPass then m.step else 0) + 2 ^ 32 * (st * 2 ^ 30 + ph * 2 ^ 28 + (if m.isPass then m.perf else 0))
      match aluResult g w d.val 2 [] true none 0 fun l => plainOut (out l) with
      | .error t => s.takeTrap g t
      | .ok o => s.nextWord (g.commit false w o)

/-! ## Passes (R243 to R246) -/

/-- The element at a packed position of a line, with the tag of its word: its code. -/
def State.element (s : State) (wg : Nat) (x : Lay) (code lines line p : Nat) : Nat × Tag :=
  let e := eltUnit code
  let r0 := p / e.2.1 * e.2.2
  let ws := (upFrom r0 e.2.2).map fun r => s.fragWord wg x (r * lines + line)
  (bits (ofWords (ws.map Prod.fst)) (p % e.2.1 * e.1) e.1, (ws.headD (0, FULL)).2)

/-- A scale of an element as flushIn takes it: none, or its magnitude; a NaN or an infinity flushes nothing (R45). -/
def flushBy (f : Fmt) (ftz : Bool) (s : Option XR) (v : XR) : XR :=
  match s with
  | none => flushIn f ftz none v
  | some (.fin _ n d) => flushIn f ftz (some (n, d)) v
  | some _ => v

/-- An element of A or B as a pass reads it (R47, R48, R51, R56): `sc` is its strip or square scale, `gs` its group scale. -/
def passElt (code : Nat) (ftz : Bool) (sc gs : Option XR) (c : Nat) (t : Tag) : FOp :=
  match eltFmt code with
  | some f => ⟨flushBy f ftz sc (fdec f c), tagIn t (fmtP f)⟩
  | none =>
    let w := intXR (toSigned (eltUnit code).1 c)
    ⟨flushBy .bf16 ftz sc (match gs with | some g => if w.isZero && !g.isNan then .fin false 0 1 else (xmul w g).1 | none => w), 8⟩

/-- The exact sum of products (R51): a NaN product, or infinite products of both signs, give NaN; an exact zero is +0 (R46). -/
def blockSum (ps : List XR) : XR :=
  if ps.any XR.isNan then .nan false
  else
    let pos := ps.any fun p => p.isInf && !p.neg
    let neg := ps.any fun p => p.isInf && p.neg
    if pos && neg then .nan false
    else if pos then .inf false
    else if neg then .inf true
    else
      let z : Int := ps.foldl (fun z p => match p with
        | .fin n a d => z + (if n then -((a * 2 ^ 400 / d : Nat) : Int) else ((a * 2 ^ 400 / d : Nat) : Int))
        | _ => z) 0
      .fin (z < 0) z.natAbs (2 ^ 400)

/-- tagBlock (R56): of each step the product and the smaller of its tags. -/
def tagBlock (ps : List (XR × Nat)) (sum : XR) : Nat :=
  let tin := ps.foldl (fun t p => min t p.2) 63
  if ps.all fun p => p.1.isZero then (if ps.isEmpty then 24 else tin)
  else
    match sum with
    | .fin _ n d =>
      if n == 0 then 0
      else
        let e (v : XR) : Int := match v with | .fin _ a b => ilog2 a b | _ => 0
        let emax := (ps.filter fun p => !p.1.isZero).foldl (fun (m : Option Int) p => match m with | none => some (e p.1) | some x => some (max x (e p.1))) none
        clampTag ((tin : Int) - max 0 (emax.getD 0 - ilog2 n d)) 24
    | _ => 0

/-- One iteration of R51 with its tags (R56): the accumulator after a block. -/
def passStep (ps : List (XR × Nat)) (sa sb : XR) (c : Nat) (tc : Tag) : Word × Tag :=
  let rnd (x : XR) : Rounded := roundTo .f32 1 false false none 0 x
  let sum := blockSum (ps.map Prod.fst)
  let s32 := rnd sum
  let t2 := tagSum .f32 [(sum, tagBlock ps sum)] s32.val s32.sat
  let sc := (rnd (xmul sa sb).1).val
  let t := rnd (xmul s32.val sc).1
  let t3 := tagMul .f32 t2 24 t.val s32.val sc t.sat
  let a := fdec .f32 c
  let y := rnd (xadd false t.val a).1
  (BitVec.ofNat 32 y.bits, tagSum .f32 [(t.val, t3), (a, tagIn tc 24)] y.val y.sat)

/-- An aligned scale of `n` bytes at the home, or the engine's fault (R47, R190, R257). -/
def State.scaleAt (s : State) (part va n : Nat) : Except (Nat × Nat × Addr) Nat :=
  match s.globalPage part va n needR true with
  | .error e => .error e
  | .ok p => if s.badAt p.key n then .error (cDATAERR, 1, BitVec.ofNat 64 va) else .ok (memNum s.mem p.key n)

/-- One block of a pass (R243): the words of the accumulator layout after it and the steps performed, or the fault of a scale
read. -/
def State.passBlock (s : State) (m : Mop) (b : Nat) : Except (Nat × Nat × Addr) (List (Word × Tag) × Nat) :=
  let M := blkM m.blk
  let N := blkN m.blk
  let K := blkK m.blk
  let kb := blkKB0 m.blk + b
  let ks := upFrom (128 * b) (min (128 * b + 128) K - 128 * b)
  let hasA (k : Nat) : Bool := !m.sparse || (m.bma.getD (k / 8) 0).getLsbD (k % 8)
  let hasB (k : Nat) : Bool := !m.sparse || (m.bmb.getD (k / 8) 0).getLsbD (k % 8)
  let P := ks.filter fun k => hasA k && hasB k
  let posA (k : Nat) : Nat := packed m.sparse m.bma k
  let posB (k : Nat) : Nat := packed m.sparse m.bmb k
  let fa := fsA m.fs
  let fb := fsB m.fs
  let la := m.la
  let lb := m.lb
  let lc := m.lc
  match m.kind with
  | .pass .xor | .pass .and =>
    let isAnd := match m.kind with | .pass .and => true | _ => false
    let a (i : Nat) : List Bool := P.map fun k => (s.element m.wg la fa M i (posA k)).1 == 1
    let bcols := (upFrom 0 N).map fun j => P.map fun k => (s.element m.wg lb fb N j (posB k)).1 == 1
    .ok ((upFrom 0 M).flatMap fun i =>
      let row := a i
      bcols.zipIdx.map fun col =>
        let n := (row.zip col.1).countP fun x => if isAnd then x.1 && x.2 else x.1 != x.2
        ((s.fragWord m.wg lc (i * N + col.2)).1 + BitVec.ofNat 32 n, FULL), P.length)
  | _ =>
    let one : XR := .fin false 1 1
    let sA := collect ((upFrom 0 M).map fun i =>
      if fsAscl m.fs == 0 then .ok none
      else match s.scaleAt m.part (fsBase m.fs 1 + 4 * ((blkM0 m.blk + i) * fsApitch m.fs + kb)) 4 with
        | .error e => .error e | .ok v => .ok (some (fdec .f32 v)))
    let nb0 := blkN0 m.blk / 128
    let sB := collect ((upFrom nb0 ((blkN0 m.blk + N - 1) / 128 + 1 - nb0)).map fun nb =>
      if fsBscl m.fs == 0 then .ok none
      else match s.scaleAt m.part (fsBase m.fs 2 + 4 * (kb * fsBpitch m.fs + nb)) 4 with
        | .error e => .error e | .ok v => .ok (some (fdec .f32 v)))
    let kgs := ((ks.filter hasB).map fun k => (128 * blkKB0 m.blk + k) / 32).eraseDups
    let gs := collect (kgs.flatMap fun kg => (upFrom 0 N).map fun j =>
      if !fsGsc m.fs then .ok ((kg, j), none)
      else match s.scaleAt m.part (fsBase m.fs 3 + kg * fsGpitch m.fs + blkN0 m.blk + j) 1 with
        | .error e => .error e | .ok v => .ok ((kg, j), some (fdec .e4m3 v)))
    match sA, sB, gs with
    | .error e, _, _ => .error e
    | _, .error e, _ => .error e
    | _, _, .error e => .error e
    | .ok sA, .ok sB, .ok gs =>
      let ftz := fsFtz m.fs
      let sa (i : Nat) : Option XR := sA.getD i none
      let sb (j : Nat) : Option XR := sB.getD ((blkN0 m.blk + j) / 128 - nb0) none
      let gsc (k j : Nat) : Option XR :=
        match gs.find? fun x => x.1 == ((128 * blkKB0 m.blk + k) / 32, j) with | some x => x.2 | none => none
      let bcols := (upFrom 0 N).map fun j => P.map fun k =>
        let e := s.element m.wg lb fb N j (posB k)
        passElt fb ftz (sb j) (gsc k j) e.1 e.2
      .ok ((upFrom 0 M).flatMap fun i =>
        let row := P.map fun k => let e := s.element m.wg la fa M i (posA k); passElt fa ftz (sa i) none e.1 e.2
        bcols.zipIdx.map fun col =>
          let ps := (row.zip col.1).map fun x => ((xmul x.1.v x.2.v).1, min x.1.t x.2.t)
          let c := s.fragWord m.wg lc (i * N + col.2)
          passStep ps ((sa i).getD one) ((sb col.2).getD one) c.1.toNat c.2, P.length)

/-- Replaces a matrix operation. -/
def State.setMop (s : State) (m : Mop) : State := { s with mops := updWhere (fun x => x.id == m.id) (fun _ => m) s.mops }

/-- Performs up to `n` blocks of a pass, or words of a transfer, until it ends or a fault stops it. -/
def State.mopRun (unit : State → Mop → Except (Nat × Nat × Addr) (Option (State × Mop))) :
    Nat → State → Mop → State × Mop × Option (Nat × Nat × Addr)
  | 0, s, m => (s, m, none)
  | n + 1, s, m =>
    match unit s m with
    | .error e => (s, m, some e)
    | .ok none => (s, m, none)
    | .ok (some (s, m)) => State.mopRun unit n s m

/-- The next block of a pass; none when none is left. -/
def State.passUnit (s : State) (m : Mop) : Except (Nat × Nat × Addr) (Option (State × Mop)) :=
  let K := blkK m.blk
  if K ≤ m.step then .ok none
  else match m.reads.findSome? (s.layBad m.wg), s.passBlock m (m.step / 128) with
    | some e, _ => .error e
    | _, .error e => .error e
    | none, .ok (ws, n) => .ok (some (s.fragStore m.wg m.lc ws, { m with step := min (128 * (m.step / 128 + 1)) K, perf := m.perf + n, touched := true }))

/-! ## Transfers (R250, R251) -/

/-- One source word of MLDF at its home. -/
def State.mldfWord (s : State) (m : Mop) (line r : Nat) : Except (Nat × Nat × Addr) (Word × Tag) :=
  let va := m.base + line * m.pitch + 4 * r
  match s.globalPage m.part va 4 needR true with
  | .error e => .error e
  | .ok p => match s.placeBad (.mem m.part va p) 4 va with
    | some e => .error e
    | none => .ok (BitVec.ofNat 32 (memNum s.mem p.key 4), s.tagAt p va)

/-- The next word of MLDF (R250), of line and word row; a packed word is built from the bits of its present positions. -/
def State.mldfUnit (s : State) (m : Mop) : Except (Nat × Nat × Addr) (Option (State × Mop)) :=
  let sel := match m.kind with | .mldf w _ => w | _ => .c
  let x := match sel with | .a => m.la | .b => m.lb | .c => m.lc
  let lines := match sel with | .b => blkN m.blk | _ => blkM m.blk
  let rows := if lines == 0 then 0 else x.words / lines
  if x.words ≤ m.perf then .ok none
  else
    let line := m.perf / rows
    let r := m.perf % rows
    let next (j : Nat) (w : Word × Tag) : Except (Nat × Nat × Addr) (Option (State × Mop)) :=
      .ok (some (s.fragStoreAt m.wg x j w, { m with perf := m.perf + 1 }))
    match sel with
    | .c => (match s.mldfWord m line r with | .error e => .error e | .ok w => next (line * blkN m.blk + r) w)
    | _ =>
      let code := match sel with | .b => fsB m.fs | _ => fsA m.fs
      let u := eltUnit code
      if !m.sparse then (match s.mldfWord m line r with | .error e => .error e | .ok w => next (r * lines + line) w)
      else
        let pl := present (match sel with | .b => m.bmb | _ => m.bma) (blkK m.blk)
        let src (b : Nat) : Option (Nat × Nat) :=
          let f := 32 * (r % u.2.2) + b
          match pl[r / u.2.2 * u.2.1 + f / u.1]? with
          | none => none
          | some k => let sb := k % u.2.1 * u.1 + f % u.1; some (k / u.2.1 * u.2.2 + sb / 32, sb % 32)
        let srcs := laneSlots.map src
        match collect (((srcs.filterMap id).map Prod.fst).eraseDups.map fun q => match s.mldfWord m line q with
            | .error e => (.error e : Except (Nat × Nat × Addr) (Nat × Word × Tag)) | .ok w => .ok (q, w)) with
        | .error e => .error e
        | .ok ws =>
          let bit (o : Option (Nat × Nat)) : Bool := match o with
            | none => false
            | some (q, b) => (match ws.find? fun y => y.1 == q with | some y => y.2.1.getLsbD b | none => false)
          let v : Word := maskOf (laneSlots.filter fun b => bit (srcs.getD b none))
          next (r * lines + line) (v, ws.foldl (fun t y => min t y.2.2) FULL)

/-- The next word of MSTF (R251). DESIGN CHOICE (30): the accumulator is not flushed under MODE.FTZI, since R251's conversion names FTZO
alone. A signalling NaN raises NV (R37). -/
def State.mstfUnit (s : State) (m : Mop) : Except (Nat × Nat × Addr) (Option (State × Mop)) :=
  let N := blkN m.blk
  let t := match m.kind with | .mstf t rm => (t, rm) | _ => (.f32, 1)
  let f : Option Fmt := match t.1 with | .f16 => some .f16 | .bf16 => some .bf16 | .e4m3 => some .e4m3 | .e5m2 => some .e5m2 | _ => none
  let per := match f with | some f => 32 / fmtBits f | none => 1
  let rows := N / per
  if blkM m.blk * rows ≤ m.perf then .ok none
  else
    let line := m.perf / rows
    let r := m.perf % rows
    let va := m.base + line * m.pitch + 4 * r
    let es := (upFrom (r * per) per).map fun n => s.fragWord m.wg m.lc (line * N + n)
    let out : Word × Tag × FlagSet :=
      match f with
      | none => let w := es.headD (0, FULL); (w.1, (match t.1 with | .s32 => FULL | _ => w.2), flNone)
      | some f =>
        let ys := es.map fun c =>
          let v := fdec .f32 c.1.toNat
          let y := roundTo f t.2 (fsSat m.fs) (modeFtzo m.mode) none 0 v
          (y.bits, tagCvt f (tagIn c.2 24) v y.val y.sat, sigNV [v] ||| y.fl)
        (BitVec.ofNat 32 ((ys.zipIdx.map fun (y : (Nat × Nat × FlagSet) × Nat) => y.1.1 * 2 ^ (fmtBits f * y.2)).foldl (· + ·) 0),
         (ys.map fun y => y.2.1).foldl min FULL, (ys.map fun y => y.2.2).foldl (· ||| ·) flNone)
    match s.layBad m.wg m.lc, s.globalPage m.part va 4 needW true with
    | some e, _ => .error e
    | _, .error e => .error e
    | none, .ok p =>
      let s := (s.pageWrite p va (toBytes 4 out.1.toNat) [out.2.1]).l1Drop m.core fun y => y.overlaps m.part va 4
      .ok (some (s, { m with perf := m.perf + 1, flags := m.flags ||| out.2.2 }))

/-- The next piece of an operation. -/
def State.mopUnit (s : State) (m : Mop) : Except (Nat × Nat × Addr) (Option (State × Mop)) :=
  match m.kind with
  | .pass _ => s.passUnit m
  | .mldf .. => s.mldfUnit m
  | .mstf .. => s.mstfUnit m
/-- Pieces that an operation has at most. -/
def Mop.pieces (m : Mop) : Nat := match m.kind with | .pass _ => blkK m.blk / 128 + 2 | _ => m.la.words + m.lb.words + m.lc.words + 1

/-! ## Grant, completion, fault, stop (R232, R233, R252, R255 to R258) -/

/-- Whether one operation writes a register that another reads or writes (R233). -/
def mopConflict (x y : Mop) : Bool :=
  x.writes.any (fun a => (y.reads ++ y.writes).any a.meets) || y.writes.any (fun a => (x.reads ++ x.writes).any a.meets)

/-- Whether an operation is ready (R233, R241, R252). -/
def State.mopReady (s : State) (m : Mop) : Bool :=
  m.state == .posted && !(s.wg m.wg).preemptReq &&
  (s.mops.all fun x => x.wg != m.wg || m.seq ≤ x.seq || !mopConflict x m) &&
  (m.reads ++ m.writes).all (fun x => !s.writePending m.wg m.seq x) &&
  (m.isPass || !m.tids.any fun t => s.threadBusy m.wg t m.seq)

/-- Comes first under the keys of R232. -/
def State.mopBefore (s : State) (x y : Mop) : Bool :=
  let w (m : Mop) : Nat := bits (s.part m.part).qos.toNat 16 8
  if x.posted != y.posted then x.posted < y.posted
  else if x.pri != y.pri then y.pri < x.pri
  else if w x != w y then w y < w x
  else if x.core != y.core then x.core < y.core
  else x.seq < y.seq

/-- The operation of a kind that a cluster's engine grants next (R232). -/
def State.mopNext (s : State) (cluster : Nat) (transfer : Bool) : Option Mop :=
  let mine := s.mops.filter fun m => clusterOf m.core == cluster && m.isPass != transfer
  if mine.any fun m => m.state == .running || m.state == .stopping then none
  else (mine.filter s.mopReady).foldl (fun b m => match b with | none => some m | some x => some (if s.mopBefore m x then m else x)) none

/-- The fragment a pass leaves in an operand latch (R248). -/
def Mop.latch (m : Mop) (b : Bool) : Option OpLatch :=
  if m.isPass && (m.blk.getD 7 0).getLsbD b.toNat then
    let bm := if b then m.bmb else m.bma
    some ⟨m.wg, m.blk.getD (if b then 5 else 4) 0, if b then fsB m.fs else fsA m.fs, if b then blkN m.blk else blkM m.blk,
      packed m.sparse bm (blkK m.blk), bm⟩
  else none

/-- MATRIX_GRANT (R232): the engine starts an operation, and keeps the fragments that it asks for; a latching pass of another workgroup
clears what the latches held (R248). -/
def execMatrixGrant (cluster : Nat) (transfer : Bool) (s : State) : Out :=
  match s.mopNext cluster transfer with
  | none => .next s
  | some m =>
    let latches := (m.latch false).isSome || (m.latch true).isSome
    let keep (old new : Option OpLatch) : Option OpLatch := match new, old with
      | some x, _ => some x
      | none, some y => if latches && y.wg != m.wg then none else some y
      | none, none => none
    .next ((s.setMop { m with state := .running, granted := true }).modCluster cluster fun c =>
      { c with latchA := keep c.latchA (m.latch false), latchB := keep c.latchB (m.latch true) })

/-- MATRIX_COMPLETE (R255): what is left of the operation runs without a fault; then the report, flags, handle and locks. -/
def execMatrixComplete (id : Nat) (s : State) : Out :=
  match s.mops.find? (fun m => m.id == id) with
  | none => .next s
  | some m =>
    if m.state != .running then .next s
    else match s.mopRun State.mopUnit m.pieces m with
      | (t, m, none) =>
        let m := if m.isPass then { m with step := blkK m.blk } else m
        let t := t.modGroup m.uid fun g => { g with status := orStatus g.status m.flags }
        let t := match m.kind with | .mldf .. => m.writes.foldl (fun (t : State) x => t.layMend m.wg x) t | _ => t
        .next ((t.endMop m 2).modWg m.wg Wg.handleTick)
      | _ => .next s

/-- The group that an engine fault of an operation goes to (R257). -/
def State.faultGroup (s : State) (m : Mop) : Nat :=
  let live := s.groups.filter fun g => g.wg == m.wg && g.sleeve.isNone && g.live != 0
  if live.any fun g => g.uid == m.uid then m.uid
  else match sortBy Group.gid live with | g :: _ => g.uid | [] => m.uid

/-- MATRIX_ENGINE_FAULT (R257): the operation stops before the block, or at the word, whose access faults. -/
def execMatrixEngineFault (id : Nat) (s : State) : Out :=
  match s.mops.find? (fun m => m.id == id) with
  | none => .next s
  | some m =>
    if m.state != .running then .next s
    else match s.mopRun State.mopUnit m.pieces m with
      | (t, m, some e) =>
        let u := t.faultGroup m
        let l := if u == m.uid && (t.group u).live.getLsbD m.slot then m.slot else (maskBits (t.group u).live).headD m.slot
        .next ((t.setMop { m with state := .stopped, stopClk := some (t.clock m.core) }).engineDue u l e (t.entryWord m.wg m.ent)
          (.matrix m.id) m.seq)
      | _ => .next s

/-- MATRIX_OPERATION_STOP (R256, R258): a running pass completes its current block and stops, cancelled or ungranted; a transfer
that is being cancelled stops at its next word. -/
def execMatrixOperationStop (id : Nat) (s : State) : Out :=
  match s.mops.find? (fun m => m.id == id) with
  | none => .next s
  | some m =>
    if m.state != .stopping then .next s
    else
      let r := if m.isPass then s.mopRun State.mopUnit 1 m else (s, m, none)
      if m.cancel then .next ((r.1.cancelMop r.2.1).modWg m.wg Wg.handleTick)
      else .next (r.1.setMop { r.2.1 with state := .posted, granted := false })

/-- One more block of a running pass, or word of a running transfer, ahead of its completion (1). -/
def State.mopAdvance (s : State) (id : Nat) : State :=
  match s.mops.find? (fun m => m.id == id) with
  | none => s
  | some m =>
    if m.state != .running then s
    else match s.mopUnit m with
      | .ok (some (t, m)) => t.setMop m
      | _ => s

/-- CANCELF of one handle (R225, R256). -/
def State.cancelHandle (s : State) (wg : Nat) (h : Word) : State :=
  if (s.wg wg).handleSt h != 1 then s
  else
    let ent := h.toNat % 256
    match bits h.toNat 27 3 with
    | 0 =>
      match s.mops.find? fun m => m.wg == wg && m.ent == ent with
      | none => s
      | some m => if m.state == .running || m.state == .stopping then s.setMop { m with state := .stopping, cancel := true } else s.cancelMop m
    | 1 =>
      let mine (b : Batch) : Bool := b.wg == wg && b.ent == ent && b.cancellable && b.state == .running
      { s with batches := updWhere mine (fun (b : Batch) => { b with state := .cancelling }) s.batches }
    | _ =>
      match s.sliceqs.find? fun q => q.wg == wg && q.ent == ent with
      | none => s
      | some q => s.endSliceq q 3 0

/-- CANCELF (R197, R225). -/
def execCancelf (c : Ctl) (h : HReg) (s : State) : Out :=
  withIssuer s fun g =>
    let w := g.writeSet c.gp.val c.gn
    let s := (maskBits w).foldl (fun s l => s.cancelHandle g.wg ((g.lane l).h.getD h.val 0)) s
    (s.modWg g.wg Wg.handleTick).nextWord ((s.group g.uid).issued [] [])

end Sys2Proof.Machine
end

