-- ==== Sys2Proof/Machine/PForm.lean ====
section
/-! DEFINITION. The P-form word (R71, R72) and words with an unassigned opcode (R76). -/
namespace Sys2Proof.Machine
open Sys2Proof

/-- The source B of a slot as an F-form source. -/
def PSrc.src : PSrc → Src | .reg r => .reg r | .const c => .const c

/-- What an operation of a slot computes (R72, Table 3.8): SA is DST, rounding follows MODE.RND. -/
def pEval (o : POp) (d : VReg) (b : Src) (s : State) (g : Group) (w : Mask) : Except Trap AluOut :=
  let a : Src := .reg d
  match o with
  | .mov => evalMov .b32 d b s g w
  | .iadd => evalAdd false false .s32 d a b s g w
  | .isub => evalAdd true false .s32 d a b s g w
  | .imul => evalMul .s32 d a b s g w
  | .iminS => evalMinMax false .s32 d a b s g w
  | .imaxS => evalMinMax true .s32 d a b s g w
  | .iminN => evalMinMax false .n32 d a b s g w
  | .imaxN => evalMinMax true .n32 d a b s g w
  | .iabs => evalAbsNeg false false .s32 d b s g w
  | .ineg => evalAbsNeg true false .s32 d b s g w
  | .and => evalLogic .and .b32 d a b s g w
  | .or => evalLogic .or .b32 d a b s g w
  | .xor => evalLogic .xor .b32 d a b s g w
  | .not => evalNot .b32 d b s g w
  | .andn => evalLogic .andn .b32 d a b s g w
  | .shl => evalShift .shl .b32 d a b s g w
  | .shr => evalShift .shr .b32 d a b s g w
  | .sar => evalShift .sar .b32 d a b s g w
  | .rot => evalShift .rot .b32 d a b s g w
  | .popc => evalCount .popc .b32 d b s g w
  | .clz => evalCount .clz .b32 d b s g w
  | .ctz => evalCount .ctz .b32 d b s g w
  | .brev => evalBrev .b32 d b s g w
  | .fadd => evalFBin .add .mode .f32 d a b s g w
  | .fsub => evalFBin .sub .mode .f32 d a b s g w
  | .fmul => evalFBin .mul .mode .f32 d a b s g w
  | .fmin => evalFMinMax false .f32 d a b s g w
  | .fmax => evalFMinMax true .f32 d a b s g w
  | .fabs => evalFAbsNeg false .f32 d b s g w
  | .fneg => evalFAbsNeg true .f32 d b s g w
  | .fadd2h => evalFBin2 .add .mode .f16 d a b s g w
  | .fmul2h => evalFBin2 .mul .mode .f16 d a b s g w
  | .fadd2b => evalFBin2 .add .mode .bf16 d a b s g w
  | .fmul2b => evalFBin2 .mul .mode .bf16 d a b s g w

/-- What a slot does: nothing for NOP or an empty write set. -/
def slotEval (x : PSlot) (s : State) (g : Group) : Except Trap (Mask × AluOut) :=
  match x with
  | .nop => .ok (0, ⟨[], none, fun _ => flNone, 0⟩)
  | .op o gp gn d b =>
    let w := g.writeSet gp.val gn
    if w == 0 then .ok (0, ⟨[], none, fun _ => flNone, 0⟩)
    else match pEval o d (PSrc.src b) s g w with
      | .error t => .error t
      | .ok r => .ok (w, r)

/-- Writes what one slot computed. -/
def Group.slotWrite (g : Group) (x : Mask × AluOut) : Group :=
  let g := x.2.regs.foldl (fun g r => g.put r.1 x.1 r.2) g
  let g := g.raiseAll x.1 x.2.fl
  if x.2.draws == 0 then g else g.modLanes x.1 fun _ y => { y with srcnt := y.srcnt + BitVec.ofNat 32 x.2.draws }

/-- The P-form word (R72): both slots read and compute, then both write; slot 0 draws its random words first. A trap of either
slot leaves both unwritten; slot 0's is reported first. -/
def execPFormWord (s0 s1 : PSlot) (s : State) : Out :=
  withIssuer s fun g =>
    match slotEval s0 s g with
    | .error t => s.takeTrap g t
    | .ok x0 =>
      let g1 := if x0.2.draws == 0 then g else g.modLanes x0.1 fun _ y => { y with srcnt := y.srcnt + BitVec.ofNat 32 x0.2.draws }
      match slotEval s1 s g1 with
      | .error t => s.takeTrap g { t with slot1 := true }
      | .ok x1 => s.nextWord (((g.issued [] []).slotWrite x0).slotWrite x1)

/-- A word whose opcode is unassigned (R76): ILLEGAL, whatever its other fields. -/
def execUnassignedOpcode (_w : Addr) (s : State) : Out :=
  withIssuer s fun g => s.takeTrap g (trapOf cILLEGAL illOpcode g.active 0)

end Sys2Proof.Machine
end

