-- ==== Sys2Proof/Machine/System.lean ====
section
/-! DEFINITION. System and trap instructions (R321 to R325). -/
namespace Sys2Proof.Machine
open Sys2Proof

/-- TRAPRET (R321, R322): the return takes effect when the clause ends. -/
def execTrapret (c : Ctl) (skip : Bool) (s : State) : Out :=
  s.dissolving true fun s g =>
    let w := g.writeSet c.gp.val c.gn
    if !g.inHandler then s.takeTrap g (trapOf cPRIV 0 w 0)
    else if w != g.active &&& ~~~g.helper then s.takeTrap g (trapOf cUNIMIS 0 g.active w)
    else s.nextWord ({ g with retPending := some skip }.issued [] [])

/-- The end of a word that writes one uniform word with tag FULL. -/
def State.uniformWord (s : State) (c : Ctl) (d : VReg) (v : Group → Nat) : Out :=
  s.dissolving false fun s g =>
    let w := g.writeSet c.gp.val c.gn
    if w == 0 then s.nextWord (g.issued [] [])
    else match aluResult g w d.val 1 [] false none 0 fun _ => plainOut (v g) with
      | .error t => s.takeTrap g t
      | .ok o => s.nextWord (g.commit false w o)

/-- GETFAULT (R321, R323). -/
def execGetfault (c : Ctl) (d : VReg) (w : Fin 8) (s : State) : Out :=
  s.uniformWord c d fun g => match g.frame with | some f => (f.tr.words.getD w.val 0).toNat | none => 0

/-- CTXQ (R321, R325). -/
def execCtxq (c : Ctl) (d : VReg) (sel : Fin 4) (s : State) : Out :=
  s.uniformWord c d fun g =>
    match sel.val with
    | 0 => g.launch
    | 1 => (s.wg g.wg).preemptReq.toNat
    | 2 => g.inHandler.toNat
    | _ => (s.wg g.wg).restores

/-- The current trap of a handler as if its handler address were 0 (R323, R320). -/
def State.passOn (s : State) (g : Group) (f : Frame) : State :=
  let s := ((s.freePort g).setGroup { g with clause := none, window := [], latch := [], retPending := none, phase := .stopped }).logFault g f.tr
  if hostResumes f.tr then s else s.endLaunch g.launch 0x11

/-- SETFAULT (R321, R323). -/
def execSetfault (c : Ctl) (a b : Src) (s : State) : Out :=
  s.dissolving true fun s g =>
    let w := g.writeSet c.gp.val c.gn
    if w == 0 then s.nextWord (g.issued [] [])
    else match s.operands g w [(a, .int 32 false), (b, .int 32 false)] with
      | .error t => s.takeTrap g t
      | .ok os =>
        let va (l : Nat) : Nat := (Opnd.at g l (os.getD 0 default)).1
        let vb (l : Nat) : Nat := (Opnd.at g l (os.getD 1 default)).1
        if !(allSame ((maskBits w).map va) && allSame ((maskBits w).map vb)) then s.takeTrap g (trapOf cUNIMIS 0 g.active w)
        else
          let v := va ((maskBits w).headD 0)
          match (if v == 0 then g.frame else none) with
          | some f => s.passOn g f
          | none =>
            if bits v 0 8 == 0 || 0x0D < bits v 0 8 || bits v 16 16 != 0 then s.takeTrap g (trapOf cILLEGAL illField g.active 0)
            else s.takeTrap g { trapOf (bits v 0 8) (bits v 8 8) w (BitVec.ofNat 32 (vb ((maskBits w).headD 0))) with
              after := bits v 0 8 == cBPT }

/-- HALTG (R321, R324). -/
def execHaltg (c : Ctl) (code : BitVec 16) (s : State) : Out :=
  s.dissolving true fun s g =>
    let w := g.writeSet c.gp.val c.gn
    if w == 0 then s.nextWord (g.issued [] [])
    else
      let r := match g.frame with | some f => f.tr | none => g.record (trapOf cBPT 0 w (code.setWidth 32)) false false (g.pc + 8)
      ((s.nextWord (g.issued [] [])).logFault g r).endLaunch g.launch 0x11

end Sys2Proof.Machine
end

