-- ==== Sys2Proof/Machine/Issue.lean ====
section
/-! DEFINITION. Fetching and starting clauses (R60 to R62, R143 to R148), the checks and stalls of a word about to issue (R76,
R199, R241), and the delivery of traps that are due (R319, R201). -/
namespace Sys2Proof.Machine
open Sys2Proof

/-! ## Fetch (R60, R144, R147) -/

/-- An instruction word at an address: from the shared instruction cache where it holds it, else from memory (R147); `fresh` is
whether its line has been replaced. Gives the word and whether it missed. -/
def State.fetchWord (s : State) (cluster part va : Nat) (fresh : Bool) : Except (Nat × Nat) (Addr × Bool) :=
  match (if fresh then none else (s.cluster cluster).icache.find? fun x => x.1 == part && x.2.1 == va) with
  | some x => .ok (x.2.2, false)
  | none =>
    match s.translate part va needX true with
    | .error k => .error (cMEMFLT, k)
    | .ok p => if s.badAt p.key 8 then .error (cDATAERR, 1) else .ok (BitVec.ofNat 64 (memNum s.mem p.key 8), true)

/-- The clause at an address with the lines of 128 bytes that missed; or cause and sub-cause of the fetch fault (R60, R147). -/
def State.fetchClause (s : State) (cluster part : Nat) (a : Addr) (fresh : Bool) : Except (Nat × Nat) (Clause × List Nat) :=
  match s.fetchWord cluster part a.toNat fresh with
  | .error e => .error e
  | .ok (h, miss) =>
    match collect ((upFrom 1 (hdrLen h)).map fun i => s.fetchWord cluster part (a.toNat + 8 * i) fresh) with
    | .error e => .error e
    | .ok ws =>
      let lines := ((h, miss) :: ws).zipIdx.filterMap fun x => if x.1.2 then some ((a.toNat + 8 * x.2) / 128) else none
      .ok (⟨a, h, ws.map Prod.fst, 0⟩, lines.eraseDups)

/-- The address of the clause that a group's sequencer fetches next: of the path that runs next, or behind a clause in progress. -/
def Group.fetchAddr (g : Group) : Option Addr :=
  if g.clause.isSome then some g.fall else g.choosePath.map Prod.fst

/-- A trap at a clause boundary: of its header, or of its fetch (R60, R62). -/
def State.boundaryTrap (s : State) (g : Group) (t : Trap) (a : Addr) (kind : ReturnKind) : State :=
  let r := g.record { t with addr := some a } false false a
  let s := s.detect t.cause
  match g.merge with
  | .host .. => s.dissolve g.uid
  | _ =>
    match g.sleeve with
    | some x => s.setGroup { g with phase := .stopped, sleeve := some { x with trap := some ⟨r, kind, 0⟩ } }
    | none => (s.setGroup g).deliver g.uid r kind

/-- ICACHE_FILL (R144, R147, R350 E004): the words of a clause arrive in the buffer of a sequencer, which holds two clauses, and in
the cache of 65,536 words (R1), where the words filled longest ago make room (35); each line that missed counts one slip. A fetch that faults is a precise trap at the clause (R60). -/
def execIcacheFill (uid : Nat) (fresh : Bool) (s : State) : Out :=
  match s.group? uid with
  | none => .next s
  | some g =>
    match g.fetchAddr with
    | none => .next s
    | some a =>
      if (g.buffer.any fun c => c.addr == a) || g.phase == .stopped || g.phase == .yielded || g.phase == .retired
      then .next s
      else
        let cl := clusterOf g.core
        match s.fetchClause cl g.part a fresh with
        | .error e =>
          if g.clause.isSome then .next s
          else
            let on := match g.choosePath with | some p => g.pathLanes p | none => 0
            .next (s.boundaryTrap { g with active := on } (trapOf e.1 e.2 on 0) a .fetch)
        | .ok (c, lines) =>
          let words := (c.hdr :: c.words).zipIdx.map fun x => (g.part, a.toNat + 8 * x.2, x.1)
          let s := s.modCluster cl fun k =>
            { k with icache := (words ++ k.icache.filter fun x => !(x.1 == g.part && words.any fun y => y.2.1 == x.2.1)).take 65536 }
          let s := if g.sleeve.isSome then s else s.bump g.core 0 lines.length
          .next (s.setGroup { g with buffer := (c :: g.buffer).take 2 })

/-! ## Checks at decode (R76) -/

/-- A slot that Table 9.2 or R96 accepts. -/
def slotOk (i : Instr) (f : List Addr) : Bool :=
  let a := fsA f
  let b := fsB f
  let flt (x : Nat) : Bool := 3 ≤ x && x ≤ 5
  let dense := flt a && (flt b || b == 6 || b == 7) && fsAcc f == 0
  let bin := a == 8 && b == 8 && fsAcc f == 1 && fsAscl f == 0 && fsBscl f == 0
  match i with
  | .cvtq .. | .cvtdq .. | .scalemax .. => fsQuant f
  | .mma .. | .mmas .. => !fsEmpty f && dense
  | .mmab .. => !fsEmpty f && bin
  | .mresume _ _ _ _ k _ _ _ => !fsEmpty f && (match k with | .dense | .sparse => dense | _ => bin)
  | .mldf _ _ _ w _ _ _ _ _ => !fsEmpty f && (match w with | .a => flt a || a == 8 | .b => flt b || b == 6 || b == 7 || b == 8 | .c => true)
  | .mstf _ _ _ _ t _ _ _ _ => !fsEmpty f && (match t with | .s32 => fsAcc f == 1 | _ => fsAcc f == 0)
  | _ => true
/-- The slot that an instruction names. -/
def slotOf : Instr → Option Nat
  | .cvtq _ _ n .. | .cvtdq _ _ n .. | .scalemax _ _ n .. => some n.val
  | .mma _ _ n .. | .mmas _ _ n .. | .mmab _ _ n .. | .mresume _ _ n .. | .mldf _ _ n .. | .mstf _ _ n .. => some n.val
  | _ => none

/-- The registers an instruction names beside those that its word alone gives: the ranges of CVTQ and CVTDQ (R96). -/
def moreRegs (i : Instr) (f : List Addr) : List RegUse :=
  match i with
  | .cvtq _ _ _ _ a _ => [⟨.src, a.val, cvtCount (fsA f)⟩]
  | .cvtdq _ _ _ d _ _ => [⟨.dst, d.val, cvtCount (fsA f)⟩]
  | _ => []

/-- Whether a word carries the transient bit (R31). -/
def wordTrn (w : Addr) : Bool := bits w.toNat 63 1 == 0 && (unpackF w.toNat).trn == 1

/-- What the decoder finds in a word with its surroundings: the instruction with the registers it names, or the ILLEGAL trap with
the lowest sub-cause (R76), whose INFO0 names the operand field at fault (R34). -/
def State.decodeAt (s : State) (g : Group) (w : Addr) (last : Bool) : Except Trap (Instr × List RegUse) :=
  let r := readWord w.toNat
  let f := match slotOf r.val with | some n => s.fslot g n | none => []
  let regs := r.regs ++ moreRegs r.val f
  let beyond := regs.find? fun u => u.count != 0 && g.decl.total < u.first + u.count
  let odd := regs.find? fun u => (u.count == 0 && 240 ≤ u.first) || (u.count != 0 && 224 ≤ u.first)
  let known := match r.val with | .unassignedOpcode _ => false | _ => true
  let codes := r.codes ++ (if Instr.endsClause r.val && !last then [illNotLast] else []) ++
    (if (slotOf r.val).isSome && !slotOk r.val f then [illSlot] else []) ++
    (if known && wordTrn w && last then [illTransient] else []) ++ (if beyond.isSome then [illBeyond] else [])
  match lowest codes with
  | none => .ok (r.val, regs)
  | some c =>
    let info := if c == illBeyond then (match beyond with | some u => max u.first g.decl.total | none => 0)
      else if c == illOperand then (match odd with | some u => u.first | none => 0) else 0
    .error (trapOf cILLEGAL c g.active (BitVec.ofNat 32 info))

/-! ## Stalls (R199, R22, R23, R232, R241) -/

/-- The guard predicates and the other predicates of an instruction word. -/
def wordPreds (w : Addr) (i : Instr) : List Nat :=
  let gps := if bits w.toNat 63 1 == 0 then [(unpackF w.toNat).gp] else [bits w.toNat 2 6, bits w.toNat 33 6]
  gps ++ (match i with
    | .sel _ _ _ _ _ p | .cmp _ _ _ p _ _ | .fcmp _ _ _ p _ _ | .fclass _ _ p _ _ | .sigcmp _ _ _ p _ _ => [p.val]
    | .pand _ _ _ d a b | .por _ _ _ d a b | .pxor _ _ _ d a b => [d.val, a.val, b.val]
    | .pnot _ d b | .pmov _ d b => [d.val, b.val]
    | .bany _ p _ | .ball _ p _ | .ballot _ _ _ p => [p.val]
    | .voteany _ _ d a | .voteall _ _ d a => [d.val, a.val]
    | .voteuni _ _ d _ => [d.val]
    | .acqLock _ _ p _ | .acqGen _ _ p _ _ | .testf _ p _ | .enq _ _ _ p _ _ => [p.val]
    | _ => [])
/-- The handle register that an instruction reads. -/
def readsHandle (i : Instr) : Option Nat :=
  match i with
  | .sts _ _ _ (.inr h) _ _ | .waitf _ h | .testf _ _ h | .cancelf _ h | .mqry _ _ h => some h.val
  | _ => none
/-- The handle register that an instruction names. -/
def wordHandle (i : Instr) : Option Nat :=
  match i with
  | .lds _ _ _ (.inr h) _ _ | .sts _ _ _ (.inr h) _ _ => some h.val
  | .seal _ _ h _ | .waitf _ h | .testf _ _ h | .cancelf _ h | .sliceq _ _ h _ _ | .mqry _ _ h => some h.val
  | .mma _ _ _ _ h _ | .mmas _ _ _ _ h _ | .mmab _ _ _ _ _ h _ | .mresume _ _ _ _ _ h _ _ | .mldf _ _ _ _ _ h _ _ _
  | .mstf _ _ _ _ _ h _ _ _ => some h.val
  | _ => none
/-- The records that EMIT and EMITX read in the lanes of `w` (R226). -/
def State.recordReads (s : State) (g : Group) (w : Mask) (i : Instr) : List RegUse :=
  let size (e : Edge) : Nat := (s.target g e).z / 4
  match i with
  | .emit _ _ a e => (match s.edge? g e.val with | some x => [⟨.src, a.val, size x⟩] | none => [])
  | .emitx _ _ a b => (maskBits w).filterMap fun l => (s.edge? g (g.read b.val l).1.toNat).map fun x => ⟨.src, a.val, size x⟩
  | _ => []
/-- Registers that an instruction may read beside those its word names: records (R226), features of TWALK (R112). -/
def State.moreReads (s : State) (g : Group) (w : Mask) (i : Instr) : List RegUse :=
  match i with
  | .twalk _ _ _ _ _ _ b => [⟨.src, b.val, min 32 (g.decl.total - b.val)⟩]
  | _ => s.recordReads g w i

/-- Whether a register of a group or context has a write on its way (R199). -/
def State.regPending (s : State) (g : Group) (r : Nat) : Bool :=
  (s.accs.any fun a => a.uid == g.uid && (match a.dst with | .regs d n _ => d ≤ r && r < d + n | _ => false)) ||
  (s.sliceqs.any fun q => q.uid == g.uid && q.dst ≤ r && r < q.dst + 2)
/-- Whether a lock of a matrix operation stops a use of a register (R241); a Sleeve context works on its own copies. -/
def State.regLocked (s : State) (g : Group) (write : Bool) (r : Nat) : Bool :=
  g.sleeve.isNone && s.mops.any fun m => m.wg == g.wg &&
    ((m.writes.any fun x => x.has g.gid r) || (write && m.reads.any fun x => x.has g.gid r))

/-- Whether a use of registers has to wait. -/
def State.useStalls (s : State) (g : Group) (u : RegUse) : Bool :=
  u.kind != .named && (upFrom u.first u.count).any fun r => s.regPending g r || s.regLocked g (u.kind == .dst) r

/-- Whether a handle that an ejected lane reads names an operation that its group began before the ejection and that is pending
(R154). -/
def State.handleBlocks (s : State) (g : Group) (h l : Nat) : Bool :=
  let hw := (g.lane l).h.getD h 0
  g.sleeve.isSome && (s.wg g.wg).handleSt hw == 1 &&
  ((s.batches.any fun b => b.wg == g.wg && b.ent == hw.toNat % 256 && b.uid != g.uid) ||
   (s.sliceqs.any fun q => q.wg == g.wg && q.ent == hw.toNat % 256 && q.uid != g.uid) ||
   (s.mops.any fun m => m.wg == g.wg && m.ent == hw.toNat % 256))

/-- Handled operations and sealed batches that an instruction would start in a write set (R22, R223). -/
def startsOps (g : Group) (i : Instr) (w : Mask) : Nat × Nat × Nat :=
  let n := (maskBits w).length
  let opened := ((maskBits w).filter fun l => !(g.lane l).batch.isEmpty).length
  match i with
  | .seal .. => (n, opened, 0)
  | .exit .. => (opened, opened, 0)
  | .sliceq .. => (n, 0, 0)
  | .mma .. | .mmas .. | .mmab .. | .mresume .. | .mldf .. | .mstf .. => (if n == 0 then 0 else 1, 0, if n == 0 then 0 else 1)
  | _ => (0, 0, 0)

/-- The flag an L-class word counts on: its F bit, where it has one (R61). -/
def wordFlag (i : Instr) : Option Bool :=
  match i with
  | .ld _ f .. | .st _ f .. | .lds _ f .. | .sts _ f .. | .gather _ f .. | .scatter _ f .. | .atom _ f .. | .red _ f .. | .atoms _ f ..
  | .bind _ f .. | .seminc _ f .. | .semincImm _ f .. | .semrd _ f .. | .tilestSet _ f .. | .tilestFull _ f .. | .tilestEmpty _ f ..
  | .emit _ f .. | .emitx _ f .. | .rdrec _ f .. | .enq _ f .. | .rcsnap _ f .. | .slicehintPin _ f .. | .slicehintUnpin _ f ..
  | .slicehintRep _ f .. | .slicehintDrop _ f .. | .mma _ f .. | .mmas _ f .. | .mmab _ f .. | .mldf _ f .. | .mstf _ f ..
  | .mresume _ f .. => some f
  | _ => none

/-- The write set of the word about to issue. -/
def wordSet (g : Group) (w : Addr) : Mask :=
  if bits w.toNat 63 1 == 0 then let f := unpackF w.toNat; g.writeSet f.gp (f.gn == 1) else g.active &&& ~~~g.helper

/-- Whether a GATHER or SCATTER is too wide for the open window of its core's collector (R171). -/
def State.collectorFull (s : State) (g : Group) (i : Instr) (n : Nat) : Bool :=
  let full (gathers : Bool) : Bool := match (s.core g.core).coll with | some c => c.gathers == gathers && 256 < c.reqs + n | none => false
  match i with | .gather .. => full true | .scatter .. => full false | _ => false

/-- Why a word cannot issue now: `port` when it keeps the issue port (an operand stall), `free` when it frees it (R22, R145, R232). -/
inductive Stall where | port | free
  deriving DecidableEq, Repr

/-- The stall of a decoded word, if any. -/
def State.stallOf (s : State) (g : Group) (w : Addr) (i : Instr) (regs : List RegUse) : Option Stall :=
  let ws := wordSet g w
  let lanes := maskBits ws
  let st := startsOps g i ws
  let busy := lanes.any fun l => s.threadBusy g.wg (g.lane l).tid s.uidNext
  let reads := match i with
    | .mma .. | .mmas .. | .mmab .. | .mresume .. | .mldf .. | .mstf .. | .mzero .. => true
    | .cvtq _ _ n _ _ _ | .cvtdq _ _ n _ _ _ => fsAscl (s.fslot g n.val) == 1
    | _ => false
  let orders := match i with | .seal .. | .emit .. | .emitx .. => true | _ => false
  let faulted := s.accs.any fun a => a.uid == g.uid && a.lanes.any fun q => q.fault.isSome && lanes.any fun l => (g.lane l).tid == q.tid
  if (regs ++ s.moreReads g ws i).any (s.useStalls g) ||
    ((wordPreds w i).any fun p => s.accs.any fun a => a.uid == g.uid && a.dst == .pred p) ||
    (match wordHandle i with | some h => s.accs.any fun a => a.uid == g.uid && a.dst == .handle h | none => false) ||
    (match readsHandle i with | some h => lanes.any (s.handleBlocks g h) | none => false) ||
    (reads && busy) || (orders && faulted) ||
    (match wordFlag i with | some f => (match hdrFlag g.cl.hdr f with | some c => ws != 0 && 15 ≤ g.cf.getD c 0 | none => false) | none => false) ||
    s.collectorFull g i lanes.length
  then some .port
  else if (0 < st.1 && 192 < (s.wg g.wg).pendingHandles + st.1) ||
    (0 < st.2.1 && 1024 < (s.batches.countP fun b => clusterOf b.core == clusterOf g.core) + st.2.1) ||
    (0 < st.2.2 && 32 < (s.mops.countP fun m => clusterOf m.core == clusterOf g.core) + st.2.2)
  then some .free
  else none

/-! ## Readiness and start of clauses (R144 to R146, R62) -/

/-- Whether a group of an ending or ended launch has to stop (R324). -/
def State.halted (s : State) (g : Group) : Bool := (s.launch g.launch).ending.isSome

/-- Whether every flag in WAIT is clear (R61). -/
def flagsClear (g : Group) (hdr : Addr) : Bool := (upFrom 0 12).all fun i => !(BitVec.ofNat 12 (hdrWait hdr)).getLsbD i || g.cf.getD i 0 == 0

/-- The clause that a group at a boundary would start: its path, the clause, and whether it resumes inside it. -/
def Group.startable (g : Group) : Option ((Addr × Option Addr) × Clause) :=
  match g.choosePath with
  | none => none
  | some p => (g.buffer.find? fun c => c.addr == p.1).map fun c => (p, c)

/-- The decoded word at which a group stands with its stall, if it decodes. -/
def State.stallHere (s : State) (g : Group) : Option Stall :=
  match g.clause with
  | none => none
  | some c =>
    let w := c.words.getD c.pos 0
    match s.decodeAt g w (c.pos + 1 == c.words.length) with
    | .error _ => none
    | .ok (i, regs) => s.stallOf g w i regs

/-- Whether the gating word at which a group waits can complete, and so the rest of its clause is ready (R144, R145, R199). A barrier
completes by an event of its own. -/
def State.gateOpen (s : State) (g : Group) : Bool :=
  match g.gate with
  | .none => true
  | .room => s.stallHere g != some .free
  | .accesses w copies => s.threadsDone g w copies
  | .objects need => need.all fun x => !s.objectBusy g x.1 x.2
  | .handles need => need.all fun x => (s.wg g.wg).handleSt x.2 != 1
  | .accum b n => s.accumFree g.wg b n
  | .sem _ need sat => need.all fun x => sat.getLsbD x.1
  | .tile _ need sat => need.all fun x => sat.getLsbD x.1
  | .bar _ | .nbar _ => false
  | .regroup => s.collectiveReady (s.groupsOf g.wg) g.uid g.pc

/-- Whether the current word of a group waits or stalls. -/
def State.wordWaits (s : State) (g : Group) : Bool :=
  g.clause.isSome && (match g.gate with
    | .none => (s.stallHere g).isSome
    | .bar _ => !s.barrierReady (s.wg g.wg) false
    | .nbar _ => !s.barrierReady (s.wg g.wg) true
    | _ => !s.gateOpen g)

/-- Whether a group stands at a word that waits, or before a header whose flags are not clear. -/
def State.waitsHere (s : State) (g : Group) : Bool :=
  s.wordWaits g || (g.clause.isNone && match g.startable with
    | some (p, c) => p.2.isNone && !flagsClear g c.hdr
    | none => false)

/-- The state without the operations whose faults are due in a group: what waits only for them goes on there. -/
def State.withoutDue (s : State) (g : Group) : State :=
  let has (f : ReturnKind → Bool) : Bool := g.due.any fun d => f d.kind
  let acc (a : Access) : Bool := has fun k => k == .deferred a.id
  let mop (m : Mop) : Bool := has fun k => k == .matrix m.id
  let g1 := (s.accs.filter acc).foldl (fun (g : Group) a => if a.uid == g.uid then g.cfDec a.cf else g) g
  let g1 := (s.mops.filter mop).foldl (fun (g : Group) m => if m.uid == g.uid then g.cfDec m.cf else g) g1
  { s.setGroup g1 with
    accs := s.accs.filter fun a => !acc a
    batches := s.batches.filter fun b => !has fun k => k == .batch b.id
    mops := s.mops.filter fun m => !mop m }
/-- Whether a group waits for nothing but the operations whose faults are due in it. -/
def State.waitsForDue (s : State) (g : Group) : Bool :=
  s.waitsHere g && (let t := s.withoutDue g; !t.waitsHere (t.group g.uid))

/-- Whether a group or context stands at a delivery point: between clauses, or at a word that waits (R201, R319). -/
def State.atDelivery (s : State) (g : Group) : Bool :=
  (g.clause.isNone || s.wordWaits g) && g.phase != .stopped && g.phase != .yielded && g.phase != .retired

/-- Whether a trap that is due may be delivered where a group stands now: that of a recalled lane at a clause boundary (R157), or where
the group waits for nothing else; in a handler only one of an operation that the handler has begun, which is a double fault, or one
that the handler itself waits for (R319). -/
def State.mayDeliver (s : State) (g : Group) (d : DueTrap) : Bool :=
  s.atDelivery g &&
  (match g.frame with
   | none => !d.tr.ej || g.clause.isNone || s.waitsForDue g
   | some f => (!d.tr.ej && f.since ≤ d.seq) || s.waitsForDue g)
/-- The order of traps that are due (R319): deferred faults in issue order, then recalled lanes by home lane. -/
def DueTrap.rank (d : DueTrap) : Nat :=
  if d.tr.ej then 2 ^ 80 + d.tr.lane else match d.kind with | .deferred _ | .matrix _ | .batch _ => d.seq | _ => 2 ^ 79
/-- The trap that is delivered next. -/
def State.nextDue (s : State) (g : Group) : Option DueTrap := (sortBy DueTrap.rank (g.due.filter (s.mayDeliver g))).head?

/-- Whether the clause of a group or context is ready (R144). -/
def State.clauseReady (s : State) (g : Group) : Bool :=
  g.phase == .waiting && !s.halted g && (g.ejectNext.isNone || g.frame.isSome) &&
  (match g.merge with | .donor _ => false | _ => true) &&
  (match g.clause with
   | some _ => s.gateOpen g && !((s.wg g.wg).preemptReq && g.gate != .none)
   | none =>
     !(s.wg g.wg).preemptReq && (s.nextDue g).isNone && !(64 ≤ g.quantum && 1 < g.paths.length) &&
     (match g.startable with
      | none => false
      | some (p, c) => p.2.isSome || (flagsClear g c.hdr && (g.sleeve.isSome || g.yldUntil ≤ s.clock g.core))))

/-- Notes the clock at which clauses became ready (R144). -/
def State.noteReady (s : State) : State :=
  { s with groups := s.groups.map fun (g : Group) =>
    if g.sleeve.isNone && g.readyAt.isNone && s.clauseReady g then { g with readyAt := some (s.clock g.core) } else g }

/-- Comes first at the issue choice of R145: priority, age, YIELD, rotation. -/
def State.startsBefore (s : State) (core : Nat) (x y : Group) : Bool :=
  let pr (g : Group) : Nat := (s.nodeOf g).pri
  let age (g : Group) : Nat := g.readyAt.getD (s.clock core)
  let rot (g : Group) : Nat := (g.slot + 48 - (s.core core).rotation) % 48
  if pr x != pr y then pr y < pr x
  else if age x != age y then age x < age y
  else if x.yielded != y.yielded then y.yielded
  else rot x < rot y

/-- The group whose clause starts next on a core (R145). -/
def State.chooseClause (s : State) (core : Nat) : Option Group :=
  (s.groups.filter fun g => g.core == core && g.sleeve.isNone && s.clauseReady g).foldl
    (fun b g => match b with | none => some g | some x => some (if s.startsBefore core g x then g else x)) none

/-- The open bypass results that the active lanes kept across their recall (R31, R157): none but at a resume point. -/
def Group.keptWindow (g : Group) : List Bypass :=
  let on := maskBits (g.active &&& g.live)
  ((on.flatMap fun l => (g.lane l).byp.map fun b => (b.1, b.2.2.2)).eraseDups).map fun k =>
    let at' (l : Nat) : Option (Word × Tag) := ((g.lane l).byp.find? fun b => b.1 == k.1 && b.2.2.2 == k.2).map fun b => (b.2.1, b.2.2.1)
    ⟨k.1, .general (laneSlots.map fun l => (at' l).getD (0, FULL)), maskOf (on.filter fun l => (at' l).isSome), k.2⟩

/-- A clause boundary on a core: a frequency that waits for one takes effect in its cluster (R349). -/
def State.boundaryClock (s : State) (core : Nat) : State :=
  if (s.cluster (clusterOf core)).nextF50.isSome then s.modCluster (clusterOf core) Cluster.takeClock else s
/-- Starts or restarts the clause of a group or context; a faulty header traps before any word (R62). -/
def State.beginClause (s : State) (g : Group) : State :=
  let run (s : State) (g : Group) : State :=
    let g := { g with phase := .issuing, readyAt := none, yielded := false }
    if g.sleeve.isSome then s.setGroup g
    else (s.setGroup g).modCore g.core fun c => { c with port := some g.uid, rotation := (g.slot + 1) % 48 }
  match g.clause with
  | some _ => run s g
  | none =>
    match g.startable with
    | none => s
    | some (p, c) =>
      let on := g.pathLanes p
      let q := if on &&& g.active &&& ~~~g.helper != 0 then g.quantum else 0
      let g := { ({ g with active := on }.helperSync) with quantum := q, buffer := g.buffer.filter fun x => x.addr != c.addr }
      if p.2.isNone && hdrBad c.hdr then s.boundaryTrap g (trapOf cILLEGAL illHeader g.active 0) c.addr .precise
      else
        let pos := match p.2 with | some r => (r - c.addr).toNat / 8 - 1 | none => 0
        let lanes := g.lanes.zipIdx.map fun (x : Lane × Nat) =>
          if g.active.getLsbD x.2 then { x.1 with resume := none, byp := [] } else x.1
        run (s.boundaryClock g.core) { g with clause := some { c with pos := pos }, window := g.keptWindow, lanes := lanes }

/-- CLAUSE_START (R145): the free issue port of a core starts or restarts the chosen ready clause; a Sleeve context starts its
own (R154). -/
def execClauseStart (p : IssuePort) (s : State) : Out :=
  match p with
  | .core c =>
    if (s.core c).port.isSome then .next s
    else
      let s := s.noteReady
      match s.chooseClause c with
      | none => .next s
      | some g => .next (s.beginClause g)
  | .sleeve u =>
    match s.group? u with
    | none => .next s
    | some g => if g.sleeve.isSome && s.clauseReady g then .next (s.beginClause g) else .next s

/-! ## Issue -/

/-- The write set of a slot of a P-form word (R72). -/
def slotMask (g : Group) : PSlot → Mask | .nop => 0 | .op _ gp gn _ _ => g.writeSet gp.val gn
/-- The registers that the slot from bit `n` of a P-form word names. -/
def slotUses (w : Addr) (n : Nat) : List RegUse := (readSlot (bits w.toNat n 31)).regs

/-- The first trap of the registers that lanes of `w` use, if any (R124, R336). -/
def State.usesTrap (s : State) (g : Group) (w : Mask) (regs : List RegUse) : Option Trap :=
  if w == 0 then none
  else (regs.filter fun u => u.kind != .named).findSome? fun u =>
    (upFrom u.first u.count).findSome? (s.regTrap g w (u.kind == .src || u.kind == .dstRead))
/-- The trap of the registers that a word uses, if any: of a P-form word each slot under its own guard, where a trap that slot 0
raises as it executes comes before slot 1's (R72). -/
def State.regTraps (s : State) (g : Group) (w : Addr) (i : Instr) (regs : List RegUse) : Option Trap :=
  match i with
  | .pFormWord s0 s1 =>
    (match s.usesTrap g (slotMask g s0) (slotUses w 0) with
     | some t => some t
     | none => match slotEval s0 s g with
       | .error _ => none
       | .ok _ => (s.usesTrap g (slotMask g s1) (slotUses w 31)).map fun t => { t with slot1 := true })
  | _ => s.usesTrap g (wordSet g w) (regs ++ s.recordReads g (wordSet g w) i)

/-- A write of a whole register replaces an uncorrectable word of it (R336). -/
def State.mendRegs (s : State) (g : Group) (ws : Mask) (regs : List RegUse) : State :=
  if s.ras.marks.isEmpty || g.live &&& ~~~ws != 0 then s
  else ((regs.filter fun u => u.kind == .dst).flatMap fun u => upFrom u.first u.count).foldl
    (fun s r => s.mendCluster g.core (if g.sleeve.isSome then 4 else 3) (g.uid * 2 ^ 8 + r)) s
/-- The uncorrectable marks that the results of a word end (R336); a transient result writes no register (R31). -/
def State.mendWord (s : State) (g : Group) (w : Addr) (i : Instr) (regs : List RegUse) : State :=
  match i with
  | .pFormWord s0 s1 => (s.mendRegs g (slotMask g s0) (slotUses w 0)).mendRegs g (slotMask g s1) (slotUses w 31)
  | _ => if wordTrn w then s else s.mendRegs g (wordSet g w) regs

/-- An access of GATHER or SCATTER joins the window of its core's collector (R171): the window of the other direction closes, and
a window with 256 requests or of 16 groups closes at once. The requests of a window make one access for each line (R287). -/
def State.joinCollector (s : State) (g : Group) (i : Instr) (id n : Nat) : State :=
  let join (gathers : Bool) : State :=
    if n == 0 then s
    else
      let new := ((s.accs.filter fun a => a.id == id).flatMap Access.lanes).map fun q => g.part * 2 ^ 64 + q.addr / 128
      let s := { s with accs := updWhere (fun a => a.id == id) (fun a => { a with coll := true }) s.accs }
      let who := if g.sleeve.isSome then 2 ^ 64 else g.uid
      let c : Collector := match (s.core g.core).coll with
        | some c => if c.gathers == gathers then c else ⟨gathers, s.clock g.core, 0, [], [], []⟩
        | none => ⟨gathers, s.clock g.core, 0, [], [], []⟩
      let c := { c with reqs := c.reqs + n, lines := (c.lines ++ new).eraseDups, groups := if c.groups.contains who then c.groups else who :: c.groups, accs := id :: c.accs }
      s.modCore g.core fun x => { x with coll := if 256 ≤ c.reqs || 16 ≤ c.groups.length then none else some c }
  match i with | .gather .. => join true | .scatter .. => join false | _ => s

/-- The group or context that a port issues for. -/
def State.issuer (s : State) (p : IssuePort) : Option Group :=
  match p with
  | .core c => (match (s.core c).port with | some u => s.group? u | none => none)
  | .sleeve u => (match s.group? u with | some g => if g.sleeve.isSome then some g else none | none => none)

/-- What follows the effect of a word: the window of the request collector, the operand latches and uncorrectable marks of the
registers it names as destinations, and the flags of lanes whose home group is another (R27, R171, R248, R336). -/
def State.afterIssue (s t : State) (g : Group) (w : Addr) (i : Instr) (regs : List RegUse) : State :=
  let ws := wordSet g w
  let t := t.joinCollector g i s.uidNext (if t.uidNext == s.uidNext then 0 else (maskBits ws).length)
  let t := if ws == 0 then t else t.unlatch g fun r => regs.any fun u => u.kind == .dst && u.first ≤ r && r < u.first + u.count
  (t.mendWord g w i regs).postFlags g.uid

/-- Issues the current word of a port: the checks of R76, then stalls, then the effect that `exec` gives it. A stalled word leaves
the state, but for a port it may not hold. For pre-emption a group stops at a word that waits, and an ejected lane at its next word
(R157, R326). -/
def State.issue (exec : Instr → State → Out) (p : IssuePort) (s : State) : Out :=
  match s.issuer p with
  | none => .next s
  | some g =>
    match g.clause with
    | none => .next s
    | some c =>
      let stop := (s.wg g.wg).preemptReq
      if g.phase != .issuing || s.halted g || (stop && g.sleeve.isSome) then .next s
      else
        let w := c.words.getD c.pos 0
        match s.decodeAt g w (c.pos + 1 == c.words.length) with
        | .error t => .next (s.takeTrap g t)
        | .ok (i, regs) =>
          match s.stallOf g w i regs with
          | some .port => .next (if stop then s.gateAt g .room else s)
          | some .free => .next (s.gateAt g .room)
          | none =>
            match s.regTraps g w i regs with
            | some t => .next (s.takeTrap g t)
            | none =>
              match exec i { s with cur := some g.uid } with
              | .next t =>
                .next (s.afterIssue { t with cur := none } g w i regs)
              | o => o

/-! ## Delivery of traps that are due (R201, R257, R319) -/

/-- Where execution resumes after a trap that is delivered now: the word that waits, or the next clause. -/
def Group.resumeHere (g : Group) (m : Mask) : Addr :=
  match g.clause with
  | some _ => g.pc
  | none => match (maskBits (m &&& g.live)).head? with
    | some l => (g.lane l).next
    | none => (g.lane ((maskBits g.live).headD 0)).next

/-- TRAP_DELIVERY (R319, R201): a merge dissolves, which leaves every fault with the group of its lanes; then the group takes the first
trap that is due. A Sleeve context stops for its recall (R157). -/
def execTrapDelivery (uid : Nat) (s : State) : Out :=
  match s.group? uid with
  | none => .next s
  | some g =>
    if (s.nextDue g).isNone then .next s
    else
      let s := s.dissolveOf uid
      let g := s.group uid
      match s.nextDue g with
      | none => .next s
      | some d =>
        let g1 := { g with due := g.due.filter fun x => x != d }
        let slots := maskOf ((maskBits g.live).filter fun l => d.tr.lanes.getLsbD (g.lane l).pos)
        match g.sleeve with
        | some x => .next (s.setGroup { g1 with phase := .stopped, sleeve := some { x with trap := some (d.ofLane (g.resumeHere slots)) } })
        | none =>
          let r := if d.tr.ej then d.tr else { d.tr with resume := g.resumeHere slots }
          .next ((s.setGroup g1).deliver uid r d.kind)

end Sys2Proof.Machine
end

