-- ==== Sys2Proof/Machine/Groups.lean ====
section
/-! DEFINITION. The life of a group between clauses: paths, merge, ejection with recall, and the rejoin timeout (R142 to R160). -/
namespace Sys2Proof.Machine
open Sys2Proof

/-! ## Slots and register words of a core (R10, R143) -/

/-- The register words a group occupies (R10). -/
def Decl.words (d : Decl) : Nat := (32 * d.ng + 2 * d.na + d.nu + 7) / 8 * 8
/-- The groups that hold a slot of a core. -/
def State.residents (s : State) (core : Nat) : List Group :=
  s.groups.filter fun g => g.core == core && g.sleeve.isNone && g.phase != .yielded && g.phase != .retired
/-- Whether a slot of a core is free (R143). -/
def State.slotFree (s : State) (core slot : Nat) : Bool := slot < 48 && !(s.residents core).any fun g => g.slot == slot
/-- The lowest free slot of a core. -/
def State.freeSlot? (s : State) (core : Nat) : Option Nat := (upFrom 0 48).find? (s.slotFree core)
/-- Whether a core has the register words of a group free (R10, R143). -/
def State.wordsFree (s : State) (core : Nat) (d : Decl) : Bool :=
  ((s.residents core).map fun g => g.decl.words).sum + d.words ≤ 65536

/-! ## Ejection and recall (R153 to R157) -/

/-- The context of one ejected lane (R153): V0 to Vb, predicates, handles, MEET, SRCNT and MODE, with a nesting count of 0. -/
def Group.context (g : Group) (uid l : Nat) : Group :=
  { g with
    uid := uid
    v := g.v.zipIdx.map fun (x : RegVal × Nat) => if x.2 < g.decl.ng then .general (g.spread x.2) else x.1
    cf := List.replicate 12 0
    launched := bit1 l
    live := bit1 l
    active := bit1 l
    helper := 0
    lanes := modAt (fun x => { x with state := .onPath, accr := 0 }) l g.lanes
    phase := .waiting
    sleeve := some ⟨g.uid, l, g.joinBound.getD 0, 0, g.posMask g.live, g.status, none, none⟩
    ejectNext := none, buffer := [], window := [], latch := [], due := [], gate := .none, quantum := 0
    readyAt := none, heldSince := none, heldFor := 0, yielded := false, yldUntil := 0 }

/-- The hand-over of the chosen side to the Sleeve (R153). -/
def State.handOver (s : State) (g : Group) (side : Mask) : State :=
  let s := (maskBits side).foldl (fun s l => { s with groups := s.groups ++ [g.context s.uidNext l], uidNext := s.uidNext + 1 }) s
  let g1 := g.modLanes side fun _ x => { x with state := .ejected }
  let g1 := { g1 with active := g1.active &&& ~~~side, ejectNext := none }
  let s := s.setGroup (g1.settle (s.clock g.core))
  if side == 0 then s else (s.bump g.core 2 1).bump g.core 3 (maskBits side).length

/-- EJECT (R153): once no register write is pending, the side that a BRA chose is handed over. -/
def execEject (uid : Nat) (s : State) : Out :=
  match s.group? uid with
  | none => .next s
  | some g =>
    match g.ejectNext with
    | none => .next s
    | some m => if g.frame.isSome || s.writesInto uid (m &&& g.live) then .next s else .next (s.handOver g (m &&& g.live))

/-- Whether an access of a context only waits for the replay of its faults. -/
def Access.onlyFaults (a : Access) : Bool := a.noted && a.lanes.all fun q => q.done || q.fault.isSome
/-- Whether the operations of a context have completed, but for faulting ones (R155, R157). -/
def State.contextDone (s : State) (u : Nat) : Bool :=
  (s.accs.all fun a => a.uid != u || a.onlyFaults) && (s.batches.all fun b => b.uid != u || b.state == .faulted) &&
  s.sliceqs.all fun q => q.uid != u
/-- Whether a register of a home group is locked against the copy back of R155. -/
def State.homeLocked (s : State) (h : Group) (bound : Nat) : Bool :=
  (upFrom 0 (bound + 1)).any fun r => s.regLocked h true r

/-- The path a recalled lane takes (R155, R157): held where it has arrived, else at its resume point. -/
def Group.recalledLane (c : Group) (l : Nat) (arrived : Bool) : LaneState × Addr × Option Addr :=
  let x := c.lane l
  if arrived then (x.state, x.next, none)
  else match c.clause with
    | some k => (.onPath, k.addr, some c.pc)
    | none => (.onPath, x.next, none)

/-- What a lane that is recalled inside a clause keeps of its transient window (R31, R157): nothing after a trap. -/
def Group.lanesWindow (c : Group) (l : Nat) (trapped : Bool) : List (Nat × Word × Tag × Nat) :=
  if trapped || c.clause.isNone then []
  else (c.window.filter fun b => b.w.getLsbD l).map fun b => let x := b.val.at l (c.lane l).home; (b.reg, x.1, x.2, b.left)

/-- Copies the state of a context back to its home slot and passes its operations to the group, with its faults (R155, R157). -/
def State.recallTo (s : State) (c : Group) (x : SleeveCtx) : State :=
  let l := x.slot
  let faults := (match x.trap with | some t => [t] | none => []) ++ c.due
  let arrived := x.arrived.isSome && faults.isEmpty
  let (st, next, resume) := c.recalledLane l arrived
  let s := s.passHome c.uid x.homeUid true
  let h := s.group x.homeUid
  let h1 := (upFrom 0 (min (x.bound + 1) c.decl.ng)).foldl (fun h r => setLaneWord h r l (c.stored r l)) h
  let h1 := { h1 with p := h1.p.zipIdx.map fun (y : Mask × Nat) =>
    if y.2 == 63 then y.1 else if (c.p.getD y.2 0).getLsbD l then y.1 ||| bit1 l else y.1 &&& ~~~bit1 l }
  let rec1 : Lane := { c.lane l with noEject := !arrived, byp := c.lanesWindow l (!faults.isEmpty) }
  let h1 := match h1.frame with
    | none => h1.modLane l fun _ => { rec1 with state := st, next := next, resume := resume }
    | some f => { h1.modLane l (fun _ => { rec1 with state := .ejected }) with
        frame := some { f with lanes := modAt (fun _ => (st, next, resume)) l f.lanes } }
  let h1 := { h1 with due := h1.due ++ faults.map (DueTrap.ofLane (resume.getD next)) }
  (((s.setGroup h1).unlatch h1 fun _ => true).postFlags x.homeUid).nudge x.homeUid

/-- Whether a lane of a workgroup has to come back for pre-emption or for the end of its launch (R156, R324). -/
def State.mustStop (s : State) (g : Group) : Bool := (s.wg g.wg).preemptReq || s.halted g

/-- RECALL (R155, R157): a context that has arrived at its WAITJ, or taken a trap, or must stop, goes back to its group once its
operations have completed. -/
def execRecall (uid : Nat) (s : State) : Out :=
  match s.group? uid with
  | none => .next s
  | some c =>
    match c.sleeve with
    | none => .next s
    | some x =>
      if !(c.phase == .stopped || s.mustStop c) || !s.contextDone uid || s.homeLocked (s.group x.homeUid) x.bound then .next s
      else .next (s.recallTo c x)

/-! ## Merge (R149 to R151) -/

/-- Whether a matrix operation holds a lock on a register of a group (R241). -/
def State.groupLocked (s : State) (g : Group) : Bool :=
  s.mops.any fun m => m.wg == g.wg && (m.reads ++ m.writes).any fun x => x.groups.contains g.gid

/-- Whether a group can take part in a merge by itself (R149); a lock stops the copies of a merge (R241). -/
def State.mergeAlone (s : State) (g : Group) : Bool :=
  g.phase == .waiting && g.clause.isNone && g.frame.isNone && g.due.isEmpty && g.ejectNext.isNone && g.sleeve.isNone &&
  g.merge == .none && g.cf.all (· == 0) && !s.writesPending g.uid && !s.groupLocked g && !s.hasEjected g.uid && modeMrgt g.mode != 0

/-- The lanes of the path that a group runs next. -/
def Group.chosen (g : Group) : Mask := match g.choosePath with | some p => if p.2.isNone then g.pathLanes p else 0 | none => 0

/-- Whether `h` and `d` satisfy R149 as host and donor. -/
def State.mergeable (s : State) (h d : Group) : Bool :=
  let a := h.chosen
  let b := d.chosen
  let na := (maskBits a).length
  let nb := (maskBits b).length
  let meets := ((maskBits a).map fun l => (h.lane l).meet) ++ (maskBits b).map fun l => (d.lane l).meet
  h.uid != d.uid && h.wg == d.wg && s.mergeAlone h && s.mergeAlone d && s.clauseReady h && 0 < na && 0 < nb &&
  (na ≤ modeMrgt h.mode || nb ≤ modeMrgt h.mode) &&
  h.choosePath.map Prod.fst == d.choosePath.map Prod.fst && allSame meets && meets.headD 0 != 0 &&
  ((laneSlots.filter d.onPath).all fun l => b.getLsbD l) && sameUniform h d &&
  nb ≤ 32 - (maskBits (h.live ||| h.helper)).length &&
  (nb < na || (na == nb && h.gid < d.gid))

/-- The merge of two groups (R150). -/
def State.mergeInto (s : State) (h d : Group) : State :=
  let from' := sortBy (fun l => (d.lane l).home) (maskBits d.chosen)
  let moved := (laneSlots.filter fun l => !(h.live ||| h.helper).getLsbD l).zip from'
  let slots := maskOf (moved.map Prod.fst)
  let h1 := moved.foldl (fun h (x : Nat × Nat) => (copyLane d h x.2 x.1 .onPath).modLane x.1 fun y => { y with accr := 0 }) h
  let whole := d.live &&& ~~~d.chosen == 0
  let on := h.chosen
  let h1 := { h1 with live := h1.live ||| slots, active := on ||| slots, merge := .host d.uid moved whole }
  let d1 := d.modLanes d.chosen fun _ x => { x with state := .donated }
  let d1 := { d1 with active := 0, merge := .donor h.uid, readyAt := none }
  let clk := s.clock h.core
  (((s.setGroup h1.helperSync).setGroup (d1.settle clk)).unlatch h fun _ => true).bump h.core 1 1

/-- MERGE (R149, R150): the pair whose host holds the oldest ready clause. -/
def execMerge (host donor : Nat) (s : State) : Out :=
  match s.group? host, s.group? donor with
  | some h, some d =>
    let t := s.noteReady
    let age (g : Group) : Nat := (t.group g.uid).readyAt.getD 0
    let on := s.residents h.core
    let older := on.any fun a => age a < age h && on.any fun b => s.mergeable a b
    if s.mergeable h d && !older then .next (s.mergeInto h d) else .next s
  | _, _ => .next s

/-! ## Paths, WAITJ and the rejoin timer (R123, R148, R158) -/

/-- PATH_QUANTUM (R148, Table 6.2): after 64 clauses of one path another one runs; a merge dissolves first. -/
def execPathQuantum (uid : Nat) (s : State) : Out :=
  match s.group? uid with
  | none => .next s
  | some g =>
    if g.phase != .waiting || g.clause.isSome || g.quantum < 64 || g.paths.length < 2 then .next s
    else
      let s := s.dissolveOf uid
      let g := s.group uid
      let on := match g.choosePath with | some p => g.pathLanes p | none => 0
      .next (s.setGroup { g with active := on, quantum := 0 }.helperSync)

/-- WAITJ_PASS (R123): every WAITJ of the group whose expected lanes have arrived passes. -/
def execWaitjPass (uid : Nat) (s : State) : Out :=
  match s.group? uid with
  | none => .next s
  | some g => if g.sleeve.isSome || g.phase == .issuing then .next s else .next (s.nudge uid)

/-- Whether a WAITJ at which lanes are held awaits an ejected lane (R158). -/
def Group.awaitsEjected (g : Group) : Bool :=
  g.heldAt.any fun x => laneSlots.any fun l => g.live.getLsbD l && (g.k.getD x.2 0).getLsbD l && (g.lane l).state == .ejected

/-- The lanes held at a WAITJ. -/
def Group.heldLanes (g : Group) : Mask :=
  maskOf (laneSlots.filter fun l => g.live.getLsbD l && match (g.lane l).state with | .held .. => true | _ => false)

/-- REJOIN_TIMEOUT (R158): the clocks in Held, over every stay since a WAITJ passed, have reached 2^RJTO. -/
def execRejoinTimeout (uid : Nat) (s : State) : Out :=
  match s.group? uid with
  | none => .next s
  | some g =>
    match g.heldSince with
    | none => .next s
    | some t =>
      let clk := s.clock g.core
      if g.phase != .held || g.heldFor + (clk - t) < 2 ^ modeRjto g.mode then .next s
      else
        let s := s.bump g.core 5 1
        let g := { g with heldSince := some clk, heldFor := 0 }
        let r := g.record { trapOf cBPT 0 g.heldLanes 0xFFFFFFFE with addr := g.heldAt.head?.map Prod.fst } false false (g.resumeHere g.heldLanes)
        let due := if modeRjtt g.mode then g.due ++ [⟨r, .bpt, 0⟩] else g.due
        if g.awaitsEjected then .next ((s.setGroup { g with phase := .yielded, heldSince := none, due := due }).bump g.core 6 1)
        else .next (s.setGroup { g with due := due })

/-- YIELDED_RESTORE (R158): a slot of the same core once the awaited lanes have returned. -/
def execYieldedRestore (uid slot : Nat) (s : State) : Out :=
  match s.group? uid with
  | none => .next s
  | some g =>
    if g.phase != .yielded || g.awaitsEjected || !s.slotFree g.core slot || !s.wordsFree g.core g.decl then .next s
    else .next (s.setGroup ({ g with phase := .waiting, slot := slot }.settle (s.clock g.core)))

end Sys2Proof.Machine
end

