-- ==== Sys2Proof/Machine/QueueOps.lean ====
section
/-! DEFINITION. Reads and stores of the command processor and of the graph scheduler, queue errors, and the completion of packets
(R292, R298 to R300, R351). -/
namespace Sys2Proof.Machine
open Sys2Proof

/-! ## Reads and stores through a partition's page tables (R351) -/

/-- The pieces of `n` bytes from an address that lie in one aligned 8 bytes each: address and length. -/
def pieces8 : Nat → Nat → Nat → List (Nat × Nat)
  | 0, _, _ => []
  | k + 1, a, n => if n == 0 then [] else let m := min n (8 - a % 8); (a, m) :: pieces8 k (a + m) (n - m)

/-- Reads `n` bytes of a partition's memory; none where the read faults or meets an uncorrectable granule. -/
def State.vaRead (s : State) (part va n : Nat) : Option (List Byte) :=
  (pieces8 n va n).foldr (fun x r =>
    match r, s.translate part x.1 needR true with
    | some bs, .ok p => if s.badAt p.key x.2 then none else some (s.homeRead p x.2 ++ bs)
    | _, _ => none) (some [])
/-- The tags of `n` words from an aligned address (R59). -/
def State.vaTags (s : State) (part va n : Nat) : List Tag :=
  (upFrom 0 n).map fun i => match s.translate part (va + 4 * i) needR true with | .ok p => s.tagAt p (va + 4 * i) | .error _ => FULL
/-- A little-endian number in memory. -/
def State.vaNum (s : State) (part va n : Nat) : Option Nat := (s.vaRead part va n).map ofBytes
/-- A system-scope store: none where any byte fails translation or permission, and then nothing is written (R351). -/
def State.vaStore (s : State) (part va : Nat) (bs : List Byte) : Option State :=
  let ps := pieces8 bs.length va bs.length
  if ps.all fun x => match s.translate part x.1 needW true with | .ok _ => true | .error _ => false then
    some (ps.foldl (fun s x =>
      match s.translate part x.1 needW true with
      | .ok p => s.pageWrite p x.1 ((bs.drop (x.1 - va)).take x.2) (List.replicate ((x.1 % 4 + x.2 + 3) / 4) FULL)
      | .error _ => s) s)
  else none

/-! ## Vectors and ranges of a partition (R310, R312) -/

/-- The partition that owns a queue: the enabled one whose range holds it. -/
def State.queueOwner (s : State) (q : Nat) : Nat := ((upFrom 0 8).find? fun n => (s.part n).cfg.getLsbD 0 && s.ownsQueue n q).getD 0
/-- VBASE (Table 13.2). -/
def Partition.vbase (p : Partition) : Nat := bits p.ranges.toNat 41 11
/-- VCNT. -/
def Partition.vcnt (p : Partition) : Nat := bits p.ranges.toNat 30 11
/-- SBASE. -/
def Partition.sbase (p : Partition) : Nat := bits p.ranges.toNat 20 10
/-- SCNT. -/
def Partition.scnt (p : Partition) : Nat := bits p.ranges.toNat 10 10
/-- FETCHW. -/
def Partition.fetchw (p : Partition) : Nat := bits p.qos.toNat 0 4
/-- Partition enabled. -/
def Partition.en (p : Partition) : Bool := p.cfg.getLsbD 0

/-! ## Queue state (R299, R300) -/

/-- A queue enters OVERRUN or ERROR: the status record where SREC can be stored, and the queue-error vector (R300, R351). -/
def State.queueStop (s : State) (q cause errc : Nat) : State :=
  let n := s.queueOwner q
  let s := s.modQueue q fun x => { x with st := if cause == 1 then 2 else 3, errc := if cause == 2 then errc else x.errc, pending := false }
  let x := s.queue q
  let rec1 : List Byte := [q * 2 ^ 16 + errc * 2 ^ 8 + cause, x.ridx.toNat, x.widx.toNat, s.time].flatMap (toBytes 8)
  let s := match s.vaStore n x.srec.toNat rec1 with | some t => t | none => s
  s.post n 0
/-- A queue enters ERROR (Table 12.6). -/
def State.queueError (s : State) (q errc : Nat) : State := s.queueStop q 2 errc

/-- TYPE of a packet header (Table 12.1). -/
def Packet.type (p : Packet) : Nat := bits (p.words.headD 0).toNat 0 8
/-- BAR. -/
def Packet.bar (p : Packet) : Bool := (p.words.headD 0).getLsbD 12
/-- ARG. -/
def Packet.arg (p : Packet) : Nat := bits (p.words.headD 0).toNat 16 48
/-- Payload word `i`. -/
def Packet.pay (p : Packet) (i : Nat) : Addr := p.words.getD (i + 1) 0

/-- Whether the JUMP at the head of a list has completed: the last packet of its buffer has started (R298). -/
def jumpDone (jump : Option (Nat × Nat)) (rest : List Packet) : Bool :=
  let mine := rest.takeWhile Packet.jumped
  mine.all Packet.started && (mine.length < rest.length || jump.isNone)
/-- Removes JUMP packets that have completed. -/
def dropJumps (jump : Option (Nat × Nat)) : List Packet → List Packet
  | [] => []
  | p :: ps => if p.type == 9 && p.started && jumpDone jump ps then dropJumps jump ps else p :: dropJumps jump ps

/-- What follows a change of a queue's packets: JUMP packets complete, and a queue being disabled reads disabled once its last
packet has completed (R298, R299). -/
def State.tidyQueue (s : State) (q : Nat) : State :=
  s.modQueue q fun x =>
    let ps := dropJumps x.jump x.packets
    { x with packets := ps, st := if !x.en && ps.isEmpty then 0 else x.st }

/-- A packet completes. -/
def State.packetDone (s : State) (q id : Nat) : State :=
  (s.modQueue q fun x => { x with packets := x.packets.filter fun p => p.id != id }).tidyQueue q

end Sys2Proof.Machine
end

