-- ==== Sys2Proof/Machine/Graph.lean ====
section
/-! DEFINITION. The graph descriptor: its tables as read at launch start, the refusal codes of Table 10.8, and what the graph
scheduler derives from it (R260 to R262, R269 to R274, R281). -/
namespace Sys2Proof.Machine
open Sys2Proof

/-! ## Derived quantities of a graph (R267, R269, R271, R272, R281) -/

/-- Bytes of a queue slot of a record of `z` bytes (R267). -/
def slotBytes (z : Nat) : Nat := 16 * ((16 + z + z / 4 + 15) / 16)
/-- Groups of the largest reserving unit of a node: G(Y) (R269). -/
def Node.unitGroups (n : Node) : Nat :=
  match n.kind with
  | .lane => 1
  | .collect => (n.cmax + 32) / 32
  | .broadcast => n.wgg + 1
  | .neighbourhood => (n.wgg + 1) * ((n.nw + 1) * (n.nh + 1))
/-- Σ MAXOUT of a node's edges into a target. -/
def Node.outTo (n : Node) (x : Nat) : Nat := ((n.edges.filter fun e => e.target == x).map Edge.maxout).sum
/-- H(X) in bytes (R272). -/
def headroom (ns : List Node) (x : Nat) : Nat :=
  (ns.map fun y => y.unitGroups * slotBytes (ns.getD x default).z * y.outTo x).foldl max 0
/-- Successors of a node over the edges that satisfy a condition. -/
def succs (ns : List Node) (f : Edge → Bool) (x : Nat) : List Nat := (((ns.getD x default).edges.filter f).map Edge.target).eraseDups
/-- The nodes reached from a list in at most `k` steps, with the list. -/
def reachFrom (ns : List Node) (f : Edge → Bool) : Nat → List Nat → List Nat
  | 0, xs => xs
  | k + 1, xs => reachFrom ns f k ((xs ++ xs.flatMap (succs ns f)).eraseDups)
/-- The nodes that a node reaches over at least one edge. -/
def reach (ns : List Node) (f : Edge → Bool) (x : Nat) : List Nat := reachFrom ns f ns.length (succs ns f x)
/-- Whether some node reaches itself. -/
def cyclic (ns : List Node) (f : Nat → Edge → Bool) : Bool :=
  (upFrom 0 ns.length).any fun x => (reachFrom (ns.zipIdx.map fun (y : Node × Nat) => { y.1 with edges := y.1.edges.filter (f y.2) })
    (fun _ => true) ns.length (((ns.getD x default).edges.filter (f x)).map Edge.target)).contains x
/-- rank(X): the longest path into a node over edges with INC = 0 (R271). -/
def rankOf (ns : List Node) : Nat → Nat → Nat
  | 0, _ => 0
  | k + 1, x => ((upFrom 0 ns.length).map fun y =>
      if ((ns.getD y default).edges.any fun e => e.target == x && e.inc == 0) then rankOf ns k y + 1 else 0).foldl max 0
/-- The component of a node (R281). -/
def component (ns : List Node) (x : Nat) : List Nat :=
  x :: ((reach ns (fun _ => true) x).filter fun y => y != x && (reach ns (fun _ => true) y).contains x)

/-! ## Reading the descriptor (R260 to R262) -/

/-- What the reader has found: the refusal codes and whether reading can go on. -/
abbrev Codes := List Nat
/-- A refusal code when a condition holds. -/
def code (c : Nat) (b : Bool) : Codes := if b then [c] else []
/-- An address field (R260): its value, with the codes of its reserved bits and its alignment. -/
def addrField (v align : Nat) : Codes := code 1 (2 ^ 57 ≤ v) ++ code 3 (v % align != 0)
/-- A little-endian field of a list of bytes. -/
def field (bs : List Byte) (off n : Nat) : Nat := ofBytes ((bs.drop off).take n)
/-- Whether a MODE word holds a reserved value (Table 1.6). -/
def modeWordBad (m : Nat) : Bool := modeReserved (BitVec.ofNat 32 m)

/-- A record type (Table 10.6): size in bytes and MAP, with its codes. -/
def readType (w : Nat) : Codes × Nat × Nat :=
  let z := 8 * (w % 8 + 1)
  let map := bits w 8 32
  let two (i : Nat) : Nat := bits map (2 * i) 2
  (code 1 (bits w 40 24 != 0 || bits w 3 5 != 0 || (upFrom 0 16).any fun i => 2 ≤ two i || (z / 4 ≤ i && two i != 0)), z, map)
/-- An edge (Table 10.5), with its codes. -/
def readEdge (nn w : Nat) : Codes × Edge :=
  (code 1 (bits w 32 32 != 0 || bits w 13 3 != 0) ++ code 2 (nn ≤ bits w 0 12), ⟨bits w 16 16, bits w 12 1, bits w 0 12⟩)
/-- A launch record (Table 10.7), with its codes. -/
def readLaunchRec (bs : List Byte) : Codes × LaunchRec :=
  let prvb := field bs 0x08 8
  let ordb := field bs 0x18 8
  let tiles := field bs 0x28 4
  let slot (i : Nat) : List Addr := (upFrom 0 4).map fun j => BitVec.ofNat 64 (field bs (0x40 + 32 * i + 8 * j) 8)
  let win (i : Nat) : Nat × Nat × Nat := (field bs (0x140 + 16 * i) 8, field bs (0x148 + 16 * i) 4, field bs (0x14C + 16 * i) 4)
  let badSlot (i : Nat) : Bool :=
    let c := field bs (0x40 + 32 * i) 8
    bits c 17 7 != 0 || 2 ≤ bits c 12 2 || 2 ≤ bits c 10 2 || 2 ≤ bits c 8 2 || 9 ≤ bits c 4 4 || 9 ≤ bits c 0 4 ||
    2 ^ 57 ≤ field bs (0x48 + 32 * i) 8 || 2 ^ 57 ≤ field bs (0x50 + 32 * i) 8 || 2 ^ 57 ≤ field bs (0x58 + 32 * i) 8
  let badWin (i : Nat) : Bool := let w := win i; 2 ^ 57 ≤ w.1 || w.2.1 % 4 != 0 || 2 ^ 20 < w.2.1 || w.2.2 != 0
  (addrField prvb 65536 ++ addrField ordb 65536 ++ code 2 (16384 < tiles) ++
    code 1 (((bs.drop 0x2C).take 20).any (· != 0) || field bs 0x20 8 % 65536 != 0 || (upFrom 0 8).any badSlot || (upFrom 0 8).any badWin) ++
    code 3 ((upFrom 0 8).any fun i => field bs (0x48 + 32 * i) 8 % 4 != 0 || field bs (0x50 + 32 * i) 8 % 4 != 0),
   ⟨BitVec.ofNat 64 (field bs 0 8), prvb, field bs 0x10 8, ordb, field bs 0x20 8, tiles, (upFrom 0 8).map slot,
    (upFrom 0 8).map fun i => ((win i).1, (win i).2.1)⟩)

/-- The kind of Table 10.3. -/
def kindOf (k : Nat) : NodeKind := match k with | 0 => .lane | 1 => .collect | 2 => .broadcast | _ => .neighbourhood

/-- A node entry (Tables 10.2 to 10.4), with its codes; `lr` reads its launch record. -/
def readNode (bs : List Byte) (types : List (Nat × Nat)) (edges : List Edge) (lr : Nat → Codes × LaunchRec) : Codes × Node :=
  let ca := field bs 0 8
  let modew := field bs 8 4
  let regw := field bs 0x0C 4
  let kw := field bs 0x10 4
  let sw := field bs 0x14 4
  let mw := field bs 0x18 4
  let ew := field bs 0x1C 4
  let la := field bs 0x20 8
  let rw := field bs 0x28 4
  let pw := field bs 0x2C 4
  let kind := bits kw 0 2
  let remote := bits kw 15 1 == 1
  let gto := bits kw 10 5
  let d : Decl := ⟨bits regw 0 8, bits regw 8 8, bits regw 16 8⟩
  let ty := types[bits kw 24 8]?
  let z := match ty with | some t => t.1 | none => 8
  let nout := bits ew 15 4
  let first := bits ew 0 15
  let prv := bits mw 10 13
  let scr := bits mw 0 10
  let unused := (1 < kind && (bits sw 27 5 != 0)) || (kind != 2 && bits sw 23 4 != 0) || (kind != 3 && bits sw 18 5 != 0) ||
    (kind != 1 && bits sw 8 10 != 0) || (kind < 2 && bits sw 0 5 != 0)
  let l : Codes × LaunchRec := if remote then ([], default) else lr la
  (code 1 (unused || bits sw 5 3 != 0 || 5 < bits sw 18 3 || bits regw 24 8 != 0 || bits mw 23 9 != 0 || bits ew 19 13 != 0 ||
      bits rw 24 8 != 0 || bits rw 12 4 != 0 || bits pw 16 16 != 0 || ((bs.drop 0x30).take 16).any (· != 0) ||
      (1 ≤ gto && gto ≤ 3) || 20 < gto || (!remote && modeWordBad modew)) ++
    code 2 (224 < d.total || d.ng % 2 == 1 || d.na % 2 == 1 || d.nu % 2 == 1 || ty.isNone || 8 < nout || edges.length < first + nout ||
      4096 < prv || 512 < scr || (kind < 2 && z / 4 ≤ bits sw 27 4) || (kind == 2 && z / 4 ≤ bits sw 23 4)) ++
    addrField ca 8 ++ addrField la 64 ++ l.1,
   { code := BitVec.ofNat 64 ca, modew := BitVec.ofNat 32 modew, decl := d, rtype := bits kw 24 8, z := z,
     tileMap := (match ty with | some t => t.2 | none => 0), accel := bits kw 16 8, remote := remote, gto := gto,
     dbound := bits kw 5 5, pri := bits kw 2 3, kind := kindOf kind, binen := bits sw 31 1 == 1, binw := bits sw 27 4,
     goff := bits sw 23 4, nh := bits sw 21 2, nw := bits sw 18 3, cmax := bits sw 8 10, wgg := bits sw 0 5,
     prv := prv, scr := 4096 * scr, edges := (edges.drop first).take nout, lrec := l.2, rport := bits rw 16 8,
     rnode := bits rw 0 12, pgrant := bits pw 0 16 })

/-- A graph as read at launch start. -/
structure Graph where
  nodes : List Node
  entry : Nat
  det : Bool
  port : Option Nat
  spillb : Nat
  spills : Nat
  mspill : Nat
  deriving DecidableEq, Repr, Inhabited

/-- The `n` entries of `w` bytes of a table, each read by itself; none where the table is misaligned or the read faults. -/
def State.table (s : State) (part va n w align : Nat) : List (Option (List Byte)) :=
  (upFrom 0 n).map fun i => if va % align == 0 then s.vaRead part (va % 2 ^ 57 + i * w) w else none

/-- Reads a descriptor with its tables (R262): the codes found, and the graph when all could be read. Every table and entry is read
whatever the others hold, so the lowest code stands; a table is read up to the largest count that Table 10.1 allows. -/
def State.readGraph (s : State) (part ga : Nat) : Codes × Option Graph :=
  match (if ga % 64 == 0 then s.vaRead part ga 64 else none) with
  | none => ([3], none)
  | some h =>
    let nn := field h 0 2
    let nt := field h 4 2
    let ne := field h 8 4
    let fl := field h 0x0C 4
    let na := field h 0x10 8
    let ea := field h 0x18 8
    let ta := field h 0x20 8
    let sb := field h 0x28 8
    let sz := field h 0x30 8
    let ms := field h 0x38 4
    let nb := s.table part na (min nn 4096) 64 64
    let eb := s.table part ea (min ne 32768) 8 8
    let tb := s.table part ta (min nt 256) 8 8
    let types := tb.map fun b => match b with | some b => readType (ofBytes b) | none => ([3], 64, 0)
    let edges := eb.map fun b => match b with | some b => readEdge nn (ofBytes b) | none => ([3], default)
    let lr (a : Nat) : Codes × LaunchRec :=
      if a % 64 != 0 then ([], default)
      else match s.vaRead part (a % 2 ^ 57) 448 with | some b => readLaunchRec b | none => ([3], default)
    let nodes := nb.map fun b => match b with
      | some b => readNode b (types.map Prod.snd) (edges.map Prod.snd) lr
      | none => ([3], default)
    let codes := code 1 (field h 6 2 != 0 || field h 0x3C 4 != 0 || bits fl 16 16 != 0 || bits fl 2 6 != 0 || sz % 65536 != 0) ++
      addrField na 64 ++ addrField ea 8 ++ addrField ta 8 ++ addrField sb 65536 ++
      code 2 (1024 < ms || nn ≤ field h 2 2 || nn == 0 || 4096 < nn || nt == 0 || 256 < nt || 32768 < ne) ++
      types.flatMap Prod.fst ++ edges.flatMap Prod.fst ++ nodes.flatMap Prod.fst
    (codes, if codes.isEmpty then
      some ⟨nodes.map Prod.snd, field h 2 2, fl % 2 == 1, if bits fl 1 1 == 1 then some (bits fl 8 8) else none, sb, sz, ms⟩ else none)

/-- The codes that concern the graph as a whole (Table 10.8). -/
def State.graphCodes (s : State) (part : Nat) (g : Graph) : Codes :=
  let ns := g.nodes
  code 4 (cyclic ns fun _ e => e.inc == 0) ++ code 5 (g.det && cyclic ns fun x e => e.target != x) ++
  code 6 (g.spills < ((upFrom 0 ns.length).map (headroom ns)).sum) ++
  code 7 ((ns.getD g.entry default).remote || ns.any fun n => n.remote && !n.edges.isEmpty) ++
  code 8 (match g.port with | some p => s.launches.any fun l => l.port == some p | none => false) ++
  code 10 (g.det && ns.any fun n => !n.remote && bits (s.part part).shapec.toNat 0 15 < n.lrec.tiles)

/-- The entry records of a LAUNCH (R294): words and tags in order, none where a read faults. -/
def State.entryRecords (s : State) (part va n z : Nat) : Option (List (List Word × List Tag)) :=
  (s.vaRead part va (n * z)).map fun bs => (upFrom 0 n).map fun i =>
    (toWords (z / 4) (ofBytes ((bs.drop (i * z)).take z)), s.vaTags part (va + i * z) (z / 4))

end Sys2Proof.Machine
end

