-- ==== Sys2Proof/Machine/Form.lean ====
section
/-! DEFINITION. The graph scheduler: closure and finality, gathering, reservation, formation and placement of workgroups, their
retirement, and the start and end of a launch (R263 to R274, R279 to R283, R294, R302, R303, R306, R307). -/
namespace Sys2Proof.Machine
open Sys2Proof

/-! ## Closure and finality (R264, R281, R282) -/

/-- A node of a launch. -/
def Launch.node (l : Launch) (n : Nat) : Node := l.nodes.getD n default
/-- The queued records of a node. -/
def Launch.recsAt (l : Launch) (n : Nat) : List Rec := l.queues.getD n []
/-- The workgroups of a node that have formed and not retired, saved ones too. -/
def State.liveWgs (s : State) (l : Launch) (n : Nat) : List Wg :=
  (s.wgs.filter fun w => w.launch == l.num && w.node == n && w.state == .live) ++
  (s.saved.map Saved.wg).filter fun w => w.launch == l.num && w.node == n
/-- The units of a node that have their numbers and have not formed (R283). -/
def Launch.assignedAt (l : Launch) (n : Nat) : List FormUnit := l.assigned.filter fun u => u.node == n
/-- The local nodes with an edge into a node. -/
def Launch.preds (l : Launch) (x : Nat) : List Nat :=
  (upFrom 0 l.nodes.length).filter fun y => (l.node y).edges.any fun e => e.target == x
/-- The remote sources of a node that have not closed: senders that hold permits, and connects that are held (R276, R281). -/
def State.openSources (s : State) (l : Launch) (x : Nat) : List Receiver :=
  (l.receivers.filter fun r => r.node == x && !r.closed) ++
  (s.connects.filter fun c => l.port == some c.port && c.rnode == x).map fun c => ⟨c.sender, c.accel, x, [], [], 0, false, []⟩
/-- Whether nothing of a node is queued, about to form or live. -/
def State.idleNode (s : State) (l : Launch) (x : Nat) : Bool :=
  (l.recsAt x).isEmpty && !(l.grids.any fun g => g.node == x) && (l.assignedAt x).isEmpty && (s.liveWgs l x).isEmpty
/-- Whether a node is closed (R281); `k` bounds the walk over the components. -/
def State.closedNode (s : State) (l : Launch) : Nat → Nat → Bool
  | 0, _ => false
  | k + 1, x =>
    let c := component l.nodes x
    c.all fun y => (s.openSources l y).isEmpty && s.idleNode l y && ((l.preds y).filter fun z => !c.contains z).all (State.closedNode s l k)
/-- Whether every outer source of every node of a component is closed. -/
def State.sourcesClosed (s : State) (l : Launch) (x : Nat) : Bool :=
  let c := component l.nodes x
  c.all fun y => (s.openSources l y).isEmpty && ((l.preds y).filter fun z => !c.contains z).all (s.closedNode l l.nodes.length)
/-- Whether a node is closed-fed (R264). -/
def State.closedFed (s : State) (l : Launch) (x : Nat) : Bool :=
  let c := component l.nodes x
  s.sourcesClosed l x &&
  c.all fun y => !((l.node y).edges.any fun e => c.contains e.target) || ((s.liveWgs l y).isEmpty && (l.assignedAt y).isEmpty)

/-- The key of a record as one number (R282). -/
def Rec.key (r : Rec) : Nat := (((r.cls * 2 ^ 8 + r.sacc) * 2 ^ 16 + r.snode) * 2 ^ 64 + r.sgseq) * 2 ^ 32 + r.eidx
/-- The groups of a launch, saved ones too. -/
def State.launchGroups (s : State) (l : Launch) : List Group :=
  (s.groups ++ s.saved.flatMap Saved.groups).filter fun g => g.launch == l.num && g.sleeve.isNone
/-- Whether a local workgroup with a GSEQ no higher than `seq` has still to form or to retire (R282). -/
def State.seqOpen (s : State) (l : Launch) (n seq : Nat) : Bool :=
  ((l.assignedAt n).any fun u => u.gseq ≤ seq) ||
  (s.launchGroups l).any fun g => g.node == n && g.gseq ≤ seq && (s.liveWgs l n).any fun w => w.uid == g.wg
/-- Whether an open remote source may still send a record with a lower source than (SACC, SNODE): one of a lower accelerator, or one of
the same that has not told which nodes lie behind it, or names a lower node (R282). -/
def Receiver.below (v : Receiver) (sacc snode : Nat) : Bool :=
  v.accel < sacc || (v.accel == sacc && (v.told.isEmpty || v.told.any fun t => t.1 < snode))
/-- Whether a record in the queue of node `x` is final (R282): every lower source is closed, and its own source has formed and retired
every workgroup up to the record's. Of a remote source that is what its scheduler has told. -/
def State.finalRec (s : State) (l : Launch) (x : Nat) (r : Rec) : Bool :=
  r.cls == 0 ||
  (!((s.openSources l x).any fun v => v.below r.sacc r.snode) &&
   ((l.preds x).filter fun y => s.accel l.part < r.sacc || (s.accel l.part == r.sacc && y < r.snode)).all (s.closedNode l l.nodes.length) &&
   match r.sender with
   | some v => !((s.openSources l x).any fun o => o.sender == v && o.accel == r.sacc && aget 0 o.told r.snode ≤ r.sgseq)
   | none => !s.seqOpen l r.snode r.sgseq)

/-! ## Gathering (R263 to R265, R283) -/

/-- The records that wait at a node in the order in which it takes them. -/
def Launch.ordered (l : Launch) (n : Nat) : List Rec := if l.det then sortBy Rec.key (l.recsAt n) else l.recsAt n
/-- The bin of a record (R265). -/
def Node.binOf (nd : Node) (r : Rec) : Nat := if nd.binen then (r.words.getD nd.binw 0).toNat else 0
/-- The records of a full workgroup (Table 10.9). -/
def Node.perWg (nd : Node) : Nat := match nd.kind with | .lane => 32 | .collect => nd.cmax + 1 | _ => 1
/-- The bins of a node with a record, ascending; a node that gathers none has the one bin 0. -/
def Launch.bins (l : Launch) (n : Nat) : List Nat :=
  match (l.node n).kind with
  | .lane | .collect => sortBy id (((l.recsAt n).map (l.node n).binOf).eraseDups)
  | _ => [0]
/-- The records of a bin, in order. -/
def Launch.inBin (l : Launch) (n b : Nat) : List Rec := (l.ordered n).filter fun r => (l.node n).binOf r == b

/-- In deterministic mode, the key of the last record of a bin's first full chunk, when all its records are final (R283). -/
def State.fullChunk (s : State) (l : Launch) (n b : Nat) : Option Nat :=
  let c := (l.inBin n b).take (l.node n).perWg
  if c.length == (l.node n).perWg && c.all (s.finalRec l n) then (c.getLast?).map Rec.key else none

/-- Why a lane or collect workgroup may form: it is full or closed-fed, or its oldest record is too old (R264). -/
inductive Cause where | ready | timeout
  deriving DecidableEq, Repr

/-- Whether a record has waited 2^GTO clocks at a node (R264): the clocks of the partition's lowest running cluster, DESIGN CHOICE (22). -/
def State.aged (s : State) (l : Launch) (n : Nat) (r : Rec) : Bool := r.time + 2 ^ (l.node n).gto ≤ s.partClock l.part

/-- The records that the next workgroup of a bin of a lane or collect node takes, if it may form now (R264, R265, R283). -/
def State.chunk (s : State) (l : Launch) (n b : Nat) (cause : Cause) : Option (List Rec) :=
  let nd := l.node n
  let q := l.inBin n b
  let c := q.take nd.perWg
  if q.isEmpty then none
  else if l.det then
    if cause == .timeout then none
    else
      let fulls := (l.bins n).filterMap (s.fullChunk l n)
      match s.fullChunk l n b with
      | some k => if fulls.all (k ≤ ·) then some c else none
      | none => if fulls.isEmpty && s.closedFed l n && (l.bins n).head? == some b && q.all (s.finalRec l n) then some c else none
  else if cause == .timeout then (if nd.gto != 0 && (q.head?.map (s.aged l n)).getD false then some c else none)
  else if nd.perWg ≤ q.length then some c
  else if s.closedFed l n && (l.bins n).head? == some b then some c
  else none

/-- The record whose grid a broadcast or neighbourhood node launches now: the one in progress, else the next (R264, R283). -/
def State.gridRecord (s : State) (l : Launch) (n : Nat) : Option Rec :=
  match l.grids.find? (fun g => g.node == n) with
  | some g => some g.record
  | none => match l.ordered n with | r :: _ => if l.det && !s.finalRec l n r then none else some r | [] => none

/-- Workgroups that a record of a node launches (R263). -/
def Node.gridSize (nd : Node) (r : Rec) : Nat :=
  match nd.kind with | .broadcast => min (r.words.getD nd.goff 0).toNat (2 ^ 24) | _ => 1

/-- The input records of the next workgroup of a node, or of a neighbourhood's next set of members, if it may form now. -/
def State.nextUnit (s : State) (l : Launch) (n b : Nat) (cause : Cause) : Option (List Rec) :=
  match (l.node n).kind with
  | .lane | .collect => s.chunk l n b cause
  | _ => if cause == .timeout then none
    else match s.gridRecord l n with | some r => if (l.node n).gridSize r == 0 then none else some [r] | none => none

/-- Groups of one workgroup with these records (Table 10.9). -/
def Node.wgGroups (nd : Node) (recs : List Rec) : Nat :=
  match nd.kind with | .lane => 1 | .collect => (recs.length + 31) / 32 | _ => nd.wgg + 1
/-- Groups of a reserving unit with these records (R269). -/
def Node.groupsFor (nd : Node) (recs : List Rec) : Nat := nd.wgGroups recs * nd.members

/-- Takes records out of a node's queue; a grid notes the workgroups still to come (R263). -/
def Launch.takeRecs (l : Launch) (n : Nat) (recs : List Rec) : Launch :=
  let nd := l.node n
  let gone (q : List Rec) : List Rec := q.filter fun r => !recs.any fun x => x.arrival == r.arrival
  match nd.kind, recs with
  | .broadcast, [r] =>
    if l.grids.any (fun g => g.node == n) then
      { l with grids := (l.grids.map fun g => if g.node == n then { g with left := g.left - 1 } else g).filter fun g => g.left != 0 }
    else
      let left := nd.gridSize r - 1
      { l with queues := modAt gone n l.queues, grids := if left == 0 then l.grids else l.grids ++ [⟨n, r, left⟩] }
  | _, _ => { l with queues := modAt gone n l.queues }
/-- The next unit of a node with its numbers: consecutive WGID and GSEQ in the order of the units (R263, R283). -/
def Launch.unitOf (l : Launch) (n : Nat) (recs : List Rec) : FormUnit := ⟨n, recs, l.nextGseq.getD n 0, l.nextWgid.getD n 0⟩
/-- Takes the records and the numbers of the next unit of a node. -/
def Launch.takeUnit (l : Launch) (u : FormUnit) : Launch :=
  let nd := l.node u.node
  let l := l.takeRecs u.node u.recs
  { l with nextWgid := modAt (· + nd.members) u.node l.nextWgid, nextGseq := modAt (· + nd.groupsFor u.recs) u.node l.nextGseq }

/-- LCORE of a unit (R263, R283). -/
def FormUnit.lcore (u : FormUnit) : Nat := u.gseq % 1024
/-- The units of a list that no earlier one on the same logical core holds back (R283). -/
def headUnits : List FormUnit → List FormUnit
  | [] => []
  | u :: us => u :: (headUnits us).filter fun v => v.lcore != u.lcore
/-- The units of a node that could be the next to form, each with the number by which it waits: the next unit of a bin, and in
deterministic mode the first of each logical core of those that have their numbers and of the next (R264, R283). -/
def State.unitsFor (s : State) (l : Launch) (n b : Nat) (cause : Cause) : List (Nat × FormUnit) :=
  let next := ((s.nextUnit l n b cause).map (l.unitOf n)).toList
  if !l.det then next.map fun u => (b, u)
  else if cause == .timeout then []
  else (headUnits (l.assignedAt n ++ next)).map fun u => (2 ^ 32 + u.gseq, u)
/-- The units of a node that are ready, for either cause. -/
def State.readyUnits (s : State) (l : Launch) (n : Nat) : List (Nat × FormUnit) :=
  if (l.node n).remote then []
  else
    let bs := if (l.bins n).isEmpty then [0] else l.bins n
    (bs.flatMap fun b => match s.unitsFor l n b .ready with | [] => s.unitsFor l n b .timeout | us => us).eraseDups

/-! ## Reservation (R268, R269, R272) -/

/-- The die that is the home of a node's queue (R267). -/
def State.homeDie (s : State) (l : Launch) (n : Nat) : Nat := let ds := s.partDies l.part; ds.getD (n % ds.length) 0
/-- The distinct records that hold slots of a node's queue: queued, being launched, about to form, or taken by live workgroups. -/
def State.slotRecs (s : State) (l : Launch) (n : Nat) : List Rec :=
  let all := l.recsAt n ++ (l.grids.filter fun g => g.node == n).map Grid.record ++ (l.assignedAt n).flatMap FormUnit.recs ++
    (s.liveWgs l n).flatMap Wg.records
  all.foldl (fun acc r => if acc.any (fun x => x.arrival == r.arrival) then acc else r :: acc) []
/-- The stores of the slots in use at a node: of its records, of reservations, and of permits of remote senders (R267 to R269, R276). -/
def State.slotStores (s : State) (l : Launch) (n : Nat) : List Nat :=
  if (l.node n).remote then []
  else (s.slotRecs l n).map Rec.store ++ (l.reserves.filter fun r => r.target == n).flatMap Reserve.slots ++
    (l.receivers.filter fun r => r.node == n).flatMap fun r => r.permits ++ r.back
/-- Bytes of a store that a node's slots use. -/
def State.nodeUse (s : State) (l : Launch) (st n : Nat) : Nat := (s.slotStores l n).count st * slotBytes (l.node n).z
/-- Bytes of a store that a launch uses for the queues whose home is a die. -/
def State.dieUse (s : State) (l : Launch) (st die : Nat) : Nat :=
  (((upFrom 0 l.nodes.length).filter fun n => s.homeDie l n == die).map (s.nodeUse l st)).sum
/-- Bytes that a launch may still take of a store (R268, R272): of the partition's share of a die's record SRAM and of its Mantle limit
after the use of every launch of the partition, of its own spill region outside every headroom. -/
def State.storeFree (s : State) (l : Launch) (die st : Nat) : Nat :=
  let ls := l :: s.launches.filter fun k => k.part == l.part && k.num != l.num
  let used := (ls.map fun k => s.dieUse k st die).sum
  match st with
  | 0 => 8 * 2 ^ 20 * ((s.partClusters l.part).countP fun c => dieOf c == die) / 16 - used
  | 1 => 65536 * l.mspill - used
  | _ =>
    let ns := upFrom 0 l.nodes.length
    l.spills - (ns.map (headroom l.nodes)).sum - (ns.map (s.nodeUse l 2)).sum
/-- Bytes of a store on a die, or of the spill region, that an allotment has taken. -/
def State.allotUse (s : State) (l : Launch) (got : List (Nat × List Nat)) (die st : Nat) : Nat :=
  ((got.filter fun x => st == 2 || s.homeDie l x.1 == die).map fun x => x.2.count st * slotBytes (l.node x.1).z).sum
/-- Slots of a node that a store still has room for, after an allotment. -/
def State.slotRoom (s : State) (l : Launch) (got : List (Nat × List Nat)) (n st : Nat) : Nat :=
  let die := s.homeDie l n
  (s.storeFree l die st - s.allotUse l got die st) / slotBytes (l.node n).z
/-- `k` slots of a node, each in the first store with room, the last in the spill region (R268). -/
def State.fill (s : State) (l : Launch) (got : List (Nat × List Nat)) (n k : Nat) : List Nat :=
  let a := min k (s.slotRoom l got n 0)
  let b := min (k - a) (s.slotRoom l got n 1)
  List.replicate a 0 ++ List.replicate b 1 ++ List.replicate (k - a - b) 2
/-- The stores of the slots that a list of needs, as target and count, takes outside every headroom; none when there is no room
(R268, R272). -/
def State.allot (s : State) (l : Launch) : List (Nat × Nat) → List (Nat × List Nat) → Option (List (List Nat))
  | [], got => some (got.map Prod.snd)
  | (n, k) :: rest, got =>
    let x := s.fill l got n k
    if s.slotRoom l got n 2 < x.count 2 then none else State.allot s l rest (got ++ [(n, x)])
/-- Whether needs fit in the headroom of their targets (R272). -/
def State.fitsHead (s : State) (l : Launch) (need : List (Nat × Nat)) : Bool :=
  (need.map Prod.fst).eraseDups.all fun n =>
    ((need.filter fun x => x.1 == n).map fun x => x.2 * slotBytes (l.node n).z).sum + s.nodeUse l 3 n ≤ headroom l.nodes n

/-- The slots that a unit of `g` groups needs on each edge (R269); a remote edge needs permits instead. -/
def Launch.slotNeed (l : Launch) (nd : Node) (g : Nat) : List (Nat × Nat) :=
  nd.edges.map fun e => (e.target, if (l.node e.target).remote then 0 else g * e.maxout)
/-- Whether the permit pools hold what a unit of `g` groups needs (R277, R278). -/
def Launch.permitsMet (l : Launch) (nd : Node) (g : Nat) : Bool :=
  (nd.edges.filter fun e => (l.node e.target).remote).all fun e =>
    let p := l.pools.getD e.target default
    p.granted.isSome && g * nd.outTo e.target ≤ p.avail

/-- The state (d, rank) of a waiting unit as one number (R271). -/
def Launch.unitState (l : Launch) (u : FormUnit) : Nat :=
  ((u.recs.map Rec.depth).foldl max 0) * 2 ^ 20 + rankOf l.nodes l.nodes.length u.node
/-- The reservation of a unit from free space outside every headroom, by edge (R269, R272). -/
def State.freeSlots (s : State) (l : Launch) (u : FormUnit) : Option (List (List Nat)) :=
  let nd := l.node u.node
  let g := nd.groupsFor u.recs
  if l.permitsMet nd g then s.allot l (l.slotNeed nd g) [] else none
/-- The units of a launch that are ready and wait for a reservation: node, number and state (R272). -/
def State.waitingUnits (s : State) (l : Launch) : List ((Nat × Nat) × Nat) :=
  (upFrom 0 l.nodes.length).flatMap fun n =>
    (s.readyUnits l n).filterMap fun x => if (s.freeSlots l x.2).isSome then none else some ((n, x.1), l.unitState x.2)
/-- Notes which units wait for a reservation, behind those that already did (R272). -/
def State.noteWaiting (s : State) : State :=
  { s with launches := s.launches.map fun l =>
      let now := (s.waitingUnits l).map Prod.fst
      let kept := l.waiters.filter now.contains
      { l with waiters := kept ++ now.filter fun x => !kept.contains x } }

/-- How the reservation of a unit is met, if it can be (R269, R272): the stores of its slots by edge, and whether they are drawn from
headroom. A draw needs the largest state of all that wait, the earliest of these, and no other unit holding headroom. -/
def State.reservation (s : State) (l : Launch) (key : Nat) (u : FormUnit) : Option (List (List Nat) × Bool) :=
  let nd := l.node u.node
  let g := nd.groupsFor u.recs
  let need := l.slotNeed nd g
  match s.freeSlots l u with
  | some a => some (a, false)
  | none =>
    let me := l.unitState u
    let place (x : Nat × Nat) : Nat := l.waiters.findIdx (· == x)
    let first := (s.waitingUnits l).all fun x => x.2 < me || (x.2 == me && place (u.node, key) ≤ place x.1)
    if l.permitsMet nd g && l.headroomBy.isEmpty && first && s.fitsHead l need then some (need.map fun x => List.replicate x.2 3, true) else none

/-! ## Tiles (R173, R307) -/

/-- The address of a logical core's image (R307). -/
def State.imageVa (s : State) (part lcore : Nat) : Nat :=
  let p := s.part part
  p.shapeb.toNat + lcore * (8192 + 64 * bits p.shapec.toNat 0 15)
/-- The descriptors in a logical core's image; none where it cannot be read. -/
def State.imageDescs (s : State) (part lcore : Nat) : Option (List Addr) :=
  (s.vaRead part (s.imageVa part lcore) 8192).map fun bs => (upFrom 0 1024).map fun i => BitVec.ofNat 64 (ofBytes ((bs.drop (8 * i)).take 8))
/-- Descriptors as a core holds them: those that are not 0. -/
def descAssoc (ds : List Addr) : Assoc Addr := (ds.zipIdx.filter fun (x : Addr × Nat) => x.1 != 0).map fun x => (x.2, x.1)

/-- Whether a core must change its tile state before it forms a workgroup of a logical core with `tiles` units of tile area, and the
descriptors that it then holds (R307). -/
def State.descsFor (s : State) (l : Launch) (core lcore tiles : Nat) : Bool × Assoc Addr :=
  let c := s.core core
  if !l.det || c.tileCore == lcore then (false, c.desc)
  else
    let next := (s.imageDescs l.part lcore).getD []
    if tiles != 0 || c.desc.any (fun d => d.2.getLsbD 62) || next.any (fun d => d.getLsbD 62) then (true, descAssoc next) else (false, c.desc)

/-- The record of an access of `n` bytes that faults: its cause, kind and address (R307, R324). -/
def State.vaFault (s : State) (part va n : Nat) (need : Need) : TrapRecord :=
  let x := (pieces8 n va n).findSome? fun y => match s.translate part y.1 need true with
    | .error k => some (cMEMFLT, k, y.1)
    | .ok p => if need.r && s.badAt p.key y.2 then some (cDATAERR, 1, y.1) else none
  match x with
  | some (c, k, a) => ⟨c, k, false, false, false, false, 0, 0, BitVec.ofNat 64 a, 0, 0, 0⟩
  | none => ⟨cMEMFLT, kNotMapped, false, false, false, false, 0, 0, BitVec.ofNat 64 va, 0, 0, 0⟩

/-- Writes the tile state of a core to the image of its logical core and loads another (R307), or the record of the access that faults. -/
def State.switchTiles (s : State) (part core lcore : Nat) : Except TrapRecord State :=
  let c := s.core core
  let tb := 64 * bits (s.part part).shapec.toNat 0 15
  let old := s.imageVa part c.tileCore
  let new := s.imageVa part lcore
  let bytes := (upFrom 0 1024).flatMap (fun i => toBytes 8 (aget 0 c.desc i).toNat) ++ memRead c.tile.bytes 0 tb
  match s.vaStore part old bytes with
  | none => .error (s.vaFault part old bytes.length needW)
  | some t =>
    let t := (upFrom 0 (tb / 4)).foldl (fun (t : State) i =>
      match t.translate part (old + 8192 + 4 * i) needW true with
      | .ok p => t.pageWrite p (old + 8192 + 4 * i) (memRead c.tile.bytes (4 * i) 4) [tmTag c.tile i]
      | .error _ => t) t
    match t.imageDescs part lcore, t.vaRead part (new + 8192) tb with
    | some next, some bs =>
      let tile := tmWrite TMem.empty 0 bs (t.vaTags part (new + 8192) (tb / 4))
      .ok (t.modCore core fun c => { c with desc := descAssoc next, tile := tile, tileCore := lcore })
    | _, _ => .error (t.vaFault part new (8192 + tb) needR)
/-- Switches the cores of a unit that must switch (R307). -/
def State.switchAll (l : Launch) (lcore tiles : Nat) : List Nat → State → Except TrapRecord State
  | [], s => .ok s
  | c :: cs, s =>
    if (s.descsFor l c lcore tiles).1 then
      match s.switchTiles l.part c lcore with
      | .ok t => State.switchAll l lcore tiles cs t
      | .error r => .error r
    else State.switchAll l lcore tiles cs s

/-- The tile handles that records name: home index of the record and handle word (R173). -/
def Node.tileHandles (nd : Node) (recs : List Rec) : List (Nat × Nat) :=
  recs.zipIdx.flatMap fun (r : Rec × Nat) =>
    (r.1.words.zipIdx.filter fun (w : Word × Nat) => bits nd.tileMap (2 * w.2) 2 == 1).map fun w => (r.2, w.1.toNat)
/-- LCORE of a tile handle (Table 7.4). -/
def tileLcore (h : Nat) : Nat := bits h 10 10
/-- The core that holds the tile of a handle outside deterministic mode (R173, R306). -/
def State.tileHome (s : State) (l : Launch) (h : Nat) : Nat := s.logicalCore l.part (tileLcore h)
/-- The descriptor of a tile handle (R172, R173): of the core that holds the tile, in deterministic mode of the group's own core, whose
descriptors are given. -/
def State.tileDesc (s : State) (l : Launch) (own : Assoc Addr) (h : Nat) : Addr :=
  aget 0 (if l.det then own else (s.core (s.tileHome l h)).desc) (bits h 0 10)
/-- The trap a tile handle causes before a group's first instruction, if any (R173): its kind. The unit is on the cores `cs`. -/
def State.tileTrap (s : State) (l : Launch) (nd : Node) (cs : List Nat) (lcore : Nat) (own : Assoc Addr) (h : Nat) : Option Nat :=
  let here := if l.det then tileLcore h == lcore else cs.contains (s.tileHome l h)
  if !here then some kTilePlace
  else if bits h 20 11 != 0 || !tileValid (s.tileDesc l own h) (64 * nd.lrec.tiles) then some kTileInvalid
  else none
/-- Whether the tiles of a unit allow it to start on its cores now (R173): one handle that causes a trap, or each tile full or empty as
its use needs. -/
def State.tilesAllow (s : State) (l : Launch) (u : FormUnit) (cs : List Nat) : Bool :=
  let nd := l.node u.node
  let hs := (nd.tileHandles u.recs).map Prod.snd
  let own (c : Nat) : Assoc Addr := (s.descsFor l c u.lcore nd.lrec.tiles).2
  (cs.any fun c => hs.any fun h => (s.tileTrap l nd cs u.lcore (own c) h).isSome) ||
  cs.all fun c => hs.all fun h => tileFull (s.tileDesc l (own c) h) != h.testBit 31

/-! ## Room on a core, and placement (R263, R279, R302, R303, R306) -/

/-- Scratchpad bytes that live workgroups hold on a core. -/
def State.spUsed (s : State) (core : Nat) : Nat := ((s.wgs.filter fun w => w.core == core && w.state == .live).map Wg.spSize).sum
/-- Whether a core has slots, register words and scratchpad for a workgroup of `k` groups (R143, R263). -/
def State.coreRoom (s : State) (core k : Nat) (nd : Node) : Bool :=
  (s.residents core).length + k ≤ 48 && (((s.residents core).map fun g => g.decl.words).sum + k * nd.decl.words ≤ 65536) &&
  s.spUsed core + nd.scr ≤ 2 ^ 21 &&
  !(s.groups.any fun g => g.core == core && g.sleeve.isNone && g.phase == .yielded && !g.awaitsEjected)
/-- Whether an empty core has that room. -/
def Node.fitsCore (nd : Node) (k : Nat) : Bool := k ≤ 48 && k * nd.decl.words ≤ 65536 && nd.scr ≤ 2 ^ 21

/-- Column and row of a core in its die (R279). -/
def coreGrid (core : Nat) : Nat × Nat :=
  let c := core / 4 % 16
  let k := core % 4
  (2 * (c % 4) + k % 2, 2 * (c / 4) + k / 2)
/-- The core of a die at a column and a row. -/
def coreAt (die x y : Nat) : Nat := 64 * die + 4 * (x / 2 + 4 * (y / 2)) + (x % 2 + 2 * (y % 2))
/-- The member cores of a neighbourhood with its origin at a core, by rank (R279). -/
def rectangle (nd : Node) (die x y : Nat) : List Nat :=
  (upFrom 0 (nd.nh + 1)).flatMap fun r => (upFrom 0 (nd.nw + 1)).map fun c => coreAt die (x + c) (y + r)
/-- The rectangles of a partition for a node: dies, then rows, then columns ascending (R279). -/
def State.rectangles (s : State) (part : Nat) (nd : Node) : List (List Nat) :=
  let ours := s.partCores part
  ((s.partDies part).flatMap fun d => (upFrom 0 (8 - nd.nh)).flatMap fun y => (upFrom 0 (8 - nd.nw)).map fun x => rectangle nd d x y).filter
    fun cs => cs.all ours.contains
/-- The places of a unit when an event names a core: the rectangles, of which those that hold its first tile come before others
outside deterministic mode; or the named core, when the logical core or the tiles do not fix another (R173, R263, R279, R283). -/
def State.sites (s : State) (l : Launch) (u : FormUnit) (core : Nat) : List (List Nat) :=
  let nd := l.node u.node
  let tile := if l.det then none else (nd.tileHandles u.recs).head?.map fun h => s.tileHome l h.2
  match nd.kind with
  | .neighbourhood =>
    let all := s.rectangles l.part nd
    match tile with
    | some c => if all.any fun cs => cs.contains c then all.filter fun cs => cs.contains c else all
    | none => all
  | _ =>
    let c := if l.det then s.logicalCore l.part u.lcore else tile.getD core
    if c == core && (s.partCores l.part).contains c then [[c]] else []
/-- The member cores of a unit that forms now: the first place with room (R279). -/
def State.placement (s : State) (l : Launch) (u : FormUnit) (core : Nat) : Option (List Nat) :=
  let nd := l.node u.node
  (s.sites l u core).find? fun cs => cs.all fun c => s.coreRoom c (nd.wgGroups u.recs) nd

/-- Whether a launch takes part in formation. -/
def Launch.forms (l : Launch) : Bool := l.ending.isNone && l.closing.isNone
/-- Whether a unit of a launch waits only for resources of cores of which it could use one of `cores` (R302). -/
def State.wants (s : State) (l : Launch) (cores : List Nat) : Bool :=
  l.forms && (upFrom 0 l.nodes.length).any fun n => (s.readyUnits l n).any fun x =>
    let nd := l.node n
    nd.fitsCore (nd.wgGroups x.2.recs) && (s.reservation l x.1 x.2).isSome &&
    cores.any fun c => (s.sites l x.2 c).any fun cs => cs.any cores.contains && s.tilesAllow l x.2 cs
/-- Whether another launch's unit comes first on some of these cores (R302): one of a higher PLANE, or of the same and an older launch. -/
def State.outranked (s : State) (l : Launch) (cores : List Nat) : Bool :=
  let plane (k : Launch) : Nat := (s.queue k.queue).plane
  let older := s.launches.takeWhile fun k => k.num != l.num
  s.launches.any fun k => k.num != l.num && k.part == l.part &&
    (plane l < plane k || (plane l == plane k && older.any fun o => o.num == k.num)) && s.wants k cores

/-- What forms now at a node, given a core: the unit, its member cores, the stores of its slots by edge, and whether they are headroom. -/
structure Formation where
  unit : FormUnit
  cores : List Nat
  slots : List (List Nat)
  head : Bool
  deriving DecidableEq, Repr, Inhabited

/-- How a unit would form now, if everything it needs is there: reservation, room, its place in the order of R302, tiles, and cores
whose tile state can change (R263, R269, R273, R302, R307). -/
def State.formation (s : State) (l : Launch) (core key : Nat) (u : FormUnit) : Option Formation :=
  match s.reservation l key u, s.placement l u core with
  | some (a, head), some cs =>
    let stuck (c : Nat) : Bool := (s.descsFor l c u.lcore (l.node u.node).lrec.tiles).1 && s.wgs.any fun w => w.core == c && w.state == .live
    if s.tilesAllow l u cs && !cs.any stuck && !s.outranked l cs then some ⟨u, cs, a, head⟩ else none
  | _, _ => none
/-- What a node forms now on a core. -/
def State.formable (s : State) (l : Launch) (n b core : Nat) (cause : Cause) : Option Formation :=
  if !l.forms || (l.node n).remote || l.nodes.length ≤ n then none
  else (s.unitsFor l n b cause).findSome? fun x => s.formation l core x.1 x.2

/-! ## Formation (R263) -/

/-- The phase tag of a core's last workgroup gives way to a launch's: the core and, with ICI, its cluster's instruction cache are
cleaned of the partition's lines (R303). -/
def State.cleanCore (s : State) (l : Launch) (core : Nat) : State :=
  let tag := (l.part, l.phaseTag.1, l.phaseTag.2.1)
  if (s.core core).tag == some tag then s
  else
    let s := (s.l1Drop core fun x => x.part == l.part).modCore core fun c => { c with tag := some tag }
    if l.phaseTag.2.2 then s.modCluster (clusterOf core) fun k => { k with icache := k.icache.filter fun x => x.1 != l.part } else s

/-- A lane slot at formation (Table 1.1). -/
def newLane (pc : Addr) (uid gid gseq l : Nat) (st : LaneState) (depth : Nat) : Lane :=
  ⟨st, gseq * 32 + l, l, uid, gid, l, 0, List.replicate 16 0, 0, pc, none, 0, 0, 0, 0, depth, [], 0, false, []⟩

/-- A group at formation (Table 1.1, R263). -/
def newGroup (nd : Node) (uid launch node wg gid gseq part core slot nrec : Nat) (launched : Mask) (depth : Nat → Nat) : Group :=
  let helper := maskOf (laneSlots.filter fun l => !launched.getLsbD l && (quadOf l).any launched.getLsbD)
  { uid := uid, launch := launch, node := node, wg := wg, gid := gid, gseq := gseq, part := part, core := core, slot := slot
    phase := .waiting, decl := nd.decl, v := List.replicate nd.decl.total RegVal.zero
    p := List.replicate 63 0 ++ [BitVec.allOnes 32], k := List.replicate 16 0, cf := List.replicate 12 0
    mode := nd.modew, status := 0, repc := 0, reps := 0, launched := launched, live := launched, active := launched ||| helper
    helper := helper
    lanes := laneSlots.map fun l => newLane nd.code uid gid gseq l
      (if launched.getLsbD l then .onPath else if helper.getLsbD l then .helper else .notLaunched) (depth l)
    joinBound := none, clause := none, buffer := [], window := [], latch := [], quantum := 0, yldUntil := 0, readyAt := none, heldFor := 0
    yielded := false, gate := .none, retPending := none, frame := none, due := [], merge := .none, sleeve := none
    ejectNext := none, heldSince := none, edgeUsed := List.replicate nd.edges.length 0, nrec := nrec }

/-- The launched lanes of group `gid` of a workgroup with `n` records (Table 10.9). -/
def Node.launchedOf (nd : Node) (gid n : Nat) : Mask :=
  match nd.kind with
  | .lane | .collect => maskOf (laneSlots.filter fun l => gid * 32 + l < n)
  | _ => BitVec.allOnes 32
/-- The record of a thread. -/
def Node.recordOf (nd : Node) (recs : List Rec) (gid l : Nat) : Rec :=
  match nd.kind with | .lane | .collect => recs.getD (gid * 32 + l) default | _ => recs.headD default

/-- Forms one group of a workgroup on a core, one of the cores `cs` of its unit, with the tile traps of its records. -/
def State.formGroup (s : State) (l : Launch) (n : Nat) (w : Wg) (cs : List Nat) (recs : List Rec) (gid gseq : Nat) : State :=
  let nd := l.node n
  let slot := (s.freeSlot? w.core).getD 0
  let uid := s.uidNext
  let g := newGroup nd uid l.num n w.uid gid gseq l.part w.core slot recs.length (nd.launchedOf gid recs.length) fun h => (nd.recordOf recs gid h).depth
  let lanesOf (i : Nat) : Mask := match nd.kind with
    | .lane | .collect => if i / 32 == gid then bit1 (i % 32) else 0
    | _ => BitVec.allOnes 32
  let bad := (nd.tileHandles recs).filterMap fun x =>
    match s.tileTrap l nd cs w.lcore (s.core w.core).desc x.2 with
    | some k => if lanesOf x.1 == 0 then none else some (k, lanesOf x.1, x.2)
    | none => none
  let g := match bad with
    | [] => g
    | (k, m, h) :: _ =>
      let t : Trap := { trapOf cMEMFLT k m 0 with addr := some (BitVec.ofNat 64 h) }
      { g with due := [⟨g.record t false false nd.code, .precise, 0⟩] }
  let s := { s with uidNext := uid + 1, groups := s.groups ++ [g] }
  s.modWg w.uid fun w => { w with groups := w.groups ++ [uid] }

/-- The handle table at formation: every entry free with generation 0xFFFF (R22). -/
def freshHandles : List HEntry := List.replicate 256 ⟨0xFFFF, 0, 0, 0⟩

/-- Forms one workgroup of a unit, or member of a neighbourhood, on a core. -/
def State.formWg (s : State) (ln : Nat) (u : FormUnit) (core nbr rank : Nat) (cs : List Nat) : State :=
  let l := s.launch ln
  let nd := l.node u.node
  let uid := s.uidNext
  let k := nd.wgGroups u.recs
  let w : Wg := ⟨uid, ln, u.node, u.wgid + rank, rank, (if rank == 0 then uid else nbr), l.part, core, u.lcore, TMem.empty, nd.scr,
    freshHandles, 1, [], false, 0, false, u.recs, 0, .live⟩
  let s := s.cleanCore l core
  let s := { s with uidNext := uid + 1, wgs := s.wgs ++ [w] }
  (upFrom 0 k).foldl (fun s i => s.formGroup l u.node w cs u.recs i (u.gseq + rank * k + i)) s

/-- Enters the reservations of the groups formed since identity `since`, of the slots that the unit was allotted on each edge (R269,
R272); permits come out of their pools (R277). -/
def State.reserveFor (s : State) (ln n since : Nat) (slots : List (List Nat)) (head : Bool) : State :=
  let nd := (s.launch ln).node n
  let mine := (s.groups.filter fun g => since ≤ g.uid && g.launch == ln).map Group.uid
  let part (i e : Nat) (x : Edge) : List Nat :=
    if ((s.launch ln).node x.target).remote then List.replicate x.maxout 0 else ((slots.getD e []).drop (i * x.maxout)).take x.maxout
  let rs := mine.zipIdx.flatMap fun (u : Nat × Nat) => nd.edges.zipIdx.map fun (e : Edge × Nat) => (⟨u.1, e.2, e.1.target, part u.2 e.2 e.1⟩ : Reserve)
  s.modLaunch ln fun l =>
    let take (p : Pool) (n : Nat) : Pool :=
      if (l.node n).remote then { p with avail := p.avail - ((rs.filter fun r => r.target == n).map fun r => r.slots.length).sum } else p
    { l with reserves := l.reserves ++ rs, pools := l.pools.zipIdx.map fun (p : Pool × Nat) => take p.1 p.2
             headroomBy := if head then (s.wgs.filter fun w => since ≤ w.uid && w.launch == ln).map Wg.uid else l.headroomBy }

/-- Forms the members of a unit on their cores (R263, R279). -/
def State.formUnit (s : State) (ln : Nat) (x : Formation) : State :=
  let u := x.unit
  let since := s.uidNext
  let s := s.modLaunch ln fun l => if l.assigned.contains u then { l with assigned := l.assigned.erase u } else l.takeUnit u
  let s := x.cores.zipIdx.foldl (fun s (c : Nat × Nat) => s.formWg ln u c.1 since c.2 x.cores) s
  s.reserveFor ln u.node since x.slots x.head

/-- In deterministic mode the next unit of a node takes its numbers, in key order, though it cannot form yet: only later units of its
logical core wait for it (R283). At most 1,024 units of a node stand so, one for each logical core. -/
def State.assignNext (s : State) (l : Launch) (n b : Nat) : State :=
  if !l.det || !l.forms || (l.node n).remote || 1024 ≤ (l.assignedAt n).length then s
  else match s.nextUnit l n b .ready with
    | some recs => s.modLaunch l.num fun l => let u := l.unitOf n recs; { l.takeUnit u with assigned := l.assigned ++ [u] }
    | none => s

/-- Forms the next unit of a node if everything it needs is there; a switch of tile state that faults ends the launch (R307). -/
def State.formNow (s : State) (l : Launch) (n core b : Nat) (cause : Cause) : State :=
  match s.formable l n b core cause with
  | none => if cause == .ready then s.assignNext l n b else s
  | some x =>
    match State.switchAll l x.unit.lcore (l.node n).lrec.tiles x.cores s with
    | .ok t => t.formUnit l.num x
    | .error r => ((s.logFault { (default : Group) with part := l.part, launch := l.num, core := core } r).detect r.cause).endLaunch l.num 0x11

/-- The permits batched for a sender go back in one message (R277). -/
def State.sendBack (s : State) (ln : Nat) (v : Receiver) : State :=
  let s := s.modLaunch ln fun l => { l with receivers := l.receivers.map fun x =>
    if x.sender == v.sender && x.accel == v.accel && x.node == v.node then { x with permits := x.permits ++ x.back, back := [] } else x }
  if v.back.isEmpty then s else s.send v.accel (.permits (v.sender / 4096) (v.sender % 4096) v.back.length)

/-- A slot of a record from a remote sender is free again: its permit goes back in the next batch, which 16 permits fill (R277), and
which waits by the clock of the partition's lowest running cluster, DESIGN CHOICE (23). -/
def State.slotFreed (s : State) (ln n : Nat) (r : Rec) : State :=
  match r.sender with
  | none => s
  | some v =>
    let mine (x : Receiver) : Bool := x.sender == v && x.node == n && x.accel == r.sacc && !x.closed
    let note (x : Receiver) : Receiver :=
      if mine x then { x with back := x.back ++ [r.store], backAt := (if x.back.isEmpty then s.partClock (s.launch ln).part else x.backAt) } else x
    let s := s.modLaunch ln fun l => { l with receivers := l.receivers.map note }
    match List.find? mine (s.launch ln).receivers with
    | some x => if 16 ≤ x.back.length then s.sendBack ln x else s
    | none => s

/-- The course of GROUP_FORM and GATHER_TIMEOUT. A broadcast record of no workgroups is freed (R263). -/
def State.form (s : State) (ln n core b : Nat) (cause : Cause) : State :=
  let s := s.noteWaiting
  match s.launch? ln with
  | none => s
  | some l =>
    let nd := l.node n
    match s.gridRecord l n with
    | some r =>
      if nd.kind == .broadcast && nd.gridSize r == 0 && l.forms && cause == .ready then
        (s.modLaunch ln fun l => { l with queues := modAt (fun q => q.filter fun x => x.arrival != r.arrival) n l.queues }).slotFreed ln n r
      else s.formNow l n core b cause
    | none => s.formNow l n core b cause

/-- GROUP_FORM (R263, R264, R269, R280): the next workgroup of a node, or the next members of its neighbourhood, forms on a core. -/
def execGroupForm (l n core : Nat) (bin : Word) (s : State) : Out := .next (s.form l n core bin.toNat .ready)
/-- GATHER_TIMEOUT (R264): a partial workgroup forms because its oldest record has waited 2^GTO clocks. -/
def execGatherTimeout (l n core : Nat) (bin : Word) (s : State) : Out := .next (s.form l n core bin.toNat .timeout)

/-! ## Retirement (R142, R266, R269, R277) -/

/-- Whether a group can retire (Table 6.1, R160, R242, R257, R266): no live lane, every completion flag clear, no register write, EMIT
or matrix operation of it pending, nothing of its own still to run; while a matrix operation of a workgroup without live lanes is
pending its groups stay, and an empty group of a regrouped workgroup is Held. -/
def State.mayRetire (s : State) (g : Group) : Bool :=
  g.sleeve.isNone && g.live == 0 && g.cf.all (· == 0) && g.clause.isNone && g.due.isEmpty && g.frame.isNone &&
  g.phase != .retired && g.phase != .yielded && g.phase != .stopped && g.merge == .none &&
  !s.writesPending g.uid && (s.accs.all fun a => a.uid != g.uid || a.op != .emit) && (s.mops.all fun m => m.uid != g.uid) &&
  (!((s.groupsOf g.wg).all fun h => h.live == 0) || s.mops.all fun m => m.wg != g.wg) &&
  (!(s.wg g.wg).regrouped || (s.groupsOf g.wg).all fun h => h.live == 0)

/-- A workgroup retires: unused reservations and the slots of its records are free (R263, R269, R277). Its name and its groups stay as
retired ones until its launch ends, for the operations that still run in them. -/
def State.retireWg (s : State) (w : Wg) : State :=
  let mine (u : Nat) : Bool := w.groups.contains u
  let l := s.launch w.launch
  let back (n : Nat) : Nat := ((l.reserves.filter fun r => mine r.uid && r.target == n).map fun r => r.slots.length).sum
  let last (r : Rec) : Bool := match (l.node w.node).kind with
    | .lane | .collect => true
    | _ => !(l.grids.any fun g => g.node == w.node && g.record.arrival == r.arrival) &&
           !((l.assignedAt w.node).any fun u => u.recs.any fun y => y.arrival == r.arrival) &&
           !((s.liveWgs l w.node).any fun x => x.uid != w.uid && x.records.any fun y => y.arrival == r.arrival)
  let freed := w.records.filter last
  let s := s.modLaunch w.launch fun l => { l with
    reserves := l.reserves.filter (fun r => !mine r.uid)
    pools := l.pools.zipIdx.map (fun (p : Pool × Nat) => if (l.node p.2).remote then { p.1 with avail := p.1.avail + back p.2 } else p.1)
    headroomBy := l.headroomBy.filter (· != w.uid) }
  let s := freed.foldl (fun s r => s.slotFreed w.launch w.node r) s
  s.modWg w.uid fun w => { w with state := .retired }

/-- RETIRE (R142, R263, R266): a group frees its slot, and its workgroup retires with its last group. -/
def execRetire (uid : Nat) (s : State) : Out :=
  match s.group? uid with
  | none => .next s
  | some g =>
    if !s.mayRetire g || s.halted g then .next s
    else
      let s := s.setGroup { g with phase := .retired }
      if (s.groups.filter fun h => h.wg == g.wg).all fun h => h.phase == .retired then .next (s.retireWg (s.wg g.wg)) else .next s

/-! ## Start and end of a launch (R262, R276, R294) -/

/-- The 16-byte completion record of a LAUNCH, and the completion of its packet; a record that cannot be stored puts the queue in
ERROR (R294, R351). -/
def State.launchDone (s : State) (num q id cpla status : Nat) : State :=
  let n := s.queueOwner q
  let rec1 : List Byte := [num % 2 ^ 32 * 2 ^ 32 + status, s.time].flatMap (toBytes 8)
  let (s, ok) := if cpla == 0 then (s, true) else match s.vaStore n cpla rec1 with | some t => (t, true) | none => (s, false)
  let s := s.packetDone q id
  if ok then s else s.queueError q 6

/-- A tagged memory without what it holds at or beyond an offset. -/
def TMem.upTo (m : TMem) (n : Nat) : TMem := ⟨m.bytes.filter fun c => c.1 < n, m.tags.filter fun c => 4 * c.1 < n⟩

/-- Starts a graph launch (R262, R294): refused with the lowest code, or with its entry records queued and its connect messages sent. The
tile areas of its partition read zero from here on (R163), but for what other running launches of the partition can use, and in
deterministic mode for the images, which persist (R307); DESIGN CHOICE (59). -/
def State.startLaunch (s : State) (part q id : Nat) (graph erec count cpla : Nat) (tag : Nat × Nat × Bool) : State :=
  let num := s.launchNext
  let s := { s with launchNext := (num + 1) % 2 ^ 32 }
  let r := s.readGraph part graph
  let ents := match r.2 with
    | some g => if g.entry < g.nodes.length then s.entryRecords part erec count (g.nodes.getD g.entry default).z else none
    | none => none
  let codes := r.1 ++ (match r.2 with | some g => (if r.1.isEmpty then s.graphCodes part g else []) ++ code 3 ents.isNone | none => [])
  match codes.foldl (fun m c => if m == 0 then c else min m c) 0, r.2, ents with
  | 0, some g, some es =>
    let n := g.nodes.length
    let recs := es.zipIdx.map fun (x : (List Word × List Tag) × Nat) => (⟨0, 0, 0, 0, x.2, 0, x.1.1, x.1.2, x.2, s.partClock part, none, 0⟩ : Rec)
    let keep := ((s.launches.filter fun k => k.part == part).flatMap fun k => k.nodes.map fun n => 64 * n.lrec.tiles).foldl max 0
    let l : Launch := ⟨num, part, q, id, tag, g.det, g.port, g.entry, g.nodes, g.spillb, g.spills, g.mspill,
      (upFrom 0 n).map (fun i => if i == g.entry then recs else []), [], List.replicate n 0, List.replicate n 0, recs.length,
      List.replicate n ⟨none, 0⟩, [], [], [], [], [], [], [], [], cpla, none, none⟩
    let stores := s.fill { l with queues := [] } [] g.entry recs.length
    let l := { l with queues := l.queues.map fun q => (q.zip stores).map fun x => { x.1 with store := x.2 } }
    let s := { s with launches := s.launches ++ [l] }
    let s := if g.det then s else (s.partCores part).foldl (fun s c => s.modCore c fun k => { k with tile := k.tile.upTo keep }) s
    g.nodes.zipIdx.foldl (fun s (x : Node × Nat) =>
      if x.1.remote then s.send x.1.accel (.connect num x.2 x.1.rport x.1.rnode x.1.z) else s) s
  | c, _, _ => s.launchDone num q id cpla c

/-- Whether every operation of a launch has ended: those that only wait for the replay of a fault end with it when it ends early. -/
def State.launchQuiet (s : State) (l : Launch) : Bool :=
  let mine (wg : Nat) : Bool := (s.wg wg).launch == l.num
  let early := l.ending.isSome
  (s.accs.all fun a => !mine a.wg || (early && a.onlyFaults)) && (s.batches.all fun b => !mine b.wg || (early && b.state == .faulted)) &&
  (s.mops.all fun m => !mine m.wg) && (s.sliceqs.all fun q => !mine q.wg)

/-- Removes a launch with everything that runs in its name, and the marks of its record slots (R336). -/
def State.removeLaunch (s : State) (l : Launch) : State :=
  let ws := (s.wgs.filter fun w => w.launch == l.num).map Wg.uid
  let gone (wg : Nat) : Bool := ws.contains wg
  let cores := (s.groups.filter fun g => gone g.wg).map Group.core
  let s := cores.eraseDups.foldl (fun s c =>
    match (s.core c).port with
    | some u => if gone (s.group u).wg then s.modCore c fun k => { k with port := none } else s
    | none => s) s
  { s with
    launches := s.launches.filter (fun x => x.num != l.num)
    wgs := s.wgs.filter (fun w => !gone w.uid)
    groups := s.groups.filter (fun g => !gone g.wg)
    accs := s.accs.filter (fun a => !gone a.wg)
    batches := s.batches.filter (fun b => !gone b.wg)
    mops := s.mops.filter (fun m => !gone m.wg)
    sliceqs := s.sliceqs.filter (fun q => !gone q.wg)
    saved := s.saved.filter (fun x => x.wg.launch != l.num)
    ras := { s.ras with marks := s.ras.marks.filter fun m => !(countRegion m.region != m.region && m.loc == l.num) } }

/-- The close messages of a launch: its pools go back to their receivers (R277). -/
def State.closeProxies (s : State) (l : Launch) : State :=
  l.nodes.zipIdx.foldl (fun s (x : Node × Nat) => if x.1.remote then s.send x.1.accel (.close x.1.rport x.1.rnode (l.num * 4096 + x.2)) else s) s

/-- A launch that ends leaves no permit at a sender that has not closed: the report of R278. -/
def State.reportNone (s : State) (l : Launch) : State :=
  l.receivers.foldl (fun s r => if r.closed then s else s.send r.accel (.report (r.sender / 4096) (r.sender % 4096) 0)) s

/-- The completion of a launch with a status. -/
def State.finishLaunch (s : State) (l : Launch) (status : Nat) : State :=
  let s := (s.reportNone l).closeProxies l
  (s.removeLaunch l).launchDone l.num l.queue l.packet l.cpla status

/-- Whether every lane of a launch that was ejected has come back. -/
def State.noContexts (s : State) (l : Launch) : Bool := s.groups.all fun g => g.launch != l.num || g.sleeve.isNone

/-- GRAPH_LAUNCH_END (R193, R195, R294, R324): a launch ends when every node is closed, or when what an early end leaves has
stopped; the staged updates of a complete launch are applied first. -/
def execGraphLaunchEnd (n : Nat) (s : State) : Out :=
  match s.launch? n with
  | none => .next s
  | some l =>
    match l.ending with
    | some st => if s.noContexts l && s.launchQuiet l then .next (s.finishLaunch l st) else .next s
    | none =>
      let fin := match l.closing with
        | some _ => (upFrom 0 l.nodes.length).all fun x => (s.liveWgs l x).isEmpty
        | none => (upFrom 0 l.nodes.length).all fun x => (l.node x).remote || s.closedNode l l.nodes.length x
      if fin && s.launchQuiet l then
        let s := s.applyOrd l.part fun k _ => k == n
        .next (s.finishLaunch l (l.closing.getD 0))
      else .next s

/-- LAUNCH_CANCEL (R294): the host cancels a launch. -/
def execLaunchCancel (n : Nat) (s : State) : Out :=
  match s.launch? n with
  | none => .next s
  | some _ => .next (s.endLaunch n 0x10)

end Sys2Proof.Machine
end

