-- ==== Sys2Proof/Machine/Remote.lean ====
section
/-! DEFINITION. Messages of other accelerators: connects, permits, records, closes, and accesses to this one's memory (R275 to
R278, R316). -/
namespace Sys2Proof.Machine
open Sys2Proof

/-- The launch that holds a port open and accepts records. -/
def State.portLaunch (s : State) (port : Nat) : Option Launch :=
  s.launches.find? fun l => l.port == some port && l.ending.isNone && l.closing.isNone

/-- What becomes of a connect (R276): held while the port is closed or the slots are not free; refused with 0 permits; or granted. -/
def State.answer (s : State) (c : Connect) : State :=
  let held : State := if s.connects.contains c then s else { s with connects := s.connects ++ [c] }
  let drop (s : State) : State := { s with connects := s.connects.filter fun x => x != c }
  match s.portLaunch c.port with
  | none => held
  | some l =>
    let nd := l.node c.rnode
    let grant (s : State) (n : Nat) : State := s.send c.accel (.grant (c.sender / 4096) (c.sender % 4096) n)
    if l.receivers.any fun r => r.sender == c.sender && r.accel == c.accel && r.node == c.rnode then drop s
    else if l.nodes.length ≤ c.rnode || nd.remote || nd.z != c.size || nd.pgrant == 0 then grant (drop s) 0
    else match s.allot l [(c.rnode, nd.pgrant)] [] with
      | none => held
      | some slots =>
        let s := (drop s).modLaunch l.num fun l =>
          { l with receivers := l.receivers ++ [⟨c.sender, c.accel, c.rnode, slots.headD [], [], 0, false, []⟩] }
        grant s nd.pgrant

/-- CONNECT (R276): a connect message arrives, or one that was held is tried again. -/
def execConnect (accel launch proxy port rnode size : Nat) (s : State) : Out :=
  .next (s.answer ⟨accel, launch * 4096 + proxy, port, rnode, size⟩)

/-- The largest permit total that a producer needs on its edges into a proxy (R278). -/
def Launch.permitNeed (l : Launch) (n : Nat) : Nat := (l.nodes.map fun y => y.unitGroups * y.outTo n).foldl max 0

/-- PERMIT_GRANT (R276, R278): the grant fills the pool of a proxy; one that is too small ends the launch with code 0x09 once the
groups already formed have run. -/
def execPermitGrant (l n permits : Nat) (s : State) : Out :=
  .next (s.modLaunch l fun x =>
    if !(x.node n).remote || (x.pools.getD n default).granted.isSome then x
    else { x with pools := modAt (fun _ => ⟨some permits, permits⟩) n x.pools
                  closing := if permits < x.permitNeed n && x.closing.isNone then some 9 else x.closing })

/-- REMOTE_RECORD (R277): a record takes the slot that its permit stood for, the first of those that its sender holds permits for. -/
def execRemoteRecord (l n : Nat) (r : RecMsg) (s : State) : Out :=
  let mine (x : Receiver) : Bool := x.sender == r.sender && x.accel == r.sacc && x.node == n && !x.permits.isEmpty && !x.closed
  match (s.launch l).receivers.find? mine with
  | none => .next s
  | some y =>
    let s := s.modLaunch l fun x => { x with receivers := x.receivers.map fun v => if mine v then { v with permits := v.permits.drop 1 } else v }
    .next (s.putRecord l n ⟨1, r.sacc, r.snode, r.sgseq, r.eidx, r.depth, r.words, r.tags, 0, 0, some r.sender, y.permits.headD 0⟩)

/-- PERMIT_RETURN (R277): returned permits join the pool of a proxy. -/
def execPermitReturn (l n permits : Nat) (s : State) : Out :=
  .next (s.modLaunch l fun x => { x with pools := modAt (fun p => { p with avail := p.avail + permits }) n x.pools })

/-- Whether a receiver holds slots of a node for a sender (R277). -/
def Receiver.ofSender (x : Receiver) (sender : Sender) (n : Nat) : Bool := x.sender == sender.num && x.accel == sender.accel && x.node == n

/-- PERMIT_RETURN_BATCH (R277): 256 clocks after the first permit of a batch, the batch goes out: clocks of the partition's lowest
running cluster, DESIGN CHOICE (23). -/
def execPermitReturnBatch (l n : Nat) (sender : Sender) (s : State) : Out :=
  let due (x : Receiver) : Bool := x.ofSender sender n && !x.back.isEmpty && !x.closed &&
    x.backAt + 256 ≤ s.partClock (s.launch l).part
  match (s.launch l).receivers.find? due with
  | none => .next s
  | some x => .next (s.sendBack l x)

/-- PERMIT_REPORT (R278): the pool of a proxy is set from the receiver's report, less what formed groups have reserved. -/
def execPermitReport (l n held : Nat) (s : State) : Out :=
  .next (s.modLaunch l fun x =>
    let out := ((x.reserves.filter fun r => r.target == n).map fun r => r.slots.length).sum
    { x with pools := modAt (fun p => { p with avail := held - out }) n x.pools })

/-- CLOSE_MESSAGE (R277): a sender of an accelerator has ended; its slots are free and its source is closed (R281). -/
def execCloseMessage (l n : Nat) (sender : Sender) (s : State) : Out :=
  .next (s.modLaunch l fun x => { x with receivers := x.receivers.map fun v =>
    if (v.ofSender sender n) then { v with closed := true, permits := [], back := [] } else v })

/-- The receivers of this accelerator report to an accelerator the permits that they still hold for its senders (R278). -/
def State.reportTo (s : State) (accel : Nat) : State :=
  s.launches.foldl (fun s l => l.receivers.foldl (fun s r =>
    if r.accel == accel && !r.closed then s.send accel (.report (r.sender / 4096) (r.sender % 4096) r.permits.length) else s) s) s
/-- A sender's scheduler tells a receiver that the workgroups of a node with a GSEQ below a bound have formed and retired (R282). -/
def State.retiredTo (s : State) (l n accel sender snode bound : Nat) : State :=
  s.modLaunch l fun x => { x with receivers := x.receivers.map fun v =>
    if v.sender == sender && v.accel == accel && v.node == n then { v with told := aset v.told snode (max bound (aget 0 v.told snode)) } else v }

/-- REMOTE_ACCESS (R316): served at its home in the ranges that the host has opened to the domain, refused elsewhere; an atomic as the
owner's own (Table 8.3), its bytes and tags by the physical address. -/
def execRemoteAccess (accel : Nat) (pa : Nat) (op : RemoteOp) (s : State) : Out :=
  let n := match op with | .read n => n | .write bs => bs.length | .atomic op .. => op.size
  if !(s.openRanges.any fun o => o.1 ≤ pa && pa + n ≤ o.1 + o.2) then .next (s.send accel .refused)
  else match op with
    | .read n => .next (s.send accel (.reply (memRead s.mem (physKey pa) n)))
    | .write bs => .next ((s.physWrite (physKey pa) bs).send accel (.reply []))
    | .atomic op mode b c =>
      let old := memRead s.mem (physKey pa) n
      match (aopApply op mode (ofBytes old) FULL b c).new with
      | some v => .next ((s.physWrite (physKey pa) (toBytes n v.1)).send accel (.reply old))
      | none => .next (s.send accel (.reply old))

end Sys2Proof.Machine
end

