-- ==== Sys2Proof/Machine/Preempt.lean ====
section
/-! DEFINITION. Pre-emption of workgroups, their save areas, and restoration (R325 to R328). -/
namespace Sys2Proof.Machine
open Sys2Proof

/-! ## The save area (R327, Table 13.10) -/

/-- A size rounded up to 64 bytes. -/
def up64 (n : Nat) : Nat := (n + 63) / 64 * 64
/-- Bytes, padded with zeros to a multiple of 64. -/
def pad64 (bs : List Byte) : List Byte := bs ++ List.replicate (up64 bs.length - bs.length) 0
/-- Bytes cut or filled with zeros to `n`. -/
def fit (n : Nat) (bs : List Byte) : List Byte := (bs ++ List.replicate n 0).take n
/-- A tag byte. -/
def tagByte (t : Tag) : Byte := BitVec.ofNat 8 t

/-- The shape code of a register: 0 uniform, 1 affine, 2 general (R11). -/
def RegVal.code (v : RegVal) : Byte := BitVec.ofNat 8 v.shape.rank
/-- Words as bytes. -/
def wordBytes (ws : List Word) : List Byte := ws.flatMap fun w => toBytes 4 w.toNat
/-- The record of a register in a save area. -/
def RegVal.bytes (v : RegVal) : List Byte :=
  match v with
  | .uniform w t => toBytes 4 w.toNat ++ [tagByte t, 0, 0, 0]
  | .affine a b t => toBytes 4 a.toNat ++ toBytes 4 b.toNat ++ (tagByte t :: List.replicate 7 0)
  | .general ws => ws.flatMap (fun w => toBytes 4 w.1.toNat) ++ ws.map fun w => tagByte w.2

/-- The state code of a lane block. -/
def LaneState.code (st : LaneState) : Byte :=
  match st with | .onPath => 0 | .held .. => 1 | .exited => 2 | .notLaunched => 3 | .helper => 4 | .ejected => 0 | .donated => 0
/-- Bits P0 to P63 of a lane as a number. -/
def Group.predBits (g : Group) (l : Nat) : Nat := (upFrom 0 64).foldl (fun n i => if (g.p.getD i 0).getLsbD l then n + 2 ^ i else n) 0
/-- The next-clause address and resume point of a lane as a save area holds them (R326, R327): a lane of the clause in which its group
stops continues at the word that waits, and then with the clause after. -/
def Group.savedAt (g : Group) (l : Nat) : Addr × Addr :=
  if g.clause.isSome && g.active.getLsbD l then (g.fall, g.pc) else ((g.lane l).next, (g.lane l).resume.getD 0)
/-- A lane block of 128 bytes; a handle word is stored with its ST field as it stands (R205, R333). -/
def Group.laneBlock (g : Group) (w : Wg) (ord l : Nat) : List Byte :=
  let x := g.lane l
  toBytes 8 (g.savedAt l).1.toNat ++ toBytes 8 x.meet.toNat ++ toBytes 8 (g.savedAt l).2.toNat ++ toBytes 8 (g.predBits l) ++
  wordBytes (x.h.map w.handleNow) ++
  toBytes 4 x.srcnt.toNat ++ toBytes 4 ord ++ toBytes 4 x.rank ++ toBytes 4 x.kfirst ++ toBytes 4 x.kcount ++ toBytes 2 x.ecount ++
  [BitVec.ofNat 8 x.home, x.state.code] ++ toBytes 4 x.tid ++ [0, 0, 0, 0]
/-- The group header of 256 bytes: its fields at 8-byte steps, with K0 to K15 from 0x80. -/
def Group.headerBytes (g : Group) : List Byte :=
  let steps : List Nat := [g.mode.toNat, g.status.toNat, g.repc, g.reps.toNat, g.launched.toNat, g.live.toNat, g.active.toNat, g.helper.toNat,
    g.cf.foldr (fun c n => n * 16 + c) 0, g.inHandler.toNat]
  fit 0x80 (steps.flatMap (toBytes 8)) ++ fit 0x80 (g.k.flatMap fun k => toBytes 8 k.toNat)
/-- The open transient results of a group, with those that its recalled lanes still hold, as window entries (R31, R157). -/
def Group.openWindow (g : Group) : List Bypass :=
  let own := laneSlots.flatMap fun l => (g.lane l).byp.map fun x => (l, x)
  let keys := (own.map fun x => (x.2.1, x.2.2.2.2)).eraseDups
  g.window ++ keys.map fun k =>
    let mine := own.filter fun x => (x.2.1, x.2.2.2.2) == k
    ⟨k.1, .general (laneSlots.map fun l => match mine.find? fun x => x.1 == l with | some x => (x.2.2.1, x.2.2.2.1) | none => (0, FULL)),
      maskOf (mine.map Prod.fst), k.2⟩
/-- An entry of the window block, of 192 bytes (R31). -/
def Group.windowEntry (g : Group) (b : Bypass) : List Byte :=
  let ws := laneSlots.map fun l => b.val.at l (g.lane l).home
  fit 192 (Config.saveLayout 2 ([b.reg, b.left, b.w.toNat, b.val.shape.rank] ++ ws.map (fun w => w.1.toNat) ++ ws.map Prod.snd))
/-- The block of a group: header, window, lanes, shapes, registers. -/
def Group.block (g : Group) (w : Wg) (ord : Nat → Nat) : List Byte :=
  let win := (g.openWindow.take 3).flatMap g.windowEntry
  let shapes := g.v.map RegVal.code
  g.headerBytes ++ win ++ List.replicate (576 - win.length) 0 ++ laneSlots.flatMap (fun l => g.laneBlock w (ord (g.lane l).tid) l) ++
  shapes ++ List.replicate (256 - shapes.length) 0 ++ pad64 (g.v.flatMap RegVal.bytes)

/-- The kind of a matrix operation as numbers: pass, load or store, its variant and rounding. -/
def MopKind.codes (k : MopKind) : List Nat :=
  match k with
  | .pass p => [0, match p with | .dense => 0 | .sparse => 1 | .xor => 2 | .and => 3]
  | .mldf w sp => [1, match w with | .a => 0 | .b => 1 | .c => 2, sp.toNat]
  | .mstf t rm => [2, match t with | .f32 => 0 | .f16 => 1 | .bf16 => 2 | .e4m3 => 3 | .e5m2 => 4 | .s32 => 5, rm]
/-- The run state of a matrix operation as a number. -/
def MopState.code (st : MopState) : Nat := match st with | .posted => 0 | .running => 1 | .stopped => 2 | .stopping => 3
/-- A matrix operation in a save area (R258), of 192 bytes: what the instruction asked for, its issuing group, lane and flag, the block
as read at issue, and its progress and place in the posting order. -/
def Mop.image (m : Mop) (gid : Nat) : List Byte :=
  fit 192 (Config.saveLayout 1 (m.kind.codes ++ [gid, m.slot, m.ent, m.cf.getD 15, m.base, m.pitch, m.start, m.mode.toNat, m.blkAddr, m.step, m.perf,
    m.state.code, m.touched.toNat, m.cancel.toNat, m.flags.toNat, m.posted, m.seq] ++ m.blk.map BitVec.toNat ++ m.fs.map BitVec.toNat ++ m.tids))
/-- An open copy in a save area, of 24 bytes. -/
def CopyOp.image (c : CopyOp) : List Byte :=
  let sp (x : CpSpace) : Nat := match x with | .g => 0 | .s => 1
  fit 24 (Config.saveLayout 3 [c.dst, c.src, c.len, sp c.ds, sp c.ss])

/-- The open batches of a workgroup that hold copies. -/
def Saved.openBatches (x : Saved) : List (List CopyOp) := x.groups.flatMap fun g => (laneSlots.map fun l => (g.lane l).batch).filter fun b => !b.isEmpty
/-- The sections of a save area after its head: handle table, groups, matrix operations, open copies, scratchpad, tile state (R327). -/
def Saved.sections (x : Saved) (ord : Nat → Nat) (edge : Nat) : List (List Byte) :=
  let w := x.wg
  let opIndex (e : Nat) : Nat := (x.mops.findIdx? (fun m => m.ent == e)).getD 0xFFFF
  let handles := w.handles.zipIdx.flatMap fun (h : HEntry × Nat) =>
    toBytes 4 h.1.gen ++ toBytes 4 h.1.kind ++ toBytes 4 h.1.st ++ toBytes 4 (opIndex h.2)
  let groups := x.groups.flatMap fun g => g.block w ord
  let gidOf (u : Nat) : Nat := match x.groups.find? fun g => g.uid == u with | some g => g.gid | none => 0
  let mops := pad64 (x.mops.flatMap (fun m => m.image (gidOf m.uid)) ++ x.mops.flatMap fun m => m.bma ++ m.bmb)
  let cps := pad64 (x.openBatches.flatten.flatMap CopyOp.image)
  let words := upFrom 0 (w.spSize / 4)
  let sp := memRead w.sp.bytes 0 w.spSize ++ words.map fun i => tagByte (tmTag w.sp i)
  let tile := match x.tile with
    | none => []
    | some (d, t) => ((upFrom 0 1024).flatMap fun i => toBytes 8 (aget 0 d i).toNat) ++ memRead t.bytes 0 edge
  [handles, groups, mops, cps, pad64 sp, pad64 tile]
/-- The bytes of a save area (R327): the head, which holds where the sections start, and the sections. -/
def Saved.image (x : Saved) (ord : Nat → Nat) (edge : Nat) : List Byte :=
  let w := x.wg
  let secs := x.sections ord edge
  let at' (k : Nat) : Nat := 256 + ((secs.take k).map List.length).sum
  let arr := x.groups.foldl (fun n g => match g.gate with | .bar _ | .nbar _ => n + 2 ^ g.gid | _ => n) 0
  let head := fit 256 (Config.saveLayout 0 [w.launch, w.node, w.wgid, w.wgrank, x.groups.length, (x.groups.map Group.gseq).headD 0, w.lcore, w.restores, arr,
    at' 0, at' 1, at' 2, at' 3, at' 4, at' 5, x.openBatches.length, x.mops.length, w.pendingHandles])
  head ++ secs.flatten

/-- The lowest place of a save region with room for a size (R326). -/
def savePlace (used : List (Nat × Nat)) (base size need : Nat) : Option Nat :=
  let cands := sortBy id (base :: used.map fun u => u.1 + up64 u.2)
  cands.find? fun a => base ≤ a && a + need ≤ base + size && used.all fun u => a + need ≤ u.1 || u.1 + u.2 ≤ a

/-! ## PREEMPT (R326) -/

/-- The workgroups that are pre-empted with one: the live members of its neighbourhood. -/
def State.preemptUnit (s : State) (w : Wg) : List Wg := s.wgs.filter fun x => x.launch == w.launch && x.nbr == w.nbr && x.state == .live

/-- A request for pre-emption: CTXQ sel 1 reads 1, running passes stop after their block, cancellable batches are cancelled
(R225, R258, R326). -/
def State.askPreempt (s : State) (ws : List Wg) : State :=
  let mine (u : Nat) : Bool := ws.any fun w => w.uid == u
  { s with
    wgs := s.wgs.map (fun w => if mine w.uid then { w with preemptReq := true } else w)
    mops := s.mops.map (fun (m : Mop) => if mine m.wg && m.isPass && m.state == .running then { m with state := .stopping } else m)
    batches := s.batches.map (fun (b : Batch) => if mine b.wg && b.cancellable && b.state == .running then { b with state := .cancelling } else b) }

/-- Whether every group of a workgroup stands where pre-emption stops it, with its lanes back and its operations done (R192, R326). -/
def State.preemptReady (s : State) (w : Wg) : Bool :=
  (s.groups.all fun g => g.wg != w.uid || (g.sleeve.isNone && (g.clause.isNone || s.wordWaits g || g.phase == .stopped))) &&
  (s.accs.all fun a => a.wg != w.uid || a.onlyFaults) && (s.batches.all fun b => b.wg != w.uid || b.state == .faulted) &&
  (s.sliceqs.all fun q => q.wg != w.uid) && s.mops.all fun m => m.wg != w.uid || m.state == .posted || m.state == .stopped

/-- A group as it is saved: between clauses, or at the word at which it waits; an arrival at a barrier stays, and the rejoin timer keeps
its count (R158). -/
def State.forSave (s : State) (g : Group) : Group :=
  let clk := s.clock g.core
  { g with
    phase := if g.phase == .issuing then .waiting else g.phase
    gate := match g.gate with | .bar p => .bar p | .nbar p => .nbar p | _ => .none
    latch := [], buffer := [], readyAt := none, ejectNext := none
    heldFor := match g.heldSince with | some t => g.heldFor + (clk - t) | none => g.heldFor
    heldSince := g.heldSince.map fun _ => 0 }

/-- Whether the tile state of a core is saved with a workgroup: the last of its launch to leave the core (Table 13.10). -/
def State.lastOnCore (s : State) (w : Wg) : Bool :=
  !(s.wgs.any fun x => x.uid != w.uid && x.launch == w.launch && x.core == w.core && x.state == .live)
/-- The uncorrectable word that a save of a workgroup meets, if any: SUB and ADDR (R336, Table 15.2). -/
def State.saveBad (s : State) (w : Wg) : Option (Nat × Addr) :=
  s.ras.marks.findSome? fun m =>
    let kind := m.loc / 2 ^ 48
    let idx := m.loc % 2 ^ 48
    if !m.bad || m.region != 0x40 + clusterOf w.core then none
    else if kind == 1 && idx / 2 ^ 24 == w.uid then some (2, BitVec.ofNat 64 (0xFE * 2 ^ 56 + 4 * (idx % 2 ^ 24)))
    else if kind == 2 && idx / 2 ^ 24 == w.core && s.lastOnCore w then some (2, BitVec.ofNat 64 (0xFE * 2 ^ 56 + 0x08000000 + 4 * (idx % 2 ^ 24)))
    else if kind == 3 && w.groups.contains (idx / 2 ^ 8) then some (3, BitVec.ofNat 64 (0xFF * 2 ^ 56 + idx % 2 ^ 8))
    else none

/-- The image of a workgroup that is ready to be saved; a matrix operation keeps the age of its posting (R258), and the clocks in which
E002 shows are over. -/
def State.saveOf (s : State) (w : Wg) : Saved :=
  let clk := s.clock w.core
  { wg := { w with preemptReq := false }
    groups := sortBy Group.gid ((s.groups.filter fun g => g.wg == w.uid).map s.forSave)
    mops := (sortBy Mop.seq (s.mops.filter fun m => m.wg == w.uid)).map fun m => { m with posted := clk - m.posted, stopClk := none }
    accs := s.accs.filter fun a => a.wg == w.uid
    batches := s.batches.filter fun b => b.wg == w.uid
    tile := if s.lastOnCore w then some ((s.core w.core).desc, (s.core w.core).tile) else none
    base := 0
    size := 0 }

/-- Writes a save area and takes the workgroup off its core; none when the save region has no room or cannot be written. -/
def State.saveWg (s : State) (w : Wg) : Option State :=
  let p := s.part w.part
  let l := s.launch w.launch
  let x := s.saveOf w
  let img := x.image (fun tid => aget 0 l.ordIdx (w.node * 2 ^ 40 + tid)) (s.tileBytes w)
  let used := (s.saved.filter fun y => y.wg.part == w.part).map fun y => (y.base, y.size)
  match savePlace used p.saveb.toNat p.saves.toNat img.length with
  | none => none
  | some a =>
    match s.vaStore w.part a img with
    | none => none
    | some s =>
      let s := (x.groups.foldl State.freePort s).modCluster (clusterOf w.core) fun c =>
        { c with latchA := c.latchA.filter fun y => y.wg != w.uid, latchB := c.latchB.filter fun y => y.wg != w.uid }
      some { s with
        groups := s.groups.filter (fun g => g.wg != w.uid)
        wgs := s.wgs.filter (fun y => y.uid != w.uid)
        mops := s.mops.filter (fun m => m.wg != w.uid)
        accs := s.accs.filter (fun y => y.wg != w.uid)
        batches := s.batches.filter (fun b => b.wg != w.uid)
        saved := s.saved ++ [{ x with base := a, size := img.length }] }

/-- Saves the workgroups of a unit one after the other; none when one of them cannot be saved. -/
def State.saveAll : List Wg → State → Option State
  | [], s => some s
  | w :: ws, s => match s.saveWg w with | some t => State.saveAll ws t | none => none

/-- PREEMPT (R326): requests the pre-emption of a workgroup with its neighbourhood, and saves it once it has stopped and drained. A
context that cannot be read ends the launch (R336); a save region without room leaves the workgroup running. -/
def execPreempt (wg : Nat) (s : State) : Out :=
  match s.wg? wg with
  | none => .next s
  | some w =>
    let ws := s.preemptUnit w
    if w.state != .live || s.launches.all (fun l => l.num != w.launch || l.ending.isSome) then .next s
    else if !ws.all Wg.preemptReq then .next (s.askPreempt ws)
    else if !ws.all s.preemptReady then .next s
    else
      let s := (s.groups.filter fun g => ws.any fun w => w.uid == g.wg).foldl (fun s g => s.dissolve g.uid) s
      match ws.findSome? fun w => (s.saveBad w).map fun x => (w, x) with
      | some (b, sub, a) =>
        let r : TrapRecord := ⟨cDATAERR, sub, false, false, false, false, 0, 0, a, 0, 0, 0⟩
        .next (((s.logFault { (default : Group) with part := b.part, launch := b.launch, core := b.core } r).endLaunch b.launch 0x11).detect cDATAERR)
      | none =>
        match State.saveAll (s.preemptUnit w) s with
        | some t => .next t
        | none => .next { s with wgs := s.wgs.map fun (x : Wg) => if ws.any fun w => w.uid == x.uid then { x with preemptReq := false } else x }

/-! ## RESTORE (R328) -/

/-- The saved workgroups that are restored with one: the members of its neighbourhood, by rank. -/
def State.savedUnit (s : State) (x : Saved) : List Saved :=
  sortBy (fun y => y.wg.wgrank) (s.saved.filter fun y => y.wg.launch == x.wg.launch && y.wg.nbr == x.wg.nbr)

/-- Groups of a saved workgroup that need a slot. -/
def Saved.resident (x : Saved) : List Group := x.groups.filter fun g => g.phase != .yielded && g.phase != .retired

/-- Whether a cluster's reservation table has room for the matrix operations of workgroups that come to its cores (R232). -/
def State.mopRoom (s : State) (xs : List (Saved × Nat)) : Bool :=
  xs.all fun x =>
    let here (c : Nat) : Bool := clusterOf c == clusterOf x.2
    (s.mops.countP fun m => here m.core) + ((xs.filter fun y => here y.2).map fun y => y.1.mops.length).sum ≤ 32
/-- The cores on which a saved unit is restored (R328): a rectangle, the core of its LCORE, or the core that an event names; with room,
with room for its matrix operations, and with a tile state that can change (R307). -/
def State.restoreCores (s : State) (l : Launch) (xs : List Saved) (core : Nat) : Option (List Nat) :=
  match xs with
  | [] => none
  | x :: _ =>
    let nd := l.node x.wg.node
    let stuck (c : Nat) : Bool := (s.descsFor l c x.wg.lcore nd.lrec.tiles).1 && s.wgs.any fun w => w.core == c && w.state == .live
    let takes (cs : List Nat) : Bool := s.mopRoom (xs.zip cs) && !cs.any stuck
    match nd.kind with
    | .neighbourhood => (s.rectangles l.part nd).find? fun cs => (cs.all fun c => s.coreRoom c (nd.wgg + 1) nd) && takes cs
    | _ =>
      let c := if l.det then s.logicalCore l.part x.wg.lcore else core
      if (s.partCores l.part).contains c && s.coreRoom c x.resident.length nd && takes [c] then some [c] else none

/-- Loads one saved workgroup onto a core. The core drops its L1 lines of the partition, which may be older than the thread's own
stores (R179). -/
def State.loadWg (s : State) (l : Launch) (x : Saved) (core : Nat) : State :=
  let s := (s.cleanCore l core).l1Drop core fun y => y.part == l.part
  let clk := s.clock core
  let s := match x.tile with
    | some (d, t) => s.modCore core fun c => { c with desc := d, tile := t, tileCore := if l.det then x.wg.lcore else c.tileCore }
    | none => s
  let s := x.groups.foldl (fun s (g : Group) =>
    let slot := if g.phase == .yielded || g.phase == .retired then g.slot else (s.freeSlot? core).getD 0
    { s with groups := s.groups ++ [{ g with core := core, slot := slot, yldUntil := 0, heldSince := g.heldSince.map fun _ => clk }] }) s
  { s with
    wgs := s.wgs ++ [{ x.wg with core := core, restores := x.wg.restores + 1 }]
    mops := s.mops ++ x.mops.map (fun m => { m with core := core, posted := clk - m.posted })
    accs := s.accs ++ x.accs
    batches := s.batches ++ x.batches.map (fun b => { b with core := core })
    saved := s.saved.filter (fun y => y.wg.uid != x.wg.uid) }

/-- RESTORE (R328): a saved workgroup, with its neighbourhood, continues on free cores of its partition; in deterministic mode a core
first takes the tile state of its logical core (R307). -/
def execRestore (wg core : Nat) (s : State) : Out :=
  match s.saved.find? fun x => x.wg.uid == wg with
  | none => .next s
  | some x =>
    match s.launch? x.wg.launch with
    | none => .next s
    | some l =>
      let xs := s.savedUnit x
      match s.restoreCores l xs core with
      | none => .next s
      | some cs =>
        match State.switchAll l x.wg.lcore (l.node x.wg.node).lrec.tiles cs s with
        | .ok t => .next (xs.foldl (fun s y => s.loadWg l y (cs.getD y.wg.wgrank (cs.headD 0))) t)
        | .error r => .next (((s.logFault { (default : Group) with part := l.part, launch := l.num, core := core } r).endLaunch l.num 0x11).detect r.cause)

end Sys2Proof.Machine
end

