-- ==== Sys2Proof/Machine/Packets.lean ====
section
/-! DEFINITION. Queues and packets: notifies, fetching, packet checks, and the effect of each packet (R290 to R303). -/
namespace Sys2Proof.Machine
open Sys2Proof

/-! ## Packet checks (Tables 12.2, 12.6) -/

/-- The payload words a type takes; none for any number (Table 12.2). -/
def packetNw (t : Nat) : Option Nat := match t with | 0 => none | 1 | 2 => some 3 | 3 | 4 | 8 => some 1 | 9 => some 2 | _ => some 0
/-- The ARG bits that Table 12.2 names. -/
def packetArg (t : Nat) : Nat := match t with | 1 => 2 ^ 24 | 3 => 2 ^ 12 | 4 => 2 ^ 10 | 5 => 2 ^ 11 | 6 => 2 ^ 33 | 7 => 2 ^ 3 | _ => 1

/-- The error codes of a packet of a queue (Table 12.6). -/
def State.packetCodes (s : State) (n : Nat) (x : Queue) (p : Packet) : List Nat :=
  let t := p.type
  let nw := p.words.length - 1
  let a := p.arg
  let pay (i : Nat) : Nat := (p.pay i).toNat
  let len (v : Nat) : Bool := v == 0 || 2 ^ 20 < v
  code 1 (9 < t || (packetNw t).any (· != nw)) ++
  code 2 (bits (p.words.headD 0).toNat 13 3 != 0 || packetArg t ≤ a || (t == 3 && bits a 10 2 == 3) || (t == 7 && a != 3 && a != 5)) ++
  code 3 (x.copyKind && (t == 1 || t == 6)) ++
  code 4 ((t == 3 || t == 4) && (s.part n).scnt ≤ a % 1024 || (t == 5 && (s.part n).vcnt ≤ a)) ++
  code 5 ((t == 1 && (pay 0 % 64 != 0 || pay 1 % 8 != 0 || a == 0)) ||
    (t == 2 && (pay 0 % 4 != 0 || pay 1 % 4 != 0 || pay 2 % 4 != 0 || 2 ^ 40 < pay 2)) || (t == 8 && pay 0 % 8 != 0) ||
    (t == 9 && (pay 0 % 8 != 0 || len (pay 1)))) ++
  code 7 (t == 9 && p.jumped)
/-- The lowest of a list of error codes. -/
def lowestCode (cs : List Nat) : Option Nat := cs.foldl (fun m c => match m with | none => some c | some x => some (min x c)) none

/-! ## Fetching (R298, R300, R301) -/

/-- Whether (WIDX − RIDX) mod 2^64 exceeds the ring (R300). -/
def Queue.overrun (x : Queue) : Bool := x.ring < (x.widx - x.ridx).toNat

/-- What the fetcher finds next in a queue: nothing whole, an error, or a packet with its number of words. -/
inductive Fetched where
  | nothing
  | error (c : Nat)
  | packet (p : Packet) (len : Nat)
  deriving DecidableEq, Repr

/-- The words of a packet in the ring or in a JUMP buffer, by their index. -/
def State.packetWords (s : State) (n : Nat) (va : Nat → Nat) (k : Nat) : Option (List Addr) :=
  (upFrom 0 k).foldr (fun i r => match r, s.vaNum n (va i) 8 with | some ws, some v => some (BitVec.ofNat 64 v :: ws) | _, _ => none) (some [])

/-- The next packet of a queue (R298, R301). -/
def State.peekPacket (s : State) (q : Nat) : Fetched :=
  let n := s.queueOwner q
  let x := s.queue q
  let here (va : Nat → Nat) (room : Nat) (jumped : Bool) (short : Fetched) : Fetched :=
    match s.vaNum n (va 0) 8 with
    | none => .error 6
    | some h =>
      let k := 1 + bits h 8 4
      if room < k then short
      else
        match s.packetWords n va k with
        | none => .error 6
        | some ws =>
          let p : Packet := ⟨s.uidNext, ws, jumped, false, false, 0⟩
          match lowestCode (s.packetCodes n x p) with
          | some c => .error c
          | none => .packet p k
  match x.jump with
  | some (a, left) => here (fun i => a + 8 * i) left true (.error 7)
  | none =>
    if x.widx.toNat ≤ x.ridx.toNat then .nothing
    else here (fun i => x.base.toNat + 8 * ((x.ridx.toNat + i) % x.ring)) (x.widx.toNat - x.ridx.toNat) false .nothing

/-- A packet joins the queue's buffer, and RIDX or the JUMP buffer advances past it; a JUMP moves fetching to its buffer (R298). -/
def State.takePacket (s : State) (q : Nat) (p : Packet) (len : Nat) : State :=
  let s := { s with uidNext := s.uidNext + 1 }
  s.modQueue q fun x =>
    let x := { x with packets := x.packets ++ [p] }
    match x.jump with
    | some (a, left) => { x with jump := if left == len then none else some (a + 8 * len, left - len) }
    | none =>
      { x with ridx := x.ridx + BitVec.ofNat 64 len
               jump := if p.type == 9 then some ((p.pay 0).toNat, (p.pay 1).toNat) else none }

/-- One service of a queue: at most `k` packets and `left` words, while the buffer of 16 packets has room (R301). -/
def State.fetchRun : Nat → State → Nat → Nat → State
  | 0, s, _, _ => s
  | k + 1, s, q, left =>
    if 16 ≤ (s.queue q).packets.length then s
    else
      match s.peekPacket q with
      | .nothing => s
      | .error c => s.queueError q c
      | .packet p len => if left < len then s else State.fetchRun k (s.takePacket q p len) q (left - len)

/-- The queue that the fetcher serves next with its plane (R301): strict plane order, then the rotation pointer of the plane. The
fetcher runs once Chihar does (R304, R345). -/
def State.nextService (s : State) : Option (Nat × Nat) :=
  let ready := (s.queues.filter fun x => s.boot.state == 4 && x.2.pending && x.2.en && x.2.st == 1 && x.2.packets.length < 16).map fun x => (x.1, x.2.plane)
  [3, 2, 1, 0].findSome? fun p =>
    let mine := (ready.filter fun x => x.2 == p).map Prod.fst
    let ptr := s.scan.getD p 0
    match sortBy (fun q => (q + 4096 - ptr) % 4096) mine with | q :: _ => some (q, p) | [] => none

/-- QUEUE_SERVICE (R301). -/
def execQueueService (s : State) : Out :=
  match s.nextService with
  | none => .next s
  | some (q, p) =>
    let s := { s with scan := modAt (fun _ => (q + 1) % 4096) p s.scan }.modQueue q fun x => { x with pending := false }
    if (s.queue q).overrun then .next (s.queueStop q 1 0)
    else
      let s := s.fetchRun (s.part (s.queueOwner q)).fetchw q 64
      let more := (s.queue q).st == 1 && (match s.peekPacket q with | .nothing => false | _ => true)
      .next (if more then s.modQueue q fun x => { x with pending := true } else s)

/-- QUEUE_NOTIFY (R300): a store to QUEUE.WIDX. -/
def execQueueNotify (part q : Nat) (v : Addr) (s : State) : Out :=
  if !s.ownsQueue part q || (s.queue q).devopen then .next s
  else
    let s := s.modQueue q fun x => { x with widx := v, pending := true }
    let x := s.queue q
    .next (if x.en && x.st == 1 && x.overrun then s.queueStop q 1 0 else s)

/-! ## QUEUE.CTL (R299, R300, R302) -/

/-- Whether a write of QUEUE.CTL is discarded whole (R299). -/
def ctlBad (x : Queue) (v : Addr) : Bool :=
  let n := v.toNat
  bits n 16 48 != 0 || bits n 13 2 != 0 || bits n 1 3 != 0 || bits n 8 5 < 6 || 20 < bits n 8 5 ||
  (x.en && (bits n 6 7 != bits x.ctl.toNat 6 7))
/-- RST: the words not fetched are discarded; a packet that put the queue in ERROR ends, and the packets that have not started are
discarded with it (R300). -/
def Queue.leaveStop (x : Queue) : Queue :=
  if x.st != 2 && x.st != 3 then x
  else
    let ps := if x.packets.any Packet.failed then x.packets.filter fun p => p.started && !p.failed else x.packets
    { x with ridx := x.widx, st := 1, jump := none, packets := ps }
/-- A write of QUEUE.CTL of a queue that a partition owns (R299). -/
def State.writeCtl (s : State) (part q : Nat) (v : Addr) : State :=
  if !s.ownsQueue part q || ctlBad (s.queue q) v then s
  else
    let set (x : Queue) : Queue :=
      let was := x.en
      let x := if v.getLsbD 15 then x.leaveStop else x
      let x := { x with ctl := v &&& ~~~(0x8000 : Addr) }
      if !was && x.en then { x with widx := 0, ridx := 0, phase := 0, ici := false, st := 1, jump := none, pending := false } else x
    (s.modQueue q set).tidyQueue q

/-- QUEUE_ENABLE (R299). -/
def execQueueEnable (part q : Nat) (v : Addr) (s : State) : Out :=
  .next (if !(s.queue q).en && v.getLsbD 0 then s.writeCtl part q v else s)
/-- QUEUE_DISABLE (R299). -/
def execQueueDisable (part q : Nat) (v : Addr) (s : State) : Out :=
  .next (if (s.queue q).en && !v.getLsbD 0 then s.writeCtl part q v else s)
/-- QUEUE_RST (R300). -/
def execQueueRst (part q : Nat) (v : Addr) (s : State) : Out := .next (if v.getLsbD 15 then s.writeCtl part q v else s)
/-- QUEUE_PLANE_CHANGE (R302). -/
def execQueuePlaneChange (part q : Nat) (v : Addr) (s : State) : Out :=
  .next (if (s.queue q).en && v.getLsbD 0 && bits v.toNat 4 2 != (s.queue q).plane then s.writeCtl part q v else s)

/-! ## Starting packets (R291, R292) -/

/-- The packets before the first that has not started, with that one. -/
def splitStart : List Packet → List Packet × Option Packet
  | [] => ([], none)
  | p :: ps => if p.started then let r := splitStart ps; (p :: r.1, r.2) else ([], some p)
/-- Whether a type starts only once every earlier packet is complete (Table 12.2). -/
def waitsAll (t : Nat) : Bool := t == 3 || t == 5 || t == 7 || t == 8
/-- The packet of a queue that starts next, if its condition holds (R292). A packet of a JUMP buffer does not wait for the JUMP
that fetched it. -/
def State.startablePacket (s : State) (q : Nat) : Option Packet :=
  match splitStart (s.queue q).packets with
  | (before, some p) =>
    let waits := before.any fun x => x.type == 4
    let earlier := before.filter fun x => !(p.jumped && x.type == 9)
    if s.boot.state != 4 || waits || ((p.bar || waitsAll p.type) && !earlier.isEmpty) then none else some p
  | _ => none
/-- Marks a packet as started. -/
def State.startPacket (s : State) (q : Nat) (p : Packet) : State :=
  (s.modQueue q fun x => { x with packets := updWhere (fun y => y.id == p.id) (fun y => { y with started := true }) x.packets }).tidyQueue q
/-- The course of a packet of type `t` that starts now. -/
def State.runPacket (s : State) (q t : Nat) (k : State → Packet → State) : Out :=
  match s.startablePacket q with
  | some p => if p.type == t then .next (k (s.startPacket q p) p) else .next s
  | none => .next s

/-- PACKET_NOP (R291). -/
def execPacketNop (q : Nat) (s : State) : Out := s.runPacket q 0 fun s p => s.packetDone q p.id
/-- LAUNCH (R262, R294, R303). -/
def execLaunch (q : Nat) (s : State) : Out :=
  s.runPacket q 1 fun s p =>
    let x := s.queue q
    s.startLaunch (s.queueOwner q) q p.id (p.pay 0).toNat (p.pay 1).toNat p.arg (p.pay 2).toNat (q, x.phase.toNat, x.ici)
/-- PACKET_COPY (R295): an empty copy completes at its start. -/
def execPacketCopy (q : Nat) (s : State) : Out := s.runPacket q 2 fun s p => if p.pay 2 == 0 then s.packetDone q p.id else s
/-- A device semaphore. -/
def State.dsem (s : State) (n j : Nat) : Addr := aget 0 s.dsems ((s.part n).sbase + j)
/-- Sets a device semaphore. -/
def State.setDsem (s : State) (n j : Nat) (v : Addr) : State := { s with dsems := aset s.dsems ((s.part n).sbase + j) v }
/-- SEMSIG (R296). -/
def execSemsig (q : Nat) (s : State) : Out :=
  s.runPacket q 3 fun s p =>
    let n := s.queueOwner q
    let j := p.arg % 1024
    let old := s.dsem n j
    let v := p.pay 0
    let new := match bits p.arg 10 2 with | 0 => v | 1 => old + v | _ => if old.toNat < v.toNat then v else old
    (s.setDsem n j new).packetDone q p.id
/-- SEMWAITGE (R292, R296): starts, and completes at a read that holds at least its value. -/
def execSemwaitge (q : Nat) (s : State) : Out :=
  let s := match s.startablePacket q with | some p => if p.type == 4 then s.startPacket q p else s | none => s
  match (s.queue q).packets.find? fun p => p.started && p.type == 4 with
  | none => .next s
  | some p => if (p.pay 0).toNat ≤ (s.dsem (s.queueOwner q) (p.arg % 1024)).toNat then .next (s.packetDone q p.id) else .next s
/-- INTR (R297). -/
def execIntr (q : Nat) (s : State) : Out := s.runPacket q 5 fun s p => (s.post (s.queueOwner q) p.arg).packetDone q p.id
/-- PHASE (R303). -/
def execPhase (q : Nat) (s : State) : Out :=
  s.runPacket q 6 fun s p =>
    (s.modQueue q fun x => { x with phase := BitVec.ofNat 64 (p.arg % 2 ^ 32), ici := p.arg.testBit 32 }).packetDone q p.id
/-- FENCE (R297): completion has performed the writes of earlier packets. -/
def execPacketFence (q : Nat) (s : State) : Out := s.runPacket q 7 fun s p => s.packetDone q p.id
/-- TSTAMP (R297, R351). -/
def execTstamp (q : Nat) (s : State) : Out :=
  s.runPacket q 8 fun s p =>
    match s.vaStore (s.queueOwner q) (p.pay 0).toNat (toBytes 8 s.time) with
    | some t => t.packetDone q p.id
    | none => (s.packetDone q p.id).queueError q 6
/-- JUMP (R298): started; it completes when the last packet of its buffer has started. -/
def execJump (q : Nat) (s : State) : Out := s.runPacket q 9 fun s _ => s

/-! ## COPY packets (R295, R336) -/

/-- Copies the next piece of a COPY packet, up to a 128-byte boundary of the destination: the state and the bytes moved, or ERRC. -/
def State.packetPiece (s : State) (n : Nat) (p : Packet) : Except Nat (State × Nat) :=
  let d := (p.pay 0).toNat + p.moved
  let a := (p.pay 1).toNat + p.moved
  let k := min ((p.pay 2).toNat - p.moved) (128 - d % 128)
  let rd (i : Nat) : Except Nat (List Byte × Tag) :=
    match s.translate n (a + 4 * i) needR true with
    | .error _ => .error 6
    | .ok pg => if s.badAt pg.key 4 then .error 8 else .ok (s.homeRead pg 4, s.tagAt pg (a + 4 * i))
  match collect ((upFrom 0 (k / 4)).map rd), s.translate n d needW true with
  | .error e, _ => .error e
  | _, .error _ => .error 6
  | .ok ws, .ok pg => .ok (s.pageWrite pg d (ws.flatMap Prod.fst) (ws.map Prod.snd), k)
/-- Records how far a COPY packet has come. -/
def State.setMoved (s : State) (q : Nat) (p : Packet) : State :=
  s.modQueue q fun x => { x with packets := updWhere (fun y => y.id == p.id) (fun _ => p) x.packets }
/-- Copies up to `k` pieces of a COPY packet. -/
def State.packetRun : Nat → State → Nat → Packet → Nat → State × Packet × Option Nat
  | 0, s, _, p, _ => (s, p, none)
  | k + 1, s, n, p, q =>
    if (p.pay 2).toNat ≤ p.moved then (s, p, none)
    else match s.packetPiece n p with
      | .error e => (s, p, some e)
      | .ok (s, m) => let p := { p with moved := p.moved + m }; State.packetRun k (s.setMoved q p) n p q

/-- The COPY packet of a queue by its identity, started and not stopped. -/
def State.copyPacket? (s : State) (q id : Nat) : Option Packet :=
  (s.queue q).packets.find? fun p => p.id == id && p.type == 2 && p.started && !p.failed
/-- PACKET_COPY_COMPLETE (R295): the rest of the copy; a fault puts the queue in ERROR, and the packet does not complete. -/
def execPacketCopyComplete (q id : Nat) (s : State) : Out :=
  match s.copyPacket? q id with
  | none => .next s
  | some p =>
    match s.packetRun ((p.pay 2).toNat / 128 + 2) (s.queueOwner q) p q with
    | (s, p, none) => .next (s.packetDone q p.id)
    | (s, p, some e) => .next (((s.setMoved q { p with failed := true }).queueError q e).detect (if e == 8 then cDATAERR else 0))

end Sys2Proof.Machine
end

