-- ==== Sys2Proof/Machine/Links.lean ====
section
/-! DEFINITION. The command links between the global scheduler core and the leaf controllers (R304, R305). -/
namespace Sys2Proof.Machine
open Sys2Proof

/-- A channel of a cluster's command link: to the global scheduler core, or from it. -/
def Cluster.channel (c : Cluster) (up : Bool) : Channel := if up then c.up else c.down
/-- Changes a channel. -/
def State.modChannel (s : State) (cluster : Nat) (up : Bool) (f : Channel → Channel) : State :=
  s.modCluster cluster fun c => if up then { c with up := f c.up } else { c with down := f c.down }

/-- LINK_MESSAGE (R305): a message of 32 bytes, sent with a permit, takes a slot of the receiver. -/
def execLinkMessage (cluster : Nat) (up : Bool) (msg : List Byte) (s : State) : Out :=
  .next (s.modChannel cluster up fun c =>
    if c.permits == 0 || c.waitAck || 8 ≤ c.msgs.length || msg.length != 32 then c
    else { c with permits := c.permits - 1, msgs := c.msgs ++ [msg] })

/-- The receiver frees its oldest slot and returns a permit with the channel's epoch (R305). -/
def State.linkFree (s : State) (cluster : Nat) (up : Bool) : State :=
  s.modChannel cluster up fun c =>
    if c.msgs.isEmpty then c else { c with msgs := c.msgs.drop 1, returns := c.returns ++ [if c.syncAt.isSome then c.epoch + 1 else c.epoch] }

/-- LINK_PERMIT_RETURN (R305): a return arrives; one that carries an older epoch is discarded. -/
def execLinkPermitReturn (cluster : Nat) (up : Bool) (epoch : Nat) (s : State) : Out :=
  .next (s.modChannel cluster up fun c =>
    if c.returns.head? != some epoch then c
    else { c with returns := c.returns.drop 1, permits := if epoch == c.epoch && !c.waitAck then c.permits + 1 else c.permits })

/-- A sender that is reset sends SYNC and waits (R305). -/
def State.linkReset (s : State) (cluster : Nat) (up : Bool) : State :=
  s.modChannel cluster up fun c => { c with waitAck := true, permits := 0 }

/-- SYNC (R305): the receiver finishes the messages it holds, and answers with its free slots. -/
def execSync (cluster : Nat) (up : Bool) (s : State) : Out :=
  .next (s.modChannel cluster up fun c => if c.waitAck && c.syncAt.isNone then { c with msgs := [], syncAt := some 8 } else c)

/-- SYNCACK (R305): the sender takes the count of free slots and the new epoch; returns sent before it are discarded. -/
def execSyncack (cluster : Nat) (up : Bool) (s : State) : Out :=
  .next (s.modChannel cluster up fun c =>
    match c.syncAt with
    | some f => { c with permits := f, epoch := c.epoch + 1, waitAck := false, syncAt := none }
    | none => c)

end Sys2Proof.Machine
end

