-- ==== Sys2Proof/Machine/Partitions.lean ====
section
/-! DEFINITION. Host writes to the register blocks of partitions and queues: configuration, reset, translation buffers, stopped
groups, fault log, slices and semaphores (R296, R299, R309 to R313, R316, R320, R330). -/
namespace Sys2Proof.Machine
open Sys2Proof

/-! ## PART.CFG (R310, R311, R341) -/

/-- Whether two ranges, as start and length, share an element. -/
def rangesMeet (a b : Nat × Nat) : Bool := 0 < a.2 && 0 < b.2 && a.1 < b.1 + b.2 && b.1 < a.1 + a.2
/-- FIRST and NCL of a configuration as a range of clusters. -/
def cfgClusters (v : Nat) : Nat × Nat := (bits v 7 3 * 8, 8 * (bits v 10 3 + 1))
/-- The ranges of a partition other than its clusters: vectors, semaphores, queues. -/
def Partition.shares (p : Partition) : List (Nat × Nat) :=
  [(p.vbase, p.vcnt), (p.sbase, p.scnt), (bits p.qrange.toNat 0 16, bits p.qrange.toNat 16 16)]
/-- MANW. -/
def Partition.manw (p : Partition) : Nat := bits p.qos.toNat 8 8
/-- Whether a value of PART.CFG holds a reserved value. -/
def cfgReserved (v : Nat) : Bool := bits v 24 40 != 0 || bits v 13 3 != 0 || bits v 1 6 != 0
/-- Whether a write of PART.CFG that sets EN is accepted (R310, R341). -/
def State.cfgOk (s : State) (n v : Nat) : Bool :=
  let p := s.part n
  let others := ((upFrom 0 8).filter fun m => m != n && (s.part m).en).map s.part
  let c := cfgClusters v
  !cfgReserved v && c.1 + c.2 ≤ 64 && p.vbase + p.vcnt ≤ 2048 && p.sbase + p.scnt ≤ 1024 &&
  bits p.qrange.toNat 0 16 + bits p.qrange.toNat 16 16 ≤ 4096 &&
  (upFrom c.1 c.2).any (fun k => !s.clusterRetired k) &&
  others.all (fun o =>
    !rangesMeet c (cfgClusters o.cfg.toNat) && (p.carve &&& o.carve) == 0 && bits o.cfg.toNat 16 8 == bits v 16 8 &&
    (p.shares.zip o.shares).all fun x => !rangesMeet x.1 x.2) &&
  p.manw + (others.map Partition.manw).sum ≤ 64

/-- A write of PART.CFG while EN is 0 (R310, R311): one that sets EN is discarded if it breaks a condition; another sets every field,
and reserved bits stay zero. -/
def State.cfgWrite (s : State) (n : Nat) (v : Addr) : State :=
  if v.getLsbD 0 then (if s.cfgOk n v.toNat then s.modPart n fun p => { p with cfg := v } else s)
  else s.modPart n fun p => { p with cfg := v &&& 0xFF1F80 }
/-- PART_ENABLE (R310, R311): a write of PART.CFG that sets EN. -/
def execPartEnable (n : Nat) (v : Addr) (s : State) : Out :=
  if n < 8 && !(s.part n).en && v.getLsbD 0 then .next (s.cfgWrite n v) else .next s

/-! ## Partition reset (R313) -/

/-- Clears `n` bytes of memory from a key. -/
def memClear (m : Mem) (key n : Nat) : Mem := m.filter fun c => !(key ≤ c.1 && c.1 < key + n)
/-- The images of the shape region read zero (R307). -/
def State.clearImages (s : State) (n : Nat) : State :=
  let p := s.part n
  let tmax := bits p.shapec.toNat 0 15
  (upFrom 0 (128 + tmax)).foldl (fun s i =>
    match s.translate n (p.shapeb.toNat + 65536 * i) needW true with
    | .ok pg => { s with mem := memClear s.mem pg.key 65536 }
    | .error _ => s) s
/-- A core after a partition reset: no descriptors, tiles, counters, L1 lines, open window or held port (R172, R313). -/
def Core.cleared (c : Core) : Core :=
  { c with port := none, desc := [], tile := TMem.empty, tileCore := 0, ev := List.replicate 8 0, l1 := [], coll := none, tag := none }
/-- The clusters that a partition's configuration names, retired ones too. -/
def State.cfgRange (s : State) (n : Nat) : List Nat := let c := cfgClusters (s.part n).cfg.toNat; upFrom c.1 c.2

/-- Whether an enabled partition other than `n` holds what a condition on its configuration names: a partition that is not enabled may
name clusters, queues and semaphores of others, which its reset does not disturb (R313). -/
def State.heldByOther (s : State) (n : Nat) (f : Nat → Bool) : Bool := (upFrom 0 8).any fun m => m != n && (s.part m).en && f m

/-- The whole reset of a partition (R313), in its order. -/
def State.resetPart (s : State) (n : Nat) : State :=
  let s := (s.launches.filter fun l => l.part == n).foldl (fun s l => s.finishLaunch l 0x10) s
  let clear (x : Nat × Queue) : Nat × Queue :=
    if s.ownsQueue n x.1 && !s.heldByOther n (fun m => s.ownsQueue m x.1) then
      (x.1, { x.2 with ctl := x.2.ctl &&& ~~~(1 : Addr), st := 0, pending := false, packets := [], jump := none })
    else x
  let s := { s with queues := s.queues.map clear }
  let sem (m j : Nat) : Bool := (s.part m).sbase ≤ j && j < (s.part m).sbase + (s.part m).scnt
  let s := { s with dsems := s.dsems.filter fun x => !sem n x.1 || s.heldByOther n (fun m => sem m x.1) }
  let s := if (s.part n).en then s.clearImages n else s
  let mine := (s.cfgRange n).filter fun c => c < 64 && !s.heldByOther n fun m => (s.cfgRange m).contains c
  let gone := s.ras.toRetire.filter mine.contains
  let s := { s with retired := gone.foldl (fun m c => m ||| BitVec.ofNat 64 (2 ^ c)) s.retired
                    ras := { s.ras with toRetire := s.ras.toRetire.filter fun c => !gone.contains c } }
  let s := mine.foldl (fun s c =>
    let s := (upFrom (4 * c) 4).foldl (fun s k => s.modCore k Core.cleared) s
    let s := s.modCluster c fun k => { k with sems := [], latchA := none, latchB := none }
    (s.linkReset c true).linkReset c false) s
  s.modPart n fun p => { p with flogw := 0, flogr := 0, flogLost := false, tlb := [], egress := [], routing := [], frames := [], pins := [] }

/-- PARTITION_RESET (R313). -/
def execPartitionReset (n : Nat) (s : State) : Out := .next (if n < 8 then s.resetPart n else s)

/-- Carved segments that no enabled partition carves any more lose their contents (R311): each byte that memory lists in one is a free
value from then on. -/
def State.loseCarved (s : State) (mask : Addr) : State :=
  let lost (key : Nat) : Bool := match Config.carvedSegment key with
    | some seg => key < 2 ^ 51 && mask.getLsbD seg && !(upFrom 0 8).any fun m => (s.part m).en && (s.part m).carve.getLsbD seg
    | none => false
  { s with
    freeCtr := s.freeCtr + 1
    mem := s.mem.filterMap fun c =>
      if lost c.1 then (let b := Config.lostByte s.freeCtr c.1; if b == 0 then none else some (c.1, b)) else some c }
/-- A write of PART.CFG while EN is 1 (R311): one that clears EN and changes nothing else resets the partition, then clears EN. -/
def State.cfgClear (s : State) (n : Nat) (v : Addr) : State :=
  if v == ((s.part n).cfg &&& ~~~(1 : Addr)) then
    ((s.resetPart n).modPart n fun p => { p with cfg := v }).loseCarved (s.part n).carve
  else s
/-- PART_DISABLE (R311). -/
def execPartDisable (n : Nat) (v : Addr) (s : State) : Out := .next (if n < 8 && (s.part n).en then s.cfgClear n v else s)

/-! ## Translation buffers (R316) -/

/-- A write of PART.TLBINV (R314, R316): VA and ALL are held; with GO the entries of the page, or with ALL every entry of the partition
whose GLOBAL is 0, are dropped. Those of REMOTE pages stay in the UALink egress buffers a little longer (E003). -/
def State.tlbinvWrite (s : State) (n : Nat) (v : Addr) : State :=
  s.modPart n fun p =>
    let p := { p with tlbinv := v &&& 0x01FFFFFFFFFF0002 }
    let hit (t : TlbEntry) : Bool := if v.getLsbD 1 then !t.pte.getLsbD 11 else t.vpn == bits v.toNat 16 41 * 2 ^ 16 / 2 ^ t.bits
    if !v.getLsbD 0 then p
    else { p with tlb := p.tlb.filter (fun t => !hit t)
                  egress := p.egress ++ (p.tlb.filter fun t => hit t && t.pte.getLsbD 10).map fun t => (t, s.partClock n) }
/-- TLB_INVALIDATE_PAGE (R316): a write of PART.TLBINV with GO and without ALL. -/
def execTlbInvalidatePage (n : Nat) (v : Addr) (s : State) : Out := .next (s.tlbinvWrite n (v &&& ~~~(2 : Addr)))
/-- TLB_INVALIDATE_ALL (R316): a write with GO and ALL. -/
def execTlbInvalidateAll (w : PartWrite) (s : State) : Out := .next (s.tlbinvWrite w.part (w.value ||| 3))
/-- The egress buffers of a partition are clean 32 clocks after an invalidation at the latest (E003). -/
def State.cleanEgress (s : State) (n age : Nat) : State :=
  s.modPart n fun p => { p with egress := p.egress.filter fun x => s.partClock n < x.2 + age }

/-! ## Stopped groups (R320) -/

/-- The groups of a launch of a partition that are stopped for the host. -/
def State.stopped (s : State) (n launch : Nat) : List Group :=
  if (s.launch? launch).any (fun l => l.ending.isNone) then
    s.groups.filter fun g => g.part == n && g.launch == launch && g.phase == .stopped && g.sleeve.isNone && g.frame.isSome
  else []
/-- FRESUME_RETRY (R320): as TRAPRET in every stopped group. -/
def execFresumeRetry (n launch : Nat) (s : State) : Out := .next ((s.stopped n launch).foldl (fun s g => s.trapReturn g.uid false) s)
/-- FRESUME_SKIP (R320): as TRAPRET.skip in every stopped group. -/
def execFresumeSkip (n launch : Nat) (s : State) : Out := .next ((s.stopped n launch).foldl (fun s g => s.trapReturn g.uid true) s)
/-- FRESUME_END (R320, R324): as HALTG with the record of the first stopped group. -/
def execFresumeEnd (n launch : Nat) (s : State) : Out :=
  match s.stopped n launch with
  | [] => .next s
  | g :: _ =>
    match g.frame with
    | some f => .next ((s.logFault g f.tr).endLaunch launch 0x11)
    | none => .next s

/-! ## Fault log, slices, semaphores (R296, R312, R330) -/

/-- FLOGR_WRITE (R312): discarded below its value or above FLOGW. -/
def execFlogrWrite (n : Nat) (v : Addr) (s : State) : Out :=
  .next (s.modPart n fun p => if p.flogr ≤ v.toNat && v.toNat ≤ p.flogw then { p with flogr := v.toNat } else p)
/-- SLICE_FLUSH (R330): every resident copy is dropped; pending queries complete with RES = 0. -/
def execSliceFlush (n : Nat) (s : State) : Out :=
  let s := s.modPart n fun p => { p with frames := [] }
  .next { s with sliceqs := s.sliceqs.map fun (q : SliceQ) => if q.part == n then { q with flushed := true } else q }
/-- HOST_SEMAPHORE_STORE (R296): index j below SCNT. -/
def execHostSemaphoreStore (n j : Nat) (v : Addr) (s : State) : Out :=
  .next (if j < (s.part n).scnt then s.setDsem n j v else s)

end Sys2Proof.Machine
end

