-- ==== Sys2Proof/Machine/Faults.lean ====
section
/-! DEFINITION. Soft errors, scrubbing, lasting faults and repairs, freezes and read-out (R335 to R343). -/
namespace Sys2Proof.Machine
open Sys2Proof

/-- Timestamp counts of 24 hours (R337). -/
abbrev day : Nat := 86400 * 10 ^ 9
/-- Timestamp counts of one hour. -/
abbrev hour : Nat := 3600 * 10 ^ 9
/-- Changes the RAS block. -/
def State.modRas (s : State) (f : Ras → Ras) : State := { s with ras := f s.ras }
/-- RTH, FUE and AREP of RAS.CTL (Table 15.4). -/
def Ras.rth (r : Ras) : Nat := bits r.ctl.toNat 16 16
/-- AREP. -/
def Ras.arep (r : Ras) : Bool := r.ctl.getLsbD 0
/-- The partition that a cluster structure belongs to, or 0xFF (Table 15.5). -/
def State.regionPart (s : State) (region : Nat) : Nat :=
  if region < 0x40 then 0xFF
  else ((upFrom 0 8).find? fun n => (s.part n).en && (let c := cfgClusters (s.part n).cfg.toNat; c.1 ≤ region - 0x40 && region - 0x40 < c.1 + c.2)).getD 0xFF
/-- The granule address of a location (Table 15.1). -/
def granuleOf (region loc : Nat) : Nat := if region < 8 then loc / 64 * 64 else if region < 0x18 then loc / 32 * 32 else loc

/-! ## Location tables and rate counters (R337) -/

/-- The entry that a new location replaces in a full table: the one with the oldest T2. -/
def oldestEntry (es : List LocEntry) : Nat := (es.map LocEntry.t2).foldl min (es.headD default).t2
/-- Drops the first entry with a timestamp. -/
def dropEntry (t : Nat) : List LocEntry → List LocEntry
  | [] => []
  | e :: es => if e.t2 == t then es else e :: dropEntry t es
/-- A location table after a corrected error at a time: the table, and whether the location becomes lasting by it (R337). -/
def notedError (es : List LocEntry) (loc t : Nat) : List LocEntry × Bool :=
  match es.find? (fun e => e.loc == loc) with
  | none => ((if 256 ≤ es.length then dropEntry (oldestEntry es) es else es) ++ [⟨loc, none, t, false⟩], false)
  | some e =>
    if e.t1.any fun t1 => t - t1 < day then (updWhere (fun x => x.loc == loc) (fun x => { x with lasting := true }) es, !e.lasting)
    else (updWhere (fun x => x.loc == loc) (fun x => { x with t1 := some x.t2, t2 := t }) es, false)
/-- A table in which a location is lasting at once (R337). -/
def markedLasting (es : List LocEntry) (loc t : Nat) : List LocEntry :=
  if es.any (fun e => e.loc == loc) then updWhere (fun x => x.loc == loc) (fun x => { x with lasting := true }) es
  else (if 256 ≤ es.length then dropEntry (oldestEntry es) es else es) ++ [⟨loc, none, t, true⟩]

/-- A location in the table of its counting region (Table 15.1): record SRAM shares the table of its die's Mantle. -/
def tableLoc (region g : Nat) : Nat := if countRegion region == region then g else 2 ^ 60 + g

/-- A location has become lasting: the kind 3 record (R337, R340). -/
def State.lastingAt (s : State) (region loc : Nat) : State := s.errRecord region 3 (s.regionPart region) loc

/-- The hours that have passed come off the rate counter of a region (R337). -/
def Ras.decayed (r : Ras) (t region : Nat) : Ras :=
  let last := aget 0 r.lastScrub region
  let h := (t - last) / hour
  { r with lastScrub := aset r.lastScrub region (last + h * hour), rate := aset r.rate region (aget 0 r.rate region - h) }

/-- A corrected error (R337): counted, noted in the location table, and in the rate counter; the first one at a location since
module reset has a kind 1 record. -/
def State.correctedError (s : State) (region loc : Nat) : State :=
  let g := granuleOf region loc
  let c := countRegion region
  let s := s.modRas fun r => { r with counts := aset r.counts c (aget 0 r.counts c + 1) }
  let s := if s.ras.seen.contains (region, g) then s
    else (s.errRecord region 1 (s.regionPart region) g).modRas fun r => { r with seen := (region, g) :: r.seen }
  let n := notedError (aget [] s.ras.locs c) (tableLoc region g) s.time
  let s := s.modRas fun r => { r with locs := aset r.locs c n.1 }
  let s := if n.2 then s.lastingAt region g else s
  let s := s.modRas fun r => r.decayed s.time c
  let k := aget 0 s.ras.rate c + 1
  let s := s.modRas fun r => { r with rate := aset r.rate c k }
  if k == s.ras.rth then s.errRecord region 6 (s.regionPart region) 0 else s

/-- An entry of a list is lost. -/
def dropAt {α : Type} (i : Nat) (xs : List α) : List α := xs.take i ++ xs.drop (i + 1)
/-- An error in a cache of a cluster (Table 15.1): an L1 drops the line, the instruction cache the line of the word, and each is read
again from its home. The index is 2^24 · core + entry for an L1, the entry for the instruction cache. -/
def State.dropCached (s : State) (region loc : Nat) : State :=
  let idx := loc % 2 ^ 48
  if loc / 2 ^ 48 == 5 then s.modCore (idx / 2 ^ 24) fun c => { c with l1 := dropAt (idx % 2 ^ 24) c.l1 }
  else s.modCluster (region - 0x40) fun k =>
    match k.icache[idx]? with
    | some w => { k with icache := k.icache.filter fun x => !(x.1 == w.1 && x.2.1 / 128 == w.2.1 / 128) }
    | none => k

/-- An uncorrectable error (R336, R337): kind 2, lasting at once; in a record slot its launch ends; with FUE the module freezes. A
lost line of an L1 or of an instruction cache is fetched again and leaves no mark (Table 15.1). -/
def State.uncorrectable (s : State) (region loc : Nat) : State :=
  let g := granuleOf region loc
  let c := countRegion region
  let s := s.errRecord region 2 (s.regionPart region) g
  let s := if 0x40 ≤ region && 5 ≤ loc / 2 ^ 48 then s.dropCached region loc
    else s.modRas fun r => { r with marks := r.marks.filter (fun m => !(m.region == region && m.loc == g && m.bad)) ++ [⟨region, g, true⟩] }
  let was := (aget [] s.ras.locs c).any fun e => e.loc == tableLoc region g && e.lasting
  let s := s.modRas fun r => { r with locs := aset r.locs c (markedLasting (aget [] r.locs c) (tableLoc region g) s.time) }
  let s := if was then s else s.lastingAt region g
  let s := if c != region then s.endLaunch loc 0x12 else s
  s.detect cDATAERR
/-- A dirty Mantle line that is uncorrectable at its eviction is not written back, and stays locked in its way (R336). -/
def State.mantleEvict (s : State) (region loc : Nat) : State :=
  let line := loc / 128 * 128
  let m : EccMark := ⟨region, line, false⟩
  if (s.ras.marks.any fun x => x.bad && x.region == region && x.loc / 128 * 128 == line) && !s.ras.marks.contains m && 0x10 ≤ region && region < 0x14 then
    s.modRas fun r => { r with marks := r.marks ++ [m] }
  else s

/-- A soft error met by a read (1): corrected, or uncorrectable. -/
def State.softError (s : State) (region loc : Nat) (bad : Bool) : State :=
  if bad then s.uncorrectable region loc else s.correctedError region loc

/-- SCRUB (R335): the HBM scrubber each 24 hours, the Mantle scrubber each hour; a granule that is uncorrectable is met again. -/
def execScrub (region : Nat) (granule : Nat) (s : State) : Out :=
  let period := if region < 8 then day else hour
  let key := 2 ^ 64 * (region + 1) + granule
  if 0x14 ≤ region || s.time - aget 0 s.ras.lastScrub key < period then .next s
  else
    let s := s.modRas fun r => { r with lastScrub := aset r.lastScrub key s.time }
    let met := s.ras.marks.any fun m => m.bad && m.region == region && m.loc == granule
    .next (if met then (s.errRecord region 2 (s.regionPart region) granule).detect cDATAERR else s)

/-- RATE_DECAY (R337): the rate counter of a region falls by one each hour. -/
def execRateDecay (region : Nat) (s : State) : Out :=
  .next (if s.time - aget 0 s.ras.lastScrub region < hour then s else s.modRas fun r => r.decayed s.time region)

/-! ## Repairs (R340, R341) -/

/-- The pool of spares of a location, the unit that is replaced, and how many spares the pool has (Table 15.6). -/
def sparePool (region loc : Nat) : Nat × Nat × Nat :=
  if region < 8 then (2 ^ 32 * region + (Config.hbmRow loc).1, (Config.hbmRow loc).2, 8)
  else if (Config.mantleSet loc).2 then (2 ^ 40 + region, loc, 256)
  else (2 ^ 48 + 2 ^ 32 * region + (Config.mantleSet loc).1, loc, 4)
/-- Mantle lines locked in the set of a location (R340). -/
def State.lockedWays (s : State) (region loc : Nat) : Nat :=
  s.ras.marks.countP fun m => !m.bad && m.region == region && (Config.mantleSet m.loc).1 == (Config.mantleSet loc).1
/-- Repairs a lasting location, or reports once that it cannot (R340): two lasting marks in one row lead to one sparing; locked Mantle
lines count toward the ways that a set can lose. -/
def State.repairAt (s : State) (region loc : Nat) : State :=
  let p := sparePool region loc
  let unit := (p.1, p.2.1)
  let locked := if 0x10 ≤ region && p.2.2 == 4 then s.lockedWays region loc else 0
  if s.ras.spared.contains unit || s.ras.unspared.contains unit then s
  else if aget 0 s.ras.sparesUsed p.1 + locked < p.2.2 then
    (s.modRas fun r => { r with spared := unit :: r.spared, sparesUsed := aset r.sparesUsed p.1 (aget 0 r.sparesUsed p.1 + 1) }).errRecord
      region 4 (s.regionPart region) loc
  else (s.modRas fun r => { r with unspared := unit :: r.unspared }).errRecord region 5 (s.regionPart region) loc

/-- REPAIR (R340, R341): with AREP set, Chihar spares, retires or remaps a lasting location; a cluster is retired at the reset of
its partition, which a kind 7 record requests. -/
def execRepair (region : Nat) (loc : Nat) (s : State) : Out :=
  let lasting := (aget [] s.ras.locs region).any fun e => e.loc == loc && e.lasting
  if !s.ras.arep || !lasting || (0x14 ≤ region && region < 0x40) || 0x80 ≤ region || 2 ^ 60 ≤ loc then .next s
  else if 0x40 ≤ region then
    (if s.ras.toRetire.contains (region - 0x40) || s.clusterRetired (region - 0x40) then .next s
     else .next ((s.modRas fun r => { r with toRetire := r.toRetire ++ [region - 0x40] }).errRecord region 7 (s.regionPart region) loc))
  else .next (s.repairAt region loc)

/-! ## Host and test access (R338, R342, R343) -/

/-- RAS_LOGR_WRITE (R338): discarded below its value or above LOGI. -/
def execRasLogrWrite (v : Addr) (s : State) : Out :=
  .next (s.modRas fun r => if r.logr ≤ v.toNat && v.toNat ≤ r.logi then { r with logr := v.toNat } else r)
/-- RAS_FREEZE (R338, R342): other values are discarded. -/
def execRasFreeze (v : Addr) (s : State) : Out := .next (if v == 0xF4EE2E00 then s.freeze else s)
/-- FRZ_N (R342): low for at least 10 ns. -/
def execFrzN (ns : Nat) (s : State) : Out := .next (if 10 ≤ ns then s.freeze else s)

/-- The bytes of the RAS block (Table 15.3). -/
def Ras.block (r : Ras) : List Byte := [r.ctl.toNat, r.logb.toNat, r.logi, r.lost.toNat, 0, r.logr].flatMap (toBytes 8)
/-- The words of a group in the scan chain: registers with tags, predicates, K masks, flags, masks, and its lanes. -/
def Group.scan (g : Group) : List Nat :=
  [g.uid, g.launch, g.node, g.wg, g.gid, g.gseq, g.core, g.slot, g.mode.toNat, g.status.toNat, g.repc, g.reps.toNat, g.launched.toNat, g.live.toNat,
   g.active.toNat, g.helper.toNat] ++ g.cf ++ (g.p ++ g.k).map BitVec.toNat ++
  g.v.flatMap (fun r => match r with
    | .uniform w t => [w.toNat, t]
    | .affine a b t => [a.toNat, b.toNat, t]
    | .general ws => ws.flatMap fun w => [w.1.toNat, w.2]) ++
  g.lanes.flatMap fun x => [x.tid, x.home, x.gid, x.meet.toNat, x.next.toNat, (x.resume.getD 0).toNat, x.srcnt.toNat] ++ x.h.map BitVec.toNat
/-- Bytes and tags of a tagged memory in the scan chain. -/
def TMem.scan (m : TMem) : List Nat := (m.bytes ++ m.tags).flatMap fun c => [c.1, c.2.toNat]
/-- The state elements outside the security block that a read-out shows (R343): those of groups, workgroups, cores, clusters with their
link buffers, queues, partitions and error engines. -/
def State.elements (s : State) : List Nat :=
  [s.time] ++ s.groups.flatMap Group.scan ++
  s.wgs.flatMap (fun w => [w.uid, w.launch, w.node, w.wgid, w.core] ++ w.handles.flatMap (fun h => [h.gen, h.kind, h.st]) ++ w.sp.scan) ++
  s.cores.flatMap (fun x => [x.1, x.2.port.getD 0, x.2.rotation, x.2.tileCore] ++ x.2.desc.flatMap (fun d => [d.1, d.2.toNat]) ++ x.2.tile.scan ++
    x.2.ev.map BitVec.toNat ++ x.2.l1.flatMap fun y => [y.part, y.va] ++ y.bytes.map BitVec.toNat ++ y.tags) ++
  s.clusters.flatMap (fun x => [x.1, x.2.clk, x.2.f50, x.2.down.permits, x.2.down.epoch, x.2.up.permits, x.2.up.epoch] ++
    x.2.sems.flatMap (fun y => [y.1, y.2.toNat]) ++ x.2.icache.flatMap (fun y => [y.1, y.2.1, y.2.2.toNat]) ++
    (x.2.down.msgs ++ x.2.up.msgs).flatten.map BitVec.toNat) ++
  s.queues.flatMap (fun x => [x.1, x.2.base.toNat, x.2.ctl.toNat, x.2.widx.toNat, x.2.ridx.toNat, x.2.phase.toNat, x.2.errc, x.2.st, x.2.srec.toNat] ++
    x.2.packets.flatMap fun p => p.words.map BitVec.toNat) ++
  s.parts.flatMap (fun x => [x.1, x.2.cfg.toNat, x.2.ptroot.toNat, x.2.qos.toNat, x.2.carve.toNat, x.2.ranges.toNat, x.2.qrange.toNat] ++
    x.2.tlb.flatMap (fun t => [t.vpn, t.bits, t.pte.toNat]) ++ x.2.routing.flatMap fun y => [y.1, y.2.toNat]) ++
  s.dsems.flatMap (fun x => [x.1, x.2.toNat]) ++ [s.ras.ctl.toNat, s.ras.logb.toNat, s.ras.logi, s.ras.logr]
/-- What the pins show to SAMPLE and EXTEST: whether the module is frozen, and the vectors posted. -/
def State.pins (s : State) : List Nat := s.ras.frozen.toNat :: s.posted.flatMap fun x => [x.1, x.2]

/-- TAP_INSTRUCTION (R342, R343): the mandatory instructions and IDCODE at any time; read-out follows a freeze and leaves the state as
it stood; with DBG 0 only the IDCODE and the RAS block can be read. -/
def execTapInstruction (op : TapOp) (s : State) : Out :=
  let out (bs : List Byte) : Out := .next (s.modRas fun r => { r with tapOut := bs })
  match op with
  | .freeze => .next s.freeze
  | .bypass => out [0]
  | .sample | .extest => out (Config.scanOut 1 s.pins)
  | .preload bs => .next (s.modRas fun r => { r with boundary := bs })
  | .idcode => out (toBytes 4 Config.idcode.toNat)
  | .rasBlock => if s.ras.frozen then out s.ras.block else .next s
  | .readState => if s.ras.frozen && s.boot.dbg then out (Config.scanOut 0 s.elements) else .next s
  | .readHbm a => if s.ras.frozen && s.boot.dbg && a + 64 ≤ 2 ^ 51 then out (memRead s.mem (physKey a) 64) else .next s

end Sys2Proof.Machine
end

