-- ==== Sys2Proof/Machine/Boot.lean ====
section
/-! DEFINITION. Module reset, the boot ROM, identity and attestation, clocks and power (R344 to R349). -/
namespace Sys2Proof.Machine
open Sys2Proof

/-! ## The image (R344) -/

/-- The bytes of an ASCII text. -/
def ascii (t : String) : List Byte := t.toList.map fun c => BitVec.ofNat 8 c.toNat
/-- The first `n` bytes from offset `a`. -/
def imgField (bs : List Byte) (a n : Nat) : List Byte := (bs.drop a).take n
/-- A number in a header. -/
def headNum (bs : List Byte) (a n : Nat) : Nat := ofBytes (imgField bs a n)
/-- Bytes of the header (Table 15.7). -/
abbrev imageHeader : Nat := 0xC48
/-- M of an image: the digest of header words 0x00 to 0x3F and of the body. -/
def imageDigest (img : List Byte) : List Byte := (Config.shake256 (imgField img 0 0x40 ++ imgField img imageHeader (headNum img 8 4))).toList
/-- Whether the boot ROM accepts an image (R344): it is whole, and its signature verifies under the vendor key. -/
def imageOk (img : List Byte) : Bool :=
  imageHeader ≤ img.length && headNum img 0 4 == 0x4C484843 && headNum img 8 4 ≤ 32 * 2 ^ 20 &&
  imageHeader + headNum img 8 4 ≤ img.length &&
  (let key := imgField img 0x40 1800
   (Config.shake256 (key.take 1793)).toList == Config.vendorKeyDigest &&
   Config.falconVerify (key.take 1793) (imageDigest img) (imgField img 0x748 1280))
/-- What the boot block keeps of an accepted image: version, DBG, M. -/
def Boot.accept (b : Boot) (img : List Byte) : Boot :=
  { b with version := headNum img 4 4, dbg := headNum img 0xC 4 % 2 == 1, measure := imageDigest img }

/-! ## Reset (R345, R347) -/

/-- The boot ROM after module reset (R345, steps 1 and 2). -/
def State.bootRom (s : State) : State :=
  if !s.boot.force && imageOk s.boot.flash then { s with boot := { s.boot.accept s.boot.flash with state := 5 } }
  else ({ s with boot := { s.boot with state := 2 } }).post 8 2

/-- The state as module reset leaves it before the ROM runs: memory, flash, FORCE, the outside world and the free-value counter
outlast it (20). -/
def State.resetModule (s : State) : State :=
  { State.reset with
    agenda := s.agenda
    uidNext := s.uidNext
    freeCtr := s.freeCtr
    mem := s.mem
    posted := s.posted
    sent := s.sent
    openRanges := s.openRanges
    peers := s.peers
    ras := { Ras.reset with marks := s.ras.marks.filter fun m => decide (m.region < 8) }
    boot := { Boot.reset with flash := s.boot.flash, force := s.boot.force } }

/-- MODULE_RESET (R345). -/
def execModuleReset (s : State) : Out := .next s.resetModule.bootRom

/-- POWER_ON (R346): FORCE is cleared, the memory of the module has lost its contents (20), then boot runs as after module reset. -/
def execPowerOn (s : State) : Out :=
  .next ({ s with
    mem := s.mem.filter (fun c => decide (hostBase ≤ c.1))
    ras := { s.ras with marks := [] }
    boot := { s.boot with force := false } }).resetModule.bootRom

/-! ## Start of Chihar (R345 to R347) -/

/-- The repair map as the ROM reads it from host memory (R346). -/
def State.readMap (s : State) : List (Addr × Addr) :=
  if s.boot.cfg == 0 then []
  else (upFrom 0 s.boot.cfgn.toNat).map fun i =>
    let a := hostBase + s.boot.cfg.toNat + 16 * i
    (BitVec.ofNat 64 (memNum s.mem a 8), BitVec.ofNat 64 (memNum s.mem (a + 8) 8))
/-- The repair code of a map entry. -/
def mapCode (e : Addr × Addr) : Nat := bits e.1.toNat 48 8
/-- The region of a map entry. -/
def mapRegion (e : Addr × Addr) : Nat := bits e.1.toNat 56 8
/-- The pool and the unit that a map entry replaces: an HBM row, a Mantle line, a carved line (17). -/
def mapUnit (e : Addr × Addr) : Nat × Nat :=
  let loc := e.2.toNat
  if mapCode e == 1 then (2 ^ 32 * mapRegion e + (Config.hbmRow loc).1, (Config.hbmRow loc).2)
  else if mapCode e == 2 then (2 ^ 48 + 2 ^ 32 * mapRegion e + (Config.mantleSet loc).1, loc)
  else (2 ^ 40 + mapRegion e, loc)
/-- Applies one entry of the repair map; one with another code is ignored. -/
def Ras.applyMap (r : Ras) (e : Addr × Addr) : Ras :=
  if 1 ≤ mapCode e && mapCode e ≤ 3 then
    let u := mapUnit e
    { r with spared := u :: r.spared, sparesUsed := aset r.sparesUsed u.1 (aget 0 r.sparesUsed u.1 + 1) }
  else r
/-- The configuration digest of R347: BOOT.RETIRE, the repair map, DBG (9). -/
def configDigest (retire : Addr) (m : List (Addr × Addr)) (dbg : Bool) : List Byte :=
  (Config.shake256 (toBytes 8 retire.toNat ++ m.flatMap (fun e => toBytes 8 e.1.toNat ++ toBytes 8 e.2.toNat) ++ toBytes 1 dbg.toNat)).toList
/-- The identity that the ROM derives before Chihar starts (R347). -/
def Boot.identity (b : Boot) : Boot :=
  let u := Config.deviceSecret
  let conf := configDigest b.retire b.repairMap b.dbg
  let seed := (Config.shake256 ((Config.shake256 (u ++ b.measure ++ conf)).toList ++ ascii "Alias")).toList
  { b with
    confDigest := conf
    aliasSeed := seed
    aliasCert := Config.falconSign (Config.shake256 (u ++ ascii "DeviceID")).toList (Config.falconPublic seed)
    keysCleared := false }

/-- Step 3 of R345: the map and the mask are read and applied, Chihar starts, and reports each ignored entry. -/
def State.startChihar (s : State) : State :=
  let m := s.readMap
  let b := { s.boot with repairMap := m, state := 4, force := false }
  let s := { s with retired := b.retire, ras := m.foldl Ras.applyMap s.ras, boot := b.identity }
  (m.filter fun e => mapCode e == 0 || 3 < mapCode e).foldl
    (fun s e => s.errRecord (mapRegion e) 5 (s.regionPart (mapRegion e)) e.2.toNat) s

/-- BOOT_GO (R345): in STATE 5 Chihar starts; in STATE 2 or 3 the window image is verified first. -/
def execBootGo (s : State) : Out :=
  if s.boot.state == 5 then .next s.startChihar
  else if s.boot.state == 2 || s.boot.state == 3 then
    let img := memRead s.boot.window 0 s.boot.wlen.toNat
    if imageOk img then .next ({ s with boot := s.boot.accept img }).startChihar
    else .next { s with boot := { s.boot with state := 3 } }
  else .next s

/-- BOOT_FORCE (R346). -/
def execBootForce (v : Bool) (s : State) : Out := .next { s with boot := { s.boot with force := v } }

/-! ## Attestation (R348) -/

/-- ATTEST (R348): RPT is cleared and a build starts, or starts again with the new nonce; only while Chihar runs (21). -/
def execAttest (s : State) : Out :=
  if s.boot.state == 4 then .next { s with boot := { s.boot with att := true, rpt := false, asked := s.boot.nonce } }
  else .next s

/-- The enabled partitions as a mask. -/
def State.enabledMask (s : State) : Nat := (((upFrom 0 8).filter fun n => (s.part n).en).map fun n => 2 ^ n).sum
/-- The contents of the report (R348). -/
def State.reportFields (s : State) : List (List Byte) :=
  [toBytes 4 s.boot.version, s.boot.measure, s.boot.confDigest, s.boot.asked, toBytes 8 s.time, toBytes 1 s.enabledMask, s.boot.aliasCert]
/-- ATTEST_DONE (R348): the signed report is complete. -/
def execAttestDone (s : State) : Out :=
  if s.boot.att then
    let fs := s.reportFields
    let r := (Config.reportLayout (fs ++ [Config.falconSign s.boot.aliasSeed fs.flatten])).take 16384
    .next { s with boot := { s.boot with report := r, rlen := r.length, rpt := true, att := false } }
  else .next s

/-! ## Clocks and power (R349) -/

/-- CLOCK_CHANGE (R349): 0.4 GHz to 1.3 GHz in steps of 50 MHz and under the host's cap, from the next clause boundary of the cluster. -/
def execClockChange (cluster f50 : Nat) (s : State) : Out :=
  if cluster < 64 && 8 ≤ f50 && f50 ≤ s.clockCap && s.boot.state == 4 then .next (s.setClock cluster f50) else .next s
/-- The host's cap, from 1,000 W to 3,400 W (R349): Chihar slows the clusters that run above what it allows. -/
def State.setCap (s : State) (w : Nat) : State :=
  if 1000 ≤ w && w ≤ 3400 then
    let s := { s with power := { s.power with capW := w } }
    (upFrom 0 64).foldl (fun s c => if s.clockCap < (s.cluster c).f50 then s.setClock c s.clockCap else s) s
  else s

/-- THERMAL_THROTTLE (R349): at 105 degrees every cluster clock falls to 0.4 GHz. -/
def execThermalThrottle (s : State) : Out := .next ((upFrom 0 64).foldl (fun s c => s.setClock c 8) s)

/-- THERMAL_SHUTDOWN (R349): at 115 degrees the module powers down without freezing. -/
def execThermalShutdown (s : State) : Out := .next { s with power := { s.power with off := true } }

end Sys2Proof.Machine
end

