-- ==== Sys2Proof/Machine/HostPort.lean ====
section
/-! DEFINITION. The host port: writes and reads of the register blocks of BAR0 of the physical function, and of a virtual function (R296,
R299, R309, R338, R346). -/
namespace Sys2Proof.Machine
open Sys2Proof

/-! ## Plain registers (R299, R309, R338, R346) -/

/-- A value cut to bits [hi:lo]. -/
def cut (v : Addr) (lo hi : Nat) : Addr := BitVec.ofNat 64 (bits v.toNat lo (hi + 1 - lo) * 2 ^ lo)
/-- Whether a value of PART.QOS holds a reserved value (Table 13.3). -/
def qosBad (v : Nat) : Bool := bits v 24 40 != 0 || bits v 4 4 != 0 || bits v 16 8 == 0 || 64 < bits v 8 8 || bits v 0 4 == 0 || 8 < bits v 0 4

/-- A write to a register of a partition block that has no event of its own (Table 13.1, R309). -/
def Partition.write (p : Partition) (r : Nat) (v : Addr) : Partition :=
  if r == 0x010 then (if qosBad v.toNat then p else { p with qos := v })
  else if r == 0x068 then (if 12 < bits v.toNat 0 4 then p else { p with flog := cut v 12 56 ||| cut v 0 3 })
  else if 0x100 ≤ r && r ≤ 0x160 && r % 8 == 0 then { p with thand := modAt (fun _ => v) ((r - 0x100) / 8) p.thand }
  else if p.en then p
  else if r == 0x008 then { p with ptroot := cut v 17 51 }
  else if r == 0x018 then { p with carve := v &&& 0x0FFF0FFF0FFF0FFF }
  else if r == 0x020 then { p with slice := v &&& p.carve }
  else if r == 0x028 then (if 20 ≤ bits v.toNat 0 5 && bits v.toNat 0 5 ≤ 24 then { p with slicec := cut v 0 4 } else p)
  else if r == 0x030 then { p with sliceb := cut v 20 56 }
  else if r == 0x038 then { p with slicew := cut v 24 56 }
  else if r == 0x040 then { p with shapeb := cut v 16 56 }
  else if r == 0x048 then { p with saveb := cut v 16 56 }
  else if r == 0x050 then { p with saves := cut v 16 63 }
  else if r == 0x058 then { p with ranges := cut v 10 51 }
  else if r == 0x060 then (if 4096 < bits v.toNat 16 16 then p else { p with qrange := cut v 0 31 })
  else if r == 0x088 then (if 16384 < bits v.toNat 0 15 then p else { p with shapec := cut v 0 14 })
  else p

/-- A write to a register of a queue that has no event of its own: BASE, SREC, and CTL while EN stays as it is. -/
def State.queueWrite (s : State) (n q o : Nat) (v : Addr) : State :=
  if !s.ownsQueue n q then s
  else if o == 0x00 then s.modQueue q fun x => { x with base := cut v 6 56 }
  else if o == 0x30 then s.modQueue q fun x => { x with srec := cut v 3 56 }
  else if o == 0x08 then (if (s.queue q).en == v.getLsbD 0 then s.writeCtl n q v else s)
  else s

/-- A write to a register of the boot block that has no event of its own (R346, Table 15.7a). -/
def Boot.write (b : Boot) (r : Nat) (v : Addr) : Boot :=
  let takes := b.state == 2 || b.state == 3 || b.state == 5
  if 0x40 ≤ r && r < 0x60 && r % 8 == 0 then { b with nonce := (b.nonce.take (r - 0x40)) ++ toBytes 8 v.toNat ++ b.nonce.drop (r - 0x38) }
  else if !takes then b
  else if r == 0x10 then { b with cfg := cut v 4 63 }
  else if r == 0x18 then { b with cfgn := cut v 0 15 }
  else if r == 0x20 then { b with retire := v }
  else if r == 0x28 then { b with wlen := cut v 0 25 }
  else b

/-- The state after an event that always goes on. -/
def State.after (s : State) (e : State → Out) : State := match e s with | .next t => t | _ => s

/-- A write to a register of a queue (Table 12.3, R299, R300): the notify, QUEUE.CTL, BASE and SREC. -/
def State.queuePort (s : State) (n q o : Nat) (v : Addr) : State :=
  if o == 0x10 then s.after (execQueueNotify n q v)
  else if o == 0x08 then s.writeCtl n q v
  else s.queueWrite n q o v

/-- A write of 64 bits at an offset of a partition block (Tables 13.1 to 13.5a, R296, R299, R309). -/
def State.partPort (s : State) (n r : Nat) (v : Addr) : State :=
  if r % 8 != 0 then s
  else if r == 0x000 then s.after (if (s.part n).en then execPartDisable n v else fun s => .next (s.cfgWrite n v))
  else if r == 0x070 then
    s.after (match bits v.toNat 0 2 with
      | 1 => execFresumeRetry n (bits v.toNat 32 32) | 2 => execFresumeSkip n (bits v.toNat 32 32)
      | 3 => execFresumeEnd n (bits v.toNat 32 32) | _ => .next)
  else if r == 0x078 then s.tlbinvWrite n v
  else if r == 0x080 then (if v.getLsbD 0 then s.resetPart n else s)
  else if r == 0x098 then s.after (execFlogrWrite n v)
  else if r == 0x028 && v.getLsbD 8 then (s.modPart n fun p => p.write r v).after (execSliceFlush n)
  else if 0x20000 ≤ r && r < 0x22000 then s.after (execHostSemaphoreStore n ((r - 0x20000) / 8) v)
  else if 0x40000 ≤ r && r < 0x80000 then s.queuePort n ((r - 0x40000) / 0x40) ((r - 0x40000) % 0x40) v
  else s.modPart n fun p => p.write r v

/-- A write of BOOT.CTL (Table 15.7b): FORCE, then GO and ATT. -/
def State.bootCtl (s : State) (v : Addr) : State :=
  let s := s.after (execBootForce (v.getLsbD 1))
  let s := if v.getLsbD 0 then s.after execBootGo else s
  if v.getLsbD 2 then s.after execAttest else s

/-- A write of 64 bits at an offset of BAR0 of the physical function (R309, R338, R345, R346). -/
def State.hostWrite (s : State) (off : Nat) (v : Addr) : State :=
  if off % 8 != 0 then s
  else if 0x04000000 ≤ off && off < 0x08000000 then
    { s with boot := { s.boot with window := memWrite s.boot.window (off - 0x04000000) (toBytes 8 v.toNat) } }
  else if 0x01000000 ≤ off && off < 0x01800000 then
    (if (off - 0x01000000) % 0x100000 < 0x80000 then s.partPort ((off - 0x01000000) / 0x100000) ((off - 0x01000000) % 0x100000) v else s)
  else if off == 0x00100000 then
    (if bits v.toNat 32 32 != 0 || bits v.toNat 2 14 != 0 || bits v.toNat 16 16 == 0 then s else { s with ras := { s.ras with ctl := v } })
  else if off == 0x00100008 then (if 12 < bits v.toNat 0 4 then s else { s with ras := { s.ras with logb := cut v 12 56 ||| cut v 0 3 } })
  else if off == 0x00100020 then s.after (execRasFreeze v)
  else if off == 0x00100028 then s.after (execRasLogrWrite v)
  else if off == 0x00200000 then s.bootCtl v
  else if 0x00200000 ≤ off && off < 0x00200060 then { s with boot := s.boot.write (off - 0x00200000) v }
  else s

/-- REGISTER_WRITE (R309, R338, R346): a write of 64 bits at an offset of BAR0 of the physical function. -/
def execRegisterWrite (off : Nat) (v : Addr) (s : State) : Out := .next (s.hostWrite off v)

/-! ## Reads (R296, R299, R309, R338, R346) -/

/-- QUEUE.STAT (Table 12.5). -/
def Queue.stat (x : Queue) : Addr := BitVec.ofNat 64 (x.errc % 16 * 16 + x.st % 4)
/-- A register of a queue (Table 12.3); one outside the partition's range reads 0. -/
def State.queueRead (s : State) (n q o : Nat) : Addr :=
  let x := s.queue q
  if !s.ownsQueue n q then 0
  else match o with
    | 0x00 => x.base | 0x08 => x.ctl | 0x10 => x.widx | 0x18 => x.ridx | 0x20 => x.phase | 0x28 => x.stat | 0x30 => x.srec | _ => 0
/-- A register of a partition block that has a name (Table 13.1); FRESUME is written only, and RST and GO read 0 once they are done. -/
def Partition.read (p : Partition) (r : Nat) : Addr :=
  match r with
  | 0x000 => p.cfg | 0x008 => p.ptroot | 0x010 => p.qos | 0x018 => p.carve | 0x020 => p.slice | 0x028 => p.slicec | 0x030 => p.sliceb
  | 0x038 => p.slicew | 0x040 => p.shapeb | 0x048 => p.saveb | 0x050 => p.saves | 0x058 => p.ranges | 0x060 => p.qrange | 0x068 => p.flog
  | 0x078 => p.tlbinv | 0x088 => p.shapec | 0x090 => BitVec.ofNat 64 p.flogw | 0x098 => BitVec.ofNat 64 p.flogr
  | _ => if 0x100 ≤ r && r ≤ 0x160 then p.thand.getD ((r - 0x100) / 8) 0 else 0
/-- What a load of 64 bits at an offset of a partition block returns (Table 13.1, R296); offsets without a name read 0. -/
def State.partRead (s : State) (n r : Nat) : Addr :=
  if r % 8 != 0 then 0
  else if 0x10000 ≤ r && r < 0x14000 then
    (match (s.partCores n)[(r - 0x10000) / 0x40]? with | some c => (s.core c).ev.getD ((r - 0x10000) % 0x40 / 8) 0 | none => 0)
  else if 0x20000 ≤ r && r < 0x22000 then
    (if (r - 0x20000) / 8 < (s.part n).scnt then s.dsem n ((r - 0x20000) / 8) else 0)
  else if 0x40000 ≤ r && r < 0x80000 then s.queueRead n ((r - 0x40000) / 0x40) ((r - 0x40000) % 0x40)
  else (s.part n).read r
/-- What a load of the boot block returns (Tables 15.7a to 15.7c). -/
def Boot.read (b : Boot) (r : Nat) : Addr :=
  let num (bs : List Byte) : Addr := BitVec.ofNat 64 (ofBytes (bs.take 8))
  match r with
  | 0x00 => BitVec.ofNat 64 (4 * b.att.toNat + 2 * b.force.toNat)
  | 0x08 => BitVec.ofNat 64 (b.rlen * 2 ^ 32 + 8 * b.rpt.toNat + b.state)
  | 0x10 => b.cfg | 0x18 => b.cfgn | 0x20 => b.retire | 0x28 => b.wlen
  | _ =>
    if 0x40 ≤ r && r < 0x60 then num (b.nonce.drop (r - 0x40))
    else if 0x10000 ≤ r && r < 0x14000 then num (b.report.drop (r - 0x10000))
    else 0
/-- What a load of the RAS block returns (Table 15.3). -/
def Ras.read (x : Ras) (r : Nat) : Addr :=
  match r with
  | 0x00 => x.ctl | 0x08 => x.logb | 0x10 => BitVec.ofNat 64 x.logi | 0x18 => BitVec.ofNat 64 x.lost.toNat | 0x28 => BitVec.ofNat 64 x.logr | _ => 0
/-- What a load of 64 bits at an offset of BAR0 of the physical function returns. -/
def State.hostRead (s : State) (off : Nat) : Addr :=
  if off % 8 != 0 then 0
  else if 0x04000000 ≤ off && off < 0x08000000 then BitVec.ofNat 64 (memNum s.boot.window (off - 0x04000000) 8)
  else if 0x01000000 ≤ off && off < 0x01800000 then
    (if (off - 0x01000000) % 0x100000 < 0x80000 then s.partRead ((off - 0x01000000) / 0x100000) ((off - 0x01000000) % 0x100000) else 0)
  else if 0x00100000 ≤ off && off < 0x00100030 then s.ras.read (off - 0x00100000)
  else if 0x00200000 ≤ off && off < 0x00214000 then s.boot.read (off - 0x00200000)
  else 0
/-- The offset of BAR0 of the physical function that an offset of a function's BAR0 reaches (R309): a virtual function reaches the block of
its own partition. -/
def barOffset (vf : Option Nat) (off : Nat) : Option Nat :=
  match vf with
  | none => some off
  | some n => if n < 8 && off < 0x80000 then some (0x01000000 + 0x100000 * n + off) else none
/-- A load of the host through a function's BAR0: what it returns is kept in `hostData`. -/
def State.hostLoad (s : State) (vf : Option Nat) (off : Nat) : State :=
  { s with hostData := match barOffset vf off with | some o => s.hostRead o | none => 0 }
/-- A store of the host through a virtual function's BAR0 (R309). -/
def State.vfWrite (s : State) (n off : Nat) (v : Addr) : State := match barOffset (some n) off with | some o => s.hostWrite o v | none => s

end Sys2Proof.Machine
end

