-- ==== Sys2Proof/Machine/Dispatch.lean ====
section
/-! DEFINITION. The meaning of every instruction and event: one arm per constructor. -/
namespace Sys2Proof.Machine
open Sys2Proof

/-- The meaning of an instruction word for the issuing group, or of an event. -/
def exec (i : Instr) (s : State) : Host.Outcome State Fault Refusal :=
  match i with
  | .iadd c sat t d a b => Sys2Proof.Machine.execIadd c sat t d a b s
  | .isub c sat t d a b => Sys2Proof.Machine.execIsub c sat t d a b s
  | .imul c t d a b => Sys2Proof.Machine.execImul c t d a b s
  | .imulhi c t d a b => Sys2Proof.Machine.execImulhi c t d a b s
  | .imad c t d a b e => Sys2Proof.Machine.execImad c t d a b e s
  | .imadw c sg d a b e => Sys2Proof.Machine.execImadw c sg d a b e s
  | .imin c t d a b => Sys2Proof.Machine.execImin c t d a b s
  | .imax c t d a b => Sys2Proof.Machine.execImax c t d a b s
  | .iabs c sat w64 d b => Sys2Proof.Machine.execIabs c sat w64 d b s
  | .ineg c sat w64 d b => Sys2Proof.Machine.execIneg c sat w64 d b s
  | .shl c t d a b => Sys2Proof.Machine.execShl c t d a b s
  | .shr c t d a b => Sys2Proof.Machine.execShr c t d a b s
  | .sar c t d a b => Sys2Proof.Machine.execSar c t d a b s
  | .rot c t d a b => Sys2Proof.Machine.execRot c t d a b s
  | .bfe c t d a b => Sys2Proof.Machine.execBfe c t d a b s
  | .bfi c t d a b e => Sys2Proof.Machine.execBfi c t d a b e s
  | .popc c t d b => Sys2Proof.Machine.execPopc c t d b s
  | .clz c t d b => Sys2Proof.Machine.execClz c t d b s
  | .ctz c t d b => Sys2Proof.Machine.execCtz c t d b s
  | .brev c t d b => Sys2Proof.Machine.execBrev c t d b s
  | .permb c d a b e => Sys2Proof.Machine.execPermb c d a b e s
  | .and c t d a b => Sys2Proof.Machine.execAnd c t d a b s
  | .or c t d a b => Sys2Proof.Machine.execOr c t d a b s
  | .xor c t d a b => Sys2Proof.Machine.execXor c t d a b s
  | .not c t d b => Sys2Proof.Machine.execNot c t d b s
  | .andn c t d a b => Sys2Proof.Machine.execAndn c t d a b s
  | .sel c t d a b p => Sys2Proof.Machine.execSel c t d a b p s
  | .addr c sg d a b sh => Sys2Proof.Machine.execAddr c sg d a b sh s
  | .cmp c cc t p a b => Sys2Proof.Machine.execCmp c cc t p a b s
  | .pand c na nb d a b => Sys2Proof.Machine.execPand c na nb d a b s
  | .por c na nb d a b => Sys2Proof.Machine.execPor c na nb d a b s
  | .pxor c na nb d a b => Sys2Proof.Machine.execPxor c na nb d a b s
  | .pnot c d b => Sys2Proof.Machine.execPnot c d b s
  | .pmov c d b => Sys2Proof.Machine.execPmov c d b s
  | .mov c t d b => Sys2Proof.Machine.execMov c t d b s
  | .movi c t d v => Sys2Proof.Machine.execMovi c t d v s
  | .fadd c rm t d a b => Sys2Proof.Machine.execFadd c rm t d a b s
  | .fsub c rm t d a b => Sys2Proof.Machine.execFsub c rm t d a b s
  | .fmul c rm t d a b => Sys2Proof.Machine.execFmul c rm t d a b s
  | .fdiv c rm t d a b => Sys2Proof.Machine.execFdiv c rm t d a b s
  | .ffma c rm t d a b e => Sys2Proof.Machine.execFfma c rm t d a b e s
  | .fmin c t d a b => Sys2Proof.Machine.execFmin c t d a b s
  | .fmax c t d a b => Sys2Proof.Machine.execFmax c t d a b s
  | .fabs c t d b => Sys2Proof.Machine.execFabs c t d b s
  | .fneg c t d b => Sys2Proof.Machine.execFneg c t d b s
  | .fcmp c cc t p a b => Sys2Proof.Machine.execFcmp c cc t p a b s
  | .fclass c t p a b => Sys2Proof.Machine.execFclass c t p a b s
  | .frnd c rm t d b => Sys2Proof.Machine.execFrnd c rm t d b s
  | .fscale c rm t d a b => Sys2Proof.Machine.execFscale c rm t d a b s
  | .fdot2 c rm t d a b e => Sys2Proof.Machine.execFdot2 c rm t d a b e s
  | .fadd2 c rm t d a b => Sys2Proof.Machine.execFadd2 c rm t d a b s
  | .fmul2 c rm t d a b => Sys2Proof.Machine.execFmul2 c rm t d a b s
  | .ffma2 c rm t d a b e => Sys2Proof.Machine.execFfma2 c rm t d a b e s
  | .fmin2 c t d a b => Sys2Proof.Machine.execFmin2 c t d a b s
  | .fmax2 c t d a b => Sys2Proof.Machine.execFmax2 c t d a b s
  | .fcvt c rm sat td ts d b => Sys2Proof.Machine.execFcvt c rm sat td ts d b s
  | .fcvti c rm td ts d b => Sys2Proof.Machine.execFcvti c rm td ts d b s
  | .icvtf c rm sat td ts d b => Sys2Proof.Machine.execIcvtf c rm sat td ts d b s
  | .cvtq c rm fs d a b => Sys2Proof.Machine.execCvtq c rm fs d a b s
  | .cvtdq c rm fs d a b => Sys2Proof.Machine.execCvtdq c rm fs d a b s
  | .frcp c d b => Sys2Proof.Machine.execFrcp c d b s
  | .frsq c d b => Sys2Proof.Machine.execFrsq c d b s
  | .fsqrt c rm t d b => Sys2Proof.Machine.execFsqrt c rm t d b s
  | .fexp2 c d b => Sys2Proof.Machine.execFexp2 c d b s
  | .flog2 c d b => Sys2Proof.Machine.execFlog2 c d b s
  | .fsin c d b => Sys2Proof.Machine.execFsin c d b s
  | .fcos c d b => Sys2Proof.Machine.execFcos c d b s
  | .ftanh c d b => Sys2Proof.Machine.execFtanh c d b s
  | .sigget c t d b => Sys2Proof.Machine.execSigget c t d b s
  | .sigset c t d a b => Sys2Proof.Machine.execSigset c t d a b s
  | .sigmin c t d a b => Sys2Proof.Machine.execSigmin c t d a b s
  | .sigcmp c cc t p a b => Sys2Proof.Machine.execSigcmp c cc t p a b s
  | .moderd c d status => Sys2Proof.Machine.execModerd c d status s
  | .modewr c status a b => Sys2Proof.Machine.execModewr c status a b s
  | .philox c d a b => Sys2Proof.Machine.execPhilox c d a b s
  | .philoxf c t d a b => Sys2Proof.Machine.execPhiloxf c t d a b s
  | .twalk c idx n dep d a b => Sys2Proof.Machine.execTwalk c idx n dep d a b s
  | .topkins c asc k d a b => Sys2Proof.Machine.execTopkins c asc k d a b s
  | .topkmrg c asc k d a => Sys2Proof.Machine.execTopkmrg c asc k d a s
  | .scalemax c p2 fs d b => Sys2Proof.Machine.execScalemax c p2 fs d b s
  | .bra c off => Sys2Proof.Machine.execBra c off s
  | .brau c off => Sys2Proof.Machine.execBrau c off s
  | .brx c b => Sys2Proof.Machine.execBrx c b s
  | .call c d off => Sys2Proof.Machine.execCall c d off s
  | .callReg c d b => Sys2Proof.Machine.execCallReg c d b s
  | .ret c b => Sys2Proof.Machine.execRet c b s
  | .join c k n off => Sys2Proof.Machine.execJoin c k n off s
  | .waitj c k off => Sys2Proof.Machine.execWaitj c k off s
  | .rep c b => Sys2Proof.Machine.execRep c b s
  | .repImm c n => Sys2Proof.Machine.execRepImm c n s
  | .loop c d off => Sys2Proof.Machine.execLoop c d off s
  | .exit c => Sys2Proof.Machine.execExit c s
  | .trap c code => Sys2Proof.Machine.execTrap c code s
  | .bpt c => Sys2Proof.Machine.execBpt c s
  | .yield c => Sys2Proof.Machine.execYield c s
  | .nop c => Sys2Proof.Machine.execNop c s
  | .bsig c allq t thr a off => Sys2Proof.Machine.execBsig c allq t thr a off s
  | .bany c p off => Sys2Proof.Machine.execBany c p off s
  | .ball c p off => Sys2Proof.Machine.execBall c p off s
  | .shfl c t w d a b => Sys2Proof.Machine.execShfl c t w d a b s
  | .shflup c t w d a b => Sys2Proof.Machine.execShflup c t w d a b s
  | .shfldn c t w d a b => Sys2Proof.Machine.execShfldn c t w d a b s
  | .shflx c t w d a b => Sys2Proof.Machine.execShflx c t w d a b s
  | .voteany c na d a => Sys2Proof.Machine.execVoteany c na d a s
  | .voteall c na d a => Sys2Proof.Machine.execVoteall c na d a s
  | .voteuni c t d a => Sys2Proof.Machine.execVoteuni c t d a s
  | .ballot c na d a => Sys2Proof.Machine.execBallot c na d a s
  | .matchLanes c t d a => Sys2Proof.Machine.execMatchLanes c t d a s
  | .redadd c t w d a => Sys2Proof.Machine.execRedadd c t w d a s
  | .redfadd c rm t w d a => Sys2Proof.Machine.execRedfadd c rm t w d a s
  | .redmin c t w d a => Sys2Proof.Machine.execRedmin c t w d a s
  | .redmax c t w d a => Sys2Proof.Machine.execRedmax c t w d a s
  | .scanadd c excl rm t w d a => Sys2Proof.Machine.execScanadd c excl rm t w d a s
  | .qswph c t d a => Sys2Proof.Machine.execQswph c t d a s
  | .qswpv c t d a => Sys2Proof.Machine.execQswpv c t d a s
  | .qswpd c t d a => Sys2Proof.Machine.execQswpd c t d a s
  | .qbcast c t d a q => Sys2Proof.Machine.execQbcast c t d a q s
  | .regroup c a => Sys2Proof.Machine.execRegroup c a s
  | .ungroup c => Sys2Proof.Machine.execUngroup c s
  | .grpinfo c d sel => Sys2Proof.Machine.execGrpinfo c d sel s
  | .rdspec c d idx => Sys2Proof.Machine.execRdspec c d idx s
  | .shape c d b => Sys2Proof.Machine.execShape c d b s
  | .movg c t d b => Sys2Proof.Machine.execMovg c t d b s
  | .ld c f prv cp t d a o => Sys2Proof.Machine.execLd c f prv cp t d a o s
  | .st c f prv t d a o => Sys2Proof.Machine.execSt c f prv t d a o s
  | .lds c f t d a o => Sys2Proof.Machine.execLds c f t d a o s
  | .sts c f t d a o => Sys2Proof.Machine.execSts c f t d a o s
  | .ldp c t n d a w => Sys2Proof.Machine.execLdp c t n d a w s
  | .gather c f t d a b sx sh => Sys2Proof.Machine.execGather c f t d a b sx sh s
  | .scatter c f t d a b sx sh => Sys2Proof.Machine.execScatter c f t d a b sx sh s
  | .atom c f op d a b e => Sys2Proof.Machine.execAtom c f op d a b e s
  | .red c f op a b => Sys2Proof.Machine.execRed c f op a b s
  | .atoms c f op d a b e => Sys2Proof.Machine.execAtoms c f op d a b e s
  | .pref c mt a o => Sys2Proof.Machine.execPref c mt a o s
  | .cctlIvl c a o => Sys2Proof.Machine.execCctlIvl c a o s
  | .cctlIvr c a b => Sys2Proof.Machine.execCctlIvr c a b s
  | .cctlIva c => Sys2Proof.Machine.execCctlIva c s
  | .bind c f sc a b e => Sys2Proof.Machine.execBind c f sc a b e s
  | .acqLock c sc p a => Sys2Proof.Machine.execAcqLock c sc p a s
  | .acqGen c sc p a b => Sys2Proof.Machine.execAcqGen c sc p a b s
  | .rel c unlock sc a => Sys2Proof.Machine.execRel c unlock sc a s
  | .fence c sc => Sys2Proof.Machine.execFence c sc s
  | .bar c pub => Sys2Proof.Machine.execBar c pub s
  | .nbar c pub => Sys2Proof.Machine.execNbar c pub s
  | .seminc c f n b => Sys2Proof.Machine.execSeminc c f n b s
  | .semincImm c f n v => Sys2Proof.Machine.execSemincImm c f n v s
  | .semwait c n b => Sys2Proof.Machine.execSemwait c n b s
  | .semwaitImm c n v => Sys2Proof.Machine.execSemwaitImm c n v s
  | .semrd c f d n => Sys2Proof.Machine.execSemrd c f d n s
  | .copy c ds ss a b e => Sys2Proof.Machine.execCopy c ds ss a b e s
  | .seal c cancellable h sem => Sys2Proof.Machine.execSeal c cancellable h sem s
  | .waitf c h => Sys2Proof.Machine.execWaitf c h s
  | .testf c p h => Sys2Proof.Machine.execTestf c p h s
  | .cancelf c h => Sys2Proof.Machine.execCancelf c h s
  | .tilestSet c f a b => Sys2Proof.Machine.execTilestSet c f a b s
  | .tilestFull c f a => Sys2Proof.Machine.execTilestFull c f a s
  | .tilestEmpty c f a => Sys2Proof.Machine.execTilestEmpty c f a s
  | .tilewaitFull c a => Sys2Proof.Machine.execTilewaitFull c a s
  | .tilewaitEmpty c a => Sys2Proof.Machine.execTilewaitEmpty c a s
  | .emit c f a e => Sys2Proof.Machine.execEmit c f a e s
  | .emitx c f a b => Sys2Proof.Machine.execEmitx c f a b s
  | .rdrec c f t d a o => Sys2Proof.Machine.execRdrec c f t d a o s
  | .enq c f n p a b => Sys2Proof.Machine.execEnq c f n p a b s
  | .rcsnap c f n a b => Sys2Proof.Machine.execRcsnap c f n a b s
  | .sliceq c fill h d b => Sys2Proof.Machine.execSliceq c fill h d b s
  | .slicehintPin c f b => Sys2Proof.Machine.execSlicehintPin c f b s
  | .slicehintUnpin c f b => Sys2Proof.Machine.execSlicehintUnpin c f b s
  | .slicehintRep c f b e => Sys2Proof.Machine.execSlicehintRep c f b e s
  | .slicehintDrop c f b e => Sys2Proof.Machine.execSlicehintDrop c f b e s
  | .mma c f fs rm h a => Sys2Proof.Machine.execMma c f fs rm h a s
  | .mmas c f fs rm h a => Sys2Proof.Machine.execMmas c f fs rm h a s
  | .mmab c f fs rm andq h a => Sys2Proof.Machine.execMmab c f fs rm andq h a s
  | .mldf c f fs w sp h a b e => Sys2Proof.Machine.execMldf c f fs w sp h a b e s
  | .mstf c f fs rm t h a b e => Sys2Proof.Machine.execMstf c f fs rm t h a b e s
  | .mzero c a => Sys2Proof.Machine.execMzero c a s
  | .mresume c f fs rm k h a b => Sys2Proof.Machine.execMresume c f fs rm k h a b s
  | .mqry c d h => Sys2Proof.Machine.execMqry c d h s
  | .trapret c skip => Sys2Proof.Machine.execTrapret c skip s
  | .getfault c d w => Sys2Proof.Machine.execGetfault c d w s
  | .setfault c a b => Sys2Proof.Machine.execSetfault c a b s
  | .haltg c code => Sys2Proof.Machine.execHaltg c code s
  | .ctxq c d sel => Sys2Proof.Machine.execCtxq c d sel s
  | .pFormWord s0 s1 => Sys2Proof.Machine.execPFormWord s0 s1 s
  | .unassignedOpcode w => Sys2Proof.Machine.execUnassignedOpcode w s
  | .clauseStart p => Sys2Proof.Machine.execClauseStart p s
  | .icacheFill uid fresh => Sys2Proof.Machine.execIcacheFill uid fresh s
  | .groupForm l n core bin => Sys2Proof.Machine.execGroupForm l n core bin s
  | .gatherTimeout l n core bin => Sys2Proof.Machine.execGatherTimeout l n core bin s
  | .retire uid => Sys2Proof.Machine.execRetire uid s
  | .pathQuantum uid => Sys2Proof.Machine.execPathQuantum uid s
  | .merge host donor => Sys2Proof.Machine.execMerge host donor s
  | .eject uid => Sys2Proof.Machine.execEject uid s
  | .recall uid => Sys2Proof.Machine.execRecall uid s
  | .waitjPass uid => Sys2Proof.Machine.execWaitjPass uid s
  | .rejoinTimeout uid => Sys2Proof.Machine.execRejoinTimeout uid s
  | .yieldedRestore uid slot => Sys2Proof.Machine.execYieldedRestore uid slot s
  | .barrierComplete wg nbar => Sys2Proof.Machine.execBarrierComplete wg nbar s
  | .collectorWindowClose core => Sys2Proof.Machine.execCollectorWindowClose core s
  | .memoryAccessComplete id lanes fromCopy useTlb => Sys2Proof.Machine.execMemoryAccessComplete id lanes fromCopy useTlb s
  | .trapDelivery uid => Sys2Proof.Machine.execTrapDelivery uid s
  | .copyBatchComplete id => Sys2Proof.Machine.execCopyBatchComplete id s
  | .copyEngineFault id => Sys2Proof.Machine.execCopyEngineFault id s
  | .copyBatchCancelled id => Sys2Proof.Machine.execCopyBatchCancelled id s
  | .matrixGrant cluster transfer => Sys2Proof.Machine.execMatrixGrant cluster transfer s
  | .matrixComplete id => Sys2Proof.Machine.execMatrixComplete id s
  | .matrixEngineFault id => Sys2Proof.Machine.execMatrixEngineFault id s
  | .matrixOperationStop id => Sys2Proof.Machine.execMatrixOperationStop id s
  | .sliceQueryComplete id => Sys2Proof.Machine.execSliceQueryComplete id s
  | .preempt wg => Sys2Proof.Machine.execPreempt wg s
  | .restore wg core => Sys2Proof.Machine.execRestore wg core s
  | .connect accel launch proxy port rnode size => Sys2Proof.Machine.execConnect accel launch proxy port rnode size s
  | .permitGrant l n permits => Sys2Proof.Machine.execPermitGrant l n permits s
  | .remoteRecord l n r => Sys2Proof.Machine.execRemoteRecord l n r s
  | .permitReturn l n permits => Sys2Proof.Machine.execPermitReturn l n permits s
  | .permitReturnBatch l n sender => Sys2Proof.Machine.execPermitReturnBatch l n sender s
  | .permitReport l n held => Sys2Proof.Machine.execPermitReport l n held s
  | .closeMessage l n sender => Sys2Proof.Machine.execCloseMessage l n sender s
  | .remoteAccess accel pa op => Sys2Proof.Machine.execRemoteAccess accel pa op s
  | .graphLaunchEnd l => Sys2Proof.Machine.execGraphLaunchEnd l s
  | .launchCancel l => Sys2Proof.Machine.execLaunchCancel l s
  | .packetNop q => Sys2Proof.Machine.execPacketNop q s
  | .launch q => Sys2Proof.Machine.execLaunch q s
  | .packetCopy q => Sys2Proof.Machine.execPacketCopy q s
  | .packetCopyComplete q id => Sys2Proof.Machine.execPacketCopyComplete q id s
  | .semsig q => Sys2Proof.Machine.execSemsig q s
  | .semwaitge q => Sys2Proof.Machine.execSemwaitge q s
  | .intr q => Sys2Proof.Machine.execIntr q s
  | .phase q => Sys2Proof.Machine.execPhase q s
  | .packetFence q => Sys2Proof.Machine.execPacketFence q s
  | .tstamp q => Sys2Proof.Machine.execTstamp q s
  | .jump q => Sys2Proof.Machine.execJump q s
  | .queueService => Sys2Proof.Machine.execQueueService s
  | .linkMessage cluster up msg => Sys2Proof.Machine.execLinkMessage cluster up msg s
  | .linkPermitReturn cluster up epoch => Sys2Proof.Machine.execLinkPermitReturn cluster up epoch s
  | .sync cluster up => Sys2Proof.Machine.execSync cluster up s
  | .syncack cluster up => Sys2Proof.Machine.execSyncack cluster up s
  | .scrub region granule => Sys2Proof.Machine.execScrub region granule s
  | .rateDecay region => Sys2Proof.Machine.execRateDecay region s
  | .repair region loc => Sys2Proof.Machine.execRepair region loc s
  | .moduleReset => Sys2Proof.Machine.execModuleReset s
  | .attestDone => Sys2Proof.Machine.execAttestDone s
  | .queueNotify part q v => Sys2Proof.Machine.execQueueNotify part q v s
  | .queueEnable part q v => Sys2Proof.Machine.execQueueEnable part q v s
  | .queueDisable part q v => Sys2Proof.Machine.execQueueDisable part q v s
  | .queueRst part q v => Sys2Proof.Machine.execQueueRst part q v s
  | .queuePlaneChange part q v => Sys2Proof.Machine.execQueuePlaneChange part q v s
  | .partEnable n v => Sys2Proof.Machine.execPartEnable n v s
  | .partDisable n v => Sys2Proof.Machine.execPartDisable n v s
  | .partitionReset n => Sys2Proof.Machine.execPartitionReset n s
  | .tlbInvalidatePage n v => Sys2Proof.Machine.execTlbInvalidatePage n v s
  | .tlbInvalidateAll w => Sys2Proof.Machine.execTlbInvalidateAll w s
  | .fresumeRetry n launch => Sys2Proof.Machine.execFresumeRetry n launch s
  | .fresumeSkip n launch => Sys2Proof.Machine.execFresumeSkip n launch s
  | .fresumeEnd n launch => Sys2Proof.Machine.execFresumeEnd n launch s
  | .flogrWrite n v => Sys2Proof.Machine.execFlogrWrite n v s
  | .sliceFlush n => Sys2Proof.Machine.execSliceFlush n s
  | .hostSemaphoreStore n j v => Sys2Proof.Machine.execHostSemaphoreStore n j v s
  | .registerWrite off v => Sys2Proof.Machine.execRegisterWrite off v s
  | .rasLogrWrite v => Sys2Proof.Machine.execRasLogrWrite v s
  | .rasFreeze v => Sys2Proof.Machine.execRasFreeze v s
  | .frzN ns => Sys2Proof.Machine.execFrzN ns s
  | .tapInstruction op => Sys2Proof.Machine.execTapInstruction op s
  | .powerOn => Sys2Proof.Machine.execPowerOn s
  | .bootGo => Sys2Proof.Machine.execBootGo s
  | .bootForce v => Sys2Proof.Machine.execBootForce v s
  | .attest => Sys2Proof.Machine.execAttest s
  | .clockChange cluster f50 => Sys2Proof.Machine.execClockChange cluster f50 s
  | .thermalThrottle => Sys2Proof.Machine.execThermalThrottle s
  | .thermalShutdown => Sys2Proof.Machine.execThermalShutdown s

end Sys2Proof.Machine
end

