-- ==== Sys2Proof/Machine/Auto.lean ====
section
/-! DEFINITION. What a turn does, time, the acts of the outside world, and the turns that the machine gives itself when the agenda
is empty (1, 3). -/
namespace Sys2Proof.Machine
open Sys2Proof

/-! ## Time and the outside world -/

/-- A frequency that waits for a clause boundary takes effect in an idle cluster, and the cluster's clock advances (3, R349). -/
def State.clusterTick (s : State) (ns c : Nat) (k : Cluster) : Cluster :=
  let k := if k.nextF50.isSome && s.clusterIdle c then k.takeClock else k
  { k with clk := k.clk + ns * k.f50 }
/-- Time passes (3): readiness and the units that wait for a reservation are noted at the clock they began, then the device timestamp
and every cluster's clock advance, and egress buffers are clean after 32 clocks (E003). -/
def State.tick (s : State) (ns : Nat) : State :=
  let s := s.noteReady.noteWaiting
  let s : State := { s with time := s.time + ns, clusters := s.clusters.map fun (x : Nat × Cluster) => (x.1, s.clusterTick ns x.1 x.2) }
  (s.parts.filter fun (x : Nat × Partition) => !x.2.egress.isEmpty).foldl (fun (s : State) (x : Nat × Partition) => s.cleanEgress x.1 32) s

/-- A store of the host to a virtual address of a partition (R173): performed at its home, page by page, with tags FULL (R59). -/
def State.hostStoreVa (s : State) (part va : Nat) (bs : List Byte) : State :=
  (pieces8 bs.length va bs.length).foldl (fun s x =>
    match s.translate part x.1 needW false with
    | .ok p => s.pageWrite p x.1 ((bs.drop (x.1 - va)).take x.2) (List.replicate ((x.1 % 4 + x.2 + 3) / 4) FULL)
    | .error _ => s) s

/-- One more piece of a running copy: of a sealed batch, or of a COPY packet (1). -/
def State.copyStep (s : State) (id : Nat) : State :=
  match s.batches.find? (fun b => b.id == id) with
  | some b =>
    if s.batchReady b && b.state == .running then
      (match s.copyPiece b with | .ok (t, b) => if b.copies.isEmpty then s else t.setBatch b | .error _ => s)
    else s
  | none =>
    match s.queues.find? (fun x => x.2.packets.any fun p => p.id == id) with
    | none => s
    | some (q, _) =>
      match s.copyPacket? q id with
      | none => s
      | some p => match s.packetPiece (s.queueOwner q) p with
        | .ok (t, k) => t.setMoved q { p with moved := p.moved + k }
        | .error _ => s

/-- An act of the outside world, or of an engine inside one operation (1). An accelerator whose partition was reset comes back as a peer,
and has the report of the permits held for it (R278). -/
def State.act (s : State) (e : Env) : State :=
  match e with
  | .hostStore pa bs => s.physWrite pa bs
  | .hostStoreVa part va bs => s.hostStoreVa part va bs
  | .hostLoad vf off => s.hostLoad vf off
  | .vfWrite vf off v => s.vfWrite vf off v
  | .bootWindow off bs => { s with boot := { s.boot with window := memWrite s.boot.window off bs } }
  | .bootNonce bs => if bs.length == 32 then { s with boot := { s.boot with nonce := bs } } else s
  | .flashImage bs => { s with boot := { s.boot with flash := bs } }
  | .l1Replace core part va => s.l1Drop core fun x => x.part == part && x.va == va
  | .icacheReplace cluster part va =>
    s.modCluster cluster fun k => { k with icache := k.icache.filter fun x => !(x.1 == part && x.2.1 / 128 == va / 128) }
  | .tlbDrop part vpn bits => s.modPart part fun p => { p with tlb := p.tlb.filter fun t => !(t.vpn == vpn && t.bits == bits) }
  | .softError region loc bad => s.softError region loc bad
  | .matrixBlock id => s.mopAdvance id
  | .copyStep id => s.copyStep id
  | .openRange base size => { s with openRanges := s.openRanges ++ [(base, size)] }
  | .mantleEvict region loc => s.mantleEvict region loc
  | .peer accel up =>
    if up then { s with peers := accel :: s.peers.filter (· != accel) }.reportTo accel else { s with peers := s.peers.filter (· != accel) }
  | .retiredTo l n accel sender snode bound => s.retiredTo l n accel sender snode bound
  | .egressClean part => s.cleanEgress part 0
  | .linkFree cluster up => s.linkFree cluster up
  | .linkReset cluster up => s.linkReset cluster up
  | .capW w => s.setCap w

/-! ## The turns that the machine gives itself -/

/-- Turns of groups between words: traps, waits, merges, ejection, recall, fetch, retirement (Table 6.1). -/
def State.groupTurns (s : State) : List Instr :=
  (s.groups.filter fun g => g.phase != .retired).flatMap fun g =>
    (if g.due.isEmpty then [] else [.trapDelivery g.uid]) ++
    (if g.sleeve.isNone && g.phase == .held then [.waitjPass g.uid] else []) ++
    (if 64 ≤ g.quantum then [.pathQuantum g.uid] else []) ++
    (if g.ejectNext.isSome then [.eject g.uid] else []) ++
    (if g.sleeve.isSome then [.recall g.uid] else []) ++
    (if g.heldSince.isSome then [.rejoinTimeout g.uid] else []) ++
    (if g.phase == .yielded then [.yieldedRestore g.uid ((s.freeSlot? g.core).getD 48)] else []) ++
    (if g.phase == .waiting || g.phase == .issuing then [.icacheFill g.uid false] else []) ++
    (if g.live == 0 then [.retire g.uid] else [])

/-- Pairs of groups that can merge now (R149). -/
def State.mergeTurns (s : State) : List Instr :=
  let can := s.groups.filter s.mergeAlone
  can.flatMap fun h => (can.filter fun d => s.mergeable h d).map fun d => .merge h.uid d.uid

/-- Barriers at which groups wait, and pre-emption and restoring of workgroups. -/
def State.wgTurns (s : State) : List Instr :=
  (s.wgs.flatMap fun w =>
    let gates := (s.groups.filter fun g => g.wg == w.uid).map Group.gate
    (if gates.any fun x => match x with | .bar _ => true | _ => false then [.barrierComplete w.uid false] else []) ++
    (if gates.any fun x => match x with | .nbar _ => true | _ => false then [.barrierComplete w.uid true] else []) ++
    (if w.preemptReq then [.preempt w.uid] else [])) ++
  s.saved.flatMap fun x =>
    match (s.partCores x.wg.part).find? fun c =>
      match s.launch? x.wg.launch with | some l => (s.restoreCores l (s.savedUnit x) c).isSome | none => false with
    | some c => [.restore x.wg.uid c]
    | none => []

/-- Operations in flight: accesses, collectors, batches, matrix operations, slice queries. -/
def State.engineTurns (s : State) : List Instr :=
  (s.cores.flatMap fun x => if x.2.coll.isSome then [.collectorWindowClose x.1] else []) ++
  (s.accs.map fun a => .memoryAccessComplete a.id (BitVec.allOnes 32) true true) ++
  (s.batches.flatMap fun b => [.copyBatchCancelled b.id, .copyEngineFault b.id, .copyBatchComplete b.id]) ++
  ((s.mops.map fun m => clusterOf m.core).eraseDups.flatMap fun c => [.matrixGrant c false, .matrixGrant c true]) ++
  (s.mops.flatMap fun m => [.matrixOperationStop m.id, .matrixEngineFault m.id, .matrixComplete m.id]) ++
  s.sliceqs.map fun q => .sliceQueryComplete q.id

/-- The graph scheduler: formation on the lowest core that takes a unit, connects that were held, permits, ends. -/
def State.graphTurns (s : State) : List Instr :=
  (s.launches.flatMap fun l =>
    let forms := (upFrom 0 l.nodes.length).flatMap fun n => (if (l.bins n).isEmpty then [0] else l.bins n).flatMap fun b =>
      let core := fun (cause : Cause) => (s.partCores l.part).find? fun c => (s.formable l n b c cause).isSome
      match core .ready, core .timeout with
      | some c, _ => [Instr.groupForm l.num n c (BitVec.ofNat 32 b)]
      | none, some c => [.gatherTimeout l.num n c (BitVec.ofNat 32 b)]
      | none, none => if l.det || (s.gridRecord l n).isSome then [.groupForm l.num n 0 (BitVec.ofNat 32 b)] else []
    let backs := l.receivers.flatMap fun r => if r.back.isEmpty then [] else [.permitReturnBatch l.num r.node ⟨r.accel, r.sender⟩]
    forms ++ backs ++ [.graphLaunchEnd l.num]) ++
  s.connects.map fun c => .connect c.accel (c.sender / 4096) (c.sender % 4096) c.port c.rnode c.size

/-- The event that starts a packet of a type (Table 12.2). -/
def packetEvent (t q : Nat) : Instr :=
  match t with
  | 0 => .packetNop q | 1 => .launch q | 2 => .packetCopy q | 3 => .semsig q | 4 => .semwaitge q | 5 => .intr q
  | 6 => .phase q | 7 => .packetFence q | 8 => .tstamp q | _ => .jump q

/-- The command processor: service of queues, starts and ends of packets. -/
def State.queueTurns (s : State) : List Instr :=
  (if s.nextService.isSome then [.queueService] else []) ++
  s.queues.flatMap fun x =>
    (match s.startablePacket x.1 with | some p => [packetEvent p.type x.1] | none => []) ++
    x.2.packets.flatMap fun p => if !p.started then [] else if p.type == 2 then [.packetCopyComplete x.1 p.id] else if p.type == 4 then [.semwaitge x.1] else []

/-- Links, error engines, attestation. -/
def State.serviceTurns (s : State) : List Instr :=
  let link (c : Nat) (up : Bool) (k : Channel) : List Instr :=
    (match k.returns with | e :: _ => [.linkPermitReturn c up e] | [] => []) ++
    (if k.waitAck && k.syncAt.isNone then [.sync c up] else []) ++ (if k.syncAt.isSome then [.syncack c up] else [])
  (s.clusters.flatMap fun x => link x.1 false x.2.down ++ link x.1 true x.2.up) ++
  (s.ras.rate.map fun x => .rateDecay x.1) ++ (s.ras.marks.map fun m => .scrub m.region m.loc) ++
  (s.ras.locs.flatMap fun x => (x.2.filter LocEntry.lasting).map fun e => .repair x.1 e.loc) ++
  if s.boot.att then [.attestDone] else []

/-- One round of turns (1): what each unit can do now, in a fixed order, and then one nanosecond. A module that has just been
reset boots. -/
def State.round (s : State) : List Turn :=
  if s.boot.state == 0 then [.ev .moduleReset]
  else
    (s.queueTurns ++ s.graphTurns ++ s.groupTurns ++ s.mergeTurns ++ s.wgTurns ++ s.engineTurns ++ s.serviceTurns).map Turn.ev ++
    ((s.groups.filter fun g => g.sleeve.isSome).flatMap fun g => [.ev (.clauseStart (.sleeve g.uid)), .issue (.sleeve g.uid)]) ++
    ((s.groups.filter fun g => g.sleeve.isNone).map Group.core).eraseDups.flatMap
      (fun c => [.ev (.clauseStart (.core c)), .issue (.core c)]) ++ [.tick 1]

/-- The turn that a step runs, and the state it runs it in: the head of the agenda, or the head of a fresh round (1). -/
def State.takeTurn (s : State) : Turn × State :=
  match s.agenda with
  | t :: ts => (t, { s with agenda := ts })
  | [] =>
    match s.round with
    | t :: ts => (t, { s with agenda := ts })
    | [] => (.tick 1, s)

/-- What stops a step before its turn: a frozen module takes only module reset, power-on and test access (R342, R343); one that has
powered down only power-on (R349). -/
def State.stopped? (s : State) (t : Turn) : Option Fault :=
  if s.power.off then (match t with | .ev .powerOn => none | _ => some .poweredDown)
  else if s.ras.frozen then
    (match t with | .ev .powerOn | .ev .moduleReset | .ev (.tapInstruction _) => none | _ => some .frozen)
  else none

/-- What a turn does. -/
def State.runTurn (s : State) (t : Turn) : Out :=
  match t with
  | .ev i => exec i s
  | .issue p => s.issue exec p
  | .tick ns => .next (s.tick ns)
  | .env e => .next (s.act e)

/-! ## A word placed for the next step (6) -/

/-- The node that a placed word runs in: the default MODE, 224 general registers, one group a workgroup, all scratchpad. -/
def hostNode : Node :=
  { (default : Node) with decl := ⟨224, 0, 0⟩, modew := modeDefault, z := 4, scr := 2 ^ 21, kind := .broadcast, dbound := 0 }

/-- The state in which a word is the next to issue on core 0 (6): a launch of partition 0 with one workgroup of one formed group
whose clause holds the word, and the issue of core 0 as the next turn. -/
def State.placeWord (s : State) (w : Addr) : State :=
  let n := s.uidNext
  let ends := Instr.endsClause (readWord w.toNat).val
  let words := if ends then [w] else [w, encode (.nop ⟨63, false, false, false⟩)]
  let hdr := BitVec.ofNat 64 (words.length + 0xFF0000)
  let g := newGroup hostNode (n + 1) s.launchNext 0 n 0 0 0 0 0 1 (BitVec.allOnes 32) fun _ => 0
  let g := { g with phase := .issuing, clause := some ⟨0, hdr, words, 0⟩ }
  let wg : Wg := ⟨n, s.launchNext, 0, 0, 0, n, 0, 0, 0, TMem.empty, hostNode.scr, freshHandles, 1, [n + 1], false, 0,
    false, [], 0, .live⟩
  let l := { (default : Launch) with num := s.launchNext, nodes := [hostNode], queues := [[]], nextWgid := [1], nextGseq := [1] }
  ({ s with
    agenda := .issue (.core 0) :: s.agenda
    uidNext := n + 2
    launchNext := s.launchNext + 1
    launches := s.launches ++ [l]
    wgs := s.wgs ++ [wg]
    groups := s.groups ++ [g]
    boot := { s.boot with state := 4 } }).modCore 0 fun c => { c with port := some (n + 1) }

end Sys2Proof.Machine
end

