-- ==== Sys2Proof/Machine/Step.lean ====
section
/-! DEFINITION. One step: the next turn of the agenda, or of a round that the machine gives itself (1). -/
namespace Sys2Proof.Machine
open Sys2Proof

/-- One step of the device (1). -/
def step (s : State) : Host.Outcome State Fault Refusal :=
  match s.takeTurn with
  | (t, s') => match s.stopped? t with
    | some f => .fault f
    | none => s'.runTurn t

/-- The state whose next step issues the word `w` (6). -/
def State.withFetchWord (s : State) (_nbits w : Nat) : State := s.placeWord (BitVec.ofNat 64 w)

end Sys2Proof.Machine
end

