-- ==== Sys2Proof/Safety.lean ====
section
/-! DEFINITION. The vocabulary of the statements: a word that issues, the results it writes and what it leaves alone, a word that
traps, and the invariant of memory. -/
namespace Sys2Proof.Safety
open Sys2Proof Sys2Proof.Machine

/-- The group (or Sleeve context) `g` of the state issues the word that runs (R145, R154). -/
structure Issues (s : State) (g : Group) : Prop where
  cur : s.cur = some g.uid
  group : s.group? g.uid = some g

/-- The lanes that the word acts in (R34). -/
abbrev lanesOf (g : Group) (c : Ctl) : Mask := g.writeSet c.gp.val c.gn

/-- A lane slot of a mask. -/
def Lane.mem (w : Mask) (l : Nat) : Prop := l < 32 ∧ w.getLsbD l = true

/-- The group holds its 32 lane records and its declared registers, and every active lane is live or a helper (R8, R9, R117). -/
structure Formed (g : Group) : Prop where
  lanes : g.lanes.length = 32
  regs : g.v.length = g.decl.total
  active : g.active &&& ~~~(g.live ||| g.helper) = 0

/-- A word that writes `n` registers of general capacity from `d` in some lane (R9, R34). -/
structure Writes (s : State) (g : Group) (c : Ctl) (d n : Nat) : Prop where
  issues : Issues s g
  formed : Formed g
  some_lane : lanesOf g c ≠ 0
  capacity : d + n ≤ g.decl.ng

/-- What a word leaves of the group: of all its fields only registers, bypass window, reuse latch, STATUS and, lane by lane, the
draw count and the flags kept beside a lane can differ. -/
structure Framed (g g' : Group) : Prop where
  fields : g' = { g with v := g'.v, window := g'.window, latch := g'.latch, status := g'.status, lanes := g'.lanes }
  lanes : ∀ l, g'.lane l = { g.lane l with srcnt := (g'.lane l).srcnt, accr := (g'.lane l).accr }

/-- The word of register `i` of a result of several words (R14). -/
def part (x : Nat × Tag) (i : Nat) : Word × Tag := (BitVec.ofNat 32 (x.1 / 2 ^ (32 * i)), x.2)

/-- Lane results of one value each, word by word. -/
def whole (f : Nat → Nat × Tag) (l i : Nat) : Word × Tag := part (f l) i

/-- `g'` is `g` after a word has written the results `res`, by lane and word, to `n` registers from `d` in the lanes `w`: a lane of `w`
reads its result; without `.tr` it is stored; every other register, and every live lane outside `w`, keeps its stored word; and
the rest of the group is framed (R13, R31, R34). -/
structure Wrote (g g' : Group) (tr : Bool) (w : Mask) (d n : Nat) (res : Nat → Nat → Word × Tag) : Prop where
  read : ∀ l i, Lane.mem w l → i < n → g'.read (d + i) l = res l i
  stored : tr = false → ∀ l i, Lane.mem w l → i < n → g'.stored (d + i) l = res l i
  kept : ∀ r l, l < 32 → (tr = true ∨ r < d ∨ d + n ≤ r ∨ (w.getLsbD l = false ∧ g.live.getLsbD l = true)) →
    g'.stored r l = g.stored r l
  preds : g'.p = g.p
  frame : Framed g g'

/-- `g'` is `g` after a word has written predicate `p` in the lanes `w`: bit by bit the condition in the lanes of `w`, the old bit
in the others; P63 is not written (R18). Registers and all else are as before but for flags. -/
structure WrotePred (g g' : Group) (w : Mask) (p : Nat) (cond : Nat → Bool) : Prop where
  pred : p < 63 → p < g.p.length → ∀ l, l < 32 → (g'.p.getD p 0).getLsbD l = if w.getLsbD l then cond l else (g.p.getD p 0).getLsbD l
  others : ∀ q, q ≠ p ∨ p = 63 → g'.p.getD q 0 = g.p.getD q 0
  regs : g'.v = g.v
  fields : g' = { g with p := g'.p, window := g'.window, latch := g'.latch, status := g'.status, lanes := g'.lanes }

/-- Whether the flags of a lane are kept beside it, not in STATUS: the lane of an ejected context, a merged lane, and a lane whose thread
has its home in another group (R27). -/
def besides (g : Group) (l : Nat) : Bool := g.sleeve.isSome || g.isMoved l || (g.lane l).homeUid != g.uid

/-- `g'` is `g` after a word has raised the flags `fl` in the lanes `w` and has drawn `k` random words in each: STATUS, the flags
kept beside a lane, and SRCNT are these and nothing more (R27, R42). -/
structure Raised (g g' : Group) (w : Mask) (fl : Nat → FlagSet) (k : Nat) : Prop where
  status : g'.status = (maskBits w).foldl (fun st l => if besides g l then st else orStatus st (fl l)) g.status
  accr : ∀ l, l < 32 → (g'.lane l).accr = if w.getLsbD l && besides g l then (g.lane l).accr ||| fl l else (g.lane l).accr
  srcnt : ∀ l, l < 32 → (g'.lane l).srcnt = if w.getLsbD l then (g.lane l).srcnt + BitVec.ofNat 32 k else (g.lane l).srcnt

/-- The instruction completes for `g` with these results in registers, flags and draws: the state is the one after the word, with `g'` in the place
of `g`. -/
def Completes (i : Instr) (s : State) (g : Group) (c : Ctl) (d n : Nat) (res : Nat → Nat → Word × Tag)
    (fl : Nat → FlagSet) (k : Nat) : Prop :=
  ∃ g', exec i s = .next (s.nextWord g') ∧ Wrote g g' c.tr (lanesOf g c) d n res ∧ Raised g g' (lanesOf g c) fl k

/-- The instruction completes for `g` with this predicate. -/
def CompletesPred (i : Instr) (s : State) (g : Group) (c : Ctl) (p : Nat) (cond : Nat → Bool) (fl : Nat → FlagSet) : Prop :=
  ∃ g', exec i s = .next (s.nextWord g') ∧ WrotePred g g' (lanesOf g c) p cond ∧ Raised g g' (lanesOf g c) fl 0

/-- The sources of a word can be read: registers and constants always, a window word when its read does not trap (R67 to R70, R165). -/
def Sources (s : State) (g : Group) (c : Ctl) (xs : List (Src × OTy)) (os : List Opnd) : Prop :=
  s.operands g (lanesOf g c) xs = .ok os

/-- The values, with tags, that a lane reads from a list of ready sources (R34). -/
abbrev valsAt (g : Group) (os : List Opnd) (l : Nat) : List (Nat × Tag) := os.map (Opnd.at g l)
/-- The value of the i-th source in a lane. -/
abbrev srcVal (g : Group) (os : List Opnd) (l i : Nat) : Nat := nth ((valsAt g os l).map Prod.fst) i
/-- The flag that reading the sources raises: PWOOB of a window word beyond its bound (R165). -/
def srcFl (os : List Opnd) : FlagSet := os.foldl (fun f o => f ||| o.fl) flNone

/-! ## Exact values -/

/-- The value of a finite number (R35, R36). -/
def ratOf : XR → Rat | .fin s n d => if s then -((n : Rat) / (d : Rat)) else (n : Rat) / (d : Rat) | _ => 0
/-- A finite number, a quotient whose divisor is not 0. -/
def IsFin (x : XR) : Prop := ∃ s n d, x = .fin s n d ∧ d ≠ 0
/-- 2 to an integer power. -/
def pow2 (k : Int) : Rat := if 0 ≤ k then 2 ^ k.toNat else 1 / 2 ^ (-k).toNat
/-- `r` is one rounding of the exact value `z` under the environment (R41): its bits, the tag that `tag` gives of the rounded value, and its
flags with those of the exact operation. -/
def RoundOf (e : REnv) (f : Fmt) (k : Nat) (r : FRes) (z : XR) (fl : FlagSet) (tag : Rounded → Nat) : Prop :=
  let y := roundTo f e.m false e.ftzo none (e.rnd k) z
  r = ⟨y.bits, tag y, fl ||| y.fl⟩
/-- A finite number with this value; where the value is 0, the sign is `neg` (R89). -/
def Value (z : XR) (v : Rat) (neg : Bool) : Prop := IsFin z ∧ ratOf z = v ∧ (v = 0 → z.neg = neg)

/-! ## Shapes (R11 to R13) -/

/-- The shape that a destination takes: the shape `sh` of Table 1.3 where the write set covers every live lane of a group that runs no ejected lane, else
general (R13). -/
def ShapeTaken (g : Group) (c : Ctl) (sh taken : Shape) : Prop :=
  (g.sleeve = none ∧ (∀ l, Lane.mem g.live l → Lane.mem (lanesOf g c) l) → taken = sh) ∧
  ((g.sleeve.isSome = true ∨ ∃ l, Lane.mem g.live l ∧ ¬ Lane.mem (lanesOf g c) l) → taken = .general)

/-! ## Words of memory that a word reads at issue -/

/-- What a lane of a word with this slot uses as its scale (R96): operand b, or the FP32 value at its aligned address, on a readable page and
without an uncorrectable error. -/
def ScaleIs (s : State) (g : Group) (f : List Addr) (b : Nat) (x : XR) : Prop :=
  if fsAscl f = 0 then x = fdec .f32 b
  else
    let va := fsBase f 1 + 4 * (bits b 16 16 * fsApitch f + bits b 0 16)
    ∃ p, s.translate g.part va needR false = .ok p ∧ va % 4 = 0 ∧ s.badAt p.key 4 = false ∧ x = fdec .f32 (memNum s.mem p.key 4)

/-- Whether a word offset lies inside the bound of a window of the group's node (R165). -/
def InWindow (s : State) (g : Group) (n off : Nat) : Prop := 4 * off + 4 ≤ ((s.nodeOf g).lrec.win.getD n (0, 0)).2
/-- The word of a bound window at a word offset, with its tag (R165): that of memory, on a readable page and without an uncorrectable error, or, beyond the
bound, 0 with tag 0. -/
def WindowWord (s : State) (g : Group) (n off : Nat) (x : Word × Tag) : Prop :=
  let win := (s.nodeOf g).lrec.win.getD n (0, 0)
  win.2 ≠ 0 ∧
  (InWindow s g n off → ∃ p, s.translate g.part (win.1 + 4 * off) needR false = .ok p ∧ s.badAt p.key 4 = false ∧
    x = (BitVec.ofNat 32 (memNum s.mem p.key 4), s.tagAt p (win.1 + 4 * off))) ∧
  (¬ InWindow s g n off → x = (0, 0))

/-- No two lanes of a mask stand at one position (R129). -/
def OnePlace (g : Group) (w : Mask) : Prop :=
  ∀ l m, Lane.mem w l → Lane.mem w m → (g.lane l).pos = (g.lane m).pos → l = m

/-- `x` is what the lane at position `q` supplies of a source: its value and tag, or +0 with tag 0 where no active lane stands (R129). -/
def Supplied (g : Group) (o : Opnd) (q : Nat) (x : Nat × Tag) : Prop :=
  (∀ l, Lane.mem g.active l → (g.lane l).pos = q → x = o.at g l) ∧ ((∀ l, Lane.mem g.active l → (g.lane l).pos ≠ q) → x = (0, 0))

/-- The lanes of a mask in one segment of positions, `at' = true` for the positions up to that of `l` only (R130, R135). -/
def Segment (g : Group) (w : Mask) (n l : Nat) (upTo : Nat → Bool) : List Nat :=
  (maskBits w).filter fun m => (g.lane m).pos / n == (g.lane l).pos / n && upTo (g.lane m).pos

/-- A lane that goes to its destination when the clause of its group ends: active and live on a path, not a helper (R119). -/
def Moves (g : Group) (l : Nat) : Prop :=
  l < g.lanes.length ∧ g.active.getLsbD l = true ∧ g.live.getLsbD l = true ∧ g.helper.getLsbD l = false ∧ (g.lane l).state = .onPath

/-- A group that is no merge host and does not return from a trap, so that the end of its clause is that of R119 alone. -/
structure Plain (g : Group) : Prop where
  host : ∀ d m k, g.merge ≠ .host d m k
  ret : g.retPending = none

/-- `t` is `s` after a control word of `g` has ended its clause, with the word's own changes `h`: every lane that moves goes to its
destination, registers, predicates, MODE and STATUS are those of `h`, and memory and every other group (but for the REP count that an ejected context
shares with its home group) are as before (R119, R125). -/
structure Went (s t : State) (g h : Group) (dest : Nat → Addr) : Prop where
  group : ∃ g1, t.group? g.uid = some g1 ∧ g1.clause = none ∧ g1.v = h.v ∧ g1.p = h.p ∧ g1.mode = h.mode ∧ g1.status = h.status ∧
    g1.live = h.live ∧ g1.merge = h.merge ∧ g1.sleeve = h.sleeve ∧ (∀ l, Moves h l → (g1.lane l).next = dest l ∧ (g1.lane l).resume = none ∧ (g1.lane l).state = .onPath) ∧
    ∀ l, h.helper.getLsbD l = false → (h.lane l).state ≠ .onPath → (∀ a k m, (h.lane l).state ≠ .held a k m) → g1.lane l = h.lane l
  others : ∀ u, u ≠ g.uid → (∀ x, g.sleeve = some x → u ≠ x.homeUid) → t.group? u = s.group? u
  mem : t.mem = s.mem
  wgs : t.wgs = s.wgs
  launches : t.launches = s.launches
  accs : t.accs = s.accs

/-- A group to which a trap can be delivered here and now: it is not merged, in no handler, has a live lane, and its partition gives the cause a
handler at `h` (R319, R320). -/
structure Trappable (s : State) (g : Group) (cause : Nat) (h : Addr) : Prop where
  group : s.group? g.uid = some g
  merge : g.merge = .none
  frame : g.frame = none
  live : g.live ≠ 0
  handler : (s.part g.part).thand.getD (cause - 1) 0 = h
  some_handler : h ≠ 0

/-- `t` is `s` after the trap with record `r` has been delivered to `g`: the trap frame holds the record, the active mask, the clause with its place, and where every lane
was; every live lane that is not ejected is active on one path at the handler `h`; the registers, predicates, expected masks, MODE and STATUS of the group, memory and
every other group are as before (R319, R320). -/
structure Delivered (s t : State) (g : Group) (r : TrapRecord) (kind : ReturnKind) (h : Addr) : Prop where
  group : ∃ g1 f, t.group? g.uid = some g1 ∧ g1.frame = some f ∧ f.tr = r ∧ f.kind = kind ∧ f.active = g.active ∧ f.clause = g.clause ∧
    f.lanes = g.lanes.map (fun l => (l.state, l.next, l.resume)) ∧ g1.clause = none ∧ g1.phase = .waiting ∧
    g1.v = g.v ∧ g1.p = g.p ∧ g1.k = g.k ∧ g1.mode = g.mode ∧ g1.status = g.status ∧ g1.live = g.live ∧
    ∀ l, l < g.lanes.length → l < 32 → g.live.getLsbD l = true → g.helper.getLsbD l = false → (g.lane l).state ≠ .ejected →
      g1.active.getLsbD l = true ∧ (g1.lane l).state = .onPath ∧ (g1.lane l).next = h ∧ (g1.lane l).resume = none
  others : ∀ u, u ≠ g.uid → t.group? u = s.group? u
  mem : t.mem = s.mem

/-- The word starts one access of `g` and the group goes on at the next word: the access has this operation and destination, counts on the completion flag that
the header names for `f`, and holds the request of every acting lane in ascending position, none of them performed; of the group only the completion flags, the bypass window and the
reuse latch can differ, and nothing else of the state does before the next word (R199, R200). -/
def Starts (i : Instr) (s : State) (g : Group) (c : Ctl) (f : Bool) (op : AccOp) (dst : AccDst) (req : Nat → Nat × List (Word × Tag) × List (Word × Tag)) : Prop :=
  ∃ (a : Access) (h : Group), exec i s = .next ({ s with accs := s.accs ++ [a], uidNext := s.uidNext + 1 }.nextWord h) ∧
    h = { g with cf := (g.cfInc (hdrFlag g.cl.hdr f)).cf, window := h.window, latch := h.latch } ∧
    a.id = s.uidNext ∧ a.uid = g.uid ∧ a.wg = g.wg ∧ a.op = op ∧ a.dst = dst ∧ a.cf = hdrFlag g.cl.hdr f ∧ a.pc = g.pc ∧ a.mode = g.mode ∧
    a.lanes.map LaneReq.slot = g.byPos (lanesOf g c) ∧
    ∀ q, q ∈ a.lanes → q.done = false ∧ q.fault = none ∧ q.tid = (g.lane q.slot).tid ∧ (q.addr, q.data, q.data2) = req q.slot

/-- The word completes at once and changes nothing of its group but bypass window and reuse latch; `s1` is the state with the word's other effects. -/
def Passes (i : Instr) (s s1 : State) (g : Group) : Prop :=
  ∃ h : Group, exec i s = .next (s1.nextWord h) ∧ h = { g with window := h.window, latch := h.latch }

/-- The word cannot complete yet: the group waits at it with this gate and leaves its issue port, and all else of the groups and memory is as before (R145, R199). -/
def Waits (i : Instr) (s : State) (g : Group) (gt : Gate) : Prop :=
  ∃ t, exec i s = .next t ∧ t.group? g.uid = some { g with gate := gt, phase := if g.phase == .issuing then .waiting else g.phase } ∧
    (t.core g.core).port ≠ some g.uid ∧ t.mem = s.mem ∧ ∀ u, u ≠ g.uid → t.group? u = s.group? u

/-! ## Synchronisation objects (R186) -/

/-- An acquire of lane `l` at scope `sc` is inclusive with the release that the object records, if it records one: both threads lie in one instance of the smaller of the two scopes (R186, Tables 7.7, 7.8). -/
def Inclusive (s : State) (g : Group) (l sc : Nat) (o : SyncObj) : Prop :=
  o.chk0 < 2 ^ 63 ∨
    let m := min (o.chk0 / 2 ^ 60 % 8) sc
    (m ≤ 3 → o.chk0 / 2 ^ 48 % 2 ^ 8 = s.accel g.part) ∧ (m ≤ 2 → o.chk0 % 2 ^ 32 = g.launch % 2 ^ 32) ∧
    (m = 0 → o.chk2 % 2 ^ 32 = (s.homeOf g l).gseq % 2 ^ 32) ∧ (m = 1 → o.chk1 % 2 ^ 32 = (s.wg g.wg).wgid % 2 ^ 32) ∧
    (m = 2 → o.chk1 / 2 ^ 32 % 2 ^ 32 = ((s.wg g.wg).wgid - (s.wg g.wg).wgrank) % 2 ^ 32)

/-- Every L1 line of the core is one of before and none overlaps these bytes of the partition. -/
def L1Without (s t : State) (core part va len : Nat) : Prop :=
  ∀ x ∈ (t.core core).l1, x ∈ (s.core core).l1 ∧ (x.part = part → x.va + 128 ≤ va ∨ va + len ≤ x.va)

/-! ## Matrix blocks (R237, R238, Tables 9.3, 9.4) -/

/-- A descriptor of a used layout: reserved bits zero, 1 to 224 registers a group, and every register below NG (Table 9.4, R238). -/
structure DescOk (s : State) (g : Group) (d : Word) (x : Lay) : Prop where
  reserved : bits d.toNat 29 3 = 0 ∧ bits d.toNat 8 8 = 0
  rpg : 1 ≤ x.rpg ∧ x.rpg ≤ 224 ∧ x.v ≤ 223
  regs : x.regs ≠ 0 → x.v + min x.rpg x.regs ≤ (s.wgNode (s.wg g.wg)).decl.ng
  groups : ∀ i ∈ x.groups, ∃ h, s.gidGroup? g.wg i = some h ∧ h.phase ≠ .retired

/-- A multiple of 16 from 16 to `top`. -/
def Size (v top : Nat) : Prop := 16 ≤ v ∧ v ≤ top ∧ v % 16 = 0

/-- The block `blk` at scratchpad offset `off`, with its bitmaps `ba` and `bb`, can be read and breaks no rule of Tables 9.3 and 9.4 for an instruction that uses of it what `u` says, with format slot word `fs` and start value
`start` (R238); the groups `uids` hold its layouts, and neither they nor the issuing group hold an ejected lane. -/
structure BlockOk (s : State) (g : Group) (u : BlkUse) (fs : Addr) (off start : Nat) (blk : List Word) (ba bb : List Byte) (uids : List Nat) : Prop where
  aligned : off % 64 = 0
  marks : s.ras.marks = []
  read : ∃ pl, s.localPlace (s.wg g.wg) off 64 = some pl ∧ blk = toWords 12 (ofBytes (s.readPlace pl 64).1)
  bitmap : ∀ (used : Bool) (n : Nat) (bm : List Byte), (used, n, bm) = (u.a && u.sparse, 8, ba) ∨ (used, n, bm) = (u.b && u.sparse, 9, bb) →
    (used = false → bm = []) ∧ (used = true → let o := (blk.getD n 0).toNat
      o % 4 = 0 ∧ ∃ pl, s.localPlace (s.wg g.wg) o ((min (blkK blk) 4096 + 7) / 8) = some pl ∧ bm = (s.readPlace pl ((min (blkK blk) 4096 + 7) / 8)).1)
  sizes : Size (blkM blk) 128 ∧ Size (blkN blk) 128
  k : (u.a || u.b) = true → Size (blkK blk) 4096 ∧ ((∃ c, (c = bits fs.toNat 0 4 ∨ c = bits fs.toNat 4 4) ∧ (c = 7 ∨ c = 8)) → blkK blk % 32 = 0)
  ctl : u.pass = true → bits (blk.getD 7 0).toNat 2 30 = 0 ∧ start ≤ blkK blk ∧ (start % 128 = 0 ∨ start = blkK blk)
  zero : u.zero = false → blk.getD 10 0 = 0 ∧ blk.getD 11 0 = 0
  descA : u.a = true → DescOk s g (blk.getD 4 0) (layA blk fs (packed (u.a && u.sparse) ba (blkK blk)))
  descB : u.b = true → DescOk s g (blk.getD 5 0) (layB blk fs (packed (u.b && u.sparse) bb (blkK blk)))
  descC : u.c = true → DescOk s g (blk.getD 6 0) (layC blk) ∧ (layC blk).groups.length ≤ 16
  named : uids = ((if u.a then (layA blk fs (packed (u.a && u.sparse) ba (blkK blk))).groups else []) ++ (if u.b then (layB blk fs (packed (u.b && u.sparse) bb (blkK blk))).groups else []) ++
    (if u.c then (layC blk).groups else [])).filterMap fun i => (s.gidGroup? g.wg i).map Group.uid
  here : ∀ v ∈ g.uid :: uids, (s.group v).merge = .none ∧ (s.group v).ejectNext = none ∧ ∀ h ∈ s.groups, ∀ x, h.sleeve = some x → x.homeUid ≠ v

/-! ## Slots of a P-form word (R71, R72, Table 3.8) -/

/-- The type of a slot's sources. -/
def slotTy : POp → OTy
  | .fadd | .fsub | .fmul | .fmin | .fmax | .fabs | .fneg => .flt .f32
  | .fadd2h | .fmul2h => .pair .f16
  | .fadd2b | .fmul2b => .pair .bf16
  | .iadd | .isub | .imul | .iminS | .imaxS | .iabs | .ineg => .int 32 true
  | _ => .int 32 false
/-- The random words that a slot draws in each lane under RSR (R42). -/
def slotDraws (g : Group) : PSlot → Nat
  | .nop => 0
  | .op o _ _ _ _ => if modeRnd g.mode = 6 then (match o with | .fadd | .fsub | .fmul => 1 | .fadd2h | .fmul2h | .fadd2b | .fmul2b => 2 | _ => 0) else 0
/-- What a slot operation gives of DST `x` and SB `y`: value and tag, and flags (R72, R86, R89, R90, R93). -/
def slotRes (v : REnv) (g : Group) (o : POp) (x y : Nat × Tag) : (Nat × Tag) × FlagSet :=
  let a := x.1
  let b := y.1
  let full := fun (n : Nat) => ((n, FULL), flNone)
  let num := toSigned 32
  let of := fun (r : FRes) => ((r.bits, r.tag), r.fl)
  let f := fun i => rdF g .f32 [x, y] i
  let hf := fun (t : Fmt) i hi => rdHalf g t [x, y] i hi
  match o with
  | .mov => (y, flNone)
  | .iadd => full ((a + b) % 2 ^ 32)
  | .isub => full ((a + 2 ^ 32 - b) % 2 ^ 32)
  | .imul => full (a * b % 2 ^ 32)
  | .iminS => full (if num b < num a then b else a)
  | .imaxS => full (if num a < num b then b else a)
  | .iminN => full (min a b)
  | .imaxN => full (max a b)
  | .iabs => full (ofSigned 32 (num b).natAbs)
  | .ineg => full (ofSigned 32 (-num b))
  | .and => full (a &&& b)
  | .or => full (a ||| b)
  | .xor => full (a ^^^ b)
  | .not => full (2 ^ 32 - 1 - b)
  | .andn => full (a &&& (2 ^ 32 - 1 - b))
  | .shl => full (if 32 ≤ b % 256 then 0 else a * 2 ^ (b % 256) % 2 ^ 32)
  | .shr => full (if 32 ≤ b % 256 then 0 else a / 2 ^ (b % 256))
  | .sar => full (ofSigned 32 (num a / (2 ^ min (b % 256) 32 : Nat)))
  | .rot => full ((a * 2 ^ (b % 256 % 32) + a / 2 ^ (32 - b % 256 % 32)) % 2 ^ 32)
  | .popc => full (popcVal b 32)
  | .clz => full (if b == 0 then 32 else 31 - b.log2)
  | .ctz => full (ctzVal b 0 32)
  | .brev => full (brevVal 32 b 32)
  | .fadd => of (fAdd v .f32 0 false (f 0) (f 1))
  | .fsub => of (fAdd v .f32 0 true (f 0) (f 1))
  | .fmul => of (fMul v .f32 0 (f 0) (f 1))
  | .fmin => of (minMaxRes g .f32 false (f 0) (f 1))
  | .fmax => of (minMaxRes g .f32 true (f 0) (f 1))
  | .fabs => of (fAbsNeg .f32 (modeFtzo g.mode) false (f 1))
  | .fneg => of (fAbsNeg .f32 (modeFtzo g.mode) true (f 1))
  | .fadd2h => of (joinHalves (fAdd v .f16 0 false (hf .f16 0 false) (hf .f16 1 false)) (fAdd v .f16 1 false (hf .f16 0 true) (hf .f16 1 true)))
  | .fmul2h => of (joinHalves (fMul v .f16 0 (hf .f16 0 false) (hf .f16 1 false)) (fMul v .f16 1 (hf .f16 0 true) (hf .f16 1 true)))
  | .fadd2b => of (joinHalves (fAdd v .bf16 0 false (hf .bf16 0 false) (hf .bf16 1 false)) (fAdd v .bf16 1 false (hf .bf16 0 true) (hf .bf16 1 true)))
  | .fmul2b => of (joinHalves (fMul v .bf16 0 (hf .bf16 0 false) (hf .bf16 1 false)) (fMul v .bf16 1 (hf .bf16 0 true) (hf .bf16 1 true)))
/-- A slot that writes a register of general capacity, or nothing. -/
def SlotFits (g : Group) (x : PSlot) : Prop := ∀ o gp gn d b, x = .op o gp gn d b → d.val < g.decl.ng
/-- What a slot gives in a lane, `off` random words having been drawn before; `d` is its register. -/
def SlotGives (s : State) (g : Group) (x : PSlot) (off : Nat) (l : Nat) (d : Nat) (r : (Nat × Tag) × FlagSet) : Prop :=
  ∃ o gp gn e b y, x = .op o gp gn e b ∧ d = e.val ∧ s.operand g (slotMask g x) (PSrc.src b) (slotTy o) = .ok y ∧
    r = slotRes (s.renv g (modeRnd g.mode) off l) g o ((g.read e.val l).1.toNat, (g.read e.val l).2) (y.at g l)

/-! ## The collectives of a workgroup (R136, R137) -/

/-- A group of the workgroup of `g` that has not retired. -/
def Mate (s : State) (g h : Group) : Prop := h ∈ s.groups ∧ h.wg = g.wg ∧ h.sleeve = none ∧ h.phase ≠ .retired

/-- The collective at which `g` stands can complete, and moves the threads of the groups `ms`, in the order of their GIDs (R136): every group of the workgroup shares
the identity of R15, has its completion flags clear and no register write pending, and has its live lanes on one path at the word, where it waits; no matrix operation of the
workgroup is posted. -/
structure Gathered (s : State) (g : Group) (ms : List Group) : Prop where
  ids : (s.groups.map Group.uid).Nodup
  self : Mate s g g
  ready : ∀ h, Mate s g h → Formed h ∧ h.p.length = 64 ∧ h.decl = g.decl ∧ h.merge = .none ∧ h.retPending = none ∧
    (∀ r, g.decl.ng ≤ r → h.reg r = g.reg r) ∧ h.mode = g.mode ∧ h.repc = g.repc ∧ h.reps = g.reps ∧ (∀ x ∈ h.cf, x = 0) ∧
    (h.live ≠ 0 → (h.uid = g.uid ∨ h.gate = .regroup) ∧ h.clause.isSome = true ∧ h.pc = g.pc ∧ ∀ l, Lane.mem h.live l → (h.lane l).state = .onPath)
  writes : ∀ h, Mate s g h → (∀ a ∈ s.accs, a.uid = h.uid → a.dst = .none) ∧ ∀ q ∈ s.sliceqs, q.uid ≠ h.uid
  mops : ∀ m ∈ s.mops, m.wg ≠ g.wg
  members : ∀ h, h ∈ ms ↔ Mate s g h ∧ (h.live ≠ 0 ∨ (s.wg g.wg).regrouped = true)
  order : ms.Pairwise fun a b => a.gid < b.gid
  tids : ∀ a b l m, a ∈ ms → b ∈ ms → Lane.mem a.live l → Lane.mem b.live m → (a.lane l).tid < 2 ^ 32 ∧ ((a.lane l).tid = (b.lane m).tid → a = b ∧ l = m)

/-- `t` holds, in slot `q` of the group of `d`, the thread of slot `l` of `h`, whose record is now `x` but for the place where it goes on: every register of general capacity and every predicate
has come with it (R136, R137). -/
def Placed (t : State) (d : Group) (q : Nat) (h : Group) (l : Nat) (x : Lane) : Prop :=
  ∃ d1, t.group? d.uid = some d1 ∧ Lane.mem d1.live q ∧ (∃ a b st, d1.lane q = { x with next := a, resume := b, state := st }) ∧
    (∀ r, r < h.decl.ng → d1.stored r q = h.stored r l) ∧ ∀ p, p < 64 → (d1.p.getD p 0).getLsbD q = (h.p.getD p 0).getLsbD l

/-- What the move of threads leaves of a group of the collective: its registers of narrower capacity, MODE and REPS stay, its STATUS is that of all the groups together, and its expected masks are 0 (R136, R137). -/
structure Rearranged (g d d1 : Group) (ms : List Group) : Prop where
  narrow : ∀ r, g.decl.ng ≤ r → d1.reg r = g.reg r
  mode : d1.mode = g.mode
  reps : d1.reps = g.reps
  status : d1.status = ms.foldl (fun x h => x ||| h.status) 0
  k : ∀ i, d1.k.getD i 0 = 0
  fixed : d1.gid = d.gid ∧ d1.gseq = d.gseq ∧ d1.launched = d.launched ∧ d1.cf = d.cf ∧ d1.frame = d.frame

end Sys2Proof.Safety
end

