-- ==== Sys2Proof/Certificates/Slice0/Obligations.lean ====
section
/-! DEFINITION. The statements for the provers. -/
open Sys2Proof Sys2Proof.Machine Sys2Proof.Safety

/-! ## Integer, logic and move words (R85, R86) -/

/-- R86, R12, R17: IADD and ISUB give the sum and the difference at the width of their type, clamped to its range with `.sat`; IMUL
the low bits of the product and IMULHI the high half of the exact product; IMAD the low bits of product plus addend; IMIN and IMAX
the smaller and the larger source. Results carry FULL; nothing else of the group changes. R86: IABS and INEG of a signed type, clamped with `.sat`; IMADW adds the product of two extended 32-bit factors to a pair; ADDR
adds a shifted, extended index to a 64-bit base. -/
def Obligations.IntegerResults : Prop :=
  (∀ (s : State) (g : Group) (c : Ctl) (t : IntTy) (d : VReg) (a b e : Src) (os : List Opnd),
    Writes s g c d.val t.regs →
    (Sources s g c [(a, t.o), (b, t.o)] os →
      let x := fun l => srcVal g os l 0
      let y := fun l => srcVal g os l 1
      let done := fun (i : Instr) (f : Nat → Nat) =>
        Completes i s g c d.val t.regs (whole fun l => (f l, FULL)) (fun _ => srcFl os) 0
      (∀ sat, done (.iadd c sat t d a b) fun l =>
        ofSigned t.w (if sat then t.clamp (t.num (x l) + t.num (y l)) else t.num (x l) + t.num (y l))) ∧
      (∀ sat, done (.isub c sat t d a b) fun l =>
        ofSigned t.w (if sat then t.clamp (t.num (x l) - t.num (y l)) else t.num (x l) - t.num (y l))) ∧
      done (.imul c t d a b) (fun l => x l * y l % 2 ^ t.w) ∧
      done (.imulhi c t d a b) (fun l => ofSigned t.w (t.num (x l) * t.num (y l) / (2 ^ t.w : Nat))) ∧
      done (.imin c t d a b) (fun l => if t.num (y l) < t.num (x l) then y l else x l) ∧
      done (.imax c t d a b) (fun l => if t.num (x l) < t.num (y l) then y l else x l)) ∧
    (Sources s g c [(a, t.o), (b, t.o), (e, t.o)] os →
      Completes (.imad c t d a b e) s g c d.val t.regs
        (whole fun l => ((srcVal g os l 0 * srcVal g os l 1 + srcVal g os l 2) % 2 ^ t.w, FULL)) (fun _ => srcFl os) 0)) ∧
  (∀ (s : State) (g : Group) (c : Ctl) (d : VReg) (a b e : Src) (os : List Opnd) (sg : Bool),
    (∀ (sat w64 : Bool), let t := sTy w64
      Writes s g c d.val t.regs → Sources s g c [(b, t.o)] os →
      let done := fun (i : Instr) (f : Nat → Int) =>
        Completes i s g c d.val t.regs (whole fun l => (ofSigned t.w (if sat then t.clamp (f l) else f l), FULL)) (fun _ => srcFl os) 0
      done (.iabs c sat w64 d b) (fun l => (t.num (srcVal g os l 0)).natAbs) ∧
      done (.ineg c sat w64 d b) (fun l => -t.num (srcVal g os l 0))) ∧
    (Writes s g c d.val 2 →
      let ext := fun v => if sg then sext 32 64 v else v
      (Sources s g c [(a, .int 32 sg), (b, .int 32 sg), (e, .int 64 sg)] os →
        Completes (.imadw c sg d a b e) s g c d.val 2 (whole fun l =>
          ((ext (srcVal g os l 0) * ext (srcVal g os l 1) + srcVal g os l 2) % 2 ^ 64, FULL)) (fun _ => srcFl os) 0) ∧
      (∀ sh : Fin 8, Sources s g c [(a, .int 64 sg), (b, .int 32 sg)] os →
        Completes (.addr c sg d a b sh) s g c d.val 2 (whole fun l =>
          ((srcVal g os l 0 + ext (srcVal g os l 1) * 2 ^ sh.val) % 2 ^ 64, FULL)) (fun _ => srcFl os) 0)))

/-- R86: the shifts take their count from bits [7:0] of the second source; a count of the width or more gives 0, or the sign in every
bit for SAR, and ROT turns by the count modulo the width. BFE takes a field, extended by its sign for a signed type; BFI puts a field
into a word. R86: the bitwise operations, NOT, SEL, the bit counts (the width for a zero source of CLZ and CTZ), BREV and PERMB. The bit counts
write one register whatever their type. -/
def Obligations.BitAndFieldResults : Prop :=
  (∀ (s : State) (g : Group) (c : Ctl) (d : VReg) (a b e : Src) (os : List Opnd),
    (∀ t : BitTy, Writes s g c d.val t.regs → Sources s g c [(a, t.o), (b, .int 32 false)] os →
      let x := fun l => srcVal g os l 0
      let n := fun l => srcVal g os l 1 % 256
      let done := fun (i : Instr) (f : Nat → Nat) => Completes i s g c d.val t.regs (whole fun l => (f l, FULL)) (fun _ => srcFl os) 0
      done (.shl c t d a b) (fun l => if t.w ≤ n l then 0 else x l * 2 ^ n l % 2 ^ t.w) ∧
      done (.shr c t d a b) (fun l => if t.w ≤ n l then 0 else x l / 2 ^ n l) ∧
      done (.sar c t d a b) (fun l => ofSigned t.w (toSigned t.w (x l) / (2 ^ min (n l) t.w : Nat))) ∧
      done (.rot c t d a b) (fun l => (x l * 2 ^ (n l % t.w) + x l / 2 ^ (t.w - n l % t.w)) % 2 ^ t.w)) ∧
    (∀ t : IntTy, Writes s g c d.val t.regs → Sources s g c [(a, t.o), (b, .int 32 t.sg)] os →
      Completes (.bfe c t d a b) s g c d.val t.regs (whole fun l =>
        let pos := bits (srcVal g os l 1) 0 8
        let len := min (bits (srcVal g os l 1) 8 8) t.w
        let f := bits (ofSigned 320 (t.num (srcVal g os l 0))) pos len
        (if len == 0 then 0 else if t.sg then sext len t.w f else f, FULL)) (fun _ => srcFl os) 0) ∧
    (∀ t : BitTy, Writes s g c d.val t.regs → Sources s g c [(a, t.o), (b, t.o), (e, .int 32 false)] os →
      Completes (.bfi c t d a b e) s g c d.val t.regs (whole fun l =>
        let f := srcVal g os l 0
        let v := srcVal g os l 1
        let pos := bits (srcVal g os l 2) 0 8
        let stop := min (pos + min (bits (srcVal g os l 2) 8 8) t.w) t.w
        (if t.w ≤ pos then v else v % 2 ^ pos + f % 2 ^ (stop - pos) * 2 ^ pos + v / 2 ^ stop * 2 ^ stop, FULL)) (fun _ => srcFl os) 0)) ∧
  (∀ (s : State) (g : Group) (c : Ctl) (t : BitTy) (d : VReg) (a b e : Src) (p : Pred) (os : List Opnd),
    (Writes s g c d.val t.regs → Sources s g c [(a, t.o), (b, t.o)] os →
      let x := fun l => srcVal g os l 0
      let y := fun l => srcVal g os l 1
      let done := fun (i : Instr) (f : Nat → Nat) => Completes i s g c d.val t.regs (whole fun l => (f l, FULL)) (fun _ => srcFl os) 0
      done (.and c t d a b) (fun l => x l &&& y l) ∧ done (.or c t d a b) (fun l => x l ||| y l) ∧
      done (.xor c t d a b) (fun l => x l ^^^ y l) ∧ done (.andn c t d a b) (fun l => x l &&& (2 ^ t.w - 1 - y l)) ∧
      done (.sel c t d a b p) (fun l => if g.pred p.val l then x l else y l)) ∧
    (Sources s g c [(b, t.o)] os →
      let x := fun l => srcVal g os l 0
      (Writes s g c d.val t.regs →
        Completes (.not c t d b) s g c d.val t.regs (whole fun l => (2 ^ t.w - 1 - x l, FULL)) (fun _ => srcFl os) 0 ∧
        Completes (.brev c t d b) s g c d.val t.regs (whole fun l => (brevVal t.w (x l) t.w, FULL)) (fun _ => srcFl os) 0) ∧
      (Writes s g c d.val 1 →
        let done := fun (i : Instr) (f : Nat → Nat) => Completes i s g c d.val 1 (whole fun l => (f l, FULL)) (fun _ => srcFl os) 0
        done (.popc c t d b) (fun l => popcVal (x l) t.w) ∧
        done (.clz c t d b) (fun l => if x l == 0 then t.w else t.w - 1 - (x l).log2) ∧
        done (.ctz c t d b) (fun l => ctzVal (x l) 0 t.w))) ∧
    (Writes s g c d.val 1 → Sources s g c [(a, .int 32 false), (b, .int 32 false), (e, .int 32 false)] os →
      Completes (.permb c d a b e) s g c d.val 1
        (whole fun l => (permbVal (srcVal g os l 0) (srcVal g os l 1) (srcVal g os l 2), FULL)) (fun _ => srcFl os) 0))

/-- R86, R17: MOV carries value and tag; MOVI writes its 16 bits, zero-extended, sign-extended, or as the high half, and `.h` keeps
the low half of the register it writes. R87, R91, R105: the comparisons and the predicate operations write their condition in the lanes they act in; a write to P63 is
discarded (R18). -/
def Obligations.MoveAndPredicateResults : Prop :=
  (∀ (s : State) (g : Group) (c : Ctl) (d : VReg),
    (∀ (t : BitTy) (b : Src) (o : Opnd), Writes s g c d.val t.regs → s.operand g (lanesOf g c) b t.o = .ok o →
      Completes (.mov c t d b) s g c d.val t.regs (whole fun l => o.at g l) (fun _ => o.fl) 0) ∧
    (∀ v : BitVec 16, Writes s g c d.val 1 →
      let done := fun (i : Instr) (f : Nat → Nat) => Completes i s g c d.val 1 (whole fun l => (f l, FULL)) (fun _ => flNone) 0
      done (.movi c .b32 d v) (fun _ => v.toNat) ∧ done (.movi c .s32 d v) (fun _ => sext 16 32 v.toNat) ∧
      done (.movi c .f32 d v) (fun _ => v.toNat * 2 ^ 16) ∧
      done (.movi c .h d v) (fun l => v.toNat * 2 ^ 16 + (g.read d.val l).1.toNat % 2 ^ 16))) ∧
  (∀ (s : State) (g : Group) (c : Ctl) (p : Pred) (os : List Opnd), Issues s g → g.lanes.length = 32 → lanesOf g c ≠ 0 →
    (∀ (cc : Cc) (t : CmpTy) (a b : Src), Sources s g c [(a, t.o), (b, t.o)] os →
      let n := fun (v : Nat) => match t with | .int .s32 => toSigned 32 v | .int .s64 => toSigned 64 v | _ => (v : Int)
      CompletesPred (.cmp c cc t p a b) s g c p.val (fun l =>
        let x := srcVal g os l 0
        let y := srcVal g os l 1
        match cc with
        | .eq => decide (x = y) | .ne => decide (x ≠ y) | .lt => decide (n x < n y) | .le => decide (n x ≤ n y) | .gt => decide (n y < n x) | .ge => decide (n y ≤ n x)
        | .c6 => decide (x &&& y ≠ 0) | .c7 => decide (x &&& y = 0)) (fun _ => srcFl os)) ∧
    CompletesPred (.pmov c p 63) s g c p.val (fun _ => true) (fun _ => flNone) ∧
    (∀ (na nb : Bool) (x y : Pred),
      let u := fun l => g.pred x.val l != na
      let v := fun l => g.pred y.val l != nb
      CompletesPred (.pand c na nb p x y) s g c p.val (fun l => u l && v l) (fun _ => flNone) ∧
      CompletesPred (.por c na nb p x y) s g c p.val (fun l => u l || v l) (fun _ => flNone) ∧
      CompletesPred (.pxor c na nb p x y) s g c p.val (fun l => u l != v l) (fun _ => flNone) ∧
      CompletesPred (.pnot c p x) s g c p.val (fun l => !g.pred x.val l) (fun _ => flNone) ∧
      CompletesPred (.pmov c p x) s g c p.val (fun l => g.pred x.val l) (fun _ => flNone)) ∧
    (∀ (cc : Cc) (t : FltTy) (a b : Src), Sources s g c [(a, t.o), (b, t.o)] os →
      let x := fun l => (rdF g t.fmt (valsAt g os l) 0).v
      let y := fun l => (rdF g t.fmt (valsAt g os l) 1).v
      CompletesPred (.fcmp c cc t p a b) s g c p.val (fun l => fcmpVal cc (x l) (y l)) (fun l => sigNV [x l, y l] ||| srcFl os)) ∧
    (∀ (t : Fmt) (a b : Src), Sources s g c [(a, .flt t), (b, .int 32 false)] os →
      CompletesPred (.fclass c t p a b) s g c p.val
        (fun l => (srcVal g os l 1).testBit (classOf t (fdec t (srcVal g os l 0)))) (fun _ => srcFl os)))

/-! ## Floating-point words (R88 to R103) -/

/-- R88, R89, R92, R100, R42: with SIGLOSS not enabled, FADD, FSUB, FMUL, FDIV, FFMA, FSCALE and FSQRT write, in every lane, the
rounded value of R36 to R38 with the tag of R52 to R54 and raise its flags; under RSR the word draws one random word per lane, else none. FRND
needs a rounding mode below 6 and draws none. R41, R55, R89, R92, R100: these values are one rounding of the exact sum, difference, product, quotient, sum of product and addend, product by
a power of two, and of a value that rounds as the square root does, with the tags of R55 (beyond ±4,000 every exponent overflows or underflows alike); a NaN operand and an invalid operation give the canonical NaN, a division of a nonzero number by zero an infinity with DZ. -/
def Obligations.FloatArithmeticResults : Prop :=
  (∀ (s : State) (g : Group) (c : Ctl) (rm : Rm) (t : FltTy) (d : VReg) (a b e : Src) (os : List Opnd),
    Writes s g c d.val t.regs → g.sigte = false →
    let m := rmMode g rm
    let x := fun l i => rdF g t.fmt (valsAt g os l) i
    let done := fun (i : Instr) (k : Nat) (f : REnv → Nat → FRes) =>
      Completes i s g c d.val t.regs (whole fun l => ((f (s.renv g m 0 l) l).bits, (f (s.renv g m 0 l) l).tag))
        (fun l => (f (s.renv g m 0 l) l).fl ||| srcFl os) (if m = 6 then k else 0)
    (Sources s g c [(a, t.o), (b, t.o)] os →
      done (.fadd c rm t d a b) 1 (fun v l => fAdd v t.fmt 0 false (x l 0) (x l 1)) ∧
      done (.fsub c rm t d a b) 1 (fun v l => fAdd v t.fmt 0 true (x l 0) (x l 1)) ∧
      done (.fmul c rm t d a b) 1 (fun v l => fMul v t.fmt 0 (x l 0) (x l 1)) ∧
      done (.fdiv c rm t d a b) 1 (fun v l => fDiv v t.fmt 0 (x l 0) (x l 1))) ∧
    (Sources s g c [(a, t.o), (b, t.o), (e, t.o)] os →
      done (.ffma c rm t d a b e) 1 (fun v l => fFma v t.fmt 0 (x l 0) (x l 1) (x l 2))) ∧
    (Sources s g c [(b, t.o)] os →
      done (.fsqrt c rm t d b) 1 (fun v l => fSqrt v t.fmt 0 (x l 0)) ∧
      (m < 6 → done (.frnd c rm t d b) 0 (fun v l => fRnd v t.fmt (x l 0)))) ∧
    (Sources s g c [(a, t.o), (b, .int 32 true)] os →
      done (.fscale c rm t d a b) 1 (fun v l => fScale v t.fmt 0 (x l 0) (toSigned 32 (srcVal g os l 1))))) ∧
  ∀ (e : REnv) (f : Fmt) (k : Nat) (a b c : FOp),
    let rd := decide (e.m = 4)
    let A := ratOf a.v
    let B := ratOf b.v
    let C := ratOf c.v
    let nan := fun (r : FRes) (fl : FlagSet) => r = ⟨qnanBits f, 0, fl⟩
    let like := fun (u v : Bool) => if u = v then u else rd
    (IsFin a.v → IsFin b.v →
      (∃ z, Value z (A + B) (like a.v.neg b.v.neg) ∧ RoundOf e f k (fAdd e f k false a b) z flNone fun y => tagSum f [(a.v, a.t), (b.v, b.t)] y.val y.sat) ∧
      (∃ z, Value z (A - B) (like a.v.neg (!b.v.neg)) ∧ RoundOf e f k (fAdd e f k true a b) z flNone fun y => tagSum f [(a.v, a.t), (b.v.negate, b.t)] y.val y.sat) ∧
      (∃ z, Value z (A * B) (a.v.neg != b.v.neg) ∧ RoundOf e f k (fMul e f k a b) z flNone fun y => tagMul f a.t b.t y.val a.v b.v y.sat) ∧
      (B ≠ 0 → ∃ z, Value z (A / B) (a.v.neg != b.v.neg) ∧ RoundOf e f k (fDiv e f k a b) z flNone fun y => tagMul f a.t b.t y.val a.v b.v y.sat) ∧
      (B = 0 → A ≠ 0 → RoundOf e f k (fDiv e f k a b) (.inf (a.v.neg != b.v.neg)) flDZ fun _ => 0) ∧
      (B = 0 → A = 0 → nan (fDiv e f k a b) flNV) ∧
      (IsFin c.v → ∃ p z, Value p (A * B) (a.v.neg != b.v.neg) ∧ Value z (A * B + C) (like (a.v.neg != b.v.neg) c.v.neg) ∧
        RoundOf e f k (fFma e f k a b c) z flNone fun y => tagSum f [(p, min a.t b.t), (c.v, c.t)] y.val y.sat)) ∧
    (a.v.isNan = true ∨ b.v.isNan = true →
      nan (fAdd e f k false a b) (sigNV [a.v, b.v]) ∧ nan (fAdd e f k true a b) (sigNV [a.v, b.v]) ∧ nan (fMul e f k a b) (sigNV [a.v, b.v]) ∧ nan (fDiv e f k a b) (sigNV [a.v, b.v])) ∧
    (∀ u, a.v = .inf u →
      (b.v = .inf (!u) → nan (fAdd e f k false a b) flNV) ∧ (b.v = .inf u → nan (fAdd e f k true a b) flNV) ∧ (b.v.isInf = true → nan (fDiv e f k a b) flNV) ∧
      (b.v.isZero = true → nan (fMul e f k a b) flNV ∧ nan (fMul e f k b a) flNV)) ∧
    (IsFin a.v → ∀ n : Int, ∃ z, Value z (A * pow2 (max (-4000) (min 4000 n))) a.v.neg ∧
      RoundOf e f k (fScale e f k a n) z flNone fun y => tagMul f a.t (fmtP f) y.val a.v (.fin false 1 1) y.sat) ∧
    (IsFin a.v →
      (a.v.isZero = true → fSqrt e f k a = ⟨fenc f a.v, tagSqrt f a.t a.v, flNone⟩) ∧ (A < 0 → nan (fSqrt e f k a) flNV) ∧
      (0 < A → ∃ (z : XR) (r n : Nat), 2 ^ (fmtP f + 40) ≤ r ∧ RoundOf e f k (fSqrt e f k a) z flNone (fun y => tagSqrt f a.t y.val) ∧
        (((r : Rat) ^ 2 = A * 4 ^ n ∧ Value z ((r : Rat) / 2 ^ n) false) ∨
          ((r : Rat) ^ 2 < A * 4 ^ n ∧ A * 4 ^ n < ((r : Rat) + 1) ^ 2 ∧ Value z ((2 * (r : Rat) + 1) / 2 ^ (n + 1)) false))))

/-- R90, R93: FMIN, FMAX, FABS and FNEG carry the tag of the operand they select and never lose significance; the packed forms do so in each
half, with the smaller tag of the two. Which of two equal operands FMIN and FMAX take is a free value (log entry 14). R93, R42: the packed arithmetic works on the halves on their own, the low half taking the first random word under RSR and the high half
the second; FDOT2 adds two exact products to an FP32 value and rounds once.R90: of two numbers FMIN takes the smaller and FMAX the larger, −0 lying below +0,
of a number and a NaN the number, and two NaN give the canonical NaN with tag 0; the selected value is flushed under MODE.FTZO. R93, R54: FDOT2 rounds the exact sum of both products and the addend. -/
def Obligations.FloatSelectAndPackedResults : Prop :=
  (∀ (s : State) (g : Group) (c : Ctl) (d : VReg) (a b : Src) (os : List Opnd),
    let done := fun (i : Instr) (n : Nat) (r : Nat → FRes) =>
      Completes i s g c d.val n (whole fun l => ((r l).bits, (r l).tag)) (fun l => (r l).fl ||| srcFl os) 0
    (∀ t : FltTy, Writes s g c d.val t.regs →
      let x := fun l i => rdF g t.fmt (valsAt g os l) i
      (Sources s g c [(a, t.o), (b, t.o)] os →
        done (.fmin c t d a b) t.regs (fun l => minMaxRes g t.fmt false (x l 0) (x l 1)) ∧
        done (.fmax c t d a b) t.regs (fun l => minMaxRes g t.fmt true (x l 0) (x l 1))) ∧
      (Sources s g c [(b, t.o)] os →
        done (.fabs c t d b) t.regs (fun l => fAbsNeg t.fmt (modeFtzo g.mode) false (x l 0)) ∧
        done (.fneg c t d b) t.regs (fun l => fAbsNeg t.fmt (modeFtzo g.mode) true (x l 0)))) ∧
    (∀ t : HlfTy, Writes s g c d.val 1 → Sources s g c [(a, .pair t), (b, .pair t)] os →
      let h := fun mx l hi => minMaxRes g t.fmt mx (rdHalf g t.fmt (valsAt g os l) 0 hi) (rdHalf g t.fmt (valsAt g os l) 1 hi)
      done (.fmin2 c t d a b) 1 (fun l => joinHalves (h false l false) (h false l true)) ∧
      done (.fmax2 c t d a b) 1 (fun l => joinHalves (h true l false) (h true l true)))) ∧
  (∀ (s : State) (g : Group) (c : Ctl) (rm : Rm) (t : HlfTy) (d : VReg) (a b e : Src) (os : List Opnd),
    Writes s g c d.val 1 → g.sigte = false →
    let m := rmMode g rm
    let x := fun l i hi => rdHalf g t.fmt (valsAt g os l) i hi
    let done := fun (i : Instr) (k : Nat) (f : REnv → Nat → FRes) =>
      Completes i s g c d.val 1 (whole fun l => ((f (s.renv g m 0 l) l).bits, (f (s.renv g m 0 l) l).tag))
        (fun l => (f (s.renv g m 0 l) l).fl ||| srcFl os) (if m = 6 then k else 0)
    (Sources s g c [(a, .pair t), (b, .pair t)] os →
      done (.fadd2 c rm t d a b) 2 (fun v l => joinHalves (fAdd v t.fmt 0 false (x l 0 false) (x l 1 false))
        (fAdd v t.fmt 1 false (x l 0 true) (x l 1 true))) ∧
      done (.fmul2 c rm t d a b) 2 (fun v l => joinHalves (fMul v t.fmt 0 (x l 0 false) (x l 1 false))
        (fMul v t.fmt 1 (x l 0 true) (x l 1 true)))) ∧
    (Sources s g c [(a, .pair t), (b, .pair t), (e, .pair t)] os →
      done (.ffma2 c rm t d a b e) 2 (fun v l => joinHalves (fFma v t.fmt 0 (x l 0 false) (x l 1 false) (x l 2 false))
        (fFma v t.fmt 1 (x l 0 true) (x l 1 true) (x l 2 true)))) ∧
    (Sources s g c [(a, .pair t), (b, .pair t), (e, .flt .f32)] os →
      done (.fdot2 c rm t d a b e) 1 (fun v l =>
        fDot2 v (x l 0 false) (x l 0 true) (x l 1 false) (x l 1 true) (rdF g .f32 (valsAt g os l) 2)))) ∧
  (∀ (g : Group) (f : Fmt) (x y : FOp),
    let sel := fun (v : FOp) => let w := flushOut f (modeFtzo g.mode) v.v; (⟨fenc f w.1, v.t, sigNV [x.v, y.v] ||| w.2⟩ : FRes)
    let small := fun (u v : FOp) => ∀ mx, minMaxRes g f mx x y = sel (if mx then v else u)
    (x.v.isNan = true → y.v.isNan = true → ∀ mx, minMaxRes g f mx x y = ⟨qnanBits f, 0, sigNV [x.v, y.v]⟩) ∧
    (x.v.isNan = true → y.v.isNan = false → ∀ mx, minMaxRes g f mx x y = sel y) ∧ (x.v.isNan = false → y.v.isNan = true → ∀ mx, minMaxRes g f mx x y = sel x) ∧
    (∀ n, x.v = .inf n → IsFin y.v → if n = true then small x y else small y x) ∧ (∀ n, y.v = .inf n → IsFin x.v → if n = true then small y x else small x y) ∧
    (x.v = .inf true → y.v = .inf false → small x y) ∧ (x.v = .inf false → y.v = .inf true → small y x) ∧
    (IsFin x.v → IsFin y.v → (ratOf x.v < ratOf y.v → small x y) ∧ (ratOf y.v < ratOf x.v → small y x) ∧
      (ratOf x.v = ratOf y.v → (x.v.neg = true → y.v.neg = false → small x y) ∧ (x.v.neg = false → y.v.neg = true → small y x) ∧
        ∀ mx, minMaxRes g f mx x y = sel x ∨ minMaxRes g f mx x y = sel y))) ∧
  ∀ (v : REnv) (al ah bl bh c : FOp), IsFin al.v → IsFin ah.v → IsFin bl.v → IsFin bh.v → IsFin c.v →
    ∃ z n p q, Value z (ratOf al.v * ratOf bl.v + ratOf ah.v * ratOf bh.v + ratOf c.v) n ∧ Value p (ratOf al.v * ratOf bl.v) (al.v.neg != bl.v.neg) ∧
      Value q (ratOf ah.v * ratOf bh.v) (ah.v.neg != bh.v.neg) ∧
      RoundOf v .f32 0 (fDot2 v al ah bl bh c) z flNone fun y => tagSum .f32 [(p, min al.t bl.t), (q, min ah.t bh.t), (c.v, c.t)] y.val y.sat

/-- R94, R95: FCVT rounds to the destination format, FCVTI to an integer of the destination type, with a rounding mode below 7, and ICVTF
converts a FULL integer. R96 to R99: with the scale of every lane in operand b, or in the word of memory that it names, CVTQ packs the quantised elements of consecutive registers into one word and CVTDQ
unpacks a word into as many FP32 registers; SCALEMAX gives the scale of a largest magnitude: 1 for 0, the canonical NaN for a NaN or an infinity, else the magnitude divided by the largest of the format, rounded up to FP32 or to
a power of two, and kept from 2^−126 to 2^127. An element of CVTQ is the quotient by the scale rounded once, one of CVTDQ the product with the scale rounded once; a scale that is not positive, normal and finite raises NV. All write their registers, flags and draws and nothing else. -/
def Obligations.ConversionAndQuantisedResults : Prop :=
  (∀ (s : State) (g : Group) (c : Ctl) (rm : Rm) (sat : Bool) (d : VReg) (b : Src) (os : List Opnd), g.sigte = false →
    let m := rmMode g rm
    let k := if m = 6 then 1 else 0
    (∀ td ts : Fmt, Writes s g c d.val td.regs → Sources s g c [(b, .flt ts)] os →
      let x := fun l => rdF g ts (valsAt g os l) 0
      let y := fun l => roundTo td m sat (modeFtzo g.mode) none ((s.renv g m 0 l).rnd 0) (x l).v
      Completes (.fcvt c rm sat td ts d b) s g c d.val td.regs
        (whole fun l => ((y l).bits, tagCvt td (x l).t (x l).v (y l).val (y l).sat))
        (fun l => sigNV [(x l).v] ||| (y l).fl ||| srcFl os) k) ∧
    (∀ (td : CvtInt) (ts : Fmt), m < 7 → Writes s g c d.val td.regs → Sources s g c [(b, .flt ts)] os →
      let y := fun l => fcvtiVal td m (s.srWord g l 0) (rdF g ts (valsAt g os l) 0).v
      Completes (.fcvti c rm td ts d b) s g c d.val td.regs
        (whole fun l => (ofSigned (max 32 td.w) (y l).1, FULL)) (fun l => (y l).2 ||| srcFl os) k) ∧
    (∀ (td : Fmt) (ts : CvtInt), Writes s g c d.val td.regs → Sources s g c [(b, .int (max 32 ts.w) ts.sg)] os →
      let x := fun l => intXR (if ts.sg then toSigned ts.w (srcVal g os l 0 % 2 ^ ts.w) else srcVal g os l 0 % 2 ^ ts.w)
      let y := fun l => roundTo td m sat (modeFtzo g.mode) none ((s.renv g m 0 l).rnd 0) (x l)
      Completes (.icvtf c rm sat td ts d b) s g c d.val td.regs
        (whole fun l => ((y l).bits, tagCvt td (fmtP td) (x l) (y l).val (y l).sat)) (fun l => (y l).fl ||| srcFl os) k)) ∧
  (∀ (s : State) (g : Group) (c : Ctl) (rm : Rm) (fs : Fin 8) (d r : VReg) (a b : Src), g.sigte = false →
    let f := s.fslot g fs.val
    let n := cvtCount (fsA f)
    let m := rmMode g rm
    let k := if m = 6 then n else 0
    let so : OTy := if fsAscl f = 0 then .flt .f32 else .int 32 false
    let pa : OTy := if fsA f = 2 then .pair .f16 else if fsA f = 3 then .pair .bf16 else .int 32 false
    (∀ (ob : Opnd) (sc : Nat → XR), s.operand g (lanesOf g c) b so = .ok ob → (∀ l, Lane.mem (lanesOf g c) l → ScaleIs s g f (ob.at g l).1 (sc l)) →
      (Writes s g c d.val 1 →
        let elt := fun l i => let v := g.read (r.val + i) l
          cvtqElt (s.renv g m 0 l) (fsA f) f i (sc l) (readFl .f32 (modeFtzi g.mode) v.1.toNat v.2)
        Completes (.cvtq c rm fs d r b) s g c d.val 1
          (whole fun l => ((upFrom 0 n).foldl (fun v i => v + (elt l i).1 * 2 ^ (cvtBits (fsA f) * i)) 0, (upFrom 0 n).foldl (fun t i => min t (elt l i).2.1) FULL))
          (fun l => (upFrom 0 n).foldl (fun x i => x ||| (elt l i).2.2) flNone ||| ob.fl) k) ∧
      (∀ oa : Opnd, s.operand g (lanesOf g c) a pa = .ok oa → Writes s g c d.val n →
        let elt := fun l i => let v := oa.at g l
          cvtdqElt (s.renv g m 0 l) (fsA f) f i (sc l) (bits v.1 (cvtBits (fsA f) * i) (cvtBits (fsA f))) v.2
        Completes (.cvtdq c rm fs d a b) s g c d.val n (fun l i => part ((elt l i).val, (elt l i).tag) 0)
          (fun l => (upFrom 0 n).foldl (fun x i => x ||| (elt l i).fl) (oa.fl ||| ob.fl)) k)) ∧
    (∀ (p2 : Bool) (os : List Opnd), Writes s g c d.val 1 → Sources s g c [(b, .flt .f32)] os →
      let x := fun l => rdF g .f32 (valsAt g os l) 0
      let bad := fun l => (x l).v.isNan || (x l).v.isInf
      ∃ v : Nat → Nat, Completes (.scalemax c p2 fs d b) s g c d.val 1 (whole fun l => (v l, if bad l then 0 else min (x l).t 24))
          (fun l => (if bad l then flNV else flNone) ||| srcFl os) 0 ∧
        ∀ l, Lane.mem (lanesOf g c) l →
          (bad l = true → v l = qnanBits .f32) ∧ ((x l).v.isZero = true → v l = 0x3F800000) ∧
          (IsFin (x l).v → ratOf (x l).v ≠ 0 → 2 ≤ fsA f → fsA f ≤ 6 →
            let M : Rat := match fsA f with | 2 => 65504 | 3 => 255 * 2 ^ 120 | 4 => 448 | 5 => 57344 | _ => 7
            let q := ratOf (x l).v.abs / M
            (p2 = true → ∃ j : Int, -126 ≤ j ∧ j ≤ 127 ∧ v l = (j + 127).toNat * 2 ^ 23 ∧ (q ≤ pow2 j ∨ j = 127) ∧ (pow2 (j - 1) < q ∨ j = -126)) ∧
            (p2 = false → ∃ z, Value z q false ∧
              let y := roundTo .f32 3 false false none 0 z
              v l = if ratOf y.val < pow2 (-126) then 0x00800000 else if pow2 127 < ratOf y.val then 0x7F000000 else y.bits)))) ∧
  (∀ (e : REnv) (a : Nat) (f : List Addr) (k : Nat) (sc : XR) (x : FOp) (code tw : Nat),
    (∀ h, eltFmt a = some h →
      let w := flushIn h (fsFtz f) (some sc.mag) (fdec h code)
      (classOf .f32 sc = 8 → IsFin sc →
        (IsFin x.v → ∃ z, Value z (ratOf x.v / ratOf sc) x.v.neg ∧
          let y := roundTo h e.m (fsSat f) (fsFtz f) (some sc.mag) (e.rnd k) z
          cvtqElt e a f k sc x = (y.bits, tagCvt h x.t z y.val y.sat, y.fl)) ∧
        (IsFin w → ∃ z, Value z (ratOf w * ratOf sc) w.neg ∧
          let y := roundTo .f32 e.m false e.ftzo none (e.rnd k) z
          let r := cvtdqElt e a f k sc code tw
          r.val = y.bits ∧ r.tag = tagMul .f32 (tagIn tw (fmtP h)) 24 y.val w sc y.sat ∧ r.fl = y.fl)) ∧
      (classOf .f32 sc ≠ 8 → cvtqElt e a f k sc x = (qnanBits h, 0, flNV) ∧
        (cvtdqElt e a f k sc code tw).val = qnanBits .f32 ∧ (cvtdqElt e a f k sc code tw).tag = 0 ∧ (cvtdqElt e a f k sc code tw).fl = flNV)) ∧
    (eltFmt a = none →
      (classOf .f32 sc ≠ 8 → cvtqElt e a f k sc x = (0, FULL, flNV)) ∧
      (classOf .f32 sc = 8 → IsFin sc → IsFin x.v → (∀ i, e.rnd i < 2 ^ 32) → ∃ z : Int, ((z : Rat) - ratOf x.v / ratOf sc < 1 ∧ ratOf x.v / ratOf sc - (z : Rat) < 1) ∧
        (e.m = 1 → (z : Rat) - ratOf x.v / ratOf sc ≤ 1 / 2 ∧ ratOf x.v / ratOf sc - (z : Rat) ≤ 1 / 2) ∧
        cvtqElt e a f k sc x = if z < -8 then (8, FULL, flOF ||| flNX) else if 7 < z then (7, FULL, flOF ||| flNX) else (ofSigned 4 z, FULL, flNone)) ∧
      (classOf .f32 sc = 8 → IsFin sc → ∃ z, Value z ((toSigned 4 code : Int) * ratOf sc) (toSigned 4 code < 0) ∧
        let y := roundTo .f32 e.m false e.ftzo none (e.rnd k) z
        (cvtdqElt e a f k sc code tw).val = y.bits ∧ (cvtdqElt e a f k sc code tw).fl = y.fl)))

/-- R100 to R103: the special functions round the kernel's exact value once under RNE, with the tag of tagFn() at trust 23, whatever the rounding field
of the mode; they draw nothing. -/
def Obligations.SpecialFunctionResults : Prop :=
  ∀ (s : State) (g : Group) (c : Ctl) (d : VReg) (b : Src) (os : List Opnd), Writes s g c d.val 1 → g.sigte = false →
    Sources s g c [(b, .flt .f32)] os →
    let done := fun (i : Instr) (f : XR → XR × FlagSet) =>
      let x := fun l => rdF g .f32 (valsAt g os l) 0
      let y := fun l => roundTo .f32 1 false (modeFtzo g.mode) none 0 (f (x l).v).1
      Completes i s g c d.val 1 (whole fun l => ((y l).bits, tagFn .f32 (x l).t 23 (y l).val))
        (fun l => sigNV [(x l).v] ||| (f (x l).v).2 ||| (y l).fl ||| srcFl os) 0
    done (.frcp c d b) sfuRcp ∧ done (.frsq c d b) sfuRsq ∧ done (.fexp2 c d b) sfuExp2 ∧ done (.flog2 c d b) sfuLog2 ∧
    done (.fsin c d b) (sfuSinCos false) ∧ done (.fcos c d b) (sfuSinCos true) ∧ done (.ftanh c d b) sfuTanh

/-! ## Significance, MODE, random numbers, tree walk and top-k lists (R104 to R114) -/

/-- R104, R105: SIGGET gives the tag as a FULL number; SIGSET and SIGMIN give a value the tag of the second source, where a number above 53 means
FULL, or the smaller of that and its own; SIGCMP compares a tag with a number, with SIGTHR (6) or with FULL (7). No value changes. -/
def Obligations.SignificanceResults : Prop :=
  ∀ (s : State) (g : Group) (c : Ctl) (d : VReg) (a b : Src) (os : List Opnd),
    let tg := fun l i => ((valsAt g os l).getD i (0, 0)).2
    let code := fun l => if srcVal g os l 1 ≤ 53 then srcVal g os l 1 else 63
    (∀ t : SigTy, Writes s g c d.val 1 → Sources s g c [(b, t.o)] os →
      Completes (.sigget c t d b) s g c d.val 1 (whole fun l => (t.readTag (tg l 0), FULL)) (fun _ => srcFl os) 0) ∧
    (∀ t : BitTy, Writes s g c d.val t.regs → Sources s g c [(a, t.o), (b, .int 32 false)] os →
      Completes (.sigset c t d a b) s g c d.val t.regs (whole fun l => (srcVal g os l 0, code l)) (fun _ => srcFl os) 0 ∧
      Completes (.sigmin c t d a b) s g c d.val t.regs (whole fun l => (srcVal g os l 0, min (tg l 0) (code l))) (fun _ => srcFl os) 0) ∧
    (∀ (cc : Cc) (t : SigTy) (p : Pred), Issues s g → g.lanes.length = 32 → lanesOf g c ≠ 0 →
      Sources s g c (if cc = .c6 ∨ cc = .c7 then [(a, t.o)] else [(a, t.o), (b, .int 32 false)]) os →
      CompletesPred (.sigcmp c cc t p a b) s g c p.val (fun l =>
        let x := t.readTag (tg l 0)
        let y := srcVal g os l 1
        match cc with
        | .eq => x == y | .ne => x != y | .lt => x < y | .le => x ≤ y | .gt => y < x | .ge => y ≤ x
        | .c6 => x < modeSigthr g.mode | .c7 => tg l 0 == 63) (fun _ => srcFl os))

/-- R106, R84: MODERD gives MODE, or the STATUS of the lane's home group. R107: MODEWR, which first ends a merge and cannot run in an ejected
lane, sets the bits of the mask in MODE or in STATUS when every lane gives one value and one mask and no reserved value results. An ejected context has one lane (R157). R108, R109: PHILOX writes the four words of Philox4x32-10 of the counter in four registers and the key in two; PHILOXF makes of them four FP32 or two
FP64 values m·2^−p, with m the high 24 or 53 bits, so that every one lies at or above 0 and below 1. -/
def Obligations.ModeAndRandomResults : Prop :=
  (∀ (s : State) (g : Group) (c : Ctl) (d : VReg) (a b : Src),
    (Writes s g c d.val 1 →
      Completes (.moderd c d false) s g c d.val 1 (whole fun _ => (g.mode.toNat, FULL)) (fun _ => flNone) 0 ∧
      ((g.sleeve = none ∨ (maskBits (lanesOf g c)).length = 1) → Completes (.moderd c d true) s g c d.val 1 (whole fun l => ((s.statusOf g l).toNat, FULL)) (fun _ => flNone) 0)) ∧
    (Issues s g → g.sleeve = none →
      let s1 := s.dissolve g.uid
      let h := s1.group g.uid
      ∀ (os : List Opnd) (x m : Word), lanesOf h c ≠ 0 → Sources s1 h c [(a, .int 32 false), (b, .int 32 false)] os →
        (∀ l, Lane.mem (lanesOf h c) l → (valsAt h os l).map Prod.fst = [x.toNat, m.toNat]) →
        (modeReserved ((h.mode &&& ~~~m) ||| (x &&& m)) = false →
          ∃ h', exec (.modewr c false a b) s = .next (s1.nextWord h') ∧ h'.mode = (h.mode &&& ~~~m) ||| (x &&& m) ∧ h'.v = h.v ∧ h'.p = h.p) ∧
        (((h.status &&& ~~~m) ||| (x &&& m)) >>> 7 = 0 → srcFl os = flNone →
          ∃ h', exec (.modewr c true a b) s = .next (s1.nextWord h') ∧ h'.status = (h.status &&& ~~~m) ||| (x &&& m) ∧ h'.v = h.v ∧ h'.p = h.p))) ∧
  (∀ (s : State) (g : Group) (c : Ctl) (d a b : VReg), Writes s g c d.val 4 →
    let r := fun l k => (g.read k l).1.toNat
    let o := fun l => philox (r l a.val) (r l (a.val + 1)) (r l (a.val + 2)) (r l (a.val + 3)) (r l b.val) (r l (b.val + 1))
    Completes (.philox c d a b) s g c d.val 4 (fun l i => (BitVec.ofNat 32 (nth (o l) i), FULL)) (fun _ => flNone) 0 ∧
    (g.sigte = false →
      Completes (.philoxf c .f32 d a b) s g c d.val 4 (fun l i =>
        let x : XR := .fin false (nth (o l) i / 2 ^ 8) (2 ^ 24)
        (BitVec.ofNat 32 (fenc .f32 x), tagCvt .f32 24 x x false)) (fun _ => flNone) 0 ∧
      Completes (.philoxf c .f64 d a b) s g c d.val 4 (fun l i =>
        let x : XR := .fin false ((nth (o l) (i / 2 * 2) * 2 ^ 32 + nth (o l) (i / 2 * 2 + 1)) / 2 ^ 11) (2 ^ 53)
        (BitVec.ofNat 32 (fenc .f64 x / 2 ^ (32 * (i % 2))), tagCvt .f64 53 x x false)) (fun _ => flNone) 0))

/-- R110 to R112, R165: TWALK through a bound window reads, in every lane, node i of the tree as the words 2·i (threshold) and 2·i+1 (control) from its offset, goes to 2·i+2 when the feature register that the control word names, flushed under MODE.FTZI, is
not below the threshold, or, for a NaN, when bit 5 of the control word says so (a register beyond the declaration reads as a NaN), else to 2·i+1, and after its levels gives the number of the leaf, or the word of the leaf with its
tag; a word beyond the bound raises PWOOB. R113, R114: TOPKINS puts a scored entry into the list of k entries in its registers before the first entry it is better than, drops the last, and leaves the list
alone for a NaN score; TOPKMRG merges two lists and keeps the best k. An entry that moves carries FULL on its index; one that stays keeps its registers. -/
def Obligations.TreeAndTopListResults : Prop :=
  (∀ (s : State) (g : Group) (c : Ctl) (idx : Bool) (n dep : Fin 8) (d : VReg) (a : Src) (b : VReg) (oa : Opnd) (node : Nat → Nat → Nat) (tw cw : Nat → Nat → Word × Tag) (leaf : Nat → Word × Tag),
    Writes s g c d.val 1 → ((s.nodeOf g).lrec.win.getD n.val (0, 0)).2 ≠ 0 → s.operand g (lanesOf g c) a (.int 32 false) = .ok oa → s.ras.marks = [] →
    let D := dep.val + 1
    let at' := fun l i => ((oa.at g l).1 + i) % 2 ^ 32
    let feature := fun l k => b.val + (cw l k).1.toNat % 32
    let thr := fun l k => flushIn .f32 (modeFtzi g.mode) none (fdec .f32 (tw l k).1.toNat)
    let x := fun l k => if g.decl.total ≤ feature l k then XR.nan false else flushIn .f32 (modeFtzi g.mode) none (fdec .f32 (g.read (feature l k) l).1.toNat)
    let right := fun l k => if (x l k).isNan then (cw l k).1.toNat.testBit 5 else !xlt (x l k) (thr l k)
    let number := fun l => node l D - (2 ^ D - 1)
    let inside := fun l => (∀ k, k < D → InWindow s g n.val (at' l (2 * node l k)) ∧ InWindow s g n.val (at' l (2 * node l k + 1))) ∧
      (idx = false → InWindow s g n.val (at' l (2 * (2 ^ D - 1) + number l)))
    (∀ l, Lane.mem (lanesOf g c) l → node l 0 = 0 ∧
      (∀ k, k < D → WindowWord s g n.val (at' l (2 * node l k)) (tw l k) ∧ WindowWord s g n.val (at' l (2 * node l k + 1)) (cw l k) ∧
        g.beyondBound (feature l k) = false ∧ node l (k + 1) = 2 * node l k + 1 + (right l k).toNat) ∧
      (idx = false → WindowWord s g n.val (at' l (2 * (2 ^ D - 1) + number l)) (leaf l))) →
    ∃ fl : Nat → FlagSet, (∀ l, Lane.mem (lanesOf g c) l → (inside l → fl l = flNone) ∧ (¬ inside l → fl l = flPWOOB)) ∧
      Completes (.twalk c idx n dep d a b) s g c d.val 1
        (fun l _ => if idx then (BitVec.ofNat 32 (number l), FULL) else leaf l) (fun l => fl l ||| oa.fl) 0) ∧
  (∀ (s : State) (g : Group) (c : Ctl) (asc : Bool) (k : Fin 8) (d a : VReg) (x y : Src) (os : List Opnd),
    let n := k.val + 1
    Writes s g c d.val (2 * n) →
    let done := fun (i : Instr) (f : Nat → List TopEntry) (fl : FlagSet) =>
      Completes i s g c d.val (2 * n) (fun l j => if j < n then ((f l).getD j default).1 else ((f l).getD (j - n) default).2) (fun _ => fl) 0
    (Sources s g c [(x, .flt .f32), (y, .int 32 false)] os →
      done (.topkins c asc k d x y) (fun l =>
        let e : TopEntry := ((BitVec.ofNat 32 (srcVal g os l 0), ((valsAt g os l).getD 0 (0, 0)).2), (BitVec.ofNat 32 (srcVal g os l 1), FULL))
        let L := topList g l d.val n
        let p := L.findIdx (topBetter asc e)
        if (fdec .f32 e.1.1.toNat).isNan then L
        else (upFrom 0 n).map fun j => if j < p then L.getD j default else if j = p then e else ((L.getD (j - 1) default).1, ((L.getD (j - 1) default).2.1, FULL))) (srcFl os)) ∧
    done (.topkmrg c asc k d a) (fun l => if a = d then topList g l d.val n else
      ((topList g l d.val n ++ topList g l a.val n).foldl (fun acc e => topInsert asc (e.1, (e.2.1, FULL)) acc) []).take n) flNone)

/-- R11 to R13, Table 1.3: the shape of a result. MOV copies its source's shape; MOVG, SEL, a shuffle and a per-lane RDSPEC give a general register; a word of uniform sources that does not depend on the lane gives a uniform one; wrapping 32-bit IADD and ISUB of affine and uniform
sources, IMUL of an affine by a uniform one and SHL of an affine one by a uniform amount give an affine one; HLANE is affine; every other result is general. A write set that leaves out a live lane, or an ejected lane, makes the register general and keeps the stored words of the other lanes. Where the capacity of the destination holds the shape, the word completes with the
results in registers of that shape; where it is narrower, the word takes ILLEGAL "shape capacity" with the register and writes nothing. -/
def Obligations.ResultShapes : Prop :=
  ∀ (s : State) (g : Group) (c : Ctl) (d : VReg) (a b e : Src) (os : List Opnd), Issues s g → Formed g → lanesOf g c ≠ 0 → g.merge = .none → c.tr = false →
    let gives := fun (i : Instr) (n : Nat) (sh : Shape) (res : Nat → Nat → Word × Tag) => ∀ taken, ShapeTaken g c sh taken → d.val + n ≤ g.decl.total →
      ((∀ k, k < n → taken.rank ≤ (g.decl.capacity (d.val + k)).rank) →
        ∃ g', exec i s = .next (s.nextWord g') ∧ Wrote g g' false (lanesOf g c) d.val n res ∧ ∀ k, k < n → (g'.reg (d.val + k)).shape = taken) ∧
      (∀ k h, k < n → (g.decl.capacity (d.val + k)).rank < taken.rank → (∀ j, j < k → taken.rank ≤ (g.decl.capacity (d.val + j)).rank) → g.sleeve = none → Trappable s g cILLEGAL h →
        ∃ t, exec i s = .next t ∧
          Delivered s t { g with window := [], latch := [] } (g.record (trapOf cILLEGAL 0x10 g.active (BitVec.ofNat 32 (d.val + k))) false false g.pc) .precise h)
    let uni := ∀ o, o ∈ os → o.shape g = .uniform
    let linear := ∀ o, o ∈ os → o.shape g ≠ .general
    let x := fun l => srcVal g os l 0
    let y := fun l => srcVal g os l 1
    let plain := fun (i : Instr) (n : Nat) (f : Nat → Nat) => (uni → gives i n .uniform (whole fun l => (f l, FULL))) ∧ (¬ uni → gives i n .general (whole fun l => (f l, FULL)))
    (∀ t : IntTy, Sources s g c [(a, t.o), (b, t.o)] os →
      let sum := fun l => ofSigned t.w (t.num (x l) + t.num (y l))
      let dif := fun l => ofSigned t.w (t.num (x l) - t.num (y l))
      let prod := fun l => x l * y l % 2 ^ t.w
      (t.w = 32 → (uni → gives (.iadd c false t d a b) 1 .uniform (whole fun l => (sum l, FULL)) ∧ gives (.isub c false t d a b) 1 .uniform (whole fun l => (dif l, FULL)) ∧
            gives (.imul c t d a b) 1 .uniform (whole fun l => (prod l, FULL))) ∧
          (¬ uni → linear → gives (.iadd c false t d a b) 1 .affine (whole fun l => (sum l, FULL)) ∧ gives (.isub c false t d a b) 1 .affine (whole fun l => (dif l, FULL)) ∧
            ((∃ o, o ∈ os ∧ o.shape g = .uniform) → gives (.imul c t d a b) 1 .affine (whole fun l => (prod l, FULL))) ∧
            ((∀ o, o ∈ os → o.shape g ≠ .uniform) → gives (.imul c t d a b) 1 .general (whole fun l => (prod l, FULL)))) ∧
          (¬ linear → gives (.iadd c false t d a b) 1 .general (whole fun l => (sum l, FULL)) ∧ gives (.isub c false t d a b) 1 .general (whole fun l => (dif l, FULL)) ∧
            gives (.imul c t d a b) 1 .general (whole fun l => (prod l, FULL)))) ∧
      (t.w = 64 → plain (.iadd c false t d a b) 2 sum ∧ plain (.isub c false t d a b) 2 dif ∧ plain (.imul c t d a b) 2 prod) ∧
      plain (.iadd c true t d a b) t.regs (fun l => ofSigned t.w (t.clamp (t.num (x l) + t.num (y l))))) ∧
    (∀ oa ob, os = [oa, ob] → Sources s g c [(a, .int 32 false), (b, .int 32 false)] os →
      let res := whole fun l => (if 32 ≤ y l % 256 then 0 else x l * 2 ^ (y l % 256) % 2 ^ 32, FULL)
      (uni → gives (.shl c .b32 d a b) 1 .uniform res) ∧ (oa.shape g = .affine → ob.shape g = .uniform → gives (.shl c .b32 d a b) 1 .affine res) ∧
      (oa.shape g = .general ∨ ob.shape g ≠ .uniform → gives (.shl c .b32 d a b) 1 .general res)) ∧
    (∀ (t : BitTy) (o : Opnd), os = [o] → Sources s g c [(b, t.o)] os →
      (t = .b32 → gives (.mov c t d b) 1 (o.shape g) (whole fun l => o.at g l)) ∧
      (t = .b64 → (uni → gives (.mov c t d b) 2 .uniform (whole fun l => o.at g l)) ∧ (¬ uni → gives (.mov c t d b) 2 .general (whole fun l => o.at g l))) ∧
      gives (.movg c t d b) t.regs .general (whole fun l => o.at g l)) ∧
    (∀ (t : BitTy) (p : Pred), Sources s g c [(a, t.o), (b, t.o)] os →
      plain (.and c t d a b) t.regs (fun l => x l &&& y l) ∧ gives (.sel c t d a b p) t.regs .general (whole fun l => (if g.pred p.val l then x l else y l, FULL))) ∧
    (∀ t : IntTy, Sources s g c [(a, t.o), (b, t.o), (e, t.o)] os → plain (.imad c t d a b e) t.regs (fun l => (x l * y l + srcVal g os l 2) % 2 ^ t.w)) ∧
    (∀ (t : FltTy) (rm : Rm), Sources s g c [(a, t.o), (b, t.o)] os → g.sigte = false →
      let r := fun l => fAdd (s.renv g (rmMode g rm) 0 l) t.fmt 0 false (rdF g t.fmt (valsAt g os l) 0) (rdF g t.fmt (valsAt g os l) 1)
      (uni → rmMode g rm ≠ 6 → gives (.fadd c rm t d a b) t.regs .uniform (whole fun l => ((r l).bits, (r l).tag))) ∧
      (¬ uni ∨ rmMode g rm = 6 → gives (.fadd c rm t d a b) t.regs .general (whole fun l => ((r l).bits, (r l).tag)))) ∧
    (∀ (t : BitTy) (w : Width), g.sleeve = none → OnePlace g g.active → Sources s g c [(a, t.o), (b, .int 32 false)] os →
      ∃ v : Nat → Nat × Tag, gives (.shfl c t w d a b) t.regs .general (whole v)) ∧
    gives (.rdspec c d 1) 1 .affine (whole fun l => ((g.lane l).home, FULL)) ∧ gives (.rdspec c d 2) 1 .general (whole fun l => ((g.lane l).pos, FULL)) ∧
    gives (.rdspec c d 7) 1 .uniform (whole fun _ => (g.node, FULL))

/-! ## Control words (R115 to R128) -/

/-- R119, R121, R152: BRA sends the lanes it acts in to its target and the others to the next clause, and marks the side that R152 ejects, if any; BRX and
RET send them to the address in a register pair, when that is a multiple of 8. BRAU does as BRA when it acts in all active lanes or none, and under MODE.UMP, with
UDEM, in some. Registers, memory and other groups stay. -/
def Obligations.BranchResults : Prop :=
  ∀ (s : State) (g : Group) (c : Ctl) (off : BitVec 16) (b : VReg), Issues s g → Plain g →
    let w := lanesOf g c
    let dest := fun (l : Nat) => if w.getLsbD l then g.rel off else g.fall
    (∃ t, exec (.bra c off) s = .next t ∧ Went s t g g dest ∧ (t.group g.uid).ejectNext = ((s.ejection g w).1).or (t.group g.uid).ejectNext) ∧
    ((∀ l, Lane.mem w l → (g.pairAt b.val l).toNat % 8 = 0) →
      let target := fun (l : Nat) => if w.getLsbD l then g.pairAt b.val l else g.fall
      (∃ t, exec (.brx c b) s = .next t ∧ Went s t g g target) ∧ (∃ t, exec (.ret c b) s = .next t ∧ Went s t g g target)) ∧
    (g.sleeve = none →
      (w = 0 ∨ w = g.active &&& ~~~g.helper → ∃ t, exec (.brau c off) s = .next t ∧ Went s t g g dest) ∧
      (w ≠ 0 → w ≠ g.active &&& ~~~g.helper → modeUmp g.mode = true →
        ∃ t h, exec (.brau c off) s = .next t ∧ Went s t g h dest ∧ h = { g with status := h.status, lanes := h.lanes } ∧
          (g.lanes.length = 32 → Raised g h w (fun _ => flUDEM) 0)))

/-- R119, R120: CALL writes the address of the next clause to a register pair and goes to its target, a label or an aligned register pair (a clause lies at a multiple of 8, R60); LOOP takes 1 from its register
and goes back in the lanes where it was not 1. -/
def Obligations.CallAndLoopResults : Prop :=
  ∀ (s : State) (g : Group) (c : Ctl) (off : BitVec 16) (d b : VReg), Plain g →
    let w := lanesOf g c
    let link := whole fun _ => (g.fall.toNat, FULL)
    (Writes s g c d.val 2 →
      (g.cl.addr.toNat % 8 = 0 → ∃ t h, exec (.call c d off) s = .next t ∧ Wrote g h false w d.val 2 link ∧
        Went s t g h fun l => if w.getLsbD l then g.rel off else g.fall) ∧
      ((∀ l, Lane.mem w l → (g.pairAt b.val l).toNat % 8 = 0) →
        ∃ t h, exec (.callReg c d b) s = .next t ∧ Wrote g h false w d.val 2 link ∧
          Went s t g h fun l => if w.getLsbD l then g.pairAt b.val l else g.fall)) ∧
    (Writes s g c d.val 1 →
      ∃ t h, exec (.loop c d off) s = .next t ∧
        Wrote g h false w d.val 1 (fun l _ => ((g.read d.val l).1 - 1, FULL)) ∧
        Went s t g h fun l => if w.getLsbD l && (g.read d.val l).1 != 1 then g.rel off else g.fall) ∧
    (Issues s g → w = 0 → ∀ i, i = .call c d off ∨ i = .callReg c d b ∨ i = .loop c d off →
      ∃ t, exec i s = .next t ∧ Went s t g g fun _ => g.fall)

/-- R122 to R124: JOIN sets K and, in its lanes, MEET and the bound of registers for ejection; WAITJ holds its lanes at its own address with the K it waits for, and the others
go on. In an ejected context JOIN counts a nested region and WAITJ ends one; the WAITJ that ends the outermost stops the context until its recall. R125: REP, in all live lanes and with one count, opens a loop of the next clause: the count is kept with the address of the clause; a count of 0 skips the clause. -/
def Obligations.RegionAndRepeatResults : Prop :=
  (∀ (s : State) (g : Group) (c : Ctl) (k : Fin 16) (n : VReg) (off : BitVec 16) (o : Option (BitVec 16)), Issues s g → Plain g → g.lanes.length = 32 →
    let w := lanesOf g c
    let meet : Addr := match o with | some v => g.rel v | none => 0
    let others := fun (h : Group) => ∀ l, l < 32 → w.getLsbD l = false → h.lane l = g.lane l
    (g.sleeve = none →
      (∃ h, exec (.join c k n off) s = .next (s.nextWord h) ∧ h.k = modAt (fun _ => w) k.val g.k ∧ h.joinBound = some (min n.val (g.decl.ng - 1)) ∧
        h.v = g.v ∧ h.p = g.p ∧ others h ∧ ∀ l, Lane.mem w l → h.lane l = { g.lane l with meet := g.rel off }) ∧
      (∃ t h, exec (.waitj c k o) s = .next t ∧ Went s t g h (fun _ => g.fall) ∧ h.v = g.v ∧ h.p = g.p ∧ others h ∧
        ∀ l, Lane.mem w l → h.lane l = { g.lane l with state := .held g.pc k.val meet, next := g.fall, resume := none })) ∧
    (∀ x, g.sleeve = some x → w ≠ 0 →
      (∃ h, exec (.join c k n off) s = .next (s.nextWord h) ∧ h.k = g.k ∧ h.sleeve = some { x with nest := x.nest + 1 } ∧ others h ∧
        ∀ l, Lane.mem w l → h.lane l = { g.lane l with meet := g.rel off }) ∧
      (0 < x.nest → ∃ t h, exec (.waitj c k o) s = .next t ∧ t.group? g.uid = some h ∧ h.sleeve = some { x with nest := x.nest - 1 } ∧ h.v = g.v) ∧
      (x.nest = 0 → ∃ t h, exec (.waitj c k o) s = .next t ∧ t.group? g.uid = some h ∧ h.phase = .stopped ∧ h.sleeve = some { x with arrived := some g.pc } ∧
        ∀ l, Lane.mem w l → (h.lane l).state = .held g.pc k.val meet))) ∧
  (∀ (s : State) (g : Group) (c : Ctl) (b : Src) (o : Opnd) (v : Nat), Issues s g → Plain g → g.sleeve = none → lanesOf g c = g.live → g.live ≠ 0 → v ≤ 65535 →
    let opened := fun (i : Instr) => ∃ t g1, exec i s = .next t ∧ t.group? g.uid = some g1 ∧ g1.repc = v ∧ g1.reps = g.fall ∧ g1.clause = none ∧ g1.v = g.v ∧ g1.p = g.p ∧
      t.mem = s.mem ∧ ∀ dest, (if v = 0 then s.clauseAfter g g.fall = .ok dest else dest = g.fall) →
        ∀ l, Moves g l → (g1.lane l).next = dest
    (v = 0 → ∃ dest, s.clauseAfter g g.fall = .ok dest) →
    opened (.repImm c (BitVec.ofNat 16 v)) ∧
    (s.operand g (lanesOf g c) b (.int 32 false) = .ok o → (∀ l, Lane.mem g.live l → (o.at g l).1 = v) → opened (.rep c b)))

/-- R128: BSIG, BANY and BALL send every lane that moves to the target when the condition holds in some lane, or in every lane, that the word acts in, else to the next clause. -/
def Obligations.GroupBranchResults : Prop :=
  ∀ (s : State) (g : Group) (c : Ctl) (off : BitVec 16) (p : Pred) (a : Src), Issues s g → Plain g → g.sleeve = none →
    let w := lanesOf g c
    let goes := fun (i : Instr) (cond : Prop) => ∀ (t1 : Addr), (cond → t1 = g.rel off) → (¬cond → t1 = g.fall) →
      ∃ t h, exec i s = .next t ∧ Went s t g h (fun _ => t1) ∧ h = { g with status := h.status, lanes := h.lanes }
    goes (.bany c p off) (∃ l, Lane.mem w l ∧ g.pred p.val l = true) ∧
    goes (.ball c p off) (∀ l, Lane.mem w l → g.pred p.val l = true) ∧
    (∀ (t : Fmt) (thr : Option (Fin 54)) (o : Opnd), s.operand g w a (.flt t) = .ok o →
      let below := fun l => tagIn (o.at g l).2 (fmtP t) < (thr.map Fin.val).getD (modeSigthr g.mode)
      goes (.bsig c false t thr a off) (∃ l, Lane.mem w l ∧ below l) ∧
      goes (.bsig c true t thr a off) (∀ l, Lane.mem w l → below l))

/-- R126, R127: EXIT in some lanes of a group ends those lanes and the others go on, and in an ejected context frees the context; YIELD ends the clause and puts the group behind the ready ones; NOP changes nothing but the place
in the clause. -/
def Obligations.ExitYieldNopResults : Prop :=
  ∀ (s : State) (g : Group) (c : Ctl), Issues s g → Plain g →
    (∃ h, exec (.nop c) s = .next (s.nextWord h) ∧ h.v = g.v ∧ h.p = g.p ∧ h.lanes = g.lanes ∧ h.status = g.status ∧ h.mode = g.mode) ∧
    (∃ t h, exec (.yield c) s = .next t ∧ Went s t g h (fun _ => g.fall) ∧ h = { g with yielded := h.yielded } ∧ (g.sleeve = none → h.yielded = true)) ∧
    (lanesOf g c = 0 → ∃ t, exec (.exit c) s = .next t ∧ Went s t g g fun _ => g.fall) ∧
    (lanesOf g c ≠ 0 → g.sleeve = none → g.lanes.length = 32 → ∃ t g1, exec (.exit c) s = .next t ∧ t.group? g.uid = some g1 ∧ g1.v = g.v ∧ g1.p = g.p ∧ g1.clause = none ∧
      (∀ l, Lane.mem (lanesOf g c) l → (g1.lane l).state = .exited ∧ g1.live.getLsbD l = false) ∧
      (∀ l, l < 32 → (lanesOf g c).getLsbD l = false → g1.live.getLsbD l = g.live.getLsbD l)) ∧
    (lanesOf g c ≠ 0 → g.sleeve.isSome = true → ∃ t, exec (.exit c) s = .next t ∧ t.group? g.uid = none)

/-! ## Traps (R319 to R325) -/

/-- R319, R320, R323: a trap whose cause has a handler is taken: the frame is saved and every live lane that is not ejected goes to the handler. R127, R319: TRAP and BPT complete, that is, the group stands at the next word, and then the BPT trap is taken, with the code, or all ones for BPT, in info0 and a resume
point at that next word, or, at the end of a clause, at the next clause of the lowest lane. A word that acts in no lane goes on. -/
def Obligations.TrapAndBreakpointEntry : Prop :=
  (∀ (s : State) (g : Group) (r : TrapRecord) (kind : ReturnKind) (h : Addr), Trappable s g r.cause h →
    Delivered s (s.deliver g.uid r kind) g r kind h) ∧
  (∀ (s : State) (g : Group) (c : Ctl) (code : BitVec 16) (h : Addr), Issues s g → g.sleeve = none → g.retPending = none →
    let s1 := s.nextWord (g.issued [] [])
    let g1 := s1.group g.uid
    let w := lanesOf g c
    (w = 0 → exec (.trap c code) s = .next s1 ∧ exec (.bpt c) s = .next s1) ∧
    (w ≠ 0 → Trappable s g cBPT h →
      let resume := if g1.clause.isSome then g1.pc else (g1.lane ((maskBits w).headD 0)).next
      let rec' := fun (info : Word) => (g.issued [] []).record ⟨cBPT, 0, w, none, info, 0, false, true⟩ false false resume
      (∃ t, exec (.trap c code) s = .next t ∧ Delivered s1 t g1 (rec' (code.setWidth 32)) .bpt h) ∧
      (∃ t, exec (.bpt c) s = .next t ∧ Delivered s1 t g1 (rec' 0xFFFFFFFF) .bpt h)))

/-- R321, R322, R325: TRAPRET in a handler, in all active lanes, marks the return for the end of the clause; GETFAULT gives a word of the current trap's record, or 0 outside a
handler; CTXQ gives the launch number, the pre-emption request, whether the group is in a handler, and the count of restores. -/
def Obligations.HandlerWordResults : Prop :=
  ∀ (s : State) (g : Group) (c : Ctl) (d : VReg), Issues s g → Plain g →
    (∀ skip, g.sleeve = none → g.frame.isSome = true → lanesOf g c = g.active &&& ~~~g.helper →
      ∃ h, exec (.trapret c skip) s = .next (s.nextWord h) ∧ h.retPending = some skip ∧ h.v = g.v ∧ h.p = g.p ∧ h.lanes = g.lanes ∧ h.frame = g.frame) ∧
    (Writes s g c d.val 1 →
      let done := fun (i : Instr) (v : Nat) => ∃ h, exec i s = .next (s.nextWord h) ∧ Wrote g h false (lanesOf g c) d.val 1 (whole fun _ => (v, FULL))
      (∀ k : Fin 8, (∀ f, g.frame = some f → done (.getfault c d k) (f.tr.words.getD k.val 0).toNat) ∧ (g.frame = none → done (.getfault c d k) 0)) ∧
      done (.ctxq c d 0) g.launch ∧ done (.ctxq c d 1) (s.wg g.wg).preemptReq.toNat ∧
      done (.ctxq c d 2) (if g.frame.isSome then 1 else 0) ∧ done (.ctxq c d 3) (s.wg g.wg).restores)

/-- R322: a return from a precise trap or a BPT trap without `.skip` restores every live lane's path, the active mask of the live lanes and the clause at the trapping word, leaves the handler, and changes
neither registers nor memory. -/
def Obligations.TrapReturnRestores : Prop :=
  ∀ (s : State) (g : Group) (f : Machine.Frame), s.group? g.uid = some g → g.frame = some f → f.clause.isSome = true → f.tr.ej = false → (f.kind = .bpt ∨ f.kind = .precise) →
    ∃ g1, (s.trapReturn g.uid false).group? g.uid = some g1 ∧ g1.frame = none ∧ g1.retPending = none ∧ g1.clause = f.clause ∧ g1.v = g.v ∧ g1.p = g.p ∧
      g1.mode = g.mode ∧ g1.status = g.status ∧ g1.live = g.live ∧ (s.trapReturn g.uid false).mem = s.mem ∧
      (∀ l, l < 32 → g.helper.getLsbD l = false → g1.active.getLsbD l = (f.active.getLsbD l && g.live.getLsbD l)) ∧
      ∀ l st n r, l < g.lanes.length → f.lanes[l]? = some (st, n, r) → g.live.getLsbD l = true → g.helper.getLsbD l = false → (g.lane l).state ≠ .exited → st ≠ .ejected →
        (g1.lane l).state = st ∧ (g1.lane l).next = n ∧ (g1.lane l).resume = r

/-- R321, R323: SETFAULT outside a handler, with uniform operands that name a cause, takes that trap, with the second operand in info0; TRAPRET outside a handler takes PRIV. R76: a word whose opcode is unassigned takes ILLEGAL with sub-cause 0x02, whatever its other fields. -/
def Obligations.RaisedAndUnassignedTraps : Prop :=
  (∀ (s : State) (g : Group) (c : Ctl) (a b : Src) (os : List Opnd) (x y : Nat) (h : Addr), Issues s g → g.sleeve = none → lanesOf g c ≠ 0 →
    (Sources s g c [(a, .int 32 false), (b, .int 32 false)] os → (∀ l, Lane.mem (lanesOf g c) l → srcVal g os l 0 = x ∧ srcVal g os l 1 = y) →
      0 < bits x 0 8 → bits x 0 8 ≤ 13 → bits x 16 16 = 0 → Trappable s g (bits x 0 8) h →
      ∃ t, exec (.setfault c a b) s = .next t ∧
        Delivered s t { g with window := [], latch := [] } (g.record (trapOf (bits x 0 8) (bits x 8 8) (lanesOf g c) (BitVec.ofNat 32 y)) false false g.pc) .precise h) ∧
    (∀ skip, Trappable s g cPRIV h → ∃ t, exec (.trapret c skip) s = .next t ∧
      Delivered s t { g with window := [], latch := [] } (g.record (trapOf cPRIV 0 (lanesOf g c) 0) false false g.pc) .precise h)) ∧
  (∀ (s : State) (g : Group) (x : BitVec 64) (h : Addr), Issues s g → g.sleeve = none → Trappable s g cILLEGAL h →
    ∃ t, exec (.unassignedOpcode x) s = .next t ∧ Delivered s t { g with window := [], latch := [] } (g.record (trapOf cILLEGAL 2 g.active 0) false false g.pc) .precise h)

/-- R324: HALTG ends the launch with status 0x11; a launch that already ends keeps its status. Within a handler, R323: SETFAULT with a zero first operand passes the trap on, which, unless the host can resume it, ends
the launch as well. -/
def Obligations.LaunchEndingWords : Prop :=
  ∀ (s : State) (g : Group) (c : Ctl) (code : BitVec 16) (l : Launch), Issues s g → Plain g → g.sleeve = none → lanesOf g c ≠ 0 →
    s.launch? g.launch = some l → l.num = g.launch → l.ending = none →
    (∃ t l1, exec (.haltg c code) s = .next t ∧ t.launch? g.launch = some l1 ∧ l1.ending = some 0x11 ∧ l1.staged = []) ∧
    (∀ (a b : Src) (os : List Opnd) (f : Machine.Frame) (y : Nat), g.frame = some f → hostResumes f.tr = false → Sources s g c [(a, .int 32 false), (b, .int 32 false)] os →
      (∀ k, Lane.mem (lanesOf g c) k → srcVal g os k 0 = 0 ∧ srcVal g os k 1 = y) →
      ∃ t l1, exec (.setfault c a b) s = .next t ∧ t.launch? g.launch = some l1 ∧ l1.ending = some 0x11)

/-! ## Cross-lane words (R129 to R141) -/

/-- R129, R132: the shuffles write, in every lane, what the lane at a position computed from the lane's own position and, in the first four, from its own second source supplies: the position
b within the segment; b below; b above; its own position with bits flipped; the neighbour of the quad; one lane of the quad. -/
def Obligations.ShuffleResults : Prop :=
  ∀ (s : State) (g : Group) (c : Ctl) (t : BitTy) (w : Width) (d : VReg) (a b : Src) (oa ob : Opnd), Plain g → g.sleeve = none → OnePlace g g.active →
    Writes s g c d.val t.regs → s.operand g (lanesOf g c) a t.o = .ok oa → s.operand g (lanesOf g c) b (.int 32 false) = .ok ob →
    let p := fun l => (g.lane l).pos
    let k := fun l => (ob.at g l).1
    let n := w.w
    let done := fun (b' : Bool) (i : Instr) (src : Nat → Nat) => ∃ (h : Group) (x : Nat → Nat × Tag), exec i s = .next (s.nextWord h) ∧
      Wrote g h false (lanesOf g c) d.val t.regs (whole x) ∧ Raised g h (lanesOf g c) (fun _ => if b' then oa.fl ||| ob.fl else oa.fl) 0 ∧ ∀ l, Lane.mem (lanesOf g c) l → Supplied g oa (src l) (x l)
    done true (.shfl c t w d a b) (fun l => p l / n * n + k l % n) ∧
    done true (.shflup c t w d a b) (fun l => if k l ≤ p l % n then p l - k l else p l) ∧
    done true (.shfldn c t w d a b) (fun l => if p l % n + k l < n then p l + k l else p l) ∧
    done true (.shflx c t w d a b) (fun l => p l / n * n + (p l ^^^ k l) % n) ∧
    done false (.qswph c t d a) (fun l => p l ^^^ 1) ∧ done false (.qswpv c t d a) (fun l => p l ^^^ 2) ∧ done false (.qswpd c t d a) (fun l => p l ^^^ 3) ∧
    ∀ q : Fin 4, done false (.qbcast c t d a q) (fun l => p l / 4 * 4 + q.val)

/-- R133: the votes write one condition in every lane, that of some lane, of every lane, or that all lanes hold one value; BALLOT gives the set of positions at which the predicate holds, and MATCH
the set of positions that hold the lane's own value. R138 to R140: GRPINFO gives rank, first and count of a regrouped thread, or its place in the workgroup; RDSPEC each of its 22 quantities: thread, home lane, position, group, sequence number, workgroup, rank, node, record index, record count, logical core,
core, clock (two words), the LIVE and ACTIVE masks by position (of the lane's own home group in a merged group; at ejection, and the lane alone, in an ejected lane), depth, partition, accelerator, draw count, whether ejected, and group count; SHAPE 0, 1 or 2 for a uniform, affine or general register and 0 for another source; MOVG copies value
and tag. -/
def Obligations.VoteAndInspectionResults : Prop :=
  (∀ (s : State) (g : Group) (c : Ctl) (na : Bool) (d : VReg) (p q : Pred) (t : BitTy) (a : Src) (o : Opnd), Issues s g → Plain g → g.sleeve = none → Formed g → lanesOf g c ≠ 0 →
    let w := lanesOf g c
    let holds := fun l => (g.pred q.val l != na) = true
    let all := fun (i : Instr) (fl : FlagSet) (cond : Prop) => ∀ b : Bool, (b = true ↔ cond) →
      ∃ h, exec i s = .next (s.nextWord h) ∧ WrotePred g h w p.val (fun _ => b) ∧ Raised g h w (fun _ => fl) 0
    all (.voteany c na p q) flNone (∃ l, Lane.mem w l ∧ holds l) ∧ all (.voteall c na p q) flNone (∀ l, Lane.mem w l → holds l) ∧
    (s.operand g w a t.o = .ok o → all (.voteuni c t p a) o.fl (∀ l m, Lane.mem w l → Lane.mem w m → (o.at g l).1 = (o.at g m).1)) ∧
    (d.val + 1 ≤ g.decl.ng →
      let sets := fun (i : Instr) (fl : FlagSet) (has : Nat → Nat → Prop) => ∀ f : Nat → Nat,
        (∀ l, Lane.mem w l → f l < 2 ^ 32 ∧ ∀ j, j < 32 → ((f l).testBit j = true ↔ ∃ m, Lane.mem w m ∧ (g.lane m).pos = j ∧ has l m)) →
        ∃ h, exec i s = .next (s.nextWord h) ∧ Wrote g h false w d.val 1 (whole fun l => (f l, FULL)) ∧ Raised g h w (fun _ => fl) 0
      sets (.ballot c na d q) flNone (fun _ m => holds m) ∧
      (s.operand g w a t.o = .ok o → sets (.matchLanes c t d a) o.fl (fun l m => (o.at g m).1 = (o.at g l).1)))) ∧
  (∀ (s : State) (g : Group) (c : Ctl) (d r : VReg) (t : BitTy) (b : Src) (o : Opnd), Writes s g c d.val 1 →
    let w := lanesOf g c
    let done := fun (i : Instr) (f : Nat → Nat) => Completes i s g c d.val 1 (whole fun l => (f l, FULL)) (fun _ => flNone) 0
    let bits := fun (i : Instr) (at' : Nat → Nat → Prop) => ∀ f : Nat → Nat,
      (∀ l, Lane.mem w l → f l < 2 ^ 32 ∧ ∀ j, j < 32 → ((f l).testBit j = true ↔ at' l j)) → done i f
    let rg := (s.wg g.wg).regrouped
    let place := fun l => (g.lane l).gid * 32 + (g.lane l).pos
    let alone := ∀ dn mv k, g.merge ≠ .host dn mv k
    let oneGroup := alone → ∀ l m, Lane.mem w l → Lane.mem w m → (g.lane l).gid = (g.lane m).gid
    let kind := (s.nodeOf g).kind
    done (.grpinfo c d 0) (fun l => if rg then (g.lane l).rank else place l) ∧
    done (.grpinfo c d 1) (fun l => if rg then (g.lane l).kfirst else place l) ∧
    done (.grpinfo c d 2) (fun l => if rg then (g.lane l).kcount else 1) ∧
    done (.grpinfo c d 3) (fun _ => if rg then 1 else 0) ∧
    done (.shape c d (.reg r)) (fun _ => match (g.view r.val).shape with | .uniform => 0 | .affine => 1 | .general => 2) ∧
    (∀ x : Src, (∀ y, x ≠ .reg y) → done (.shape c d x) fun _ => 0) ∧
    ((∀ l, Lane.mem w l → (g.lane l).tid = (g.lane ((maskBits w).headD 0)).tid - (g.lane ((maskBits w).headD 0)).home + (g.lane l).home) →
      done (.rdspec c d 0) (fun l => (g.lane l).tid)) ∧
    done (.rdspec c d 1) (fun l => (g.lane l).home) ∧ done (.rdspec c d 2) (fun l => (g.lane l).pos) ∧
    (oneGroup → done (.rdspec c d 3) (fun l => (g.lane l).gid)) ∧
    (alone → done (.rdspec c d 4) (fun _ => g.gseq) ∧ done (.rdspec c d 9) (fun _ => g.nrec)) ∧
    (∀ dn mv k, g.merge = .host dn mv k →
      done (.rdspec c d 4) (fun l => if g.isMoved l then (s.group dn).gseq else g.gseq) ∧ done (.rdspec c d 9) (fun l => if g.isMoved l then (s.group dn).nrec else g.nrec)) ∧
    done (.rdspec c d 5) (fun _ => (s.wg g.wg).wgid) ∧ done (.rdspec c d 6) (fun _ => (s.wg g.wg).wgrank) ∧ done (.rdspec c d 7) (fun _ => g.node) ∧
    (kind = .lane → done (.rdspec c d 8) (fun l => (g.lane l).home)) ∧ (kind = .collect → oneGroup → done (.rdspec c d 8) (fun l => (g.lane l).gid * 32 + (g.lane l).home)) ∧
    (kind ≠ .lane → kind ≠ .collect → done (.rdspec c d 8) (fun _ => 0)) ∧
    done (.rdspec c d 10) (fun _ => (s.wg g.wg).lcore) ∧ done (.rdspec c d 11) (fun _ => g.core) ∧
    done (.rdspec c d 12) (fun _ => s.clock g.core % 2 ^ 32) ∧ done (.rdspec c d 13) (fun _ => s.clock g.core / 2 ^ 32 % 2 ^ 32) ∧
    (g.sleeve = none → alone → bits (.rdspec c d 14) (fun _ j => ∃ m, Lane.mem g.live m ∧ (g.lane m).pos = j) ∧
      bits (.rdspec c d 15) (fun _ j => ∃ m, Lane.mem g.active m ∧ (g.lane m).pos = j)) ∧
    (∀ x, g.sleeve = some x → done (.rdspec c d 14) (fun _ => x.live0.toNat) ∧
      ∀ l, (∀ m, Lane.mem w m → m = l) → bits (.rdspec c d 15) fun _ j => (g.lane l).pos = j) ∧
    (∀ dn mv k, g.sleeve = none → g.merge = .host dn mv k →
      bits (.rdspec c d 14) (fun l j => if g.isMoved l
        then (∃ m, Lane.mem (s.group dn).live m ∧ (∀ x ∈ mv, x.2 ≠ m) ∧ ((s.group dn).lane m).pos = j) ∨ (∃ x ∈ mv, Lane.mem g.live x.1 ∧ (g.lane x.1).pos = j)
        else ∃ m, Lane.mem g.live m ∧ (∀ x ∈ mv, x.1 ≠ m) ∧ (g.lane m).pos = j) ∧
      bits (.rdspec c d 15) (fun l j => ∃ m, Lane.mem g.active m ∧ g.isMoved m = g.isMoved l ∧ (g.lane m).pos = j)) ∧
    done (.rdspec c d 16) (fun l => (g.lane l).depth) ∧ done (.rdspec c d 17) (fun _ => g.part) ∧ done (.rdspec c d 18) (fun _ => s.accel g.part) ∧
    done (.rdspec c d 19) (fun l => (g.lane l).srcnt.toNat) ∧ done (.rdspec c d 20) (fun _ => if g.sleeve.isSome then 1 else 0) ∧
    done (.rdspec c d 21) (fun _ => (s.wg g.wg).groups.length) ∧
    (Writes s g c d.val t.regs → s.operand g (lanesOf g c) b t.o = .ok o →
      Completes (.movg c t d b) s g c d.val t.regs (whole fun l => o.at g l) (fun _ => o.fl) 0))

/-- R130, R134, R135: where the acting lanes stand at different positions, REDADD gives every lane the sum over its segment, REDMIN and REDMAX a value of its segment that none lies below or above, SCANADD the sum of
the positions up to its own, or, exclusive, below it, all modulo the width. R134, R52: the floating-point reductions give every lane the root of the fixed tree of its segment, whose leaves are the 32 positions, −0, +∞ or −∞ standing where no lane acts, and whose node of level k+1 at a position combines those of level k there
and 2^k above. R135, R53: the scan of level k+1 adds to a position at or above 2^k in its segment that of level k at 2^k below; the exclusive scan gives the result one position below, with the flags of the lane's own position, and at the lowest position of a segment −0, with tag FULL. The
rounding of REDFADD and SCANADD is not stochastic. Without SIGTE no tag traps. -/
def Obligations.ReductionResults : Prop :=
  (∀ (s : State) (g : Group) (c : Ctl) (rm : Rm) (t : IntTy) (w : Width) (d : VReg) (a : Src) (o : Opnd), Plain g → g.sleeve = none → OnePlace g (lanesOf g c) →
    (∀ l, Lane.mem (lanesOf g c) l → (g.lane l).pos < 32) → Writes s g c d.val t.regs → s.operand g (lanesOf g c) a t.o = .ok o →
    let seg := fun l up => Segment g (lanesOf g c) w.w l up
    let sum := fun (ls : List Nat) => (ls.map fun m => (o.at g m).1).sum % 2 ^ t.w
    let done := fun (i : Instr) (ok : Nat → Nat → Prop) => ∃ (h : Group) (f : Nat → Nat), exec i s = .next (s.nextWord h) ∧
      Wrote g h false (lanesOf g c) d.val t.regs (whole fun l => (f l, FULL)) ∧ Raised g h (lanesOf g c) (fun _ => o.fl) 0 ∧ ∀ l, Lane.mem (lanesOf g c) l → ok l (f l)
    done (.redadd c t w d a) (fun l v => v = sum (seg l fun _ => true)) ∧
    done (.scanadd c false rm (.int t) w d a) (fun l v => v = sum (seg l fun p => p ≤ (g.lane l).pos)) ∧
    done (.scanadd c true rm (.int t) w d a) (fun l v => v = sum (seg l fun p => p < (g.lane l).pos)) ∧
    ((∀ l, Lane.mem (lanesOf g c) l → (o.at g l).1 < 2 ^ t.w) →
      done (.redmin c (.int t) w d a) (fun l v => (∃ m ∈ seg l fun _ => true, v = (o.at g m).1) ∧ ∀ m ∈ seg l fun _ => true, t.num v ≤ t.num (o.at g m).1) ∧
      done (.redmax c (.int t) w d a) (fun l v => (∃ m ∈ seg l fun _ => true, v = (o.at g m).1) ∧ ∀ m ∈ seg l fun _ => true, t.num (o.at g m).1 ≤ t.num v))) ∧
  (∀ (s : State) (g : Group) (c : Ctl) (rm : Rm) (t : FltTy) (w : Width) (d : VReg) (a : Src) (o : Opnd) (k : Nat), Plain g → g.sleeve = none → g.sigte = false →
    OnePlace g (lanesOf g c) → (∀ l, Lane.mem (lanesOf g c) l → (g.lane l).pos < 32) → Writes s g c d.val t.regs → s.operand g (lanesOf g c) a t.o = .ok o → w.w = 2 ^ k →
    let leaves := fun (v : Nat → Part) (z : XR) => ∀ p, p < 32 →
      (∀ l, Lane.mem (lanesOf g c) l → (g.lane l).pos = p → v p = (let x := readFl t.fmt (modeFtzi g.mode) (o.at g l).1 (o.at g l).2; ⟨x.v, x.t, flNone⟩)) ∧
      ((∀ l, Lane.mem (lanesOf g c) l → (g.lane l).pos ≠ p) → v p = ⟨z, fmtP t.fmt, flNone⟩)
    let node := fun (op : FOp → FOp → FRes) (x y : Part) => (let r := op ⟨x.v, x.t⟩ ⟨y.v, y.t⟩; (⟨fdec t.fmt r.bits, r.tag, x.fl ||| y.fl ||| r.fl⟩ : Part))
    let add := node (fAdd ⟨rmMode g rm, modeFtzo g.mode, fun _ => 0⟩ t.fmt 0 false)
    let done := fun (i : Instr) (r : Nat → Part) => ∃ h, exec i s = .next (s.nextWord h) ∧
      Wrote g h false (lanesOf g c) d.val t.regs (whole fun l => (fenc t.fmt (r (g.lane l).pos).v, (r (g.lane l).pos).t)) ∧
      Raised g h (lanesOf g c) (fun l => (r (g.lane l).pos).fl ||| o.fl) 0
    let tree := fun (i : Instr) (z : XR) (f : Part → Part → Part) => ∀ v : Nat → Nat → Part, leaves (v 0) z →
      (∀ n p, p + 2 ^ n < 32 → v (n + 1) p = f (v n p) (v n (p + 2 ^ n))) → done i fun p => v k (p / w.w * w.w)
    tree (.redmin c (.flt t) w d a) (.inf false) (node (fMinMax t.fmt (modeFtzo g.mode) false true)) ∧
    tree (.redmax c (.flt t) w d a) (.inf true) (node (fMinMax t.fmt (modeFtzo g.mode) true true)) ∧
    (rmMode g rm ≠ 6 →
      tree (.redfadd c rm t w d a) (.fin true 0 1) add ∧
      ∀ v : Nat → Nat → Part, leaves (v 0) (.fin true 0 1) →
        (∀ n p, p < 32 → v (n + 1) p = if 2 ^ n ≤ p % w.w then add (v n (p - 2 ^ n)) (v n p) else v n p) →
        done (.scanadd c false rm (.flt t) w d a) (v k) ∧
        done (.scanadd c true rm (.flt t) w d a) fun p => if p % w.w = 0 then ⟨.fin true 0 1, FULL, (v k p).fl⟩ else ⟨(v k (p - 1)).v, (v k (p - 1)).t, (v k p).fl⟩))

/-- R136, R137: where every group of the workgroup waits at the same word with nothing pending and the same identity, REGROUP sorts the live threads by key and TID and puts the i-th into slot i mod 32 of the group i div 32, with RANK i, KFIRST the smallest rank of its key and KCOUNT the threads that have it; it
carries registers, predicates, handles and draw count, each group takes the STATUS of all, the expected and helper masks become 0, and a group without threads has an empty live mask. UNGROUP returns every live thread to its home group and home lane and restores the helpers of quads that hold one; in a workgroup that is not regrouped it
moves nothing. Memory stays. A group with a live lane elsewhere takes UNIMIS; before the condition holds the group waits at the word and frees its issue port. -/
def Obligations.RegroupResults : Prop :=
  ∀ (s : State) (g : Group) (c : Ctl) (a : Src), Issues s g → Plain g → g.sleeve = none → lanesOf g c ≠ 0 →
    let rg := (s.wg g.wg).regrouped = true
    (∀ (ms : List Group) (w : Wg) (o : Opnd), lanesOf g c = g.live → Gathered s g ms → s.wg? g.wg = some w →
      let threads := ms.flatMap fun h => (maskBits h.live).map fun l => (h, l)
      (s.operand g g.live a (.int 32 false) = .ok o →
        let key := fun (x : Group × Nat) => (o.at x.1 x.2).1
        let rank := fun (x : Group × Nat) => threads.countP fun y => key y < key x || (key y == key x && decide ((y.1.lane y.2).tid < (x.1.lane x.2).tid))
        ∃ t w1, exec (.regroup c a) s = .next t ∧ t.wg? g.wg = some w1 ∧ w1.regrouped = true ∧ t.mem = s.mem ∧
          (∀ x ∈ threads, ∃ d, ms[rank x / 32]? = some d ∧
            Placed t d (rank x % 32) x.1 x.2 { x.1.lane x.2 with gid := d.gid, pos := rank x % 32, rank := rank x, kfirst := threads.countP (fun y => key y < key x), kcount := threads.countP (fun y => key y == key x) }) ∧
          (∀ i d, ms[i]? = some d → ∃ d1, t.group? d.uid = some d1 ∧ Rearranged g d d1 ms ∧ d1.helper = 0 ∧ ∀ q, q < 32 → (d1.live.getLsbD q = true ↔ 32 * i + q < threads.length)) ∧
          ∀ u, (∀ h ∈ ms, h.uid ≠ u) → t.group? u = s.group? u) ∧
      (rg → (∀ x ∈ threads, (x.1.lane x.2).home < 32 ∧ ∃ d ∈ ms, d.uid = (x.1.lane x.2).homeUid) →
        (∀ x ∈ threads, ∀ y ∈ threads, (x.1.lane x.2).homeUid = (y.1.lane y.2).homeUid → (x.1.lane x.2).home = (y.1.lane y.2).home → x = y) →
        ∃ t w1, exec (.ungroup c) s = .next t ∧ t.wg? g.wg = some w1 ∧ w1.regrouped = false ∧ t.mem = s.mem ∧
          (∀ x ∈ threads, ∃ d ∈ ms, d.uid = (x.1.lane x.2).homeUid ∧
            Placed t d (x.1.lane x.2).home x.1 x.2 { x.1.lane x.2 with gid := d.gid, pos := (x.1.lane x.2).home }) ∧
          (∀ d ∈ ms, ∃ d1, t.group? d.uid = some d1 ∧ Rearranged g d d1 ms ∧
            (∀ q, q < 32 → (d1.live.getLsbD q = true ↔ ∃ x ∈ threads, (x.1.lane x.2).homeUid = d.uid ∧ (x.1.lane x.2).home = q)) ∧
            ∀ q, q < 32 → (d1.helper.getLsbD q = true ↔ d.launched.getLsbD q = false ∧ ∃ m, m / 4 = q / 4 ∧ Lane.mem d1.live m)) ∧
          ∀ u, (∀ h ∈ ms, h.uid ≠ u) → t.group? u = s.group? u) ∧
      (¬ rg → ∃ t w1, exec (.ungroup c) s = .next t ∧ t.wg? g.wg = some w1 ∧ w1.regrouped = false ∧ t.mem = s.mem ∧
        (∀ d ∈ ms, ∃ d1, t.group? d.uid = some d1 ∧ d1.v = d.v ∧ d1.p = d.p ∧ d1.live = d.live ∧ d1.helper = d.helper ∧ d1.mode = d.mode ∧ d1.status = d.status ∧
          ∀ l, Lane.mem d.live l → d.helper.getLsbD l = false → ∃ x y st, d1.lane l = { d.lane l with next := x, resume := y, state := st }) ∧
        ∀ u, (∀ h ∈ ms, h.uid ≠ u) → t.group? u = s.group? u)) ∧
    ∀ i, i = .regroup c a ∨ i = .ungroup c →
      (lanesOf g c = g.live → (∃ h, Mate s g h ∧ ((h.live ≠ 0 ∧ h.uid ≠ g.uid ∧ h.gate ≠ .regroup) ∨ (∃ x ∈ h.cf, x ≠ 0) ∨ (∃ x ∈ s.accs, x.uid = h.uid ∧ x.dst ≠ .none) ∨ ∃ m ∈ s.mops, m.wg = g.wg)) →
        ∃ t g1, exec i s = .next t ∧ t.group? g.uid = some g1 ∧ g1 = { g with gate := .regroup, phase := .waiting } ∧ (t.core g.core).port ≠ some g.uid ∧ t.mem = s.mem) ∧
      (lanesOf g c ≠ g.live → ∀ h, Trappable s g cUNIMIS h →
        ∃ t, exec i s = .next t ∧ Delivered s t { g with window := [], latch := [] } (g.record (trapOf cUNIMIS 0 g.active (lanesOf g c)) false false g.pc) .precise h)

/-! ## Memory words (R197 to R214, R219, R220, R226, R227, R229, R230) -/

/-- R199, R200, R204, R205, R207, R208, R219: the loads, stores, gathers, scatters and record reads start an access with these addresses: base plus signed offset of the global space modulo 2^64, base plus offset of a
thread's own or the scratchpad space modulo 2^32, base plus shifted index, record offset plus immediate; a store takes its data words at issue. -/
def Obligations.LoadsAndStoresStart : Prop :=
  ∀ (s : State) (g : Group) (c : Ctl) (f sx : Bool) (cp : LdCp) (t : LdTy) (u : StTy) (b : BitTy) (w : WinTy) (d a e : VReg) (k : HReg) (o : Off) (sh : Fin 5) (m : Option (BitVec 16)) (n : BitVec 8),
    Issues s g → lanesOf g c ≠ 0 →
    let glob := fun l => ofSigned 64 ((g.base a l : Int) + offAt g l o)
    let loc := fun l => ofSigned 32 (((g.read a.val l).1.toNat : Int) + offAt g l o)
    let idx := fun l => ofSigned 64 ((g.base a l : Int) + (if sx then toSigned 32 (g.read e.val l).1.toNat else ((g.read e.val l).1.toNat : Int)) * 2 ^ sh.val)
    Starts (.st c f false u d a o) s g c f (.store false u) .none (fun l => (glob l, g.words d.val u.regs l, [])) ∧
    Starts (.st c f true u d a o) s g c f (.store true u) .none (fun l => (loc l, g.words d.val u.regs l, [])) ∧
    Starts (.sts c f u (.inl d) a o) s g c f (.storeS u) .none (fun l => (loc l, g.words d.val u.regs l, [])) ∧
    Starts (.sts c f u (.inr k) a o) s g c f .storeH .none (fun l => (loc l, [((g.lane l).h.getD k.val 0, FULL)], [])) ∧
    Starts (.lds c f t (.inr k) a o) s g c f .loadH (.handle k.val) (fun l => (loc l, [], [])) ∧
    Starts (.scatter c f b d a e sx sh) s g c f (.store false b.st) .none (fun l => (idx l, g.words d.val b.regs l, [])) ∧
    (d.val + t.regs ≤ g.decl.ng →
      (∃ z, Starts (.ld c f false cp t d a o) s g c f (.load false cp t) (.regs d.val t.regs z) (fun l => (glob l, [], []))) ∧
      (∃ z, Starts (.ld c f true cp t d a o) s g c f (.load true cp t) (.regs d.val t.regs z) (fun l => (loc l, [], []))) ∧
      ∃ z, Starts (.lds c f t (.inl d) a o) s g c f (.loadS t) (.regs d.val t.regs z) (fun l => (loc l, [], []))) ∧
    (d.val + b.regs ≤ g.decl.ng → ∃ z, Starts (.gather c f b d a e sx sh) s g c f (.load false .none b.ld) (.regs d.val b.regs z) (fun l => (idx l, [], []))) ∧
    (d.val + w.regs ≤ g.decl.ng → ∃ z, Starts (.rdrec c f w d a m) s g c f (.rdrec w) (.regs d.val w.regs z)
      (fun l => (((g.read a.val l).1.toNat + (m.getD 0).toNat) % 2 ^ 32, [], []))) ∧
    (d.val + 1 ≤ g.decl.ng → ∃ z, (g.merge = .none → ShapeTaken g c .uniform z) ∧ Starts (.semrd c f d n) s g c f (.semrd n.toNat) (.regs d.val 1 z) (fun _ => (n.toNat, [], [])))

/-- R209, R210, R214, R219, R220, R227, R229, R230: atomics, object, semaphore, tile, counter, queue and hint words start an access with their address or number and their operand words; a floating-point add outside stochastic rounding. -/
def Obligations.AtomicsAndObjectsStart : Prop :=
  ∀ (s : State) (g : Group) (c : Ctl) (f : Bool) (op : Aop) (d a b : VReg) (e : Option VReg) (x : VReg) (sc : Scope) (n v8 : BitVec 8) (v : BitVec 16) (y : Src) (oy : Opnd) (k : Fin 8) (p : Pred),
    Issues s g → lanesOf g c ≠ 0 →
    let m := op.size / 4
    let third := fun l => (e.map fun r => g.words r.val m l).getD []
    ((∀ t, op = .addF t → modeRnd g.mode ≠ 6) →
      (d.val + m ≤ g.decl.ng →
        Starts (.atom c f op d a b e) s g c f (.atom op) (.regs d.val m .general) (fun l => (g.base a l, g.words b.val m l, third l)) ∧
        Starts (.atoms c f op d a b e) s g c f (.atoms op) (.regs d.val m .general) (fun l => ((g.read a.val l).1.toNat, g.words b.val m l, third l))) ∧
      Starts (.red c f op a b) s g c f (.red op) .none (fun l => (g.base a l, g.words b.val m l, []))) ∧
    Starts (.bind c f sc a b x) s g c f (.bind (scopeNum sc)) .none (fun l => (g.base a l, g.words b.val 2 l, g.words x.val 2 l)) ∧
    (s.operand g (lanesOf g c) y (.int 32 true) = .ok oy →
      Starts (.seminc c f n y) s g c f (.seminc n.toNat) .none (fun l => (n.toNat, [(BitVec.ofNat 32 (oy.at g l).1, FULL), (0, oy.fl.toNat)], []))) ∧
    Starts (.semincImm c f n v) s g c f (.seminc n.toNat) .none (fun _ => (n.toNat, [(v.signExtend 32, FULL), (0, 0)], [])) ∧
    Starts (.tilestSet c f a b) s g c f .tileSet .none (fun l => ((g.read a.val l).1.toNat, g.words b.val 2 l, [])) ∧
    Starts (.tilestFull c f a) s g c f (.tileBit true) .none (fun l => ((g.read a.val l).1.toNat, [], [])) ∧
    Starts (.tilestEmpty c f a) s g c f (.tileBit false) .none (fun l => ((g.read a.val l).1.toNat, [], [])) ∧
    Starts (.rcsnap c f v8 a b) s g c f (.rcsnap (v8.toNat + 1)) .none (fun l => (g.base a l, g.words b.val 1 l, [])) ∧
    Starts (.slicehintPin c f b) s g c f (.hintPin true) .none (fun l => ((g.read b.val l).1.toNat, [], [])) ∧
    Starts (.slicehintUnpin c f b) s g c f (.hintPin false) .none (fun l => ((g.read b.val l).1.toNat, [], [])) ∧
    Starts (.slicehintRep c f b x) s g c f .hintRep .none (fun l => ((g.read b.val l).1.toNat, g.words x.val 1 l, [])) ∧
    Starts (.slicehintDrop c f b x) s g c f .hintDrop .none (fun l => ((g.read b.val l).1.toNat, g.words x.val 1 l, [])) ∧
    ((∀ l, Lane.mem (lanesOf g c) l → s.enqDenied g (g.read a.val l).1.toNat = false) →
      Starts (.enq c f k p a b) s g c f (.enq (k.val + 1)) (.pred p.val) (fun l => ((g.read a.val l).1.toNat, g.words b.val (2 * (k.val + 1)) l, [])))

/-- R226: where the edge is declared, the record lies in declared registers, the group keeps within the output bound of the edge, no lane has emitted 65,535 records and no record goes beyond the depth bound of the target, EMIT starts an access
with the record of every acting lane; the group's count on the edge grows by the number of records, and registers and memory stay. EMITX does so where every acting lane names the edge. -/
def Obligations.EmitStarts : Prop :=
  ∀ (s : State) (g : Group) (c : Ctl) (f : Bool) (a b : VReg) (e : Fin 8) (x : Edge), Issues s g → g.sleeve = none → g.merge = .none → g.retPending = none → lanesOf g c ≠ 0 →
    s.edge? g e.val = some x → e.val < g.edgeUsed.length →
    let tgt := s.target g x
    let w := lanesOf g c
    4 ≤ tgt.z → a.val + tgt.z / 4 ≤ g.decl.total → g.edgeUsed.getD e.val 0 + (maskBits w).length ≤ x.maxout →
    (∀ l, Lane.mem w l → (g.lane l).ecount ≠ 65535 ∧ (g.lane l).depth + x.inc ≤ tgt.dbound) →
    ∀ i, (i = .emit c f a e ∨ (i = .emitx c f a b ∧ ∀ l, Lane.mem w l → (g.read b.val l).1.toNat = e.val)) →
      ∃ t acc h, exec i s = .next t ∧ t.accs = s.accs ++ [acc] ∧ acc.op = .emit ∧ acc.lanes.map LaneReq.slot = g.byPos w ∧
        (∀ q, q ∈ acc.lanes → q.addr = e.val ∧ q.data = g.words a.val (tgt.z / 4) q.slot) ∧
        t.group? g.uid = some h ∧ h.edgeUsed.getD e.val 0 = g.edgeUsed.getD e.val 0 + (maskBits w).length ∧ h.v = g.v ∧ h.p = g.p ∧ t.mem = s.mem

/-- R165, R206: LDP writes the words of a bound parameter window at the word offset of each lane, register plus immediate modulo 2^32; where every word lies inside the bound each carries its tag, a 64-bit value that of its low word; where one lies beyond, that word is 0, the whole value has tag 0, and
PWOOB is raised. An unbound window takes PARAMUNB in every acting lane. -/
def Obligations.WindowLoadResults : Prop :=
  ∀ (s : State) (g : Group) (c : Ctl) (t : WinTy) (n : Fin 8) (d a : VReg) (o : Option (BitVec 16)), Writes s g c d.val t.regs →
    let w := lanesOf g c
    let at' := fun (l i : Nat) => ((g.read a.val l).1.toNat + (o.getD 0).toNat + i) % 2 ^ 32
    let inside := fun (l : Nat) => ∀ i, i < t.regs → InWindow s g n.val (at' l i)
    (∀ (x : Nat → Nat → Word × Tag) (tag : Nat → Nat → Tag) (fl : Nat → FlagSet),
      (∀ l, Lane.mem w l → (∀ i, i < t.regs → WindowWord s g n.val (at' l i) (x l i)) ∧
        (inside l → fl l = flNone ∧ ∀ i, i < t.regs → tag l i = if t = .b64 then (x l 0).2 else (x l i).2) ∧
        (¬ inside l → fl l = flPWOOB ∧ ∀ i, tag l i = 0)) →
      Completes (.ldp c t n d a o) s g c d.val t.regs (fun l i => ((x l i).1, tag l i)) fl 0) ∧
    (((s.nodeOf g).lrec.win.getD n.val (0, 0)).2 = 0 → g.sleeve = none → ∀ h, Trappable s g cPARAMUNB h →
      ∃ t1, exec (.ldp c t n d a o) s = .next t1 ∧
        Delivered s t1 { g with window := [], latch := [] } (g.record (trapOf cPARAMUNB n.val w 0) false false g.pc) .precise h)

/-- R212, R213: PREF and the CCTL words complete at once and leave memory and the group alone; after CCTL.iva the core holds no line of the partition, after CCTL.ivl no line of the addressed 128 bytes, and no line is added. -/
def Obligations.CacheControlEffects : Prop :=
  ∀ (s : State) (g : Group) (c : Ctl) (mt : Bool) (a b : VReg) (o : Off), Issues s g → lanesOf g c ≠ 0 →
    (∃ s1, Passes (.pref c mt a o) s s1 g ∧ s1.mem = s.mem ∧ s1.groups = s.groups ∧ (mt = true → s1 = s)) ∧
    let none' := fun (i : Instr) (f : L1Line → Prop) => ∃ s1, Passes i s s1 g ∧ s1.mem = s.mem ∧ s1.groups = s.groups ∧ ∀ x, x ∈ (s1.core g.core).l1 → x ∈ (s.core g.core).l1 ∧ ¬ f x
    none' (.cctlIva c) (fun x => x.part = g.part) ∧
    none' (.cctlIvl c a o) (fun x => x.part = g.part ∧ ∃ l, Lane.mem (lanesOf g c) l ∧ x.va = g.globalAddr a o l / 128 * 128) ∧
    none' (.cctlIvr c a b) (fun x => x.part = g.part ∧ ∃ l, Lane.mem (lanesOf g c) l ∧ g.base a l / 128 * 128 ≤ x.va ∧ x.va < g.base a l / 128 * 128 + 128 * (g.read b.val l).1.toNat)

/-! ## Accesses that are performed (R166, R168, R176, R201, R205, R209, R210, R219, R220) -/

/-- R176, R199, R205, R59: a store of one lane that may be performed now, to an aligned address on a mapped page, ends: its bytes stand at the page's place, on a SIG page the tag of every word touched stands in its tag byte, every other byte of
memory is as before, and the registers of every group are as before. -/
def Obligations.GlobalStoreCompletes : Prop :=
  ∀ (s : State) (a : Access) (q : LaneReq) (p : Page) (u : StTy) (cp tlb : Bool), s.accs.find? (fun b => b.id == a.id) = some a → a.lanes = [q] → q.slot < 32 → a.op = .store false u → a.dst = .none → s.mayPerform a q = true →
    q.addr < 2 ^ 57 → q.addr % u.size = 0 → s.translate (s.wg a.wg).part q.addr needW tlb = .ok p → s.ras.marks = [] → Memory.wf s.mem = true →
    let v := ofWords (q.data.map Prod.fst)
    let tags := (stBytes u q.data).2
    let tagAt := p.tagKey q.addr
    ∃ t, exec (.memoryAccessComplete a.id (bit1 q.slot) cp tlb) s = .next t ∧ t.accs = s.accs.filter (fun b => b.id != a.id) ∧
      (∀ k, memGet t.mem k =
        if p.sig = true ∧ tagAt ≤ k ∧ k < tagAt + tags.length then BitVec.ofNat 8 (tags.getD (k - tagAt) 0)
        else if p.key ≤ k ∧ k < p.key + u.size then BitVec.ofNat 8 (v / 2 ^ (8 * (k - p.key)))
        else memGet s.mem k) ∧
      ∀ n, (t.group? n).map Group.v = (s.group? n).map Group.v ∧ (t.group? n).map Group.p = (s.group? n).map Group.p

/-- R168, R199, R205: a load of one live lane that may be performed now, from an aligned address of a mapped page without tags, taken from its home, ends: the destination registers of the lane hold the bytes read, a signed narrow value sign-extended, with tag FULL;
every other register of the lane and memory are as before. -/
def Obligations.GlobalLoadCompletes : Prop :=
  ∀ (s : State) (g : Group) (a : Access) (q : LaneReq) (p : Page) (t : LdTy) (c : LdCp) (r : Nat) (tlb : Bool), s.accs.find? (fun b => b.id == a.id) = some a → a.lanes = [q] → Lane.mem g.live q.slot →
    s.group? a.uid = some g → a.op = .load false c t → a.dst = .regs r t.regs .general → r + t.regs ≤ g.v.length → s.mayPerform a q = true →
    q.addr < 2 ^ 57 → q.addr % t.size = 0 → s.translate (s.wg a.wg).part q.addr needR tlb = .ok p → p.sig = false → s.ras.marks = [] →
    let n := memNum s.mem p.key t.size
    let x := match t with | .s8 => sext 8 32 n | .s16 => sext 16 32 n | _ => n
    ∃ s1 h, exec (.memoryAccessComplete a.id (bit1 q.slot) false tlb) s = .next s1 ∧ s1.mem = s.mem ∧ s1.accs = s.accs.filter (fun b => b.id != a.id) ∧ s1.group? a.uid = some h ∧
      (∀ i, i < t.regs → h.stored (r + i) q.slot = (BitVec.ofNat 32 (x / 2 ^ (32 * i)), FULL)) ∧
      (∀ k l, Lane.mem g.live l → (k < r ∨ r + t.regs ≤ k ∨ l ≠ q.slot) → h.stored k l = g.stored k l) ∧ h.p = g.p ∧ h.status = g.status ∧ h.mode = g.mode

/-- R180, R209, R210: an atomic of one live lane that may be performed now, on an aligned location of a mapped page without tags and not ORD, reads the old value into its destination and leaves the new value of Table 8.3 in memory, all in one step; every other
byte of memory is as before. R209, Table 8.3: the values that the integer atomics leave, of the old value `o`, the operand `b` and, for a compare, the new value `n`. -/
def Obligations.AtomicsCompleteWithValues : Prop :=
  (∀ (s : State) (g : Group) (a : Access) (q : LaneReq) (p : Page) (op : Aop) (r : Nat) (cp tlb : Bool), s.accs.find? (fun b => b.id == a.id) = some a → a.lanes = [q] → Lane.mem g.live q.slot →
    s.group? a.uid = some g → a.op = .atom op → a.dst = .regs r (op.size / 4) .general → r + op.size / 4 ≤ g.v.length → s.mayPerform a q = true →
    q.addr < 2 ^ 57 → q.addr % op.size = 0 → s.translate (s.wg a.wg).part q.addr needRW tlb = .ok p → p.sig = false → p.ord = false → s.ras.marks = [] → Memory.wf s.mem = true →
    let old := memNum s.mem p.key op.size
    let new := (((aopApply op a.mode old FULL q.data q.data2).new).map Prod.fst).getD old
    ∃ s1 h, exec (.memoryAccessComplete a.id (bit1 q.slot) cp tlb) s = .next s1 ∧ s1.group? a.uid = some h ∧
      (∀ i, i < op.size / 4 → (h.stored (r + i) q.slot).1 = BitVec.ofNat 32 (old / 2 ^ (32 * i))) ∧
      ∀ k, memGet s1.mem k = if p.key ≤ k ∧ k < p.key + op.size then BitVec.ofNat 8 (new / 2 ^ (8 * (k - p.key))) else memGet s.mem k) ∧
  (∀ (m : Word) (o b n : Nat) (t : IntTy) (u : BitTy) (ts tn : Tag), o < 2 ^ t.w → b < 2 ^ t.w → o < 2 ^ u.w → b < 2 ^ u.w → n < 2 ^ u.w →
    let words := fun (k v : Nat) (g : Tag) => (upFrom 0 k).map fun i => (BitVec.ofNat 32 (v / 2 ^ (32 * i)), g)
    let new := fun (op : Aop) (w : Nat) => ((aopApply op m o FULL (words (w / 32) b ts) (words (w / 32) n tn)).new).map Prod.fst
    new (.addI t) t.w = some ((o + b) % 2 ^ t.w) ∧ new (.sub t) t.w = some (((o : Int) - b) % 2 ^ t.w).toNat ∧
    new (.minI t) t.w = some (if t.num b < t.num o then b else o) ∧ new (.maxI t) t.w = some (if t.num o < t.num b then b else o) ∧
    new (.and u) u.w = some (o &&& b) ∧ new (.or u) u.w = some (o ||| b) ∧ new (.xor u) u.w = some (o ^^^ b) ∧
    (o < 2 ^ 32 → b < 2 ^ 32 → new .inc 32 = some (if b ≤ o then 0 else o + 1) ∧ new .dec 32 = some (if o = 0 ∨ b < o then b else o - 1)) ∧
    (u = .b32 → new (.exch .b32) 32 = some b ∧ new (.cas .b32) 32 = (if o = b then some n else none)) ∧
    (u = .b64 → new (.exch .b64) 64 = some b ∧ new (.cas .b64) 64 = (if o = b then some n else none)))

/-- R172, R175, R219, R220: the semaphore and tile-descriptor requests of one lane that may be performed now end: SEMINC adds its amount modulo 2^32, TILEST.set stores the descriptor without its reserved bits, TILEST.full and
TILEST.empty set and clear FULL of a valid descriptor; memory is as before. -/
def Obligations.SemaphoreAndTileCompletes : Prop :=
  ∀ (s : State) (a : Access) (q : LaneReq) (cp tlb : Bool), s.accs.find? (fun b => b.id == a.id) = some a → a.lanes = [q] → q.slot < 32 → a.dst = .none → s.mayPerform a q = true →
    let w := s.wg a.wg
    let cl := clusterOf w.core
    let done := fun (ok : State → Prop) => ∃ t, exec (.memoryAccessComplete a.id (bit1 q.slot) cp tlb) s = .next t ∧ t.mem = s.mem ∧ t.accs = s.accs.filter (fun b => b.id != a.id) ∧ ok t
    (∀ n, a.op = .seminc n → (q.data.getD 1 (0, 0)).2 = 0 → done fun t => t.semGet cl n = s.semGet cl n + (q.data.headD (0, 0)).1) ∧
    (q.addr < 1024 → a.op = .tileSet → done fun t => t.descGet w.core q.addr = BitVec.ofNat 64 (ofWords (q.data.map Prod.fst)) &&& 0xC000FFFF00003FFF) ∧
    (q.addr < 1024 → tileValid (s.descGet w.core q.addr) (s.tileBytes w) = true → ∀ b, a.op = .tileBit b →
      done fun t => t.descGet w.core q.addr = if b then s.descGet w.core q.addr ||| 0x8000000000000000 else s.descGet w.core q.addr &&& 0x7FFFFFFFFFFFFFFF)

/-! ## Synchronisation words (R181 to R189, R215 to R225, R228) -/

/-- R187, R217, R224: FENCE passes once no access of an acting lane's thread is in flight, and waits while one is; WAITF passes once no acting lane's handle is pending, and waits for those that are; TESTF writes whether the handle is not pending. R175, R219, R221: SEMWAIT passes when, in every acting lane, the semaphore minus the threshold modulo 2^32 is, or while the group waited has been, below 2^31, and waits otherwise; TILEWAIT
passes when every acting lane names a valid descriptor whose FULL is, or has been, as asked, and waits when one is not; an invalid descriptor is a precise MEMFLT. -/
def Obligations.FenceSemaphoreAndTileWaits : Prop :=
  (∀ (s : State) (g : Group) (c : Ctl) (sc : Scope) (h : HReg) (p : Pred), Issues s g →
    let w := lanesOf g c
    let busy := fun l => ∃ b, b ∈ s.accs ∧ b.wg = g.wg ∧ b.seq < s.uidNext ∧ ∃ q, q ∈ b.lanes ∧ q.tid = (g.lane l).tid ∧ q.done = false
    ((∀ l, Lane.mem w l → ¬ busy l) → Passes (.fence c sc) s s { g with gate := .none }) ∧
    ((∃ l, Lane.mem w l ∧ busy l) → Waits (.fence c sc) s g (.accesses w false)) ∧
    ((∀ l, Lane.mem w l → s.handleOf g h l ≠ 1) → Passes (.waitf c h) s s { g with gate := .none }) ∧
    (∀ ls : List Nat, ls ≠ [] → ls.Pairwise (· < ·) → (∀ l, l ∈ ls ↔ Lane.mem w l ∧ s.handleOf g h l = 1) →
      Waits (.waitf c h) s g (.handles (ls.map fun l => (l, (g.lane l).h.getD h.val 0)))) ∧
    ∃ k, exec (.testf c p h) s = .next (s.nextWord k) ∧ WrotePred g k w p.val (fun l => s.handleOf g h l != 1) ∧ Raised g k w (fun _ => flNone) 0) ∧
  (∀ (s : State) (g : Group) (c : Ctl) (n : BitVec 8) (v : BitVec 16) (y : Src) (o : Opnd) (a : VReg), Issues s g → g.lanes.length = 32 → lanesOf g c ≠ 0 →
    let w := lanesOf g c
    let sem := s.semGet (clusterOf g.core) n.toNat
    let had := fun (l : Nat) => ∃ k need m, g.gate = .sem k need m ∧ m.getLsbD l = true
    let met := fun (th : Nat → Word) (l : Nat) => (sem - th l).toNat < 2 ^ 31 ∨ had l
    let semwait := fun (i : Instr) (th : Nat → Word) (fl : FlagSet) =>
      ((∀ l, Lane.mem w l → met th l) → ∃ h, exec i s = .next (s.nextWord h) ∧ Raised g h w (fun _ => fl) 0 ∧
        h = { g with gate := .none, status := h.status, lanes := h.lanes, window := h.window, latch := h.latch } ∧ ∀ l, h.lane l = { g.lane l with accr := (h.lane l).accr }) ∧
      ((∃ l, Lane.mem w l ∧ ¬ met th l) → ∃ sat : Mask, (∀ l, Lane.mem w l → (sat.getLsbD l = true ↔ met th l)) ∧ Waits i s g (.sem n.toNat ((maskBits w).map fun l => (l, th l)) sat))
    let index := fun (l : Nat) => (g.read a.val l).1.toNat
    let desc := fun (l : Nat) => s.descGet g.core (index l)
    let was := fun (l : Nat) => ∃ b need m, g.gate = .tile b need m ∧ m.getLsbD l = true
    let tile := fun (i : Instr) (full : Bool) =>
      ((∀ l, Lane.mem w l → (desc l).getLsbD 63 = full ∨ was l) → Passes i s s { g with gate := .none }) ∧
      ((∃ l, Lane.mem w l ∧ (desc l).getLsbD 63 ≠ full ∧ ¬ was l) → ∃ sat : Mask, (∀ l, Lane.mem w l → (sat.getLsbD l = true ↔ (desc l).getLsbD 63 = full ∨ was l)) ∧
        Waits i s g (.tile full ((maskBits w).map fun l => (l, index l)) sat))
    semwait (.semwaitImm c n v) (fun _ => v.setWidth 32) flNone ∧
    (s.operand g w y (.int 32 false) = .ok o → semwait (.semwait c n y) (fun l => BitVec.ofNat 32 (o.at g l).1) o.fl) ∧
    ((∀ l, Lane.mem w l → index l < 1024 ∧ tileValid (desc l) (s.tileBytes (s.wg g.wg)) = true) → tile (.tilewaitFull c a) true ∧ tile (.tilewaitEmpty c a) false) ∧
    ∀ l h i, i = .tilewaitFull c a ∨ i = .tilewaitEmpty c a → w = bit1 l → l < 32 → g.gate = .none → g.sleeve = none → (1024 ≤ index l ∨ tileValid (desc l) (s.tileBytes (s.wg g.wg)) = false) → Trappable s g cMEMFLT h →
      ∃ t, exec i s = .next t ∧
        Delivered s t { g with window := [], latch := [] } (g.record { trapOf cMEMFLT kTileInvalid w 0 with addr := some (BitVec.ofNat 64 (index l)) } false false g.pc) .precise h)

/-- R188, R192, R218: BAR and NBAR of all live lanes wait at the word, with .p marked; once every group of the workgroup, or of the neighbourhood, that has a live lane has arrived and every access of its workgroups is performed, the sealed copies too where one publishes, all of them go on and memory is as before; an NBAR of which none publishes waits only
for accesses to local space and for those that wait for their replay, and one that publishes removes the partition's L1 lines from the cores. Until a group has arrived the barrier does not complete. -/
def Obligations.Barriers : Prop :=
  ∀ (s : State) (g : Group) (c : Ctl) (pub nbar : Bool) (n : Nat) (w : Wg),
    (Issues s g → Plain g → g.sleeve = none → lanesOf g c = g.live → Waits (.bar c pub) s g (.bar pub) ∧ Waits (.nbar c pub) s g (.nbar pub)) ∧
    (Issues s g → Plain g → g.sleeve = none → lanesOf g c ≠ g.live → ∀ i h, i = .bar c pub ∨ i = .nbar c pub → Trappable s g cUNIMIS h →
      ∃ t, exec i s = .next t ∧ Delivered s t { g with window := [], latch := [] } (g.record (trapOf cUNIMIS 0 g.active (lanesOf g c)) false false g.pc) .precise h) ∧
    (s.wg? n = some w → (s.groups.map Group.uid).Nodup → (∀ h, h ∈ s.groups → h.retPending = none) →
      let part := fun (h : Group) => h ∈ s.groups ∧ h.sleeve = none ∧ h.live ≠ 0 ∧ if nbar then (s.wg h.wg).launch = w.launch ∧ (s.wg h.wg).nbr = w.nbr else h.wg = w.uid
      let arrived := fun (h : Group) => ∃ p, h.gate = if nbar then .nbar p else .bar p
      let published := ∃ h, part h ∧ h.gate = if nbar then .nbar true else .bar true
      let mine := fun (u : Nat) => ∃ h, part h ∧ h.wg = u
      ((∃ h, part h) → (∀ h, part h → arrived h) → (nbar = true → ∀ x ∈ s.saved, ¬ (x.wg.launch = w.launch ∧ x.wg.nbr = w.nbr)) →
        (∀ b ∈ s.accs, mine b.wg → nbar = true ∧ ¬ published ∧ (∀ t, b.op ≠ .loadS t) ∧ (∀ t, b.op ≠ .storeS t) ∧ b.op ≠ .loadH ∧ b.op ≠ .storeH ∧ (∀ op, b.op ≠ .atoms op) ∧ ∀ q ∈ b.lanes, q.fault = none) →
        (published → (∀ b ∈ s.batches, ¬ mine b.wg) ∧ ∀ m ∈ s.mops, (∃ t r, m.kind = .mstf t r) → ¬ mine m.wg) →
        ∃ t, exec (.barrierComplete n nbar) s = .next t ∧ t.mem = s.mem ∧ (∀ h, part h → ∃ k, t.group? h.uid = some k ∧ k.gate = .none ∧ k.v = h.v ∧ k.p = h.p ∧ k.live = h.live ∧ k.status = h.status) ∧
          (∀ u, (∀ h, part h → h.uid ≠ u) → t.group? u = s.group? u) ∧
          (nbar = true → published → ∀ h x, part h → x ∈ (t.core h.core).l1 → x.part ≠ h.part)) ∧
      ((∃ h, part h ∧ ¬ arrived h) → exec (.barrierComplete n nbar) s = .next s))

/-- R181, R183, R184, R186, R195, R215, R216: in one lane, on an object that can be read: ACQ.l of a free lock sets LOCK to 1 and the predicate to true, of a taken lock changes no byte and gives false; ACQ.g gives whether GEN has reached the value and changes no byte. An acquire that succeeds takes SCOPEMIS "above bound" where the scope asked is wider than the object's or the page's, and "not inclusive" where the record of the last
releaser does not share the instance of the smaller scope; else, at neighbourhood scope or wider, it leaves no L1 line of the object's region at the core. REL of a thread whose accesses, copies and stores of fragments are done applies the updates staged for the object's region, adds 1 to GEN, clears LOCK when it unlocks, and writes the record of the releaser; no other byte changes; while one of them is not done it waits; a scope above the bounds is SCOPEMIS. -/
def Obligations.AcquireAndRelease : Prop :=
  ∀ (s : State) (g : Group) (c : Ctl) (sc : Scope) (p : Pred) (a b : VReg) (u : Bool) (l : Nat) (o : SyncObj), Issues s g → lanesOf g c = bit1 l → l < 32 → Formed g → p.val < g.p.length → p.val ≠ 63 →
    s.objectBusy g l (g.base a l) = false → s.syncObj g.part (g.base a l) = .ok o → o.page.sig = false → s.ras.marks = [] → Memory.wf s.mem = true → g.gate = .none → g.retPending = none →
    let n := scopeNum sc
    let within := n ≤ o.scope ∧ n ≤ o.page.maxScope
    let done := fun (i : Instr) (won : Bool) (mem : Nat → Byte) => ∃ (s1 : State) (h : Group), exec i s = .next (s1.nextWord h) ∧ (∀ k, memGet s1.mem k = mem k) ∧ WrotePred { g with gate := .none } h (bit1 l) p.val (fun _ => won) ∧ Raised g h (bit1 l) (fun _ => flNone) 0 ∧
      s1.groups = s.groups ∧ L1Without s s1 g.core g.part (g.base a l) 64 ∧ (won = true → 2 ≤ n → o.len ≠ 0 → L1Without s s1 g.core g.part o.base o.len)
    let traps := fun (i : Instr) (sub : Nat) => ∀ h, g.sleeve = none → Trappable s g cSCOPEMIS h → ∃ t, exec i s = .next t ∧
      Delivered s t { g with window := [], latch := [] } (g.record { trapOf cSCOPEMIS sub (bit1 l) 0 with addr := some (BitVec.ofNat 64 (g.base a l)) } false false g.pc) .precise h
    let number := fun (at' n v : Nat) (k : Nat) (m : Nat → Byte) => if at' ≤ k ∧ k < at' + n then BitVec.ofNat 8 (v / 2 ^ (8 * (k - at'))) else m k
    let acquire := fun (i : Instr) (won : Prop) (mem : Nat → Byte) =>
      (won → within → Inclusive s g l n o → done i true mem) ∧ (¬ won → done i false (memGet s.mem)) ∧
      (won → ¬ within → traps i 2) ∧ (won → within → ¬ Inclusive s g l n o → traps i 1)
    acquire (.acqLock c sc p a) (o.lock = 0) (fun k => number o.key 4 1 k (memGet s.mem)) ∧
    acquire (.acqGen c sc p a b) ((o.gen + 2 ^ 32 - (g.read b.val l).1.toNat) % 2 ^ 32 < 2 ^ 31) (memGet s.mem) ∧
    (¬ within → traps (.rel c u sc a) 2) ∧
    let tid := (g.lane l).tid
    let busy := (∃ x ∈ s.accs, x.wg = g.wg ∧ x.seq < s.uidNext ∧ ∃ q ∈ x.lanes, q.tid = tid ∧ q.done = false) ∨ (∃ x ∈ s.batches, x.wg = g.wg ∧ x.tid = tid ∧ x.id < s.uidNext) ∨
      ∃ m ∈ s.mops, (∃ t r, m.kind = .mstf t r) ∧ m.wg = g.wg ∧ m.id < s.uidNext ∧ tid ∈ m.tids
    (within → busy → Waits (.rel c u sc a) s g (.accesses (bit1 l) true)) ∧
    (within → ¬ busy →
      let mine := fun (x : Staged) => o.base < x.va + x.op.size ∧ x.va < o.base + o.len
      let s0 := if o.len = 0 then s else s.applyOrd g.part fun _ x => decide (mine x)
      ∃ (s1 : State) (h : Group), exec (.rel c u sc a) s = .next (s1.nextWord h) ∧ h = { g with gate := .none, window := h.window, latch := h.latch } ∧
        (o.len ≠ 0 → ∀ x ∈ s1.launches, x.part = g.part → ∀ y ∈ x.staged, ¬ mine y) ∧
        ((∀ x ∈ s.launches, x.part = g.part → ∀ y ∈ x.staged, ¬ mine y) → s0.mem = s.mem) ∧
        (∀ k, memGet s1.mem k =
          if o.key + 0x20 ≤ k ∧ k < o.key + 0x38 then memGet s1.mem k
          else number (o.key + 4) 4 ((o.gen + 1) % 2 ^ 32) k fun k => if u = true ∧ o.key ≤ k ∧ k < o.key + 4 then 0 else memGet s0.mem k) ∧
        memNum s1.mem (o.key + 0x20) 8 = 2 ^ 63 + n * 2 ^ 60 + s.accel g.part * 2 ^ 48 + g.launch % 2 ^ 32 ∧
        memNum s1.mem (o.key + 0x28) 8 = ((s.wg g.wg).wgid - (s.wg g.wg).wgrank) % 2 ^ 32 * 2 ^ 32 + (s.wg g.wg).wgid % 2 ^ 32 ∧
        memNum s1.mem (o.key + 0x30) 8 = (s.homeOf g l).gseq % 2 ^ 32)

/-- R189, R222, R223, R225: COPY adds a copy to the open batch of each acting lane; SEAL of one lane takes a handle, starts the batch and empties it, and of an empty batch is complete at once, with the named semaphore incremented; a batch of one copy within a 128-byte line of memory moves its bytes once the accesses before it are performed, and the handle that names it
becomes complete; one that meets a fault stops, with a trap due in its thread's group; a batch being cancelled ends with its handle cancelled. R225: CANCELF of one lane: a handle that is not pending is left alone; a cancellable batch that is running is marked; a slice query ends with 0 in the register pair of its live lane and its handle cancelled. -/
def Obligations.CopyBatchesAndCancel : Prop :=
  (∀ (s : State) (g : Group) (c : Ctl) (ds ss : CpSpace) (a b e : VReg) (k : HReg) (cb : Bool) (sem : Option (BitVec 8)) (l : Nat), Issues s g → g.lanes.length = 32 →
    ((∀ l, Lane.mem (lanesOf g c) l → copyFault g ds ss a b e l = none) →
      ∃ h, exec (.copy c ds ss a b e) s = .next (s.nextWord h) ∧ h = { g with lanes := h.lanes, window := h.window, latch := h.latch } ∧
        ∀ l, h.lane l = if l < 32 ∧ (lanesOf g c).getLsbD l = true ∧ (g.read e.val l).1 ≠ 0 then
          { g.lane l with batch := (g.lane l).batch ++ [⟨ds, ss, copyAddr g ds a l, copyAddr g ss b l, (g.read e.val l).1.toNat⟩] } else g.lane l) ∧
    (lanesOf g c = bit1 l → l < 32 → (g.lane l).h.length = 16 → (s.wg? g.wg).isSome = true → (s.wg g.wg).handles.length = 256 → (s.wg g.wg).uid = g.wg →
      ((g.lane l).batch ≠ [] → ∃ (s1 : State) (h : Group) (y : Batch), exec (.seal c cb k sem) s = .next (s1.nextWord h) ∧ s1.batches = s.batches ++ [y] ∧ y.copies = (g.lane l).batch ∧ y.cancellable = cb ∧ y.tid = (g.lane l).tid ∧
        y.sem = sem.map BitVec.toNat ∧ y.state = .running ∧ y.moved = 0 ∧ h = { g with lanes := h.lanes, window := h.window, latch := h.latch } ∧ (∀ m, m ≠ l → h.lane m = g.lane m) ∧ (h.lane l).batch = [] ∧ s1.handleOf h k l = 1 ∧ s1.mem = s.mem) ∧
      ((g.lane l).batch = [] → ∃ (s1 : State) (h : Group), exec (.seal c cb k sem) s = .next (s1.nextWord h) ∧ s1.batches = s.batches ∧ s1.handleOf h k l = 2 ∧ s1.mem = s.mem ∧
        h = { g with lanes := h.lanes, window := h.window, latch := h.latch } ∧ (∀ m, m ≠ l → h.lane m = g.lane m) ∧
        (∀ n, sem = some n → s1.semGet (clusterOf g.core) n.toNat = s.semGet (clusterOf g.core) n.toNat + 1)))) ∧
  (∀ (s : State) (g : Group) (k : HReg) (l : Nat) (x : Batch) (m : CopyOp) (p q : Page) (n : Nat), s.batches.find? (fun y => y.id == x.id) = some x → x.wg = g.wg → x.ent < 256 →
    (s.wg? g.wg).isSome = true → (s.wg g.wg).handles.length = 256 → (s.wg g.wg).uid = g.wg →
    let names := s.handleOf g k l = 1 ∧ ((g.lane l).h.getD k.val 0).toNat % 256 = x.ent
    let first := ∀ b ∈ s.accs, b.wg = x.wg → b.seq < x.id → ∀ r ∈ b.lanes, r.tid = x.tid → r.done = true
    (x.copies = [m] → x.moved = 0 → x.state = .running → first → m.ds = .g → m.ss = .g → 0 < m.len → m.len % 4 = 0 → m.dst % 128 + m.len ≤ 128 → m.dst + m.len < 2 ^ 57 → m.src + m.len < 2 ^ 57 →
      (∀ i, 4 * i < m.len → s.translate x.part (m.src + 4 * i) needR true = .ok { q with key := q.key + 4 * i }) → q.sig = false → s.ras.marks = [] →
      (s.translate x.part m.dst needW true = .ok p → p.sig = false → Memory.wf s.mem = true → x.sem = none →
        ∃ t, exec (.copyBatchComplete x.id) s = .next t ∧ t.batches = s.batches.filter (fun y => y.id != x.id) ∧ (names → t.handleOf g k l = 2) ∧ t.groups = s.groups ∧
          ∀ k, memGet t.mem k = if p.key ≤ k ∧ k < p.key + m.len then memGet s.mem (q.key + (k - p.key)) else memGet s.mem k) ∧
      (s.translate x.part m.dst needW true = .error n →
        ∃ t, exec (.copyEngineFault x.id) s = .next t ∧ t.mem = s.mem ∧ (∃ y, t.batches.find? (fun y => y.id == x.id) = some y ∧ y.state = .faulted ∧ y.copies = x.copies) ∧ (names → t.handleOf g k l = 1) ∧
          ∀ h, s.group? ((s.threadAt x.wg x.tid).getD (x.uid, x.slot)).1 = some h → h.phase ≠ .retired → ∃ h1 r, t.group? h.uid = some h1 ∧ h1 = { h with due := h.due ++ [⟨r, .batch x.id, x.id⟩] } ∧
            r.cause = cMEMFLT ∧ r.sub = n ∧ r.addr = BitVec.ofNat 64 m.dst ∧ r.eng = true ∧ r.deferred = true)) ∧
    (x.state = .cancelling → x.sem = none →
      ∃ t, exec (.copyBatchCancelled x.id) s = .next t ∧ t.batches = s.batches.filter (fun y => y.id != x.id) ∧ t.mem = s.mem ∧ (names → t.handleOf g k l = 3) ∧ t.groups = s.groups)) ∧
  (∀ (s : State) (g : Group) (c : Ctl) (h : HReg) (l : Nat), Issues s g → lanesOf g c = bit1 l → l < 32 →
    let hw := (g.lane l).h.getD h.val 0
    let done := fun (ok : State → Prop) => ∃ s1, exec (.cancelf c h) s = .next (s1.nextWord ((s1.group g.uid).issued [] [])) ∧ s1.mem = s.mem ∧ ok s1
    (s.handleOf g h l ≠ 1 → done fun s1 => s1.groups = s.groups ∧ s1.batches = s.batches ∧ s1.mops = s.mops ∧ s1.sliceqs = s.sliceqs) ∧
    (s.handleOf g h l = 1 → bits hw.toNat 27 3 = 1 → done fun s1 => s1.groups = s.groups ∧
      (∀ x, x ∈ s1.batches → x.wg = g.wg → x.ent = hw.toNat % 256 → x.cancellable = true → x.state ≠ .running) ∧
      ∀ x, x ∈ s.batches → (x.wg ≠ g.wg ∨ x.ent ≠ hw.toNat % 256 ∨ x.cancellable = false) → x ∈ s1.batches) ∧
    (s.handleOf g h l = 1 → bits hw.toNat 27 3 = 2 → ∀ q k, s.sliceqs.find? (fun q => q.wg == g.wg && q.ent == hw.toNat % 256) = some q → s.group? q.uid = some k → Lane.mem k.live q.slot → q.dst + 2 ≤ k.v.length →
      (s.wg? g.wg).isSome = true → (s.wg g.wg).handles.length = 256 → (s.wg g.wg).uid = g.wg →
      done fun s1 => s1.sliceqs = s.sliceqs.filter (fun x => x.id != q.id) ∧ s1.handleOf g h l = 3 ∧ ∃ k1, s1.group? q.uid = some k1 ∧ k1.stored q.dst q.slot = (0, FULL) ∧ k1.stored (q.dst + 1) q.slot = (0, FULL)))

/-- R228, R329: SLICEQ of one lane takes a pending handle, counts the key and records the query; when the query of a slice ends, a resident slice gives bit 63, its pin bit and the address of its frame, an absent one that is not filled, and a flushed query, gives 0, in the register pair of the lane, and the
handle that names it becomes complete. -/
def Obligations.SliceQueries : Prop :=
  ∀ (s : State) (g : Group) (c : Ctl) (fill : Bool) (k : HReg) (d b : VReg) (l : Nat) (q : SliceQ), (s.wg? g.wg).isSome = true → (s.wg g.wg).handles.length = 256 → (s.wg g.wg).uid = g.wg →
    (Issues s g → lanesOf g c = bit1 l → l < 32 → g.lanes.length = 32 → (g.lane l).h.length = 16 → d.val + 2 ≤ g.decl.ng →
      ∃ (s1 : State) (h : Group) (y : SliceQ), exec (.sliceq c fill k d b) s = .next (s1.nextWord h) ∧ s1.sliceqs = s.sliceqs ++ [y] ∧ y.key = (g.read b.val l).1.toNat % 2 ^ 12 ∧ y.fill = fill ∧ y.slot = l ∧ y.dst = d.val ∧
        y.uid = g.uid ∧ y.flushed = false ∧ s1.handleOf h k l = 1 ∧ s1.mem = s.mem ∧ h = { g with lanes := h.lanes, window := h.window, latch := h.latch } ∧
        ((s1.part g.part).count y.key = min ((s.part g.part).count y.key + 1) (2 ^ 32 - 1))) ∧
    (s.sliceqs.find? (fun y => y.id == q.id) = some q → q.wg = g.wg → q.ent < 256 → s.group? q.uid = some g → Lane.mem g.live q.slot → q.dst + 2 ≤ g.v.length →
      (q.flushed = true ∨ q.fill = false ∨ ((s.part q.part).lookup q.key (dieOf (clusterOf q.core))).isSome = true) →
      let r := if q.flushed then 0 else match (s.part q.part).lookup q.key (dieOf (clusterOf q.core)) with
        | none => 0
        | some x => 2 ^ 63 + (if (s.part q.part).pins.contains q.key then 2 ^ 62 else 0) + (s.part q.part).frameVa x.frame % 2 ^ 57
      ∃ t h, exec (.sliceQueryComplete q.id) s = .next t ∧ t.mem = s.mem ∧ t.group? q.uid = some h ∧ t.sliceqs = s.sliceqs.filter (fun x => x.id != q.id) ∧
        h.stored q.dst q.slot = (BitVec.ofNat 32 r, FULL) ∧ h.stored (q.dst + 1) q.slot = (BitVec.ofNat 32 (r / 2 ^ 32), FULL) ∧
        (∀ x m, Lane.mem g.live m → (x < q.dst ∨ q.dst + 2 ≤ x ∨ m ≠ q.slot) → h.stored x m = g.stored x m) ∧ h.p = g.p ∧ h.status = g.status ∧
        (s.handleOf g k l = 1 → ((g.lane l).h.getD k.val 0).toNat % 256 = q.ent → t.handleOf g k l = 2))

/-! ## Matrix words and engine events, the P-form, unassigned opcodes (R71, R72, R76, R225, R231 to R258) -/

/-- R231, R234, R238, R250: where the operands are the same in every acting lane, the block is well formed and base and pitch are multiples of 4, each matrix word that posts an operation completes: it appends one operation that waits, with the block read, the kind, the start, and the
engine's numbers, takes a pending handle in every acting lane, counts on the completion flag, and leaves registers and memory alone. Operands that differ between acting lanes take UNIMIS and post nothing. -/
def Obligations.MatrixWordsPost : Prop :=
  ∀ (s : State) (g : Group) (c : Ctl) (f sp andq : Bool) (fs : Fin 8) (rm : Rm) (h : HReg) (a b e : VReg) (y : Src) (oy : Opnd) (k : PassKind) (sel : FragSel) (t : MstTy) (off base pitch start : Nat) (blk : List Word) (ba bb : List Byte) (uids : List Nat),
    Issues s g → Plain g → g.sleeve = none → g.merge = .none → lanesOf g c ≠ 0 → g.lanes.length = 32 →
    let w := lanesOf g c
    let i0 := [Instr.mma c f fs rm h a, .mmas c f fs rm h a, .mmab c f fs rm andq h a]
    ((∀ l, Lane.mem w l → (g.lane l).h.length = 16 ∧ offOf g a l = off) → (s.wg? g.wg).isSome = true → (s.wg g.wg).uid = g.wg → (s.wg g.wg).handles.length = 256 →
      let num := (s.fslot g fs.val).headD 0
      let posts := fun (i : Instr) (kind : MopKind) (base pitch start : Nat) (fl : FlagSet) => ∃ (m : Mop) (s1 : State) (g1 : Group), exec i s = .next (s1.nextWord g1) ∧ s1.mops = s.mops ++ [m] ∧ s1.mem = s.mem ∧ s1.groups = s.groups ∧
        m.kind = kind ∧ m.state = .posted ∧ m.blk = blk ∧ m.blkAddr = off ∧ m.bma = ba ∧ m.bmb = bb ∧ m.fs = s.fslot g fs.val ∧ m.base = base ∧ m.pitch = pitch ∧ m.start = start ∧ m.step = start ∧ m.perf = 0 ∧ m.wg = g.wg ∧ m.uid = g.uid ∧ m.mode = g.mode ∧
        m.cf = hdrFlag g.cl.hdr f ∧ (∀ l, Lane.mem w l → s1.handleOf g1 h l = 1) ∧ Raised g g1 w (fun _ => fl) 0 ∧
        g1 = { g with cf := (g.cfInc (hdrFlag g.cl.hdr f)).cf, status := g1.status, lanes := g1.lanes, window := g1.window, latch := g1.latch } ∧
        ∀ l, g1.lane l = { g.lane l with h := (g1.lane l).h, accr := (g1.lane l).accr }
      let reads := fun (u : BlkUse) (st : Nat) => BlockOk s g u num off st blk ba bb uids
      (reads ⟨true, true, true, true, false, false⟩ 0 → posts (.mma c f fs rm h a) (.pass .dense) 0 0 0 flNone ∧ posts (.mmab c f fs rm andq h a) (.pass (if andq then .and else .xor)) 0 0 0 flNone) ∧
      (reads ⟨true, true, true, true, false, true⟩ 0 → posts (.mmas c f fs rm h a) (.pass .sparse) 0 0 0 flNone) ∧
      (s.operand g w y (.int 32 false) = .ok oy → (∀ l, Lane.mem w l → (oy.at g l).1 = start) → reads ⟨true, true, true, true, false, k == .sparse⟩ start → posts (.mresume c f fs rm k h a y) (.pass k) 0 0 start oy.fl) ∧
      ((∀ l, Lane.mem w l → g.base b l = base ∧ offOf g e l = pitch) → base % 4 = 0 → pitch % 4 = 0 →
        (reads ⟨sel == .a, sel == .b, sel == .c, false, false, sp⟩ 0 → posts (.mldf c f fs sel sp h a b e) (.mldf sel sp) base pitch 0 flNone) ∧
        (rmMode g rm ≠ 6 → reads ⟨false, false, true, false, false, false⟩ 0 → posts (.mstf c f fs rm t h a b e) (.mstf t (rmMode g rm)) base pitch 0 flNone))) ∧
    ((∃ l m, Lane.mem w l ∧ Lane.mem w m ∧ offOf g a l ≠ offOf g a m) → ∀ i ∈ i0, ∀ h, Trappable s g cUNIMIS h →
      ∃ t, exec i s = .next t ∧ t.mops = s.mops ∧ Delivered s t { g with window := [], latch := [] } (g.record (trapOf cUNIMIS 0 g.active w) false false g.pc) .precise h)

/-- R253, R254: MZERO, where no lock and no earlier write stands on the accumulators, leaves every word of the accumulator fragment +0 with tag FULL, and all other registers and memory as they were; while one stands it waits with the block read. MQRY of a handle without a pending pass gives 0 and its state with phase 3, and of a pending
operation the step and count of a pass, the state, and whether it waits (0), runs (1) or has stopped (2). R350 E002: a pass that stopped at most 8 clocks ago still reads as running. -/
def Obligations.MatrixZeroAndQuery : Prop :=
  ∀ (s : State) (g : Group) (c : Ctl) (a d : VReg) (h : HReg) (off : Nat) (blk : List Word) (ba bb : List Byte) (uids : List Nat), Issues s g → Plain g → g.sleeve = none → lanesOf g c ≠ 0 → g.retPending = none →
    (g.gate = .none → (s.wg? g.wg).isSome = true → (s.groups.map Group.uid).Nodup → (∀ l, Lane.mem (lanesOf g c) l → offOf g a l = off) → BlockOk s g ⟨false, false, true, false, true, false⟩ 0 off 0 blk ba bb uids →
      (∀ i ∈ (layC blk).groups, ∀ k, s.gidGroup? g.wg i = some k → k.v.length = k.decl.total ∧ k.decl = (s.wgNode (s.wg g.wg)).decl) →
      let x := layC blk
      let held := (∃ m ∈ s.mops, m.wg = g.wg ∧ ∃ y ∈ m.reads ++ m.writes, x.meets y = true) ∨
        (∃ b ∈ s.accs, b.wg = g.wg ∧ b.seq < s.uidNext ∧ ∃ r n sh, b.dst = .regs r n sh ∧ ∃ i, i < n ∧ x.has (s.group b.uid).gid (r + i) = true) ∨
        ∃ q ∈ s.sliceqs, q.wg = g.wg ∧ q.id < s.uidNext ∧ ∃ i, i < 2 ∧ x.has (s.group q.uid).gid (q.dst + i) = true
      (¬ held → ∃ t, exec (.mzero c a) s = .next t ∧ t.mem = s.mem ∧ (∀ j, j < x.words → t.fragWord g.wg x j = (0, FULL)) ∧
        ∀ k, s.group? k.uid = some k → ∃ k1, t.group? k.uid = some k1 ∧ k1.p = k.p ∧ k1.status = k.status ∧ k1.live = k.live ∧
          ∀ r, ¬ (k.wg = g.wg ∧ k.sleeve = none ∧ x.has k.gid r = true) → k1.reg r = k.reg r) ∧
      (held → Waits (.mzero c a) s g (.accum blk s.uidNext))) ∧
    (Writes s g c d.val 2 →
      let word := fun (l : Nat) => (g.lane l).h.getD h.val 0
      let done := fun (f : Nat → Nat) => ∃ g1, exec (.mqry c d h) s = .next (s.nextWord g1) ∧ Wrote g g1 false (lanesOf g c) d.val 2 (whole fun l => (f l, FULL)) ∧ Raised g g1 (lanesOf g c) (fun _ => flNone) 0
      ((∀ l, Lane.mem (lanesOf g c) l → s.handleOf g h l ≠ 1 ∨ bits (word l).toNat 27 3 ≠ 0) → done fun l => 2 ^ 32 * (s.handleOf g h l * 2 ^ 30 + 3 * 2 ^ 28)) ∧
      ∀ m : Nat → Mop, (∀ l, Lane.mem (lanesOf g c) l → s.handleOf g h l = 1 ∧ bits (word l).toNat 27 3 = 0 ∧ s.mops.find? (fun x => x.wg == g.wg && x.ent == (word l).toNat % 256) = some (m l)) →
        done fun l =>
          let phase := match (m l).state with
            | .posted => 0
            | .running => 1
            | .stopping => 1
            | .stopped => if (m l).isPass = true ∧ ∃ t, (m l).stopClk = some t ∧ s.clock g.core ≤ t + 8 then 1 else 2
          (if (m l).isPass then (m l).step else 0) + 2 ^ 32 * (2 ^ 30 + phase * 2 ^ 28 + if (m l).isPass then (m l).perf else 0))

/-- R232, R255 to R257: a grant starts the operation that comes next; an operation that is running and meets no fault ends, its handle complete; one that meets a fault stops; a stopping one that is not cancelled waits again, and a cancelled transfer ends with its handle cancelled. R239, R240, R243, R245, R250, R251: a binary pass adds to every accumulator the number of positions at which the bits of its
line of A and its column of B differ, or are both 1; a dense pass without scales takes every accumulator through its blocks of 128 positions, in order, each by one step of R51 and R56, whose exact sum, conversion and addition are each rounded once to FP32; MLDF of an unpacked fragment leaves in it the words of memory at base, line and row, with their tags; MSTF in 32 bits leaves the accumulators in memory, line by line. -/
def Obligations.MatrixEngineRuns : Prop :=
  (∀ (s : State) (m : Mop) (cl : Nat) (tr : Bool),
    (s.mopNext cl tr = some m → s.mops.find? (fun x => x.id == m.id) = some m → ∃ t m1, exec (.matrixGrant cl tr) s = .next t ∧ t.mem = s.mem ∧ t.groups = s.groups ∧ t.mops.find? (fun x => x.id == m.id) = some m1 ∧ m1 = { m with state := .running, granted := true }) ∧
    (s.mops.find? (fun x => x.id == m.id) = some m → m.state = .running →
      (∀ s1 m1, s.mopRun State.mopUnit m.pieces m = (s1, m1, none) → m1.id = m.id → ∃ t, exec (.matrixComplete m.id) s = .next t ∧ ∀ x, x ∈ t.mops → x.id ≠ m.id) ∧
      (∀ s1 m1 e, s.mopRun State.mopUnit m.pieces m = (s1, m1, some e) → m1.id = m.id → (s1.group (s1.faultGroup m1)).phase ≠ .retired → ∃ t, exec (.matrixEngineFault m.id) s = .next t ∧ t.mem = s1.mem ∧ ∀ x, x ∈ t.mops → x.id = m.id → x.state = .stopped)) ∧
    (s.mops.find? (fun x => x.id == m.id) = some m → m.state = .stopping → m.isPass = false →
      (m.cancel = false → ∃ t, exec (.matrixOperationStop m.id) s = .next t ∧ t.mem = s.mem ∧ ∀ x, x ∈ t.mops → x.id = m.id → x.state = .posted) ∧
      (m.cancel = true → ∃ t, exec (.matrixOperationStop m.id) s = .next t ∧ t.mem = s.mem ∧ (∀ x, x ∈ t.mops → x.id ≠ m.id) ∧
        ∀ w, s.wg? m.wg = some w → m.ent < w.handles.length → ∃ w1, t.wg? m.wg = some w1 ∧ (w1.handles.getD m.ent default).st = 3))) ∧
  (∀ (s : State) (m : Mop) (w : Wg), s.mops.find? (fun x => x.id == m.id) = some m → m.state = .running → s.ras.marks = [] → (s.groups.map Group.uid).Nodup → s.wg? m.wg = some w → m.ent < w.handles.length →
    let here := fun (x : Lay) => x.rpg ≠ 0 ∧ ∀ i ∈ x.groups, ∃ h, s.gidGroup? m.wg i = some h ∧ x.v + min x.rpg x.regs ≤ h.v.length
    let ends := fun (ok : State → Prop) => ∃ t w1, exec (.matrixComplete m.id) s = .next t ∧ (∀ x, x ∈ t.mops → x.id ≠ m.id) ∧ t.wg? m.wg = some w1 ∧ (w1.handles.getD m.ent default).st = 2 ∧ ok t
    let M := blkM m.blk
    let N := blkN m.blk
    let K := blkK m.blk
    let acc := fun (t : State) (i j : Nat) => t.fragWord m.wg m.lc (i * N + j)
    let ea := fun (i k : Nat) => s.element m.wg m.la (fsA m.fs) M i k
    let eb := fun (j k : Nat) => s.element m.wg m.lb (fsB m.fs) N j k
    (m.isPass = true → m.sparse = false → m.step = 0 → 0 < K → here m.lc → m.la.meets m.lc = false → m.lb.meets m.lc = false →
      (∀ and : Bool, m.kind = .pass (if and then .and else .xor) → ends fun t => ∀ i j, i < M → j < N → acc t i j = ((acc s i j).1 +
        BitVec.ofNat 32 ((List.range K).countP fun k => if and then (ea i k).1 == 1 && (eb j k).1 == 1 else ((ea i k).1 == 1) != ((eb j k).1 == 1)), FULL)) ∧
      (m.kind = .pass .dense → fsAscl m.fs = 0 → fsBscl m.fs = 0 → fsGsc m.fs = false → ∀ c : Nat → Nat → Nat → Word × Tag,
        let factor := fun (code : Nat) (x : Nat × Tag) => passElt code (fsFtz m.fs) none none x.1 x.2
        let product := fun (i j k : Nat) => (let x := factor (fsA m.fs) (ea i k); let y := factor (fsB m.fs) (eb j k); ((xmul x.v y.v).1, min x.t y.t))
        (∀ i j, i < M → j < N → c 0 i j = acc s i j ∧ ∀ b, 128 * b < K → c (b + 1) i j =
          passStep ((List.range (min 128 (K - 128 * b))).map fun k => product i j (128 * b + k)) (.fin false 1 1) (.fin false 1 1) (c b i j).1.toNat (c b i j).2) →
        ends fun t => ∀ i j, i < M → j < N → acc t i j = c ((K + 127) / 128) i j)) ∧
    (∀ (sel : FragSel) (pg : Nat → Nat → Page), m.kind = .mldf sel false → m.perf = 0 →
      let x := match sel with | .a => m.la | .b => m.lb | .c => m.lc
      let lines := match sel with | .b => N | _ => M
      let rows := x.words / lines
      let va := fun (line r : Nat) => m.base + line * m.pitch + 4 * r
      here x → 0 < lines → lines * rows = x.words → (∀ line r, line < lines → r < rows → va line r < 2 ^ 57 ∧ va line r % 4 = 0 ∧ s.translate m.part (va line r) needR true = .ok (pg line r)) →
      ends fun t => t.mem = s.mem ∧ ∀ line r, line < lines → r < rows → t.fragWord m.wg x (match sel with | .c => line * N + r | _ => r * lines + line) =
        (BitVec.ofNat 32 (memNum s.mem (pg line r).key 4), s.tagAt (pg line r) (va line r))) ∧
    (∀ (ty : MstTy) (rm : Nat) (pg : Nat → Nat → Page), m.kind = .mstf ty rm → ty = .f32 ∨ ty = .s32 → m.perf = 0 → 0 < N → m.lc.words = M * N → Memory.wf s.mem = true →
      let va := fun (line n : Nat) => m.base + line * m.pitch + 4 * n
      (∀ line n, line < M → n < N → va line n < 2 ^ 57 ∧ va line n % 4 = 0 ∧ (∀ mem : Mem, ({ s with mem := mem }).translate m.part (va line n) needW true = .ok (pg line n)) ∧ (pg line n).sig = false) →
      (∀ l n l' n', l < M → n < N → l' < M → n' < N → (l, n) ≠ (l', n') → (pg l n).key + 4 ≤ (pg l' n').key ∨ (pg l' n').key + 4 ≤ (pg l n).key) →
      ends fun t => (∀ l n, l < M → n < N → memNum t.mem (pg l n).key 4 = (acc s l n).1.toNat) ∧
        ∀ k, (∀ l n, l < M → n < N → k < (pg l n).key ∨ (pg l n).key + 4 ≤ k) → memGet t.mem k = memGet s.mem k)) ∧
  ∀ (ps : List (XR × Nat)) (sa sb : XR) (c : Nat) (tc : Tag),
    let r := fun (z : XR) => (roundTo .f32 1 false false none 0 z).val
    let a := fdec .f32 c
    IsFin sa → IsFin sb → IsFin a → (∀ p ∈ ps, ∃ n x d, p.1 = .fin n x d ∧ d ≠ 0 ∧ 2 ^ 400 % d = 0) →
    ∃ sum scale q y : XR, Value sum ((ps.map fun p => ratOf p.1).sum) false ∧ Value scale (ratOf sa * ratOf sb) (sa.neg != sb.neg) ∧
      (IsFin (r sum) → IsFin (r scale) → Value q (ratOf (r sum) * ratOf (r scale)) ((r sum).neg != (r scale).neg) ∧
        (IsFin (r q) → Value y (ratOf (r q) + ratOf a) ((r q).neg && a.neg) ∧ (passStep ps sa sb c tc).1 = BitVec.ofNat 32 (roundTo .f32 1 false false none 0 y).bits))

/-- R71, R72: a P-form word of two slots with different destinations in registers of general capacity, of any of the operations of Table 3.8 each, completes: both slots read the registers as they were before the word and then each writes, in the lanes of its own guard, the result of the instruction of its mnemonic, with its tag; slot 0 draws its random words first; both raise their flags; NOP
does nothing. No other register, and no predicate, changes. A slot 1 whose result has a shape that its destination cannot take traps with the slot number, and neither slot writes. -/
def Obligations.PFormResults : Prop :=
  (∀ (s : State) (g : Group) (x0 x1 : PSlot) (r0 r1 : Nat → (Nat × Tag) × FlagSet) (d0 d1 : Nat), Issues s g → Formed g → g.sigte = false → SlotFits g x0 → SlotFits g x1 → (slotMask g x0 = 0 ∨ slotMask g x1 = 0 ∨ d0 ≠ d1) →
    let w0 := slotMask g x0
    let w1 := slotMask g x1
    (∀ l, Lane.mem w0 l → SlotGives s g x0 0 l d0 (r0 l)) → (∀ l, Lane.mem w1 l → SlotGives s g x1 (if w0.getLsbD l then slotDraws g x0 else 0) l d1 (r1 l)) →
    ∃ g1 h, exec (.pFormWord x0 x1) s = .next (s.nextWord h) ∧
      (∀ l, Lane.mem w0 l → h.read d0 l = (BitVec.ofNat 32 (r0 l).1.1, (r0 l).1.2) ∧ h.stored d0 l = h.read d0 l) ∧
      (∀ l, Lane.mem w1 l → h.read d1 l = (BitVec.ofNat 32 (r1 l).1.1, (r1 l).1.2) ∧ h.stored d1 l = h.read d1 l) ∧
      (∀ r l, l < 32 → (w0 = 0 ∨ r ≠ d0 ∨ (w0.getLsbD l = false ∧ g.live.getLsbD l = true)) → (w1 = 0 ∨ r ≠ d1 ∨ (w1.getLsbD l = false ∧ g.live.getLsbD l = true)) → h.stored r l = g.stored r l) ∧
      h.p = g.p ∧ Framed g h ∧ Framed g g1 ∧ Raised g g1 w0 (fun l => (r0 l).2) (slotDraws g x0) ∧ Raised g1 h w1 (fun l => (r1 l).2) (slotDraws g x1)) ∧
  ∀ (s : State) (g : Group) (gp : Pred) (gn : Bool) (d e : VReg) (h : Addr), Issues s g → Formed g → g.sleeve = none → g.writeSet gp.val gn ≠ 0 → g.decl.ng ≤ d.val → d.val < g.decl.total →
    (g.view e.val).shape = .general → Trappable s g cILLEGAL h → ∃ t, exec (.pFormWord .nop (.op .mov gp gn d (.reg e))) s = .next t ∧
      Delivered s t { g with window := [], latch := [] } (g.record { trapOf cILLEGAL 0x10 g.active (BitVec.ofNat 32 d.val) with slot1 := true } false false g.pc) .precise h

/-! ## Events of groups between words, formation, pre-emption (R60 to R62, R123, R142 to R160, R262 to R266, R319, R326, R328) -/

/-- R60, R144, R145, R147, R154, R319: the words of a clause arrive in the buffer of its sequencer from memory; a free issue port starts the clause that the choice of R145 gives, and a Sleeve context that is ready its own; a trap that is due is delivered
between clauses; a WAITJ at which every expected lane has arrived passes; a collector window closes after 24 clocks with its accesses kept. -/
def Obligations.ClauseEvents : Prop :=
  ∀ (s : State) (g : Group) (a : Addr) (page : Nat → Page) (core k : Nat) (c : Clause) (d : DueTrap) (h : Addr) (w : Mask) (x : Collector),
    let started := fun (i : Instr) (g1 : Group) => ∃ t y, exec i s = .next t ∧ t.group? g1.uid = some y ∧ y.phase = .issuing ∧ y.clause = some { c with pos := 0 } ∧ y.v = g1.v ∧ y.p = g1.p ∧ t.mem = s.mem ∧
      ∀ l, l < 32 → g1.onPath l = true → g1.helper.getLsbD l = false → y.active.getLsbD l = decide ((g1.lane l).next = a ∧ (g1.lane l).resume = none)
    let ready := fun (y : Group) => y ∈ s.noteReady.groups ∧ y.core = core ∧ y.sleeve = none ∧ s.noteReady.clauseReady y = true
    let pri := fun (y : Group) => (s.nodeOf y).pri
    let age := fun (y : Group) => y.readyAt.getD (s.clock core)
    let rot := fun (y : Group) => (y.slot + 48 - (s.core core).rotation) % 48
    (s.group? g.uid = some g → g.fetchAddr = some a → (∀ y, y ∈ g.buffer → y.addr ≠ a) → (g.phase = .waiting ∨ g.phase = .issuing) → s.ras.marks = [] →
      let word := fun i => BitVec.ofNat 64 (memNum s.mem (page i).key 8)
      (∀ i, i ≤ hdrLen (word 0) → s.translate g.part (a.toNat + 8 * i) needX true = .ok (page i)) →
      ∃ t, exec (.icacheFill g.uid true) s = .next t ∧ t.mem = s.mem ∧ (∀ u, u ≠ g.uid → t.group? u = s.group? u) ∧
        t.group? g.uid = some { g with buffer := (⟨a, word 0, (upFrom 1 (hdrLen (word 0))).map word, 0⟩ :: g.buffer).take 2 }) ∧
    (∀ g1, (s.core core).port = none → ready g1 → (∀ y, ready y → y ≠ g1 → pri y < pri g1 ∨ (pri y = pri g1 ∧ (age g1 < age y ∨ (age g1 = age y ∧
        ((g1.yielded = false ∧ y.yielded = true) ∨ (g1.yielded = y.yielded ∧ rot g1 < rot y)))))) → g1.clause = none → g1.startable = some ((a, none), c) → hdrBad c.hdr = false → started (.clauseStart (.core core)) g1) ∧
    (s.group? g.uid = some g → g.sleeve.isSome = true → s.clauseReady g = true → g.clause = none → g.startable = some ((a, none), c) → hdrBad c.hdr = false → started (.clauseStart (.sleeve g.uid)) g) ∧
    (g.sleeve = none → g.clause = none → g.phase = .waiting → d ∈ g.due → (∀ e, e ∈ g.due → e ≠ d → DueTrap.rank d < DueTrap.rank e) → Trappable s g d.tr.cause h →
      ∃ t r, exec (.trapDelivery g.uid) s = .next t ∧ r = { d.tr with resume := r.resume } ∧ (d.tr.ej = true → r = d.tr) ∧
        (∀ l, d.tr.ej = false → Lane.mem g.live l → d.tr.lanes.getLsbD (g.lane l).pos = true → (∀ m, m < l → Lane.mem g.live m → d.tr.lanes.getLsbD (g.lane m).pos = false) → r.resume = (g.lane l).next) ∧
        Delivered s t { g with due := g.due.filter fun y => y != d } r d.kind h) ∧
    (s.group? g.uid = some g → g.sleeve = none → g.phase = .held → g.clause = none → g.frame = none → g.lanes.length = 32 → k < g.k.length → g.k.getD k 0 &&& g.live &&& ~~~w = 0 → w &&& g.live ≠ 0 →
      (∀ l, l < 32 → g.live.getLsbD l = true → g.helper.getLsbD l = false ∧ (w.getLsbD l = true → ∃ m, (g.lane l).state = .held a k m) ∧ (w.getLsbD l = false → ∀ b j m, (g.lane l).state ≠ .held b j m)) →
      ∃ t y, exec (.waitjPass g.uid) s = .next t ∧ t.mem = s.mem ∧ t.group? g.uid = some y ∧ y.k.getD k 0 = 0 ∧ y.v = g.v ∧ y.p = g.p ∧ y.phase = .waiting ∧
        ∀ l m, Lane.mem (w &&& g.live) l → (g.lane l).state = .held a k m → (y.lane l).state = .onPath ∧ (y.lane l).meet = m ∧ (y.lane l).next = (g.lane l).next) ∧
    ((s.core core).coll = some x → x.openedAt + 24 ≤ s.clock core → ∃ t, exec (.collectorWindowClose core) s = .next t ∧ (t.core core).coll = none ∧ t.accs = s.accs ∧ t.groups = s.groups ∧ t.mem = s.mem)

/-- R148 to R150, R158: a merge of two groups that can merge puts the lanes of the donor's path, with registers, predicates and identity, into slots of the host that hold no lane; after 64 clauses of one path a lane of another path runs; a group whose rejoin timer runs
out while it awaits an ejected lane yields its slot, takes the trap of RJTT when MODE asks for it, and later gets a free slot. -/
def Obligations.MergeAndPathTurns : Prop :=
  ∀ (s : State) (h d g : Group) (slot u : Nat),
    let age := fun (x : Group) => (s.noteReady.group x.uid).readyAt.getD 0
    (s.group? h.uid = some h → s.group? d.uid = some d → s.mergeable h d = true → (∀ x y, x ∈ s.residents h.core → y ∈ s.residents h.core → s.mergeable x y = true → age h ≤ age x) → h.lanes.length = 32 → d.lanes.length = 32 →
      ∃ t h1 d1 moved whole, exec (.merge h.uid d.uid) s = .next t ∧ t.mem = s.mem ∧ t.group? h.uid = some h1 ∧ t.group? d.uid = some d1 ∧ h1.merge = .host d.uid moved whole ∧ d1.merge = .donor h.uid ∧ d1.active = 0 ∧
        (∀ b, Lane.mem d.chosen b → ∃ a, (a, b) ∈ moved) ∧
        ∀ a b, (a, b) ∈ moved → a < 32 ∧ h.live.getLsbD a = false ∧ h.helper.getLsbD a = false ∧ Lane.mem d.chosen b ∧ h1.live.getLsbD a = true ∧ h1.active.getLsbD a = true ∧ (h1.lane a).tid = (d.lane b).tid ∧ (h1.lane a).meet = (d.lane b).meet ∧
          (∀ r, r < d.decl.ng → r < h.v.length → h1.stored r a = d.stored r b) ∧ ∀ q, q < h.p.length → (h1.p.getD q 0).getLsbD a = (d.p.getD q 0).getLsbD b) ∧
    (s.group? g.uid = some g → g.phase = .waiting → g.clause = none → g.merge = .none → 64 ≤ g.quantum → 2 ≤ g.paths.length → (∀ p, p ∈ g.paths → p.2 = none) → (∃ p, p ∈ g.paths ∧ g.pathLanes p &&& g.active &&& ~~~g.helper = 0) →
      ∃ t y p, exec (.pathQuantum g.uid) s = .next t ∧ t.mem = s.mem ∧ t.group? g.uid = some y ∧ y.quantum = 0 ∧ y.v = g.v ∧ y.p = g.p ∧ p ∈ g.paths ∧ g.pathLanes p &&& g.active &&& ~~~g.helper = 0 ∧
        ∀ l, l < 32 → g.helper.getLsbD l = false → y.active.getLsbD l = (g.pathLanes p).getLsbD l) ∧
    (s.group? g.uid = some g → g.phase = .held → g.heldSince = some u → 2 ^ modeRjto g.mode ≤ g.heldFor + (s.clock g.core - u) →
      ∃ t y, exec (.rejoinTimeout g.uid) s = .next t ∧ t.mem = s.mem ∧ t.group? g.uid = some y ∧ y.v = g.v ∧ y.lanes = g.lanes ∧
        (g.awaitsEjected = true → y.phase = .yielded) ∧ (g.awaitsEjected = false → y.phase = .held ∧ y.heldSince = some (s.clock g.core)) ∧ y.heldFor = 0 ∧
        (modeRjtt g.mode = false → y.due = g.due) ∧ (modeRjtt g.mode = true → ∃ x, y.due = g.due ++ [x] ∧ x.tr.cause = cBPT ∧ x.tr.info0 = 0xFFFFFFFE ∧ x.kind = .bpt)) ∧
    (s.group? g.uid = some g → g.phase = .yielded → g.awaitsEjected = false → s.slotFree g.core slot = true → s.wordsFree g.core g.decl = true →
      ∃ t y, exec (.yieldedRestore g.uid slot) s = .next t ∧ t.mem = s.mem ∧ t.group? g.uid = some y ∧ y.slot = slot ∧ y.v = g.v ∧ y.p = g.p)

/-- R153, R155, R157: once no register write of a group is pending, every live lane of the side that a branch chose becomes a Sleeve context of one lane with its registers, predicates and identity, and leaves the active mask; a context that has stopped and whose operations have
completed returns registers V0 to Vb, predicates and lane record to its home slot and is gone. -/
def Obligations.EjectionAndRecall : Prop :=
  ∀ (s : State) (g c h : Group) (m : Mask) (x : SleeveCtx),
    (s.group? g.uid = some g → g.ejectNext = some m → g.frame = none → (∀ z, z ∈ s.accs → z.uid = g.uid → z.dst ≠ .none → ∀ q, q ∈ z.lanes → q.slot < 32 ∧ (m &&& g.live).getLsbD q.slot = false) → (∀ z, z ∈ s.sliceqs → z.uid = g.uid → (m &&& g.live).getLsbD z.slot = false) →
      (∀ z, z ∈ s.mops → z.wg = g.wg → ∀ y, y ∈ z.writes → g.gid ∉ y.groups) → g.uid < s.uidNext → g.lanes.length = 32 → g.helper &&& g.live = 0 →
      ∃ t y, exec (.eject g.uid) s = .next t ∧ t.mem = s.mem ∧ t.group? g.uid = some y ∧ y.ejectNext = none ∧ y.v = g.v ∧ y.live = g.live ∧
        ∀ l, Lane.mem (m &&& g.live) l → (y.lane l).state = .ejected ∧ y.active.getLsbD l = false ∧
          ∃ e z, e ∈ t.groups ∧ e.sleeve = some z ∧ z.homeUid = g.uid ∧ z.slot = l ∧ z.bound = g.joinBound.getD 0 ∧ e.live = bit1 l ∧ e.active = bit1 l ∧ e.p = g.p ∧ e.mode = g.mode ∧ (e.lane l).tid = (g.lane l).tid ∧ (e.lane l).next = (g.lane l).next ∧
            ∀ r, r < g.decl.ng → r < g.v.length → e.stored r l = g.stored r l) ∧
    (s.group? c.uid = some c → c.sleeve = some x → c.phase = .stopped → s.contextDone c.uid = true → s.group? x.homeUid = some h → s.homeLocked h x.bound = false → h.uid ≠ c.uid → h.frame = none → h.lanes.length = 32 → x.slot < 32 → (c.lane x.slot).state ≠ .ejected →
      ∃ t y, exec (.recall c.uid) s = .next t ∧ t.mem = s.mem ∧ t.group? c.uid = none ∧ t.group? h.uid = some y ∧ y.live = h.live ∧ (y.lane x.slot).state ≠ .ejected ∧ (y.lane x.slot).tid = (c.lane x.slot).tid ∧
        (∀ r, r ≤ x.bound → r < c.decl.ng → r < h.v.length → y.stored r x.slot = c.stored r x.slot) ∧ (∀ r, x.bound < r → y.reg r = h.reg r) ∧
        (∀ q, q < h.p.length → q ≠ 63 → (y.p.getD q 0).getLsbD x.slot = (c.p.getD q 0).getLsbD x.slot) ∧ ∀ q l, q < h.p.length → l < 32 → l ≠ x.slot → (y.p.getD q 0).getLsbD l = (h.p.getD q 0).getLsbD l)

/-- R142, R262 to R266, R269, R283, R294: when what a node forms next has its reservation, its cores and its tiles, each member's workgroup forms there with the records, the numbers and the groups that R263 gives; 32 records of a bin of a lane node without out-edges form a workgroup on a core of the
partition that has a slot, register words and scratchpad for it, fewer once the first has waited 2^GTO clocks; a broadcast record that asks for no workgroup leaves the queue; an empty group frees its slot and its workgroup retires with its last group; a launch of which every node is closed, or which ends early and is quiet, leaves the machine with
everything of it and its packet completes; a cancelled launch ends with status 0x10. Which cluster's clock counts a record's wait is the model's choice (22). -/
def Obligations.GroupFormation : Prop :=
  ∀ (s : State) (l : Launch) (n core : Nat) (bin : Word) (g : Group) (x : Formation) (s2 : State),
    let s1 := s.noteWaiting
    let nd := l.node n
    let q := (l.queues.getD n []).filter fun r => (if nd.binen then (r.words.getD nd.binw 0).toNat else 0) == bin.toNat
    let groups := match nd.kind with | .lane => 1 | .collect => (x.unit.recs.length + 31) / 32 | _ => nd.wgg + 1
    let formed := fun (i : Instr) => ∃ t, exec i s = .next t ∧ t.mem = s2.mem ∧ ∀ k, k < x.cores.length → ∃ w, w ∈ t.wgs ∧ w.uid = s.uidNext + k * (groups + 1) ∧ w.launch = l.num ∧ w.node = n ∧ w.core = x.cores.getD k 0 ∧ w.wgrank = k ∧ w.nbr = s.uidNext ∧
      w.records = x.unit.recs ∧ w.wgid = x.unit.wgid + k ∧ w.state = .live ∧ ∀ j, j < groups → ∃ y, y ∈ t.groups ∧ y.wg = w.uid ∧ y.gid = j ∧ y.gseq = x.unit.gseq + k * groups + j ∧ y.core = w.core ∧ y.node = n ∧ y.launch = l.num
    let lane := fun (i : Instr) => ∃ t w y, exec i s = .next t ∧ t.mem = s.mem ∧ w ∈ t.wgs ∧ w.uid = s.uidNext ∧ w.launch = l.num ∧ w.node = n ∧ w.core = core ∧ w.records = q.take 32 ∧ w.wgid = l.nextWgid.getD n 0 ∧ w.state = .live ∧
      y ∈ t.groups ∧ y.wg = w.uid ∧ y.gid = 0 ∧ y.gseq = l.nextGseq.getD n 0 ∧ y.core = core ∧ ∀ k, k < 32 → y.live.getLsbD k = decide (k < q.length) ∧ (k < q.length → (y.lane k).next = nd.code ∧ (y.lane k).tid = (l.nextGseq.getD n 0 * 32 + k))
    let plain := s.launches = [l] ∧ l.det = false ∧ l.ending = none ∧ l.closing = none ∧ n < l.nodes.length ∧ nd.remote = false ∧ nd.kind = .lane ∧ nd.edges = [] ∧ nd.tileMap = 0 ∧ core ∈ s.partCores l.part ∧
      (s.residents core).length < 48 ∧ ((s.residents core).map fun y => y.decl.words).sum + nd.decl.words ≤ 65536 ∧ s.spUsed core + nd.scr ≤ 2 ^ 21 ∧ ∀ y, y ∈ s.groups → y.core = core → y.phase ≠ .yielded
    let forms := s1.launch? l.num = some l ∧ (∀ r, s1.gridRecord l n = some r → nd.kind = .broadcast → nd.gridSize r ≠ 0) ∧ State.switchAll l x.unit.lcore nd.lrec.tiles x.cores s1 = .ok s2
    let left := fun (i : Instr) => ∃ t, exec i s = .next t ∧ t.launch? l.num = none ∧ (∀ x, x ∈ t.groups → ∀ w, w ∈ s.wgs → w.uid = x.wg → w.launch ≠ l.num) ∧ ∀ p, p ∈ (t.queue l.queue).packets → p.id ≠ l.packet
    (forms → s1.formable l n bin.toNat core .ready = some x → formed (.groupForm l.num n core bin)) ∧
    (forms → s1.formable l n bin.toNat core .timeout = some x → formed (.gatherTimeout l.num n core bin)) ∧
    (∀ r, s1.launch? l.num = some l → l.ending = none → l.closing = none → nd.kind = .broadcast → s1.gridRecord l n = some r → (r.words.getD nd.goff 0).toNat = 0 → ∃ t, exec (.groupForm l.num n core bin) s = .next t ∧ t.mem = s.mem ∧ t.wgs = s.wgs ∧ t.groups = s.groups ∧
      ∀ k y, t.launch? l.num = some k → y ∈ k.queues.getD n [] → y.arrival ≠ r.arrival) ∧
    (plain → 32 ≤ q.length → lane (.groupForm l.num n core bin)) ∧
    (plain → nd.gto ≠ 0 → (∃ r, q.head? = some r ∧ r.time + 2 ^ nd.gto ≤ s.partClock l.part) → lane (.gatherTimeout l.num n core bin)) ∧
    (s.group? g.uid = some g → g.sleeve = none → g.live = 0 → (∀ c, c ∈ g.cf → c = 0) → g.clause = none → g.due = [] → g.frame = none → (g.phase = .waiting ∨ g.phase = .issuing ∨ g.phase = .held) → g.merge = .none →
      (∀ a, a ∈ s.accs → a.uid = g.uid → a.dst = .none ∧ a.op ≠ .emit) → (∀ y, y ∈ s.sliceqs → y.uid ≠ g.uid) → (∀ m, m ∈ s.mops → m.wg ≠ g.wg ∧ m.uid ≠ g.uid) → ((s.wg g.wg).regrouped = false ∨ ∀ y, Mate s g y → y.live = 0) → s.halted g = false →
      ((∃ y, y ∈ s.groups ∧ y.uid ≠ g.uid ∧ y.wg = g.wg ∧ y.phase ≠ .retired) → ∃ t, exec (.retire g.uid) s = .next t ∧ t.mem = s.mem ∧ t.wgs = s.wgs ∧ t.group? g.uid = some { g with phase := .retired }) ∧
      (∀ w, s.wg? g.wg = some w → (∀ y, y ∈ s.groups → y.uid ≠ g.uid → y.wg = g.wg → y.phase = .retired) → ∃ t, exec (.retire g.uid) s = .next t ∧ t.mem = s.mem ∧ (t.wg g.wg).state = .retired ∧
        t.group? g.uid = some { g with phase := .retired } ∧ ∀ k r, t.launch? w.launch = some k → r ∈ k.reserves → r.uid ∉ w.groups)) ∧
    (s.launch? l.num = some l → s.launchQuiet l = true →
      ((∃ st, l.ending = some st) → s.noContexts l = true → left (.graphLaunchEnd l.num)) ∧
      (l.ending = none → l.closing = none → (∀ x, x < l.nodes.length → (l.node x).remote = true ∨ s.closedNode l l.nodes.length x = true) → left (.graphLaunchEnd l.num))) ∧
    (s.launch? l.num = some l → l.ending = none → ∃ t l1, exec (.launchCancel l.num) s = .next t ∧ t.mem = s.mem ∧ t.launch? l.num = some l1 ∧ l1.ending = some 0x10 ∧ l1.staged = [] ∧ ∀ q, q ∈ l1.queues → q = [])

/-- R326 to R328: the request for pre-emption marks every live member of the neighbourhood; a workgroup that has stopped and drained is written to the lowest place of its save region with room and leaves its core; a saved workgroup continues on a core that takes it with registers, predicates, lanes,
MODE and STATUS as saved, in deterministic mode after the core has taken the tile state of its logical core. -/
def Obligations.PreemptionAndRestore : Prop :=
  ∀ (s : State) (w : Wg) (x : Saved) (l : Launch) (core a : Nat) (s1 : State),
    (s.wg? w.uid = some w → w.state = .live → (∃ y, y ∈ s.launches ∧ y.num = w.launch ∧ y.ending = none) → (s.preemptUnit w).all Wg.preemptReq = false →
      ∃ t, exec (.preempt w.uid) s = .next t ∧ t.mem = s.mem ∧ t.groups = s.groups ∧ ∀ y, y ∈ s.preemptUnit w → (t.wg y.uid).preemptReq = true) ∧
    (let img := (s.saveOf w).image (fun tid => aget 0 (s.launch w.launch).ordIdx (w.node * 2 ^ 40 + tid)) (s.tileBytes w)
     s.wg? w.uid = some w → w.state = .live → (∃ y, y ∈ s.launches ∧ y.num = w.launch ∧ y.ending = none) → s.preemptUnit w = [w] → w.preemptReq = true → s.preemptReady w = true → s.ras.marks = [] →
      (s.groups.map Group.uid).Nodup → (∀ g, g ∈ s.groups → g.wg = w.uid → ∀ d m k, g.merge ≠ .host d m k) →
      savePlace ((s.saved.filter fun y => y.wg.part == w.part).map fun y => (y.base, y.size)) (s.part w.part).saveb.toNat (s.part w.part).saves.toNat img.length = some a → s.vaStore w.part a img = some s1 →
      ∃ t y, exec (.preempt w.uid) s = .next t ∧ t.mem = s1.mem ∧ t.wg? w.uid = none ∧ (∀ g, g ∈ t.groups → g.wg ≠ w.uid) ∧ y ∈ t.saved ∧ y.base = a ∧ y.size = img.length ∧ y.wg = { w with preemptReq := false } ∧
        ∀ g, g ∈ s.groups → g.wg = w.uid → ∃ k, k ∈ y.groups ∧ k.uid = g.uid ∧ k.v = g.v ∧ k.p = g.p ∧ k.cf = g.cf ∧ k.lanes = g.lanes ∧ k.mode = g.mode ∧ k.status = g.status ∧ k.window = g.window) ∧
    (s.saved.find? (fun y => y.wg.uid == x.wg.uid) = some x → s.launch? x.wg.launch = some l → s.savedUnit x = [x] → s.restoreCores l [x] core = some [core] → State.switchAll l x.wg.lcore (l.node x.wg.node).lrec.tiles [core] s = .ok s1 →
      ∃ t, exec (.restore x.wg.uid core) s = .next t ∧ t.mem = s1.mem ∧ (l.det = false → s1 = s) ∧ { x.wg with core := core, restores := x.wg.restores + 1 } ∈ t.wgs ∧ (∀ y, y ∈ t.saved → y.wg.uid ≠ x.wg.uid) ∧
        ∀ g, g ∈ x.groups → ∃ k, k ∈ t.groups ∧ k.uid = g.uid ∧ k.core = core ∧ k.v = g.v ∧ k.p = g.p ∧ k.cf = g.cf ∧ k.lanes = g.lanes ∧ k.mode = g.mode ∧ k.status = g.status)

/-! ## UALink, packets, queues and command links (R275 to R278, R291 to R305, R316) -/

/-- R276 to R278, R316: a connect to an open port whose node takes remote records of that size gets its permits and a place among the receivers, one that asks for another size gets 0, one to a closed port is held; a grant fills the pool of its proxy; a record takes a permit and joins the
queue; returned permits join the pool; a due batch goes back; a report sets the pool; a close closes the source; an access to memory, with any atomic of Table 8.3, is served in the opened ranges only; a receiver reports to a peer that comes back the permits
that it holds for its senders. The clock by which a batch waits is the model's choice (23). -/
def Obligations.RemoteMessages : Prop :=
  ∀ (s : State) (l : Launch) (accel launch proxy port n size permits sender pa : Nat) (v : Receiver) (r : RecMsg) (bs : List Byte) (op : Aop) (mode : Word) (b c : List (Word × Tag)),
    let nd := l.node n
    let known := s.launch? l.num = some l
    let me : Connect := ⟨accel, launch * 4096 + proxy, port, n, size⟩
    let became := fun (i : Instr) (ok : State → Launch → Prop) => ∃ t l1, exec i s = .next t ∧ t.mem = s.mem ∧ t.groups = s.groups ∧ t.launch? l.num = some l1 ∧ ok t l1
    (known → s.portLaunch port = some l → proxy < 4096 → (∀ x, x ∈ l.receivers → ¬ (x.sender = me.sender ∧ x.accel = accel ∧ x.node = n)) →
      (n < l.nodes.length → nd.remote = false → nd.z = size → nd.pgrant ≠ 0 →
        ((s.allot l [(n, nd.pgrant)] []).isSome = true → became (.connect accel launch proxy port n size) fun t l1 => t.sent = s.sent ++ [(accel, .grant launch proxy nd.pgrant)] ∧ me ∉ t.connects ∧
          ∃ xs, xs.length = nd.pgrant ∧ l1.receivers = l.receivers ++ [⟨me.sender, accel, n, xs, [], 0, false, []⟩]) ∧
        (s.allot l [(n, nd.pgrant)] [] = none → became (.connect accel launch proxy port n size) fun t l1 => me ∈ t.connects ∧ t.sent = s.sent ∧ l1 = l)) ∧
      (nd.z ≠ size → became (.connect accel launch proxy port n size) fun t l1 => t.sent = s.sent ++ [(accel, .grant launch proxy 0)] ∧ l1 = l)) ∧
    (s.portLaunch port = none → ∃ t, exec (.connect accel launch proxy port n size) s = .next t ∧ me ∈ t.connects ∧ t.sent = s.sent ∧ t.mem = s.mem) ∧
    (known → nd.remote = true → n < l.pools.length → (l.pools.getD n default).granted = none →
      became (.permitGrant l.num n permits) fun _ l1 => l1.pools.getD n default = ⟨some permits, permits⟩ ∧ (permits < l.permitNeed n → l.closing = none → l1.closing = some 9) ∧ (l.permitNeed n ≤ permits → l1.closing = l.closing)) ∧
    (known → l.ending = none → l.receivers = [v] → v.sender = r.sender → v.accel = r.sacc → v.node = n → v.permits ≠ [] → v.closed = false → n < l.queues.length →
      became (.remoteRecord l.num n r) fun _ l1 => l1.receivers = [{ v with permits := v.permits.drop 1 }] ∧ l1.arrivals = l.arrivals + 1 ∧
        ∃ x, l1.queues.getD n [] = l.queues.getD n [] ++ [x] ∧ x.words = r.words ∧ x.tags = r.tags ∧ x.arrival = l.arrivals ∧ x.sender = some r.sender ∧ x.depth = r.depth ∧ x.store = v.permits.headD 0) ∧
    (known → n < l.pools.length →
      (became (.permitReturn l.num n permits) fun _ l1 => (l1.pools.getD n default).avail = (l.pools.getD n default).avail + permits) ∧
      became (.permitReport l.num n permits) fun _ l1 => (l1.pools.getD n default).avail = permits - ((l.reserves.filter fun x => x.target == n).map fun x => x.slots.length).sum) ∧
    (known → l.receivers = [v] → v.sender = sender → v.accel = accel → v.node = n → v.back ≠ [] → v.closed = false → v.backAt + 256 ≤ (s.cluster ((s.partClusters l.part).headD 0)).clk / 20 →
      became (.permitReturnBatch l.num n ⟨accel, sender⟩) fun t l1 => t.sent = s.sent ++ [(accel, .permits (sender / 4096) (sender % 4096) v.back.length)] ∧ l1.receivers = [{ v with permits := v.permits ++ v.back, back := [] }]) ∧
    (known → became (.closeMessage l.num n ⟨accel, sender⟩) fun _ l1 => (∀ x, x ∈ l1.receivers → x.sender = sender → x.accel = accel → x.node = n → x.closed = true ∧ x.permits = [] ∧ x.back = []) ∧
      ∀ x, x ∈ l.receivers → ¬ (x.sender = sender ∧ x.accel = accel ∧ x.node = n) → x ∈ l1.receivers) ∧
    (s.launches = [l] → l.receivers = [v] → v.accel = accel → v.closed = false → (s.act (.peer accel true)).sent = s.sent ++ [(accel, .report (v.sender / 4096) (v.sender % 4096) v.permits.length)]) ∧
    (let served := fun (op : RemoteOp) (reply : Msg) (mem : Nat → Byte) => ∃ t, exec (.remoteAccess accel pa op) s = .next t ∧ t.sent = s.sent ++ [(accel, reply)] ∧ t.groups = s.groups ∧ ∀ k, memGet t.mem k = mem k
     let opened := fun (k : Nat) => ∃ o, o ∈ s.openRanges ∧ o.1 ≤ pa ∧ pa + k ≤ o.1 + o.2
     let old := memRead s.mem (physKey pa) op.size
     let new := ((aopApply op mode (ofBytes old) FULL b c).new).map Prod.fst
     let at' := RemoteOp.atomic op mode b c
     let put := fun (new : List Byte) (k : Nat) => if physKey pa ≤ k ∧ k < physKey pa + new.length then new.getD (k - physKey pa) 0 else memGet s.mem k
     (¬ opened size → served (.read size) .refused (memGet s.mem)) ∧ (¬ opened bs.length → served (.write bs) .refused (memGet s.mem)) ∧ (¬ opened op.size → served at' .refused (memGet s.mem)) ∧
     (opened size → served (.read size) (.reply (memRead s.mem (physKey pa) size)) (memGet s.mem)) ∧
     (s.ras.marks = [] → Memory.wf s.mem = true → (opened bs.length → served (.write bs) (.reply []) (put bs)) ∧ (opened op.size → (∀ z, new = some z → served at' (.reply old) (put (toBytes op.size z))) ∧ (new = none → served at' (.reply old) (memGet s.mem)))))

/-- R291, R292, R294 to R298, R303, R351: the packet of a queue that may start has its effect: NOP and FENCE complete; a LAUNCH that is not refused becomes a launch whose entry node holds its records, and its packet stays; COPY starts, completes at once when it is empty, and moves its bytes; SEMSIG
sets, adds or raises its semaphore; SEMWAITGE completes when the semaphore has reached its value and stays when not; INTR posts its vector; PHASE sets the phase; TSTAMP stores the device time; JUMP starts, and completes when the last packet of its buffer has started. -/
def Obligations.PacketEffects : Prop :=
  ∀ (s : State) (q : Nat) (p : Packet) (d e : Page) (gr : Machine.Graph) (es : List (List Word × List Tag)),
    let n := s.queueOwner q
    let done := fun (i : Instr) (ok : State → Prop) => ∃ t, exec i s = .next t ∧ (∀ x, x ∈ (t.queue q).packets → x.id ≠ p.id) ∧ t.groups = s.groups ∧ (∀ r, r ≠ q → t.queue r = s.queue r) ∧ ok t
    let stays := fun (t : State) => ∃ x, x ∈ (t.queue q).packets ∧ x.id = p.id ∧ x.words = p.words ∧ x.started = true
    let same := fun (t : State) => t.mem = s.mem
    let j := p.arg % 1024
    let s1 := { s.startPacket q p with launchNext := (s.launchNext + 1) % 2 ^ 32 }
    (s.startablePacket q = some p →
      (p.type = 0 → done (.packetNop q) same) ∧ (p.type = 7 → done (.packetFence q) same) ∧
      (p.type = 1 → s.launch? s.launchNext = none → s1.readGraph n (p.pay 0).toNat = ([], some gr) → gr.entry < gr.nodes.length → s1.entryRecords n (p.pay 1).toNat p.arg (gr.nodes.getD gr.entry default).z = some es → s1.graphCodes n gr = [] →
        ∃ t l, exec (.launch q) s = .next t ∧ stays t ∧ t.mem = s.mem ∧ t.launch? s.launchNext = some l ∧ l.part = n ∧ l.nodes = gr.nodes ∧ l.ending = none ∧ l.cpla = (p.pay 2).toNat ∧ l.packet = p.id ∧ (l.queues.getD gr.entry []).map (fun x => (x.words, x.tags)) = es) ∧
      (p.type = 2 → (p.pay 2 = 0 → done (.packetCopy q) same) ∧ (p.pay 2 ≠ 0 → ∃ t, exec (.packetCopy q) s = .next t ∧ stays t ∧ same t)) ∧
      (p.type = 3 → done (.semsig q) fun t => same t ∧ t.dsem n j = (match bits p.arg 10 2 with | 0 => p.pay 0 | 1 => s.dsem n j + p.pay 0 | _ => if (s.dsem n j).toNat < (p.pay 0).toNat then p.pay 0 else s.dsem n j) ∧ ∀ k, k ≠ j → t.dsem n k = s.dsem n k) ∧
      (p.type = 4 → ((p.pay 0).toNat ≤ (s.dsem n j).toNat → done (.semwaitge q) same) ∧ ((s.dsem n j).toNat < (p.pay 0).toNat → ∃ t, exec (.semwaitge q) s = .next t ∧ stays t ∧ same t)) ∧
      (p.type = 5 → done (.intr q) fun t => same t ∧ t.posted = s.posted ++ [(n, p.arg)]) ∧
      (p.type = 6 → done (.phase q) fun t => same t ∧ (t.queue q).phase = BitVec.ofNat 64 (p.arg % 2 ^ 32) ∧ (t.queue q).ici = p.arg.testBit 32) ∧
      (p.type = 8 → ∀ t1, (s.startPacket q p).vaStore n (p.pay 0).toNat (toBytes 8 s.time) = some t1 → done (.tstamp q) fun t => t.mem = t1.mem) ∧
      (p.type = 9 → ∃ t, exec (.jump q) s = .next t ∧ same t ∧ ∀ x, x ∈ (t.queue q).packets → (x.id = p.id → x.started = true) ∧ ∃ y, y ∈ (s.queue q).packets ∧ y.id = x.id ∧ y.words = x.words) ∧
      (∀ j, (s.queue q).packets = [j, p] → j.type = 9 → j.started = true → j.id ≠ p.id → p.jumped = true → p.type = 2 → p.pay 2 ≠ 0 →
        ∃ t, exec (.packetCopy q) s = .next t ∧ same t ∧ (t.queue q).packets = (if (s.queue q).jump = none then [] else [j]) ++ [{ p with started := true }])) ∧
    (s.copyPacket? q p.id = some p → p.moved = 0 →
      let a := (p.pay 1).toNat
      let b := (p.pay 0).toNat
      let len := (p.pay 2).toNat
      (0 < len → len % 4 = 0 → b % 128 + len ≤ 128 → s.translate n b needW true = .ok d → (∀ i, 4 * i < len → s.translate n (a + 4 * i) needR true = .ok { e with key := e.key + 4 * i }) → d.sig = false → e.sig = false → s.ras.marks = [] → Memory.wf s.mem = true →
        done (.packetCopyComplete q p.id) fun t => ∀ k, memGet t.mem k = if d.key ≤ k ∧ k < d.key + len then memGet s.mem (e.key + (k - d.key)) else memGet s.mem k) ∧
      (0 < len → ∀ c, s.packetPiece n p = .error c → ∃ t x, exec (.packetCopyComplete q p.id) s = .next t ∧ (t.queue q).st = 3 ∧ (t.queue q).errc = c ∧ x ∈ (t.queue q).packets ∧ x.id = p.id ∧ x.failed = true))

/-- R299 to R302, R305: a store to WIDX notifies an enabled queue and one beyond the ring stops it; a write of CTL that breaks no rule of R299 enables a queue empty at 0, disables an empty one, leaves OVERRUN or ERROR with RST, and changes its plane; a service goes to the queue of the highest plane, in rotation, and fetches the packets that the ring holds, at most
FETCHW packets and 64 words, or the next packet of the buffer of a JUMP. A
link message takes a permit and a slot, a permit of the epoch returns and an older one is lost, and SYNC with SYNCACK makes the channel new; the other direction of the link stays. -/
def Obligations.QueueAndLinkControl : Prop :=
  ∀ (s : State) (part q : Nat) (v : Addr) (ws : List (List Addr)) (cl ep : Nat) (up : Bool) (msg : List Byte) (rest : List Nat) (f : Nat),
    let x := s.queue q
    let n := s.queueOwner q
    let ready := fun (e : Nat × Queue) => e.2.pending = true ∧ e.2.en = true ∧ e.2.st = 1
    let turn := fun (k : Nat) => (k + 4096 - s.scan.getD x.plane 0) % 4096
    let became := fun (i : Instr) (ok : Queue → Prop) => ∃ t, exec i s = .next t ∧ t.groups = s.groups ∧ (∀ r, r ≠ q → t.queue r = s.queue r) ∧ ok (t.queue q)
    (s.ownsQueue part q = true → x.devopen = false →
      (x.en = false ∨ x.st ≠ 1 ∨ { x with widx := v }.overrun = false → became (.queueNotify part q v) fun y => y = { x with widx := v, pending := true }) ∧
      (x.en = true → x.st = 1 → { x with widx := v }.overrun = true → became (.queueNotify part q v) fun y => y.st = 2 ∧ y.widx = v ∧ y.packets = x.packets)) ∧
    (s.ownsQueue part q = true → ctlBad x v = false →
      (x.en = false → v.getLsbD 0 = true → became (.queueEnable part q v) fun y => y.en = true ∧ y.ctl = v &&& ~~~(0x8000 : Addr) ∧ y.st = 1 ∧ y.widx = 0 ∧ y.ridx = 0 ∧ y.phase = 0 ∧ y.ici = false) ∧
      (x.en = true → v.getLsbD 0 = false → v.getLsbD 15 = false → x.packets = [] → became (.queueDisable part q v) fun y => y.en = false ∧ y.st = 0 ∧ y.ridx = x.ridx ∧ y.widx = x.widx) ∧
      (x.en = true → v.getLsbD 0 = true → v.getLsbD 15 = true → (x.st = 2 ∨ x.st = 3) → became (.queueRst part q v) fun y => y.st = 1 ∧ y.ridx = x.widx ∧ y.widx = x.widx ∧ y.errc = x.errc) ∧
      (x.en = true → v.getLsbD 0 = true → v.getLsbD 15 = false → bits v.toNat 4 2 ≠ x.plane → became (.queuePlaneChange part q v) fun y => y.plane = bits v.toNat 4 2 ∧ y.ridx = x.ridx ∧ y.widx = x.widx ∧ y.phase = x.phase)) ∧
    (s.boot.state = 4 → ready (q, x) → x.packets.length < 16 → (q, x) ∈ s.queues → (∀ e, e ∈ s.queues → e.1 = q → e.2 = x) →
      (∀ e, e ∈ s.queues → e.1 ≠ q → ready e → e.2.packets.length < 16 → e.2.plane < x.plane ∨ (e.2.plane = x.plane ∧ turn q < turn e.1)) →
      (x.overrun = true → ∃ t, exec .queueService s = .next t ∧ (t.queue q).st = 2) ∧
      (x.overrun = false → x.jump = none → x.ridx.toNat + ws.flatten.length ≤ x.widx.toNat → ws.length ≤ (s.part n).fetchw → ws.flatten.length ≤ 64 → x.packets.length + ws.length ≤ 16 →
        (∀ i, i < ws.flatten.length → s.vaNum n (x.base.toNat + 8 * ((x.ridx.toNat + i) % x.ring)) 8 = some (ws.flatten.getD i 0).toNat) →
        (∀ y, y ∈ ws → y.length = 1 + bits (y.headD 0).toNat 8 4 ∧ s.packetCodes n x ⟨0, y, false, false, false, 0⟩ = []) → (∀ y, y ∈ ws.dropLast → bits (y.headD 0).toNat 0 8 ≠ 9) →
        (ws.length = (s.part n).fetchw ∨ (x.ridx.toNat + ws.flatten.length = x.widx.toNat ∧ ∀ y, y ∈ ws → bits (y.headD 0).toNat 0 8 ≠ 9)) →
        ∃ t ps, exec .queueService s = .next t ∧ t.mem = s.mem ∧ t.groups = s.groups ∧ (t.queue q).packets = x.packets ++ ps ∧ ps.map Packet.words = ws ∧ (∀ y, y ∈ ps → y.started = false ∧ y.jumped = false) ∧
          (t.queue q).ridx = x.ridx + BitVec.ofNat 64 ws.flatten.length ∧ (t.queue q).widx = x.widx ∧ (x.plane < s.scan.length → t.scan.getD x.plane 0 = (q + 1) % 4096) ∧
          (t.queue q).jump = (match ws.getLast? with | some y => if bits (y.headD 0).toNat 0 8 = 9 then some ((y.getD 1 0).toNat, (y.getD 2 0).toNat) else none | none => none)) ∧
      (∀ y from' left, x.overrun = false → x.jump = some (from', left) → (s.part n).fetchw = 1 → y.length ≤ left → (∀ i, i < y.length → s.vaNum n (from' + 8 * i) 8 = some (y.getD i 0).toNat) → y.length = 1 + bits (y.headD 0).toNat 8 4 →
        s.packetCodes n x ⟨0, y, true, false, false, 0⟩ = [] → ∃ t p, exec .queueService s = .next t ∧ (t.queue q).packets = x.packets ++ [p] ∧ p.words = y ∧ p.jumped = true ∧ (t.queue q).ridx = x.ridx ∧
          (t.queue q).jump = if left = y.length then none else some (from' + 8 * y.length, left - y.length))) ∧
    (let c := (s.cluster cl).channel up
     let link := fun (i : Instr) (new : Channel) => ∃ t, exec i s = .next t ∧ (t.cluster cl).channel up = new ∧ (t.cluster cl).channel (!up) = (s.cluster cl).channel (!up) ∧ t.mem = s.mem ∧ t.groups = s.groups
     (msg.length = 32 → c.permits ≠ 0 → c.waitAck = false → c.msgs.length < 8 → link (.linkMessage cl up msg) { c with permits := c.permits - 1, msgs := c.msgs ++ [msg] }) ∧
     (c.permits = 0 → link (.linkMessage cl up msg) c) ∧
     (c.returns = ep :: rest → c.waitAck = false → (ep = c.epoch → link (.linkPermitReturn cl up ep) { c with returns := rest, permits := c.permits + 1 }) ∧ (ep ≠ c.epoch → link (.linkPermitReturn cl up ep) { c with returns := rest })) ∧
     (c.waitAck = true → c.syncAt = none → link (.sync cl up) { c with msgs := [], syncAt := some 8 }) ∧
     (c.syncAt = some f → link (.syncack cl up) { c with permits := f, epoch := c.epoch + 1, waitAck := false, syncAt := none }))

/-! ## Host registers of partitions, errors, boot and power (R296, R309 to R316, R320, R330, R335 to R349) -/

/-- R296, R309 to R313, R316, R320, R330: PART.CFG enables a partition only when every condition of R310 holds; a reset ends its launches and clears descriptors, tiles, semaphores, translations, log and frames; writes of TLBINV drop the entries named; FLOGR moves within the log; a flush drops every frame; a
semaphore store takes an index below SCNT; configuration registers are written only while EN is 0; a discarded write changes nothing; loads give the registers,
semaphores and queue words of the partition, offsets without a name 0, through the physical function and through the partition's virtual function. A configuration that is not enabled disturbs nothing of an enabled partition. -/
def Obligations.PartitionControl : Prop :=
  ∀ (s : State) (n j launch : Nat) (v : Addr), n < 8 →
    let p := s.part n
    let became := fun (i : Instr) (new : Partition) => ∃ t, exec i s = .next t ∧ t.part n = new ∧ (∀ m, m ≠ n → t.part m = s.part m) ∧ t.mem = s.mem ∧ t.groups = s.groups ∧ t.launches = s.launches
    let reset := fun (t : State) => (∀ l, l ∈ t.launches → l.part ≠ n) ∧ (t.part n).flogw = 0 ∧ (t.part n).flogr = 0 ∧ (t.part n).tlb = [] ∧ (t.part n).frames = [] ∧ (t.part n).pins = [] ∧
      (∀ k, k < p.scnt → (∀ m, m < 8 → m ≠ n → (s.part m).en = true → p.sbase + k < (s.part m).sbase ∨ (s.part m).sbase + (s.part m).scnt ≤ p.sbase + k) → t.dsem n k = 0) ∧
      ∀ c, c ∈ s.cfgRange n → c < 64 → (∀ m, m < 8 → m ≠ n → (s.part m).en = true → c ∉ s.cfgRange m) → (t.cluster c).sems = [] ∧ ∀ k, k < 4 → (t.core (4 * c + k)).desc = [] ∧ (t.core (4 * c + k)).tile = TMem.empty ∧ (t.core (4 * c + k)).port = none
    (p.en = false → v.getLsbD 0 = true → (s.cfgOk n v.toNat = true → became (.partEnable n v) { p with cfg := v }) ∧ (s.cfgOk n v.toNat = false → exec (.partEnable n v) s = .next s)) ∧
    (∃ t, exec (.partitionReset n) s = .next t ∧ reset t ∧ (t.part n).cfg = p.cfg ∧
      ((∀ l, l ∈ s.launches → l.part ≠ n) → ∀ m, m < 8 → m ≠ n → (s.part m).en = true → ∀ c, c ∈ s.cfgRange m → t.cluster c = s.cluster c ∧ ∀ k, k < 4 → t.core (4 * c + k) = s.core (4 * c + k))) ∧
    (p.en = true → v = p.cfg &&& ~~~(1 : Addr) → ∃ t, exec (.partDisable n v) s = .next t ∧ reset t ∧ (t.part n).en = false) ∧
    (v.getLsbD 0 = true → v.getLsbD 1 = false → (let hit := fun (e : TlbEntry) => e.vpn == bits v.toNat 16 41 * 2 ^ 16 / 2 ^ e.bits
       became (.tlbInvalidatePage n v) { p with tlb := p.tlb.filter fun e => !hit e, tlbinv := BitVec.ofNat 64 (bits v.toNat 16 41 * 2 ^ 16), egress := p.egress ++ (p.tlb.filter fun e => hit e && e.pte.getLsbD 10).map fun e => (e, s.partClock n) })) ∧
    became (.tlbInvalidateAll ⟨n, v⟩) { p with tlb := p.tlb.filter fun e => e.pte.getLsbD 11, tlbinv := BitVec.ofNat 64 (bits v.toNat 16 41 * 2 ^ 16 + 2), egress := p.egress ++ (p.tlb.filter fun e => !e.pte.getLsbD 11 && e.pte.getLsbD 10).map fun e => (e, s.partClock n) } ∧
    (p.flogr ≤ v.toNat → v.toNat ≤ p.flogw → became (.flogrWrite n v) { p with flogr := v.toNat }) ∧ (v.toNat < p.flogr ∨ p.flogw < v.toNat → became (.flogrWrite n v) p) ∧
    (became (.sliceFlush n) { p with frames := [] } ∧ ∃ t, exec (.sliceFlush n) s = .next t ∧ ∀ q, q ∈ t.sliceqs → q.part = n → q.flushed = true) ∧
    (j < p.scnt → ∃ t, exec (.hostSemaphoreStore n j v) s = .next t ∧ t.dsem n j = v ∧ ∀ k, k ≠ j → t.dsem n k = s.dsem n k) ∧ (p.scnt ≤ j → exec (.hostSemaphoreStore n j v) s = .next s) ∧
    (let at' := 0x01000000 + n * 0x100000
     (∀ i, i < 13 → p.thand.length = 13 → ∃ t, exec (.registerWrite (at' + 0x100 + 8 * i) v) s = .next t ∧ (t.part n).thand.getD i 0 = v ∧ ∀ k, k ≠ i → (t.part n).thand.getD k 0 = p.thand.getD k 0) ∧
     (p.en = true → became (.registerWrite (at' + 0x008) v) p) ∧ (p.en = false → became (.registerWrite (at' + 0x008) v) { p with ptroot := BitVec.ofNat 64 (bits v.toNat 17 35 * 2 ^ 17) }) ∧
     (p.en = false → v.getLsbD 0 = false → became (.registerWrite at' v) { p with cfg := v &&& 0xFF1F80 }) ∧
     (∀ off, off % 8 ≠ 0 → exec (.registerWrite off v) s = .next s) ∧
     (let load := fun (off : Nat) => (s.act (.hostLoad none off)).hostData
      load at' = p.cfg ∧ load (at' + 0x090) = BitVec.ofNat 64 p.flogw ∧ load (at' + 0x070) = 0 ∧ (∀ i, i < 1024 → load (at' + 0x20000 + 8 * i) = if i < p.scnt then s.dsem n i else 0) ∧
      (∀ i, i < 4096 → let x := s.queue i; let r := at' + 0x40000 + 0x40 * i
        (s.ownsQueue n i = true → load r = x.base ∧ load (r + 0x10) = x.widx ∧ load (r + 0x18) = x.ridx ∧ load (r + 0x20) = x.phase ∧ (x.errc < 16 → x.st < 4 → load (r + 0x28) = BitVec.ofNat 64 (x.errc * 16 + x.st)) ∧ load (r + 0x38) = 0) ∧
        (s.ownsQueue n i = false → load r = 0 ∧ load (r + 0x28) = 0)) ∧
      ∀ off, off < 0x80000 → (s.act (.hostLoad (some n) off)).hostData = load (at' + off))) ∧
    (∀ (g : Group) (f : Machine.Frame) (id : Nat), s.stopped n launch = [g] → s.group? g.uid = some g → g.frame = some f →
      (f.kind = .deferred id → f.clause.isSome = true →
        let resumed := fun (i : Instr) (ok : Access → Access → Prop) => ∃ t g1, exec i s = .next t ∧ t.mem = s.mem ∧ t.group? g.uid = some g1 ∧ g1.frame = none ∧ g1.phase = .waiting ∧ g1.clause = f.clause ∧ g1.v = g.v ∧ g1.p = g.p ∧
          ∀ a, a ∈ s.accs → a.id = id → ∃ b, b ∈ t.accs ∧ b.id = id ∧ (∀ q, q ∈ b.lanes → q.fault = none) ∧ ok a b
        resumed (.fresumeRetry n launch) (fun a b => b.lanes.map LaneReq.slot = a.lanes.map LaneReq.slot ∧ b.lanes.map LaneReq.done = a.lanes.map LaneReq.done) ∧
        resumed (.fresumeSkip n launch) fun a b => if a.op.isLoad = true then (∀ q, q ∈ a.lanes → q.fault.isSome = true → ∃ r, r ∈ b.lanes ∧ r.slot = q.slot ∧ r.done = true ∧ r.res = List.replicate 4 (0, 0)) else ∀ q, q ∈ b.lanes → q ∈ a.lanes) ∧
      ∃ t l, exec (.fresumeEnd n launch) s = .next t ∧ t.launch? launch = some l ∧ l.ending = some 0x11)

/-- R335 to R343: a scrub of a granule that holds an uncorrectable error writes a record; a rate counter falls by one each hour; with AREP a lasting location of memory takes a spare of its pool while one is left and is reported once when none is, and a cluster is named for retirement once; LOGR moves within the log; the freeze value, FRZ_N of 10 ns and the
TAP freeze the module and clear its keys; the TAP reads the IDCODE always, the RAS block of a frozen module, memory and state only with DBG. What a scan chain shows of the elements it reads is free (18). -/
def Obligations.ErrorEnginesAndFreeze : Prop :=
  ∀ (s : State) (region loc granule ns a : Nat) (v : Addr) (bs : List Byte),
    let r := s.ras
    let became := fun (i : Instr) (new : Ras) => ∃ t, exec i s = .next t ∧ t.ras = new ∧ t.mem = s.mem ∧ t.groups = s.groups
    let key := 2 ^ 64 * (region + 1) + granule
    let room := r.logi - r.logr ≠ 2 ^ (bits r.logb.toNat 0 4 + 4)
    let unit := ((sparePool region loc).1, (sparePool region loc).2.1)
    let locked := if 0x10 ≤ region ∧ (sparePool region loc).2.2 = 4 then s.lockedWays region loc else 0
    let lasting := ∃ e, e ∈ aget [] r.locs region ∧ e.loc = loc ∧ e.lasting = true
    (region < 0x14 → (if region < 8 then day else hour) ≤ s.time - aget 0 r.lastScrub key →
      ((∀ m, m ∈ r.marks → m.bad = true → m.region = region → m.loc ≠ granule) → became (.scrub region granule) { r with lastScrub := aset r.lastScrub key s.time }) ∧
      (room → (∃ m, m ∈ r.marks ∧ m.bad = true ∧ m.region = region ∧ m.loc = granule) → ∃ t, exec (.scrub region granule) s = .next t ∧ t.ras.logi = r.logi + 1 ∧ t.posted = s.posted ++ [(8, 0)] ∧ t.groups = s.groups)) ∧
    (hour ≤ s.time - aget 0 r.lastScrub region → ∃ t, exec (.rateDecay region) s = .next t ∧ aget 0 t.ras.rate region = aget 0 r.rate region - (s.time - aget 0 r.lastScrub region) / hour ∧ (∀ k, k ≠ region → aget 0 t.ras.rate k = aget 0 r.rate k) ∧ t.mem = s.mem) ∧
    (r.arep = true → lasting →
      (region < 0x14 → loc < 2 ^ 60 → ¬ (unit ∈ r.spared) → ¬ (unit ∈ r.unspared) → room →
        (aget 0 r.sparesUsed unit.1 + locked < (sparePool region loc).2.2 → ∃ t, exec (.repair region loc) s = .next t ∧ unit ∈ t.ras.spared ∧ aget 0 t.ras.sparesUsed unit.1 = aget 0 r.sparesUsed unit.1 + 1 ∧ t.ras.logi = r.logi + 1) ∧
        ((sparePool region loc).2.2 ≤ aget 0 r.sparesUsed unit.1 + locked → ∃ t, exec (.repair region loc) s = .next t ∧ unit ∈ t.ras.unspared ∧ t.ras.spared = r.spared ∧ t.ras.sparesUsed = r.sparesUsed ∧ t.ras.logi = r.logi + 1)) ∧
      (region < 0x14 → unit ∈ r.spared ∨ unit ∈ r.unspared → exec (.repair region loc) s = .next s) ∧
      (0x40 ≤ region → region < 0x80 → loc < 2 ^ 60 → region - 0x40 ∉ r.toRetire → s.clusterRetired (region - 0x40) = false → ∃ t, exec (.repair region loc) s = .next t ∧ t.ras.toRetire = r.toRetire ++ [region - 0x40]) ∧
      (0x40 ≤ region → region - 0x40 ∈ r.toRetire ∨ s.clusterRetired (region - 0x40) = true → exec (.repair region loc) s = .next s)) ∧
    (r.arep = false → exec (.repair region loc) s = .next s) ∧
    (r.logr ≤ v.toNat → v.toNat ≤ r.logi → became (.rasLogrWrite v) { r with logr := v.toNat }) ∧ (v.toNat < r.logr ∨ r.logi < v.toNat → became (.rasLogrWrite v) r) ∧
    (let frozen := fun (i : Instr) => ∃ t, exec i s = .next t ∧ t.ras = { r with frozen := true } ∧ t.boot = { s.boot with keysCleared := true, aliasSeed := [] } ∧ t.mem = s.mem ∧ t.groups = s.groups
     frozen (.rasFreeze 0xF4EE2E00) ∧ frozen (.tapInstruction .freeze) ∧ (10 ≤ ns → frozen (.frzN ns))) ∧
    (v ≠ 0xF4EE2E00 → exec (.rasFreeze v) s = .next s) ∧ (ns < 10 → exec (.frzN ns) s = .next s) ∧
    became (.tapInstruction .idcode) { r with tapOut := toBytes 4 Config.idcode.toNat } ∧
    became (.tapInstruction .bypass) { r with tapOut := [0] } ∧ became (.tapInstruction .sample) { r with tapOut := Config.scanOut 1 s.pins } ∧ became (.tapInstruction .extest) { r with tapOut := Config.scanOut 1 s.pins } ∧
    became (.tapInstruction (.preload bs)) { r with boundary := bs } ∧
    (r.frozen = true → became (.tapInstruction .rasBlock) { r with tapOut := r.block } ∧
      (s.boot.dbg = true → (a + 64 ≤ 2 ^ 51 → became (.tapInstruction (.readHbm a)) { r with tapOut := memRead s.mem (physKey a) 64 }) ∧ became (.tapInstruction .readState) { r with tapOut := Config.scanOut 0 s.elements })) ∧
    (r.frozen = false → exec (.tapInstruction .rasBlock) s = .next s) ∧
    (r.frozen = false ∨ s.boot.dbg = false → exec (.tapInstruction (.readHbm a)) s = .next s ∧ exec (.tapInstruction .readState) s = .next s)

/-- R345 to R349: module reset and power-on run the boot ROM, which accepts a signed image of the flash unless BOOT.FORCE holds and else waits for the host; GO starts Chihar with an accepted image and refuses another; an attestation report is built for the nonce that ATTEST took; a cluster clock
changes within its range and under the host's cap at once while no clause of the cluster runs, else at the next clause boundary; at 105 degrees every clock falls to 0.4 GHz; at 115 degrees the module is off. Memory and flash outlast module reset, and HBM loses its contents at power-on: both are choices of the model (20), and the clock that a cap in watts allows is free within the range (37). -/
def Obligations.BootAndPower : Prop :=
  ∀ (s : State) (b : Bool) (cluster f50 w : Nat),
    let cap := fun (k : Nat) => max 8 (min 26 (Config.capClock k))
    let idle := fun (c : Nat) => (∀ k, k < 4 → (s.core (4 * c + k)).port = none) ∧ ∀ g, g ∈ s.groups → g.sleeve.isSome = true → g.clause.isSome = true → clusterOf g.core ≠ c
    let fresh := fun (t : State) => t.launches = [] ∧ t.groups = [] ∧ t.wgs = [] ∧ t.accs = [] ∧ t.parts = [] ∧ t.queues = [] ∧ t.clusters = [] ∧ t.cores = [] ∧ t.ras.frozen = false ∧ t.ras.ctl = Ras.reset.ctl ∧ t.boot.flash = s.boot.flash
    let boots := fun (i : Instr) (force : Bool) (ok : State → Prop) => ∃ t, exec i s = .next t ∧ fresh t ∧ ok t ∧ t.boot.force = force ∧ t.boot.state = if force = false ∧ imageOk s.boot.flash = true then 5 else 2
    boots .moduleReset s.boot.force (fun t => t.mem = s.mem) ∧
    boots .powerOn false (fun t => t.ras.marks = [] ∧ ∀ k, k < hostBase → memGet t.mem k = 0) ∧
    (s.boot.state = 5 → ∃ t, exec .bootGo s = .next t ∧ t.boot.state = 4 ∧ t.boot.force = false ∧ t.retired = s.boot.retire ∧ t.groups = s.groups ∧ t.boot.version = s.boot.version) ∧
    (s.boot.state = 2 ∨ s.boot.state = 3 →
      let img := memRead s.boot.window 0 s.boot.wlen.toNat
      (imageOk img = true → ∃ t, exec .bootGo s = .next t ∧ t.boot.state = 4 ∧ t.boot.version = headNum img 4 4 ∧ t.boot.measure = imageDigest img ∧ t.retired = s.boot.retire) ∧
      (imageOk img = false → exec .bootGo s = .next { s with boot := { s.boot with state := 3 } })) ∧
    (∃ t, exec (.bootForce b) s = .next t ∧ t = { s with boot := { s.boot with force := b } }) ∧
    (s.boot.state = 4 → ∃ t, exec .attest s = .next t ∧ t.boot.att = true ∧ t.boot.rpt = false ∧ t.boot.asked = s.boot.nonce ∧ t.boot.report = s.boot.report ∧ t.mem = s.mem) ∧
    (s.boot.att = true → ∃ t, exec .attestDone s = .next t ∧ t.boot.att = false ∧ t.boot.rpt = true ∧ t.boot.rlen = t.boot.report.length ∧ t.boot.rlen ≤ 16384 ∧ t.mem = s.mem) ∧
    (cluster < 64 → 8 ≤ f50 → f50 ≤ cap s.power.capW → s.boot.state = 4 →
      (idle cluster → ∃ t, exec (.clockChange cluster f50) s = .next t ∧ t.cluster cluster = { s.cluster cluster with f50 := f50, nextF50 := none } ∧ (∀ c, c ≠ cluster → t.cluster c = s.cluster c) ∧ t.groups = s.groups ∧ t.mem = s.mem) ∧
      (¬ idle cluster → ∃ t, exec (.clockChange cluster f50) s = .next t ∧ t.cluster cluster = { s.cluster cluster with nextF50 := some f50 } ∧ (∀ c, c ≠ cluster → t.cluster c = s.cluster c) ∧ t.groups = s.groups ∧ t.mem = s.mem)) ∧
    (cap s.power.capW < f50 ∨ f50 < 8 → exec (.clockChange cluster f50) s = .next s) ∧
    (∃ t, exec .thermalThrottle s = .next t ∧ (∀ c, c < 64 → (idle c → t.cluster c = { s.cluster c with f50 := 8, nextF50 := none }) ∧ (¬ idle c → t.cluster c = { s.cluster c with nextF50 := some 8 })) ∧ t.groups = s.groups ∧ t.mem = s.mem) ∧
    (1000 ≤ w → w ≤ 3400 → (s.act (.capW w)).power.capW = w ∧ ∀ c, c < 64 → idle c → ((s.act (.capW w)).cluster c).f50 = min (s.cluster c).f50 (cap w)) ∧
    ∃ t, exec .thermalShutdown s = .next t ∧ t.power.off = true ∧ t.mem = s.mem ∧ t.groups = s.groups ∧ t.ras = s.ras

/-! ## The step, decoding, reset, and what every step keeps -/

/-- R76, R145, R342, R349: a step does the turn at the head of the agenda: an event has the effect of its instruction; a port whose group stands at a word that decodes, does not stall and reads no uncorrectable register runs exec of the decoded instruction for that group, after which a GATHER or SCATTER has joined the collector
of its core and the registers written whole are mended; a word that does not decode takes its trap; a frozen module and one that has powered down stop. A word that the decoder accepts, that stands last if it ends a clause, names no slot, is not transient at the end and names declared registers only, decodes to its instruction. -/
def Obligations.StepRunsTheDecodedInstruction : Prop :=
  ∀ (s : State) (ts : List Turn) (p : IssuePort) (i : Instr) (g : Group) (c : Clause) (regs : List RegUse) (w : Addr) (last : Bool),
    let s0 := { s with agenda := ts }
    (s.power.off = false → s.ras.frozen = false →
      (s.agenda = .ev i :: ts → step s = exec i s0) ∧
      (s.agenda = .issue p :: ts → s0.issuer p = some g → g.clause = some c → g.phase = .issuing → s0.halted g = false → w = c.words.getD c.pos 0 → last = (c.pos + 1 == c.words.length) →
        (s0.decodeAt g w last = .ok (i, regs) → s0.stallOf g w i regs = none → s0.regTraps g w i regs = none → (g.sleeve = none ∨ (s.wg g.wg).preemptReq = false) → ∀ t, exec i { s0 with cur := some g.uid } = .next t → step s = .next (s0.afterIssue { t with cur := none } g w i regs)) ∧
        (∀ e, (g.sleeve = none ∨ (s.wg g.wg).preemptReq = false) → s0.decodeAt g w last = .error e → step s = .next (s0.takeTrap g e)) ∧
        (s0.decodeAt g w last = .ok (i, regs) → s0.stallOf g w i regs = some .port → (s.wg g.wg).preemptReq = false → step s = .next s0) ∧
        (g.sleeve.isSome = true → (s.wg g.wg).preemptReq = true → step s = .next s0))) ∧
    (decodeWord w = .ok i → slotOf i = none → (Machine.Instr.endsClause i = true → last = true) → (wordTrn w = true → last = false) → (∀ u, u ∈ (readWord w.toNat).regs → u.count = 0 ∨ u.first + u.count ≤ g.decl.total) →
      s.decodeAt g w last = .ok (i, (readWord w.toNat).regs)) ∧
    (s.power.off = true → s.agenda = .issue p :: ts → step s = .fault .poweredDown) ∧
    (s.power.off = false → s.ras.frozen = true → s.agenda = .issue p :: ts → step s = .fault .frozen)

/-- R65 to R76: words written out from the encodings of the spec, one of each family, decode to the instructions they stand for. -/
def Obligations.WordsDecode : Prop :=
  let c : Ctl := ⟨63, false, false, false⟩
  decodeTableWord 64 0x2002_C17E_833F_000F = some (.fadd c .mode .f32 11 (.reg 5) (.win 2 0x0C)) ∧
  decodeTableWord 64 0x0002_8280_C03F_0047 = some (.iadd c false .s32 10 (.reg 10) (.imm 0x0300)) ∧
  decodeTableWord 64 0x8084_86FE_0208_0CFC = some (.pFormWord (.op .iadd 63 false 8 (.reg 12)) (.op .mov 63 false 9 (.reg 13))) ∧
  decodeTableWord 64 0x5240_0000_003F_0000 = some (.exit c) ∧
  decodeTableWord 64 0x0701_4181_C03F_2007 = some (.cmp c .lt (.int .s32) 5 (.reg 6) (.reg 7)) ∧
  decodeTableWord 64 0x7002_0100_003F_0040 = some (.ld c false false .none .b32 8 4 (.imm 0)) ∧
  decodeTableWord 64 0x7D40_00C0_003F_0000 = some (.mzero c 3) ∧
  decodeTableWord 64 0x7C40_00C0_003F_0000 = some (.mmas c false 0 .mode 0 3) ∧
  decodeTableWord 64 0x7E45_4001_803F_0000 = some (.getfault c 21 6) ∧
  decodeTableWord 64 0x7E00_0000_003F_0001 = some (.trapret c true) ∧
  decodeTableWord 64 0x5140_C000_02BF_0040 = some (.join c 0 3 10) ∧
  decodeTableWord 64 0x5000_0000_0201_0040 = some (.bra ⟨1, false, false, false⟩ 8) ∧
  decodeTableWord 64 0x7800_0101_83C2_0000 = some (.rcsnap ⟨2, false, false, false⟩ false 15 4 6) ∧
  decodeTableWord 64 0x5383_0600_023F_004F = some (.bsig c false .f32 (some 12) (.reg 24) 8) ∧
  decodeTableWord 64 0x7580_0000_0002_0001 = some (.seal ⟨2, false, false, false⟩ true 0 none)

/-- R344 to R349, Tables 13.2, 15.3 and 15.4: right after reset no partition is enabled, nothing runs, no word of memory is written, the RAS block holds RTH 1,000 and AREP 1 with an empty log, the module is not frozen, and the boot ROM has yet to run. -/
def Obligations.ResetState : Prop :=
  let s := State.reset
  (∀ n, (s.part n).en = false ∧ (s.part n).thand = List.replicate 13 0 ∧ (s.part n).fetchw = 8) ∧ s.launches = [] ∧ s.groups = [] ∧ s.wgs = [] ∧ s.accs = [] ∧ s.mops = [] ∧ s.batches = [] ∧ Memory.wf s.mem = true ∧
    (∀ k, memGet s.mem k = 0) ∧ (∀ q, (s.queue q).en = false ∧ (s.queue q).st = 0) ∧ s.ras.rth = 1000 ∧ s.ras.arep = true ∧ s.ras.fue = false ∧ s.ras.logi = 0 ∧ s.ras.logr = 0 ∧ s.ras.frozen = false ∧ s.boot.state = 0 ∧ s.time = 0 ∧ s.retired = 0 ∧
    ∀ c, (s.cluster c).f50 = 26 ∧ (s.cluster c).sems = [] ∧ (s.core c).port = none ∧ (s.core c).desc = []

/-- R342: only module reset, or power-on, leaves a freeze: a step of a frozen module that answers a next state leaves it frozen unless its turn is one of these two, and changes neither groups nor memory then. -/
def Obligations.FreezeLasts : Prop :=
  ∀ (s t : State), s.ras.frozen = true → step s = .next t → s.takeTurn.1 ≠ .ev .moduleReset → s.takeTurn.1 ≠ .ev .powerOn →
    t.ras.frozen = true ∧ t.mem = s.mem ∧ t.groups = s.groups ∧ t.launches = s.launches

/-- The memory keeps its canonical form in every step from every state. -/
def Obligations.MemoryStaysCanonical : Prop :=
  ∀ (s t : State), Memory.wf s.mem = true → step s = .next t → Memory.wf t.mem = true

/-- R65 to R76: decoding the encoding of a well-formed instruction word gives the instruction back, with every operand, for every operand that the encoding admits. -/
def Obligations.DecodeOfEncode : Prop :=
  ∀ i : Instr, i.isWord = true → i.wf = true → decodeWord (encode i) = .ok i
end

