-- ==== Sys2Proof/Laws/Lists.lean ====
section
/-! SUPPORT. Lists of lane slots, masks, and lists changed at one place. -/
namespace Sys2Proof.Machine
open Sys2Proof

theorem upFrom_length (a n : Nat) : (upFrom a n).length = n := by
  induction n generalizing a with
  | zero => rfl
  | succ n ih => simp [upFrom, ih]

theorem mem_upFrom {a n x : Nat} : x ∈ upFrom a n ↔ a ≤ x ∧ x < a + n := by
  induction n generalizing a with
  | zero => simp [upFrom]
  | succ n ih => simp only [upFrom, List.mem_cons, ih]; omega

theorem upFrom_getElem? (a n i : Nat) : (upFrom a n)[i]? = if i < n then some (a + i) else none := by
  induction n generalizing a i with
  | zero => simp [upFrom]
  | succ n ih =>
    cases i with
    | zero => simp [upFrom]
    | succ i => simp only [upFrom, List.getElem?_cons_succ, ih]; split <;> split <;> (try omega) <;> simp <;> omega

/-- An element of a list built by lane slot. -/
theorem laneSlots_map_getD {α : Type} (f : Nat → α) (d : α) {l : Nat} (h : l < 32) : (laneSlots.map f).getD l d = f l := by
  simp [List.getD_eq_getElem?_getD, upFrom_getElem?, h]

theorem mem_maskBits {m : Mask} {l : Nat} : l ∈ maskBits m ↔ l < 32 ∧ m.getLsbD l = true := by
  simp [maskBits, mem_upFrom]

theorem maskBits_ne_nil {m : Mask} (h : m ≠ 0) : maskBits m ≠ [] := by
  intro e
  apply h
  apply BitVec.eq_of_getLsbD_eq
  intro i hi
  have := mt (fun x => (mem_maskBits (m := m) (l := i)).2 x)
  rw [e] at this
  simp only [List.not_mem_nil, not_false_eq_true, true_implies, not_and, Bool.not_eq_true] at this
  simp [this hi]

/-- The lowest lane of a mask that is not empty is in it. -/
theorem headD_maskBits {m : Mask} (h : m ≠ 0) : (maskBits m).headD 0 < 32 ∧ m.getLsbD ((maskBits m).headD 0) = true := by
  have hn := maskBits_ne_nil h
  match e : maskBits m with
  | [] => exact absurd e hn
  | x :: xs => exact mem_maskBits.1 (by rw [e]; simp)

theorem modAt_length {α : Type} (f : α → α) (n : Nat) (l : List α) : (modAt f n l).length = l.length := by
  induction l generalizing n with
  | nil => cases n <;> rfl
  | cons x xs ih => cases n <;> simp [modAt, ih]

theorem modAt_getElem? {α : Type} (f : α → α) (n i : Nat) (l : List α) :
    (modAt f n l)[i]? = if i = n then l[i]?.map f else l[i]? := by
  induction l generalizing n i with
  | nil => cases n <;> simp [modAt]
  | cons x xs ih =>
    cases n with
    | zero => cases i <;> simp [modAt]
    | succ n => cases i with
      | zero => simp [modAt]
      | succ i => simp [modAt, ih]

theorem modAt_getD {α : Type} (f : α → α) (n i : Nat) (l : List α) (d : α) (h : i < l.length) :
    (modAt f n l).getD i d = if i = n then f (l.getD i d) else l.getD i d := by
  simp only [List.getD_eq_getElem?_getD, modAt_getElem?]
  split <;> simp [List.getElem?_eq_getElem h]

theorem modAt_getD_ne {α : Type} (f : α → α) {n i : Nat} (l : List α) (d : α) (h : i ≠ n) : (modAt f n l).getD i d = l.getD i d := by
  simp only [List.getD_eq_getElem?_getD, modAt_getElem?, h, if_false]

/-- The first element that satisfies a weaker condition, if it satisfies the stronger, is the first that satisfies that. -/
theorem find?_stronger {α : Type} {p q : α → Bool} {l : List α} {b : α} (h : l.find? p = some b) (hb : q b = true)
    (hq : ∀ x, q x = true → p x = true) : l.find? q = some b := by
  induction l with
  | nil => simp at h
  | cons x xs ih =>
    rw [List.find?_cons] at h ⊢
    split at h
    · next hp => cases h; simp [hb]
    · next hp =>
      have : q x = false := by
        cases e : q x with
        | false => rfl
        | true => exact absurd (hq x e) (by simp [hp])
      simp [this, ih h]

theorem find?_none_stronger {α : Type} {p q : α → Bool} {l : List α} (h : l.find? p = none)
    (hq : ∀ x, q x = true → p x = true) : l.find? q = none := by
  rw [List.find?_eq_none] at h ⊢
  exact fun x hx hqx => h x hx (hq x hqx)

end Sys2Proof.Machine
end

