-- ==== Sys2Proof/Laws/Alu.lean ====
section
/-! SUPPORT. The shared course of an arithmetic word (R82): what a lane reads, what a result writes, and what a word that does not
trap leaves, once for every instruction that takes this course. -/
namespace Sys2Proof.Machine
open Sys2Proof Sys2Proof.Safety

/-! ## What a lane reads -/

/-- Every lane that a word acts in is live (R34). -/
theorem live_of_writes {g : Group} (hf : Formed g) (gp : Nat) (gn : Bool) {l : Nat}
    (h : (g.writeSet gp gn).getLsbD l = true) : g.live.getLsbD l = true := by
  have ha := congrArg (fun m : Mask => m.getLsbD l) hf.active
  have h32 : l < 32 := by
    rcases Nat.lt_or_ge l 32 with h1 | h1
    · exact h1
    · simp [BitVec.getLsbD_of_ge _ l h1] at h
  simp only [Group.writeSet, BitVec.getLsbD_and, BitVec.getLsbD_not, h32, decide_true, Bool.true_and, Bool.and_eq_true,
    Bool.not_eq_eq_eq_not, Bool.not_true] at h
  simp only [BitVec.getLsbD_and, BitVec.getLsbD_not, BitVec.getLsbD_or, h32, decide_true, Bool.true_and, h.1.1, h.2,
    Bool.or_false] at ha
  simpa using ha

/-- A register whose contents seen through the bypass are one value by shape reads as that value in every live lane (R11, R31). -/
theorem read_view {g : Group} {r l : Nat} (hl : g.live.getLsbD l = true) (h32 : l < 32) (hs : (g.view r).shape ≠ .general) :
    g.read r l = (g.view r).at l (g.lane l).home := by
  unfold Group.view at hs ⊢
  unfold Group.read
  cases e : g.window.find? (fun b => b.reg == r) with
  | none =>
    simp only [e] at hs ⊢
    rw [find?_none_stronger e (q := fun b => b.reg == r && b.w.getLsbD l) (by intro x; simp +contextual)]
    rfl
  | some b =>
    simp only [e] at hs ⊢
    split at hs
    · next hc =>
      have hb : b.w.getLsbD l = true := by
        have := congrArg (fun m : Mask => m.getLsbD l) (beq_iff_eq.1 hc)
        simpa [hl, h32] using this
      have hr : (b.reg == r) = true := by simpa using List.find?_some e
      rw [find?_stronger e (q := fun b => b.reg == r && b.w.getLsbD l) (by simp only [hr, hb, Bool.and_self]) (by intro x; simp +contextual)]
      rw [if_pos hc]
    · exact absurd rfl hs

/-- A uniform source reads alike in every live lane (R12 row 3). -/
theorem at_uniform {g : Group} {o : Opnd} {l l' : Nat} (hs : o.shape g = .uniform) (hl : g.live.getLsbD l = true) (h32 : l < 32)
    (hl' : g.live.getLsbD l' = true) (h32' : l' < 32) : o.at g l = o.at g l' := by
  have one (r : Nat) (h : (g.view r).shape = .uniform) : g.read r l = g.read r l' := by
    rw [read_view hl h32 (by simp [h]), read_view hl' h32' (by simp [h])]
    cases e : g.view r <;> simp [e, RegVal.shape] at h <;> rfl
  cases o with
  | uni v t f => rfl
  | reg r n =>
    simp only [Opnd.shape] at hs
    simp only [Opnd.at]
    split at hs
    · next hn => simp [hn, one r hs]
    · next hn =>
      have h2 : (g.view r).shape = .uniform ∧ (g.view (r + 1)).shape = .uniform := by
        split at hs <;> rename_i hlt <;> cases e1 : (g.view r).shape <;> cases e2 : (g.view (r + 1)).shape <;>
          simp_all [Shape.rank]
      simp [hn, one r h2.1, one (r + 1) h2.2]

/-- Where every source is uniform, every live lane reads the same values. -/
theorem vals_uniform {g : Group} {os : List Opnd} {l l' : Nat} (hu : allUniform g os = true) (hl : g.live.getLsbD l = true)
    (h32 : l < 32) (hl' : g.live.getLsbD l' = true) (h32' : l' < 32) : os.map (Opnd.at g l) = os.map (Opnd.at g l') := by
  apply List.map_congr_left
  intro o ho
  have : (o.shape g == .uniform) = true := by
    unfold allUniform at hu
    exact List.all_eq_true.1 hu o ho
  exact at_uniform (beq_iff_eq.1 this) hl h32 hl' h32'

/-! ## What a result writes -/

/-- A write that a register takes in a mask: what the lanes then hold (R13). -/
theorem merged_at {g : Group} {r l : Nat} {w : Mask} {v : RegVal} (h32 : l < 32) (hw : w.getLsbD l = true) :
    (g.merged r w v).at l (g.lane l).home = v.at l (g.lane l).home := by
  unfold Group.merged
  split
  · split
    · simp only [RegVal.at, laneSlots_map_getD _ _ h32, hw, if_true]
    · rfl
  · simp only [RegVal.at, laneSlots_map_getD _ _ h32, hw, if_true]

/-- A live lane outside the write set keeps its stored word (R13). -/
theorem merged_kept {g : Group} {r l : Nat} {w : Mask} {v : RegVal} (h32 : l < 32) (hw : w.getLsbD l = false)
    (hl : g.live.getLsbD l = true) : (g.merged r w v).at l (g.lane l).home = g.stored r l := by
  unfold Group.merged
  split
  · next hc =>
    have h1 : (g.live &&& ~~~w == 0) = true := by
      unfold Group.covers at hc
      simp only [Bool.and_eq_true] at hc
      exact hc.1.2
    have h2 : (g.live &&& ~~~w).getLsbD l = true := by simp only [BitVec.getLsbD_and, BitVec.getLsbD_not, hl, hw, h32]; rfl
    rw [beq_iff_eq.1 h1] at h2
    simp at h2
  · simp only [RegVal.at, laneSlots_map_getD _ _ h32, hw, Bool.false_eq_true, if_false]

/-- What an arithmetic word computed, when it writes the results `res` to `n` registers from `d` in the lanes `w`: the register list
names them in order, and each value holds the result of every lane of `w`. -/
structure Gives (g : Group) (w : Mask) (d n : Nat) (res : Nat → Nat → Word × Tag) (fl : Nat → FlagSet) (k : Nat) (o : AluOut) : Prop where
  regs : o.regs.map Prod.fst = upFrom d n
  vals : ∀ i l, i < n → Lane.mem w l → ∀ v, (d + i, v) ∈ o.regs → v.at l (g.lane l).home = res l i
  pred : o.pred = none
  fl : ∀ l, Lane.mem w l → o.fl l = fl l
  draws : o.draws = k

/-- A register list holds one entry for each register it names. -/
theorem regs_find {rs : List (Nat × RegVal)} {d n i : Nat} (h : rs.map Prod.fst = upFrom d n) (hi : i < n) : ∃ v, (d + i, v) ∈ rs := by
  have : d + i ∈ rs.map Prod.fst := by rw [h, mem_upFrom]; omega
  obtain ⟨x, hx, hd⟩ := List.mem_map.1 this
  exact ⟨x.2, by rw [← hd]; exact hx⟩

theorem resRegs_names (d n : Nat) (w : Mask) (u : Bool) (out : Nat → LaneOut) : (resRegs d n w u out).map Prod.fst = upFrom d n := by
  have h : ∀ a k, (upFrom a k).map (fun i => d + i) = upFrom (d + a) k := by
    intro a k
    induction k generalizing a with
    | zero => rfl
    | succ k ih => simp only [upFrom, List.map_cons, ih]; congr 1
  unfold resRegs
  cases u <;> simp only [Bool.false_eq_true, if_false, if_true, List.map_map, Function.comp_def] <;> simpa using h 0 n

theorem resRegs_vals {d n i l : Nat} {w : Mask} {u : Bool} {out : Nat → LaneOut} {v : RegVal} {home : Nat}
    (h : (d + i, v) ∈ resRegs d n w u out) (hl : Lane.mem w l)
    (hu : u = true → out l = out ((maskBits w).headD 0)) : v.at l home = part ((out l).val, (out l).tag) i := by
  unfold resRegs at h
  cases u with
  | true =>
    simp only [if_true, List.mem_map] at h
    obtain ⟨j, hj, he⟩ := h
    simp only [Prod.mk.injEq, Nat.add_left_cancel_iff] at he
    rw [← he.2, he.1, hu rfl]; rfl
  | false =>
    simp only [Bool.false_eq_true, if_false, List.mem_map] at h
    obtain ⟨j, hj, he⟩ := h
    simp only [Prod.mk.injEq, Nat.add_left_cancel_iff] at he
    rw [← he.2, he.1]
    simp only [RegVal.at]
    rw [List.map_map, laneSlots_map_getD _ _ hl.1]
    simp only [Function.comp, hl.2, if_true]; rfl

/-- SIGLOSS needs MODE.SIGTE, or a result it covers (R57). -/
theorem sigLoss_none {g : Group} {w : Mask} {out : Nat → LaneOut} (h : g.sigte = false ∨ ∀ l, (out l).sig = none) :
    sigLoss g w out = none := by
  unfold sigLoss
  split
  · rfl
  · next hs =>
    rcases h with h | h
    · simp [h] at hs
    · dsimp only
      split
      · rfl
      · rename_i x xs heq
        have hm : x ∈ x :: xs := List.mem_cons_self
        rw [← heq, List.mem_filter] at hm
        simp [h] at hm

/-- Registers of general capacity take every shape (R9, R13). -/
theorem regTrap_none {g : Group} {w : Mask} {rs : List (Nat × RegVal)} {d n : Nat} (h : rs.map Prod.fst = upFrom d n)
    (hc : d + n ≤ g.decl.ng) : regTrap g w rs = none := by
  unfold regTrap
  rw [List.findSome?_eq_none_iff]
  intro x hx
  have hm : x.1 ∈ upFrom d n := by rw [← h]; exact List.mem_map_of_mem hx
  have hlt : x.1 < g.decl.ng := by have := mem_upFrom.1 hm; omega
  have hcap : g.decl.capacity x.1 = .general := by unfold Decl.capacity; rw [if_pos hlt]
  unfold Group.writable
  rw [hcap]
  split
  · rfl
  · have : ∀ s : Shape, s.rank ≤ 2 := by intro s; cases s <;> simp [Shape.rank]
    have := this (g.shapeOf w x.2.shape)
    have h2 : Shape.general.rank = 2 := rfl
    split
    · omega
    · rfl

/-- The one-result spec: with sources ready and no SIGLOSS due, a result computed in each lane is what the word gives. `aff` is an
affine result only where it agrees with it. -/
theorem aluResult_gives {g : Group} {w : Mask} {d n : Nat} {os : List Opnd} {dep : Bool} {aff : Option RegVal} {k : Nat}
    {out : Nat → LaneOut} (hc : d + n ≤ g.decl.ng)
    (hs : g.sigte = false ∨ ∀ l, (out l).sig = none)
    (hu : allUniform g os = true → dep = false → ∀ l, Lane.mem w l → out l = out ((maskBits w).headD 0))
    (ha : ∀ v, aff = some v → n = 1 ∧ ∀ l, Lane.mem w l → v.at l (g.lane l).home = part ((out l).val, (out l).tag) 0) :
    ∃ o, aluResult g w d n os dep aff k out = .ok o ∧
      Gives g w d n (whole fun l => ((out l).val, (out l).tag)) (fun l => (out l).fl ||| srcFl os) k o := by
  unfold aluResult
  generalize hU : (allUniform g os && !dep) = U
  let out1 : Nat → LaneOut := if U then (let x := out ((maskBits w).headD 0); fun _ => x) else
    (let xs := laneSlots.map fun l => if w.getLsbD l then out l else plainOut 0; fun l => xs.getD l (plainOut 0))
  have h1 : ∀ l, Lane.mem w l → out1 l = out l := by
    intro l hl
    cases U with
    | true =>
      simp only [Bool.and_eq_true, Bool.not_eq_eq_eq_not, Bool.not_true] at hU
      exact (hu hU.1 hU.2 l hl).symm
    | false =>
      simp only [out1, Bool.false_eq_true, if_false]
      rw [laneSlots_map_getD _ _ hl.1, hl.2]; rfl
  have hU1 : U = true → ∀ l, out1 l = out1 ((maskBits w).headD 0) := by
    intro h l; simp only [out1, h, if_true]
  have hsig : g.sigte = false ∨ ∀ l, (out1 l).sig = none := by
    rcases hs with h | h
    · exact .inl h
    · right; intro l
      cases U with
      | true => exact h _
      | false =>
        simp only [out1, Bool.false_eq_true, if_false]
        rcases Nat.lt_or_ge l 32 with hl | hl
        · rw [laneSlots_map_getD _ _ hl]; split
          · exact h l
          · rfl
        · rw [List.getD_eq_getElem?_getD, List.getElem?_eq_none (by simp [upFrom_length]; exact hl)]; rfl
  have hsl : sigLoss g w out1 = none := sigLoss_none hsig
  let rs := match aff with | some v => [(d, v)] | none => resRegs d n w U out1
  have hn : rs.map Prod.fst = upFrom d n := by
    cases ea : aff with
    | some v => simp only [rs, ea, (ha v ea).1]; rfl
    | none => simp only [rs, ea]; exact resRegs_names ..
  have hrt : regTrap g w rs = none := regTrap_none hn hc
  refine ⟨⟨rs, none, fun l => (out1 l).fl ||| os.foldl (fun f o => f ||| o.fl) flNone, k⟩, ?_, ⟨hn, ?_, rfl, ?_, rfl⟩⟩
  · show (match sigLoss g w out1 with
      | some t => Except.error t
      | none => match regTrap g w rs with
        | some t => Except.error t
        | none => Except.ok _) = _
    simp only [hsl, hrt]; rfl
  · intro i l hi hl v hv
    cases ea : aff with
    | some x =>
      simp only [rs, ea, List.mem_singleton, Prod.mk.injEq] at hv
      have := ha x ea
      obtain rfl : i = 0 := by omega
      rw [hv.2]; exact this.2 l hl
    | none =>
      simp only [rs, ea] at hv
      have := resRegs_vals (home := (g.lane l).home) hv hl (fun h => hU1 h l)
      rw [this, h1 l hl]; rfl
  · intro l hl
    show (out1 l).fl ||| _ = _
    rw [h1 l hl]; rfl

/-! ## The end of a word -/

/-- What committing register results writes without `.tr`: each register named in turn. -/
theorem put_fold (g : Group) (w : Mask) (hw : w ≠ 0) (rs : List (Nat × RegVal)) (d n : Nat) (hn : rs.map Prod.fst = upFrom d n)
    (hlen : d + n ≤ g.v.length) :
    let g' := rs.foldl (fun g x => g.put x.1 w x.2) g
    g' = { g with v := g'.v, window := g'.window, latch := g'.latch } ∧
    (∀ r, r < d ∨ d + n ≤ r → g'.reg r = g.reg r) ∧
    (∀ i v, i < n → (d + i, v) ∈ rs → g'.reg (d + i) = g.merged (d + i) w v) ∧
    (∀ i, i < n → ∀ b ∈ g'.window, b.reg ≠ d + i) ∧ g'.v.length = g.v.length := by
  induction rs generalizing g d n with
  | nil =>
    have hz : n = 0 := by simpa [upFrom_length] using (congrArg List.length hn).symm
    subst hz
    exact ⟨rfl, fun _ _ => rfl, fun i v h => by omega, fun i h => by omega, rfl⟩
  | cons x xs ih =>
    cases n with
    | zero => simp [upFrom] at hn
    | succ n =>
      simp only [List.map_cons, upFrom, List.cons.injEq] at hn
      obtain ⟨hx, hxs⟩ := hn
      have hw0 : (w == 0) = false := by simpa using hw
      have hp : g.put x.1 w x.2 = { g with v := modAt (fun _ => g.merged x.1 w x.2) x.1 g.v, window := g.window.filter (fun b => b.reg != x.1), latch := g.latch.filter (fun y => y.2 != x.1) } := by
        unfold Group.put; rw [hw0]; rfl
      have hl1 : (g.put x.1 w x.2).v.length = g.v.length := by rw [hp]; exact modAt_length ..
      obtain ⟨h1, h2, h3, h4, h5⟩ := ih (g.put x.1 w x.2) (d + 1) n hxs (by rw [hl1]; omega)
      have hmerge : ∀ r w' v, r ≠ x.1 → (g.put x.1 w x.2).merged r w' v = g.merged r w' v := by
        intro r w' v hr
        have hs : ∀ l, (g.put x.1 w x.2).stored r l = g.stored r l := by
          intro l; rw [hp]; simp only [Group.stored, Group.reg, Group.lane]; rw [modAt_getD_ne _ _ _ hr]
        unfold Group.merged
        have hc : (g.put x.1 w x.2).covers w' = g.covers w' := by rw [hp]; rfl
        have hln : ∀ l, (g.put x.1 w x.2).lane l = g.lane l := by intro l; rw [hp]; rfl
        simp only [hc, hs, hln]
      have hreg0 : (g.put x.1 w x.2).reg d = g.merged d w x.2 := by
        rw [hp]; simp only [Group.reg, hx]
        rw [modAt_getD _ _ _ _ _ (by omega)]; simp
      have hregne : ∀ r, r ≠ d → (g.put x.1 w x.2).reg r = g.reg r := by
        intro r hr; rw [hp]; simp only [Group.reg, hx]; exact modAt_getD_ne _ _ _ hr
      refine ⟨?_, ?_, ?_, ?_, by rw [List.foldl_cons, h5, hl1]⟩
      · rw [List.foldl_cons]
        rw [h1]; rw [hp]
      · intro r hr
        rw [List.foldl_cons, h2 r (by omega), hregne r (by omega)]
      · intro i v hi hv
        rw [List.foldl_cons]
        rcases Nat.eq_zero_or_pos i with h0 | h0
        · subst h0
          rw [h2 (d + 0) (by omega)]
          rcases List.mem_cons.1 hv with e | e
          · rw [show d + 0 = d from rfl, hreg0, ← e]
          · have : d + 0 ∈ xs.map Prod.fst := List.mem_map_of_mem (f := Prod.fst) e
            rw [hxs, mem_upFrom] at this; omega
        · rcases List.mem_cons.1 hv with e | e
          · have : d + i = x.1 := by rw [← e]
            omega
          · have := h3 (i - 1) v (by omega) (by rw [show d + 1 + (i - 1) = d + i by omega]; exact e)
            rw [show d + 1 + (i - 1) = d + i by omega] at this
            rw [this, hmerge _ _ _ (by omega)]
      · intro i hi b hb
        rw [List.foldl_cons] at hb
        rcases Nat.eq_zero_or_pos i with h0 | h0
        · subst h0
          have key : ∀ (ys : List (Nat × RegVal)) (k : Group), (∀ b ∈ k.window, b.reg ≠ d) →
              ∀ b ∈ (ys.foldl (fun g x => g.put x.1 w x.2) k).window, b.reg ≠ d := by
            intro ys
            induction ys with
            | nil => intro k hk; exact hk
            | cons y ys ihy =>
              intro k hk
              rw [List.foldl_cons]
              apply ihy
              intro b hb
              unfold Group.put at hb
              rw [hw0] at hb
              exact hk b (List.mem_filter.1 hb).1
          refine key xs _ ?_ b hb
          intro b hb
          rw [hp] at hb
          have := (List.mem_filter.1 hb).2
          simpa [hx] using this
        · have := h4 (i - 1) (by omega) b hb
          omega

/-- Raising flags in lanes changes STATUS and lane records alone, and of those only the flags kept beside the lane (R27). -/
theorem raiseAll_frame (g : Group) (w : Mask) (f : Nat → FlagSet) :
    g.raiseAll w f = { g with status := (g.raiseAll w f).status, lanes := (g.raiseAll w f).lanes } ∧
    ∀ l, (g.raiseAll w f).lane l = { g.lane l with accr := ((g.raiseAll w f).lane l).accr } := by
  unfold Group.raiseAll
  generalize maskBits w = ls
  induction ls generalizing g with
  | nil => exact ⟨rfl, fun _ => rfl⟩
  | cons x xs ih =>
    rw [List.foldl_cons]
    obtain ⟨h1, h2⟩ := ih (g.raise x (f x))
    have h : g.raise x (f x) = { g with status := (g.raise x (f x)).status, lanes := (g.raise x (f x)).lanes } ∧
        ∀ l, (g.raise x (f x)).lane l = { g.lane l with accr := ((g.raise x (f x)).lane l).accr } := by
      unfold Group.raise
      split
      · exact ⟨rfl, fun _ => rfl⟩
      · split
        · refine ⟨rfl, fun l => ?_⟩
          simp only [Group.lane, Group.modLane, List.getD_eq_getElem?_getD, modAt_getElem?]
          split
          · cases e : g.lanes[l]? <;> rfl
          · rfl
        · exact ⟨rfl, fun _ => rfl⟩
    refine ⟨?_, fun l => ?_⟩
    · rw [h1, h.1]
    · rw [h2 l, h.2 l]

/-- A lane after its flags have been raised (R27). -/
theorem raise_spec (g : Group) (x : Nat) (f : FlagSet) (hlen : g.lanes.length = 32) :
    (g.raise x f).status = (if besides g x then g.status else orStatus g.status f) ∧
    (∀ l, l < 32 → ((g.raise x f).lane l).accr = if l = x ∧ besides g x then (g.lane l).accr ||| f else (g.lane l).accr) ∧
    (∀ l, besides (g.raise x f) l = besides g l) ∧ (∀ l, ((g.raise x f).lane l).srcnt = (g.lane l).srcnt) ∧
    (g.raise x f).lanes.length = 32 := by
  have hz : ∀ st : Word, orStatus st 0 = st := by intro st; simp [orStatus]
  unfold Group.raise
  split
  · next h =>
    have hf : f = 0 := by simpa using h
    subst hf
    refine ⟨?_, fun l _ => by split <;> simp, fun _ => rfl, fun _ => rfl, hlen⟩
    rw [hz]; exact (ite_self _).symm
  · split
    · next hb =>
      have hb' : besides g x = true := hb
      have same : ∀ l, (((g.modLane x fun y => { y with accr := y.accr ||| f }).lane l).homeUid = (g.lane l).homeUid) ∧
          ((g.modLane x fun y => { y with accr := y.accr ||| f }).lane l).srcnt = (g.lane l).srcnt := by
        intro l
        simp only [Group.lane, Group.modLane, List.getD_eq_getElem?_getD, modAt_getElem?]
        split
        · cases e : g.lanes[l]? <;> exact ⟨rfl, rfl⟩
        · exact ⟨rfl, rfl⟩
      refine ⟨by rw [hb']; rfl, fun l h32 => ?_, fun l => ?_, fun l => (same l).2, by rw [Group.modLane]; simp [modAt_length, hlen]⟩
      · simp only [Group.lane, Group.modLane]
        rw [modAt_getD _ _ _ _ _ (by omega)]
        simp only [hb', and_true]; split <;> rfl
      · unfold besides
        rw [(same l).1]; rfl
    · next hb =>
      have hb' : besides g x = false := by simpa [besides] using hb
      exact ⟨by rw [hb']; rfl, fun l _ => by simp [hb']; rfl, fun _ => rfl, fun _ => rfl, hlen⟩

/-- Raising flags in the lanes of a mask (R27): STATUS, or the flags beside each lane. -/
theorem raiseAll_spec (g : Group) (w : Mask) (f : Nat → FlagSet) (hlen : g.lanes.length = 32) :
    (g.raiseAll w f).status = (maskBits w).foldl (fun st l => if besides g l then st else orStatus st (f l)) g.status ∧
    (∀ l, l < 32 → ((g.raiseAll w f).lane l).accr = if w.getLsbD l && besides g l then (g.lane l).accr ||| f l else (g.lane l).accr) ∧
    (∀ l, ((g.raiseAll w f).lane l).srcnt = (g.lane l).srcnt) ∧ (g.raiseAll w f).lanes.length = 32 := by
  have key : ∀ (ls : List Nat), ls.Nodup → ∀ (g : Group), g.lanes.length = 32 →
      let r := ls.foldl (fun g l => g.raise l (f l)) g
      r.status = ls.foldl (fun st l => if besides g l then st else orStatus st (f l)) g.status ∧
      (∀ l, l < 32 → (r.lane l).accr = if l ∈ ls ∧ besides g l then (g.lane l).accr ||| f l else (g.lane l).accr) ∧
      (∀ l, (r.lane l).srcnt = (g.lane l).srcnt) ∧ r.lanes.length = 32 := by
    intro ls
    induction ls with
    | nil => intro _ g hlen; exact ⟨rfl, fun l _ => by simp, fun _ => rfl, hlen⟩
    | cons x xs ih =>
      intro hnd g hlen
      obtain ⟨h1, h2, h3, h4, h5⟩ := raise_spec g x (f x) hlen
      obtain ⟨i1, i2, i3, i4⟩ := ih (List.nodup_cons.1 hnd).2 (g.raise x (f x)) h5
      have hx : x ∉ xs := (List.nodup_cons.1 hnd).1
      refine ⟨?_, ?_, ?_, ?_⟩
      · rw [List.foldl_cons, i1, h1, List.foldl_cons]
        congr 1
        funext st l; rw [h3]
      · intro l h32
        rw [List.foldl_cons, i2 l h32, h2 l h32, h3]
        by_cases hlx : l = x
        · subst hlx; simp [hx]
        · simp [hlx]
      · intro l; rw [List.foldl_cons, i3, h4]
      · rw [List.foldl_cons]; exact i4
  have hnd : (maskBits w).Nodup := by
    unfold maskBits
    exact List.Pairwise.filter _ (show laneSlots.Nodup by decide)
  obtain ⟨k1, k2, k3, k4⟩ := key (maskBits w) hnd g hlen
  refine ⟨k1, fun l h32 => ?_, k3, k4⟩
  rw [show (g.raiseAll w f).lane l = ((maskBits w).foldl (fun g l => g.raise l (f l)) g).lane l from rfl, k2 l h32]
  simp [mem_maskBits, h32]

/-- Drawing random words changes the draw counts of lanes alone (R42). -/
theorem drawn_lane (g : Group) (w : Mask) (k l : Nat) :
    (g.modLanes w fun _ x => { x with srcnt := x.srcnt + BitVec.ofNat 32 k }).lane l =
      { g.lane l with srcnt := ((g.modLanes w fun _ x => { x with srcnt := x.srcnt + BitVec.ofNat 32 k }).lane l).srcnt } := by
  unfold Group.lane Group.modLanes
  simp only [List.getD_eq_getElem?_getD, List.getElem?_mapIdx]
  cases e : g.lanes[l]? with
  | none => rfl
  | some x => simp only [Option.map_some, Option.getD_some]; split <;> rfl

/-- A group without the fields that a word can change (R82). -/
def Group.bare (g : Group) : Group := { g with v := [], window := [], latch := [], status := 0, lanes := [] }
theorem fields_of_bare {g g' : Group} (h : g'.bare = g.bare) :
    g' = { g with v := g'.v, window := g'.window, latch := g'.latch, status := g'.status, lanes := g'.lanes } := by
  cases g; cases g'
  simp only [Group.bare, Group.mk.injEq, true_and] at h ⊢
  exact h

/-- Committing register results (R82): every lane of the write set reads its result, which is stored unless `.tr` keeps it on the
bypass; everything else is framed. -/
theorem commit_wrote {g : Group} {tr : Bool} {w : Mask} {d n : Nat} {res : Nat → Nat → Word × Tag} {fl : Nat → FlagSet} {k : Nat}
    {o : AluOut} (latch : List (Nat × Nat)) (hw : w ≠ 0) (ho : Gives g w d n res fl k o) (hlen : d + n ≤ g.v.length)
    (h32 : g.lanes.length = 32) :
    Wrote g { g.commit tr w o with latch := latch } tr w d n res ∧ Raised g { g.commit tr w o with latch := latch } w fl k := by
  let add : List Bypass := if tr then o.regs.map fun x => ⟨x.1, g.merged x.1 w x.2, w, 3⟩ else []
  let g1 := g.issued add g.latch
  let g2 := if tr then g1 else o.regs.foldl (fun g x => g.put x.1 w x.2) g1
  let g3 := g2.raiseAll w o.fl
  let g4 := if o.draws == 0 then g3 else g3.modLanes w fun _ x => { x with srcnt := x.srcnt + BitVec.ofNat 32 o.draws }
  have hcommit : g.commit tr w o = g4 := by
    unfold Group.commit
    simp only [ho.pred]
    rfl
  rw [hcommit]
  have hfold := put_fold g1 w hw o.regs d n ho.regs hlen
  -- registers, window and lane homes of the stages
  have hg2 : g2 = { g with v := g2.v, window := g2.window, latch := g2.latch } := by
    simp only [g2]
    cases tr with
    | true => rfl
    | false => simp only [Bool.false_eq_true, if_false]; rw [hfold.1]; rfl
  obtain ⟨hr1, hr2⟩ := raiseAll_frame g2 w o.fl
  have hv4 : g4.v = g2.v ∧ g4.window = g2.window ∧ g4.p = g2.p := by
    have : g3.v = g2.v ∧ g3.window = g2.window ∧ g3.p = g2.p := by
      simp only [g3]; rw [hr1]; exact ⟨rfl, rfl, rfl⟩
    simp only [g4]; split
    · exact this
    · exact this
  have hl4 : ∀ l, g4.lane l = { g.lane l with srcnt := (g4.lane l).srcnt, accr := (g4.lane l).accr } := by
    intro l
    have hb : g2.lane l = g.lane l := by rw [hg2]; rfl
    have h3 : g3.lane l = { g.lane l with accr := (g3.lane l).accr } := by rw [← hb]; exact hr2 l
    have h4 : g4.lane l = { g3.lane l with srcnt := (g4.lane l).srcnt } := by
      simp only [g4]; split
      · rfl
      · exact drawn_lane g3 w o.draws l
    generalize g4.lane l = y at h4 ⊢
    rw [h4, h3]
  have hhome : ∀ l, (g4.lane l).home = (g.lane l).home := fun l => by rw [hl4 l]
  have hb4 : g4.bare = g.bare := by
    have h3 : g3.bare = g.bare := by
      have : g3.bare = g2.bare := by simp only [g3]; rw [hr1]; rfl
      rw [this, hg2]; rfl
    have h4 : g4.bare = g3.bare := by
      simp only [g4]; split
      · rfl
      · rfl
    rw [h4, h3]
  have hstored : ∀ r l, Group.stored { g4 with latch := latch } r l = (g2.reg r).at l (g.lane l).home := by
    intro r l
    show (g4.reg r).at l (g4.lane l).home = _
    rw [hhome]; unfold Group.reg; rw [hv4.1]
  have hread : ∀ r l, Group.read { g4 with latch := latch } r l =
      match g2.window.find? (fun b => b.reg == r && b.w.getLsbD l) with
      | some b => b.val.at l (g.lane l).home
      | none => (g2.reg r).at l (g.lane l).home := by
    intro r l
    show (match g4.window.find? (fun b => b.reg == r && b.w.getLsbD l) with
      | some b => b.val.at l (g4.lane l).home
      | none => Group.stored { g4 with latch := latch } r l) = _
    rw [hstored, hhome, hv4.2.1]
  have hval : ∀ l i, Lane.mem w l → i < n → tr = false → (g2.reg (d + i)).at l (g.lane l).home = res l i := by
    intro l i hl hi ht
    obtain ⟨v, hv⟩ := regs_find ho.regs hi
    have : g2.reg (d + i) = g1.merged (d + i) w v := by
      simp only [g2, ht, Bool.false_eq_true, if_false]; exact hfold.2.2.1 i v hi hv
    rw [this]
    have hm := merged_at (g := g1) (r := d + i) (v := v) hl.1 hl.2
    rw [show (g1.lane l).home = (g.lane l).home from rfl] at hm
    rw [hm]; exact ho.vals i l hi hl v hv
  have hraised : Raised g { g4 with latch := latch } w fl k := by
    have hlen2 : g2.lanes.length = 32 := by rw [hg2]; exact h32
    obtain ⟨r1, r2, r3, r4⟩ := raiseAll_spec g2 w o.fl hlen2
    have hbes : ∀ l, besides g2 l = besides g l := by intro l; rw [hg2]; rfl
    have hg3 : g3 = g2.raiseAll w o.fl := rfl
    have hlane : ∀ l, g2.lane l = g.lane l := by intro l; rw [hg2]; rfl
    refine ⟨?_, ?_, ?_⟩
    · show g4.status = _
      have : g4.status = g3.status := by simp only [g4]; split <;> rfl
      rw [this, hg3, r1, show g2.status = g.status from by rw [hg2]]
      have : ∀ (ls : List Nat), (∀ l ∈ ls, Lane.mem w l) → ∀ st, ls.foldl (fun st l => if besides g2 l then st else orStatus st (o.fl l)) st =
          ls.foldl (fun st l => if besides g l then st else orStatus st (fl l)) st := by
        intro ls
        induction ls with
        | nil => intro _ _; rfl
        | cons x xs ih =>
          intro hm st
          rw [List.foldl_cons, List.foldl_cons, hbes, ho.fl x (hm x (by simp)), ih fun l hl => hm l (by simp [hl])]
      exact this _ (fun l hl => mem_maskBits.1 hl) _
    · intro l hl
      show (g4.lane l).accr = _
      have : (g4.lane l).accr = (g3.lane l).accr := by
        simp only [g4]; split
        · rfl
        · rw [drawn_lane g3 w o.draws l]
      rw [this, hg3, r2 l hl, hbes, hlane]
      cases hw2 : w.getLsbD l with
      | false => rfl
      | true => rw [ho.fl l ⟨hl, hw2⟩]
    · intro l hl
      show (g4.lane l).srcnt = _
      have h3 : (g3.lane l).srcnt = (g.lane l).srcnt := by rw [hg3, r3, hlane]
      have hk := ho.draws
      simp only [g4]; split
      · next hd =>
        have : k = 0 := by rw [← hk]; simpa using hd
        subst this
        rw [h3]; split <;> simp
      · rw [← h3, hk]
        unfold Group.lane Group.modLanes
        simp only [List.getD_eq_getElem?_getD, List.getElem?_mapIdx]
        have hl3 : l < g3.lanes.length := by rw [hg3, r4]; exact hl
        rw [List.getElem?_eq_getElem hl3]
        simp only [Option.map_some, Option.getD_some]; split <;> rfl
  refine ⟨⟨?_, ?_, ?_, ?_, ?_⟩, hraised⟩
  · intro l i hl hi
    rw [hread]
    cases ht : tr with
    | false =>
      have hw2 : ∀ b ∈ g2.window, b.reg ≠ d + i := by
        simp only [g2, ht, Bool.false_eq_true, if_false]; exact hfold.2.2.2.1 i hi
      have : g2.window.find? (fun b => b.reg == d + i && b.w.getLsbD l) = none := by
        rw [List.find?_eq_none]; intro b hb; simp [hw2 b hb]
      rw [this]; exact hval l i hl hi ht
    | true =>
      have hwin : g2.window = (o.regs.map fun x => (⟨x.1, g.merged x.1 w x.2, w, 3⟩ : Bypass)) ++ ageWindow g.window := by
        simp only [g2, ht, if_true]; simp only [g1, Group.issued, add, ht, if_true]
      obtain ⟨v, hv⟩ := regs_find ho.regs hi
      have hex : ∃ b, ((o.regs.map fun x => (⟨x.1, g.merged x.1 w x.2, w, 3⟩ : Bypass))).find?
          (fun b => b.reg == d + i && b.w.getLsbD l) = some b ∧ ∃ v, (d + i, v) ∈ o.regs ∧ b.val = g.merged (d + i) w v := by
        have hsome : (((o.regs.map fun x => (⟨x.1, g.merged x.1 w x.2, w, 3⟩ : Bypass))).find?
            (fun b => b.reg == d + i && b.w.getLsbD l)).isSome := by
          rw [List.find?_isSome]
          exact ⟨⟨d + i, g.merged (d + i) w v, w, 3⟩, List.mem_map.2 ⟨(d + i, v), hv, rfl⟩, by simp [hl.2]⟩
        obtain ⟨b, hb⟩ := Option.isSome_iff_exists.1 hsome
        refine ⟨b, hb, ?_⟩
        obtain ⟨x, hx, hxb⟩ := List.mem_map.1 (List.mem_of_find?_eq_some hb)
        have hp := List.find?_some hb
        simp only [Bool.and_eq_true, beq_iff_eq] at hp
        have hxr : x.1 = d + i := by rw [← hp.1, ← hxb]
        exact ⟨x.2, by rw [← hxr]; exact hx, by rw [← hxb, ← hxr]⟩
      obtain ⟨b, hb, u, hu, hbv⟩ := hex
      rw [hwin, List.find?_append, hb]
      simp only [Option.some_or]
      rw [hbv, merged_at hl.1 hl.2]
      exact ho.vals i l hi hl u hu
  · intro ht l i hl hi
    rw [hstored]; exact hval l i hl hi ht
  · intro r l h32 hk
    rw [hstored]
    show _ = (g.reg r).at l (g.lane l).home
    cases ht : tr with
    | true =>
      have : g2.v = g.v := by simp only [g2, ht, if_true]; rfl
      unfold Group.reg; rw [this]
    | false =>
      rcases Nat.lt_or_ge r d with h1 | h1
      · have : g2.reg r = g1.reg r := by
          simp only [g2, ht, Bool.false_eq_true, if_false]; exact hfold.2.1 r (.inl h1)
        rw [this]; rfl
      · rcases Nat.lt_or_ge r (d + n) with h2 | h2
        · obtain ⟨i, rfl⟩ : ∃ i, r = d + i := ⟨r - d, by omega⟩
          have hwl : w.getLsbD l = false ∧ g.live.getLsbD l = true := by
            rcases hk with h | h | h | h
            · rw [ht] at h; cases h
            · omega
            · omega
            · exact h
          obtain ⟨v, hv⟩ := regs_find ho.regs (show i < n by omega)
          have : g2.reg (d + i) = g1.merged (d + i) w v := by
            simp only [g2, ht, Bool.false_eq_true, if_false]; exact hfold.2.2.1 i v (by omega) hv
          rw [this]
          exact merged_kept (g := g1) h32 hwl.1 hwl.2
        · have : g2.reg r = g1.reg r := by
            simp only [g2, ht, Bool.false_eq_true, if_false]; exact hfold.2.1 r (.inr h2)
          rw [this]; rfl
  · show g4.p = g.p
    rw [hv4.2.2, hg2]
  · exact ⟨fields_of_bare (g' := { g4 with latch := latch }) hb4, hl4⟩

/-- An arithmetic word that computes its results completes with them (R82). -/
theorem aluWord_completes {s : State} {g : Group} {c : Ctl} {d n : Nat} {srcs : List Src} {eval : Group → Mask → Except Trap AluOut}
    {o : AluOut} {res : Nat → Nat → Word × Tag} {fl : Nat → FlagSet} {k : Nat} (h : Writes s g c d n) (he : eval g (lanesOf g c) = .ok o)
    (ho : Gives g (lanesOf g c) d n res fl k o) :
    ∃ g', aluWord s c srcs eval = .next (s.nextWord g') ∧ Wrote g g' c.tr (lanesOf g c) d n res ∧ Raised g g' (lanesOf g c) fl k := by
  refine ⟨{ g.commit c.tr (lanesOf g c) o with latch := latchOf c srcs }, ?_, commit_wrote _ h.some_lane ho ?_ h.formed.lanes⟩
  · unfold aluWord withIssuer
    rw [h.issues.cur]; simp only [h.issues.group]
    have : (g.writeSet c.gp.val c.gn == 0) = false := by simpa using h.some_lane
    simp only [this, Bool.false_eq_true, if_false]
    rw [show eval g (g.writeSet c.gp.val c.gn) = .ok o from he]
  · have := h.formed.regs
    have := h.capacity
    unfold Decl.total at *
    omega

/-- A word over ready sources whose lane results are a function of the source values (R82). -/
theorem aluMap_completes {s : State} {g : Group} {c : Ctl} {d n : Nat} {srcs : List Src} {xs : List (Src × OTy)} {os : List Opnd}
    {dep : Bool} {k : Nat} {f : Nat → List (Nat × Tag) → LaneOut} (h : Writes s g c d n) (hx : Sources s g c xs os)
    (hs : g.sigte = false ∨ ∀ l vs, (f l vs).sig = none) (hf : dep = false → ∀ l l' vs, f l vs = f l' vs) :
    ∃ g', aluWord s c srcs (fun g w => aluMap s g w d n xs dep k f) = .next (s.nextWord g') ∧
      Wrote g g' c.tr (lanesOf g c) d n (whole fun l => ((f l (valsAt g os l)).val, (f l (valsAt g os l)).tag)) ∧
      Raised g g' (lanesOf g c) (fun l => (f l (valsAt g os l)).fl ||| srcFl os) k := by
  have hl : ∀ l, Lane.mem (lanesOf g c) l → g.live.getLsbD l = true := fun l hl => live_of_writes h.formed _ _ hl.2
  have hh : Lane.mem (lanesOf g c) ((maskBits (lanesOf g c)).headD 0) := headD_maskBits h.some_lane
  obtain ⟨o, ho, hg⟩ := aluResult_gives (g := g) (w := lanesOf g c) (d := d) (n := n) (os := os) (dep := dep) (aff := none) (k := k)
    (out := fun l => f l (valsAt g os l)) h.capacity
    (hs.imp id fun h l => h l _)
    (fun hu hd l hm => by
      show f l (valsAt g os l) = f _ (valsAt g os _)
      rw [hf hd l ((maskBits (lanesOf g c)).headD 0), valsAt, vals_uniform hu (hl l hm) hm.1 (hl _ hh) hh.1])
    (by intro v hv; cases hv)
  refine aluWord_completes h ?_ hg
  unfold aluMap
  rw [show s.operands g (lanesOf g c) xs = .ok os from hx]
  exact ho

/-- A word whose results are a function of the source values alone, tagged FULL (R17). -/
theorem intMap_completes {s : State} {g : Group} {c : Ctl} {d n : Nat} {srcs : List Src} {xs : List (Src × OTy)} {os : List Opnd}
    {f : List Nat → Nat} (h : Writes s g c d n) (hx : Sources s g c xs os) :
    ∃ g', aluWord s c srcs (fun g w => intMap s g w d n xs f) = .next (s.nextWord g') ∧
      Wrote g g' c.tr (lanesOf g c) d n (whole fun l => (f ((valsAt g os l).map Prod.fst), FULL)) ∧
      Raised g g' (lanesOf g c) (fun _ => srcFl os) 0 := by
  have := aluMap_completes (srcs := srcs) (f := fun _ vs => plainOut (f (vs.map Prod.fst))) (dep := false) (k := 0) h hx
    (.inr fun _ _ => rfl) (fun _ _ _ _ => rfl)
  obtain ⟨g', h1, h2, h3⟩ := this
  exact ⟨g', h1, h2, by simpa [plainOut, flNone] using h3⟩

/-- A word of one result over a list of ready operands: what `aluResult` gives it completes with. -/
theorem aluResult_completes {s : State} {g : Group} {c : Ctl} {d n : Nat} {srcs : List Src} {eval : Group → Mask → Except Trap AluOut}
    {os : List Opnd} {dep : Bool} {aff : Option RegVal} {k : Nat} {out : Nat → LaneOut} (h : Writes s g c d n)
    (he : eval g (lanesOf g c) = aluResult g (lanesOf g c) d n os dep aff k out)
    (hs : g.sigte = false ∨ ∀ l, (out l).sig = none)
    (hu : allUniform g os = true → dep = false → ∀ l, Lane.mem (lanesOf g c) l → out l = out ((maskBits (lanesOf g c)).headD 0))
    (ha : ∀ v, aff = some v → n = 1 ∧ ∀ l, Lane.mem (lanesOf g c) l → v.at l (g.lane l).home = part ((out l).val, (out l).tag) 0) :
    ∃ g', aluWord s c srcs eval = .next (s.nextWord g') ∧
      Wrote g g' c.tr (lanesOf g c) d n (whole fun l => ((out l).val, (out l).tag)) ∧
      Raised g g' (lanesOf g c) (fun l => (out l).fl ||| srcFl os) k := by
  obtain ⟨o, ho, hg⟩ := aluResult_gives (g := g) (w := lanesOf g c) (d := d) (n := n) (os := os) (dep := dep) (aff := aff) (k := k)
    (out := out) h.capacity hs hu ha
  exact aluWord_completes h (he.trans ho) hg

/-- The base and stride of a linear operand, 0 for a uniform one, give what each live lane reads (R11). -/
theorem linear_at {g : Group} {o : Opnd} {x : Word × Option Word} {l : Nat} (h : o.linear g = some x) (hl : g.live.getLsbD l = true)
    (h32 : l < 32) : BitVec.ofNat 32 (o.at g l).1 = x.1 + BitVec.ofNat 32 (g.lane l).home * x.2.getD 0 := by
  cases o with
  | uni v t f => simp only [Opnd.linear, Option.some.injEq] at h; subst h; simp [Opnd.at]
  | reg r n =>
    simp only [Opnd.linear] at h
    split at h
    · next hn =>
      simp only [beq_iff_eq] at hn
      simp only [Opnd.at, hn, beq_self_eq_true, if_true]
      split at h
      · next w t e =>
        cases h
        rw [read_view hl h32 (by simp [e, RegVal.shape]), e]; simp [RegVal.at, BitVec.ofNat_toNat, BitVec.setWidth_eq, - BitVec.toNat_add, - BitVec.toNat_mul]
      · next a b t e =>
        cases h
        rw [read_view hl h32 (by simp [e, RegVal.shape]), e]; simp [RegVal.at, BitVec.ofNat_toNat, BitVec.setWidth_eq, - BitVec.toNat_add, - BitVec.toNat_mul]
      · cases h
    · cases h

/-- A 32-bit word that R12 rows 5 and 6 may make affine gives its result with its results, where the linear form agrees with them. -/
theorem affMap_gives {s : State} {g : Group} {c : Ctl} {d : Nat} {xs : List (Src × OTy)} {os : List Opnd}
    {lin : List (Word × Option Word) → Option (Word × Word)} {f : List Nat → Nat} (h : Writes s g c d 1) (hx : Sources s g c xs os)
    (hlin : ∀ ls y, lin ls = some y → ∀ (vs : List Nat) (k : Word), vs.map (BitVec.ofNat 32) = ls.map (fun x => x.1 + k * x.2.getD 0) →
      BitVec.ofNat 32 (f vs) = y.1 + k * y.2) :
    ∃ o, affMap s g (lanesOf g c) d xs lin f = .ok o ∧
      Gives g (lanesOf g c) d 1 (whole fun l => (f ((valsAt g os l).map Prod.fst), FULL)) (fun _ => srcFl os) 0 o := by
  have hlive : ∀ l, Lane.mem (lanesOf g c) l → g.live.getLsbD l = true := fun l hl => live_of_writes h.formed _ _ hl.2
  have hh : Lane.mem (lanesOf g c) ((maskBits (lanesOf g c)).headD 0) := headD_maskBits h.some_lane
  have he : ∀ l, os.map (fun o => (Opnd.at g l o).1) = (valsAt g os l).map Prod.fst := by intro l; simp [valsAt]
  let ls := os.filterMap (Opnd.linear g)
  have hfin := aluResult_gives (g := g) (w := lanesOf g c) (d := d) (n := 1) (os := os) (dep := false) (k := 0)
    (aff := if ls.length == os.length && os.any (fun o => o.shape g == .affine) then (lin ls).map fun x => RegVal.affine x.1 x.2 FULL else none)
    (out := fun l => plainOut (f ((valsAt g os l).map Prod.fst))) h.capacity (.inr fun _ => rfl) ?_ ?_
  · obtain ⟨o, h1, h2⟩ := hfin
    refine ⟨o, ?_, by simpa [plainOut, flNone] using h2⟩
    rw [← h1]
    unfold affMap
    rw [show s.operands g (lanesOf g c) xs = .ok os from hx]
    simp only [he]; rfl
  · intro hu _ l hm
    show plainOut _ = plainOut _
    rw [valsAt, vals_uniform hu (hlive l hm) hm.1 (hlive _ hh) hh.1]
  · intro v hv
    refine ⟨rfl, fun l hl => ?_⟩
    split at hv
    · next hc =>
      simp only [Bool.and_eq_true, beq_iff_eq] at hc
      obtain ⟨y, hy, rfl⟩ := Option.map_eq_some_iff.1 hv
      have key : ∀ (os : List Opnd), (os.filterMap (Opnd.linear g)).length = os.length →
          ((os.map (Opnd.at g l)).map Prod.fst).map (BitVec.ofNat 32) =
            (os.filterMap (Opnd.linear g)).map (fun x => x.1 + BitVec.ofNat 32 (g.lane l).home * x.2.getD 0) := by
        intro os
        induction os with
        | nil => intro _; rfl
        | cons o os ih =>
          intro hlen
          cases e : o.linear g with
          | none =>
            rw [List.filterMap_cons, e] at hlen
            have := List.length_filterMap_le (Opnd.linear g) os
            simp at hlen; omega
          | some x =>
            rw [List.filterMap_cons, e] at hlen ⊢
            simp only [List.length_cons, Nat.add_right_cancel_iff] at hlen
            simp only [List.map_cons, List.cons.injEq]
            exact ⟨linear_at e (hlive l hl) hl.1, ih hlen⟩
      have := hlin ls y hy _ _ (key os hc.1)
      simp only [RegVal.at, part, plainOut, Nat.mul_zero, Nat.pow_zero, Nat.div_one]
      rw [this]
    · cases hv

/-- So such a word completes. -/
theorem affMap_completes {s : State} {g : Group} {c : Ctl} {d : Nat} {srcs : List Src} {xs : List (Src × OTy)} {os : List Opnd}
    {lin : List (Word × Option Word) → Option (Word × Word)} {f : List Nat → Nat} (h : Writes s g c d 1) (hx : Sources s g c xs os)
    (hlin : ∀ ls y, lin ls = some y → ∀ (vs : List Nat) (k : Word), vs.map (BitVec.ofNat 32) = ls.map (fun x => x.1 + k * x.2.getD 0) →
      BitVec.ofNat 32 (f vs) = y.1 + k * y.2) :
    ∃ g', aluWord s c srcs (fun g w => affMap s g w d xs lin f) = .next (s.nextWord g') ∧
      Wrote g g' c.tr (lanesOf g c) d 1 (whole fun l => (f ((valsAt g os l).map Prod.fst), FULL)) ∧
      Raised g g' (lanesOf g c) (fun _ => srcFl os) 0 := by
  obtain ⟨o, h1, h2⟩ := affMap_gives h hx hlin
  exact aluWord_completes h h1 h2

/-- A result committed for a writing word (R82). -/
theorem commit_writes {s : State} {g : Group} {c : Ctl} {d n : Nat} {o : AluOut} {res : Nat → Nat → Word × Tag} {fl : Nat → FlagSet} {k : Nat}
    (tr : Bool) (h : Writes s g c d n) (ho : Gives g (lanesOf g c) d n res fl k o) :
    Wrote g (g.commit tr (lanesOf g c) o) tr (lanesOf g c) d n res ∧ Raised g (g.commit tr (lanesOf g c) o) (lanesOf g c) fl k :=
  commit_wrote (g.commit tr (lanesOf g c) o).latch h.some_lane ho
    (by have := h.formed.regs; have := h.capacity; unfold Decl.total at *; omega) h.formed.lanes

/-- A word that writes a range of registers, one result each, completes with them (R83). -/
theorem aluMany_completes {s : State} {g : Group} {c : Ctl} {d n : Nat} {srcs : List Src} {eval : Group → Mask → Except Trap AluOut}
    {os : List Opnd} {dep : Bool} {k : Nat} {out : Nat → List LaneOut} (h : Writes s g c d n)
    (he : eval g (lanesOf g c) = aluMany g (lanesOf g c) d n os dep k out)
    (hs : g.sigte = false ∨ ∀ l, ∀ x ∈ out l, x.sig = none)
    (hu : allUniform g os = true → dep = false → ∀ l, Lane.mem (lanesOf g c) l → out l = out ((maskBits (lanesOf g c)).headD 0)) :
    ∃ g', aluWord s c srcs eval = .next (s.nextWord g') ∧
      Wrote g g' c.tr (lanesOf g c) d n (fun l i => let x := (out l).getD i (plainOut 0); part (x.val, x.tag) 0) ∧
      Raised g g' (lanesOf g c) (fun l => (out l).foldl (fun f x => f ||| x.fl) (srcFl os)) k := by
  generalize hW : lanesOf g c = w at he hu ⊢
  have hone : ∀ i v d' u o, (i, v) ∈ resRegs d' 1 w u o → i = d' := by
    intro i v d' u o hm
    have : i ∈ (resRegs d' 1 w u o).map Prod.fst := List.mem_map_of_mem (f := Prod.fst) hm
    rw [resRegs_names, mem_upFrom] at this; omega
  unfold aluMany at he
  generalize hU : (allUniform g os && !dep) = U at he
  let out1 : Nat → List LaneOut := fun l => if U then out ((maskBits w).headD 0) else
    (if U then [] else laneSlots.map fun l => if w.getLsbD l then out l else []).getD l []
  have h1 : ∀ l, Lane.mem w l → out1 l = out l := by
    intro l hl
    cases U with
    | true =>
      simp only [Bool.and_eq_true, Bool.not_eq_eq_eq_not, Bool.not_true] at hU
      exact (hu hU.1 hU.2 l hl).symm
    | false =>
      simp only [out1, Bool.false_eq_true, if_false]
      rw [laneSlots_map_getD _ _ hl.1, hl.2]; rfl
  have hU1 : U = true → ∀ l, out1 l = out1 ((maskBits w).headD 0) := by intro h l; simp only [out1, h, if_true]
  have hnil : ∀ l, out1 l = [] ∨ ∃ l', out1 l = out l' := by
    intro l
    cases U with
    | true => exact .inr ⟨_, rfl⟩
    | false =>
      simp only [out1, Bool.false_eq_true, if_false]
      rcases Nat.lt_or_ge l 32 with hl | hl
      · rw [laneSlots_map_getD _ _ hl]; split
        · exact .inr ⟨l, rfl⟩
        · exact .inl rfl
      · rw [List.getD_eq_getElem?_getD, List.getElem?_eq_none (by simp [upFrom_length]; exact hl)]; exact .inl rfl
  let worst (l : Nat) : LaneOut := (out1 l).foldl (fun b x => match x.sig, b.sig with
    | some _, some _ => if x.tag < b.tag then x else b
    | some _, none => x
    | none, _ => b) (plainOut 0)
  have hsig : g.sigte = false ∨ ∀ l, (worst l).sig = none := by
    rcases hs with h | h
    · exact .inl h
    · right; intro l
      have hall : ∀ x ∈ out1 l, x.sig = none := by
        intro x hx
        rcases hnil l with e | ⟨l', e⟩
        · rw [e] at hx; cases hx
        · rw [e] at hx; exact h l' x hx
      have key : ∀ (ls : List LaneOut) (b : LaneOut), b.sig = none → (∀ x ∈ ls, x.sig = none) →
          (ls.foldl (fun b x => match x.sig, b.sig with
            | some _, some _ => if x.tag < b.tag then x else b
            | some _, none => x
            | none, _ => b) b).sig = none := by
        intro ls
        induction ls with
        | nil => intro b hb _; exact hb
        | cons x xs ih =>
          intro b hb hx
          rw [List.foldl_cons]
          have := hx x (by simp)
          simp only [this]
          exact ih b hb fun y hy => hx y (by simp [hy])
      exact key _ _ rfl hall
  have hsl : sigLoss g w worst = none := sigLoss_none hsig
  let rs := (upFrom 0 n).flatMap fun i => resRegs (d + i) 1 w U fun l => (out1 l).getD i (plainOut 0)
  have hn : rs.map Prod.fst = upFrom d n := by
    have : ∀ a k, ((upFrom a k).flatMap fun i => resRegs (d + i) 1 w U fun l => (out1 l).getD i (plainOut 0)).map Prod.fst = upFrom (d + a) k := by
      intro a k
      induction k generalizing a with
      | zero => rfl
      | succ k ih =>
        simp only [upFrom, List.flatMap_cons, List.map_append, resRegs_names, ih]
        rfl
    exact this 0 n
  have hrt : regTrap g w rs = none := regTrap_none hn h.capacity
  subst hW
  refine aluWord_completes h (o := ⟨rs, none, fun l => (out1 l).foldl (fun f x => f ||| x.fl) (os.foldl (fun f o => f ||| o.fl) flNone), k⟩) ?_ ⟨hn, ?_, rfl, ?_, rfl⟩
  · rw [he]
    show (match sigLoss g _ worst with
      | some t => Except.error t
      | none => match regTrap g _ rs with
        | some t => Except.error t
        | none => Except.ok _) = _
    rw [hsl]; simp only; rw [hrt]
  · intro i l hi hl v hv
    obtain ⟨j, hj, hm⟩ := List.mem_flatMap.1 hv
    obtain rfl : i = j := by have := hone _ _ _ _ _ hm; omega
    have := resRegs_vals (i := 0) (home := (g.lane l).home) hm hl (fun hu => by rw [hU1 hu l])
    rw [this]
    simp only [h1 l hl]
  · intro l hl
    show (out1 l).foldl _ _ = _
    rw [h1 l hl]; rfl

/-! ## Predicate results -/

/-- The lanes of a mask made of a list. -/
theorem maskOf_at {ls : List Nat} {l : Nat} (h32 : l < 32) : (maskOf ls).getLsbD l = decide (l ∈ ls) := by
  have key : ∀ (ls : List Nat) (a : Mask), (ls.foldl (fun m l => m ||| BitVec.ofNat 32 (2 ^ l)) a).getLsbD l = (a.getLsbD l || decide (l ∈ ls)) := by
    intro ls
    induction ls with
    | nil => intro a; simp
    | cons x xs ih =>
      intro a
      rw [List.foldl_cons, ih]
      simp only [BitVec.getLsbD_or, BitVec.getLsbD_ofNat, h32, decide_true, Bool.true_and, Nat.testBit_two_pow, List.mem_cons]
      cases a.getLsbD l <;> by_cases hx : x = l <;> by_cases hm : l ∈ xs <;> simp [hx, hm] <;> exact fun e => hx e.symm
  unfold maskOf
  rw [key]
  simp

/-- The lanes of a mask that satisfy a condition. -/
theorem maskOf_filter {m : Mask} {f : Nat → Bool} {l : Nat} (h32 : l < 32) :
    (maskOf ((maskBits m).filter f)).getLsbD l = (m.getLsbD l && f l) := by
  rw [maskOf_at h32]
  simp only [List.mem_filter, mem_maskBits, h32, true_and]
  cases m.getLsbD l <;> cases f l <;> simp

/-- The lanes that satisfy a condition. -/
theorem maskOf_slots {f : Nat → Bool} {l : Nat} (h32 : l < 32) : (maskOf (laneSlots.filter f)).getLsbD l = f l := by
  rw [maskOf_at h32]
  simp only [List.mem_filter, mem_upFrom]
  by_cases h : f l <;> simp [h]; omega

/-- Committing a predicate (R18): the condition in the lanes of the write set, the old bits elsewhere. -/
theorem commit_wrotePred {g : Group} {w : Mask} {p : Nat} {cond : Nat → Bool} {fl : Nat → FlagSet} (latch : List (Nat × Nat)) (tr : Bool) :
    WrotePred g { g.commit tr w ⟨[], some (p, maskOf ((maskBits w).filter cond)), fl, 0⟩ with latch := latch } w p cond ∧
      (g.lanes.length = 32 → Raised g { g.commit tr w ⟨[], some (p, maskOf ((maskBits w).filter cond)), fl, 0⟩ with latch := latch } w fl 0) := by
  let g1 := g.issued [] g.latch
  let g2 := g1.putPred p w (maskOf ((maskBits w).filter cond))
  let g3 := g2.raiseAll w fl
  have hc : g.commit tr w ⟨[], some (p, maskOf ((maskBits w).filter cond)), fl, 0⟩ = g3 := by
    unfold Group.commit; cases tr <;> rfl
  rw [hc]
  obtain ⟨hr1, -⟩ := raiseAll_frame g2 w fl
  have hp : g3.p = g2.p := by simp only [g3]; rw [hr1]
  have hv : g3.v = g2.v := by simp only [g3]; rw [hr1]
  have hp2 : g2.p = if p = 63 then g.p else modAt (fun old => (old &&& ~~~w) ||| (maskOf ((maskBits w).filter cond) &&& w)) p g.p := by
    simp only [g2, Group.putPred]; by_cases h : p = 63 <;> simp [h] <;> rfl
  refine ⟨⟨?_, ?_, ?_, ?_⟩, fun hlen => ?_⟩
  rotate_left 4
  · have hp : g2 = { g1 with p := g2.p } := by simp only [g2, Group.putPred]; split <;> rfl
    have hlen2 : g2.lanes.length = 32 := by rw [hp]; exact hlen
    obtain ⟨r1, r2, r3, -⟩ := raiseAll_spec g2 w fl hlen2
    have hbes : ∀ l, besides g2 l = besides g l := by intro l; rw [hp]; rfl
    refine ⟨?_, fun l hl => ?_, fun l hl => ?_⟩
    · show (g2.raiseAll w fl).status = _
      rw [r1, show g2.status = g.status from by rw [hp]; rfl]
      congr 1; funext st l; rw [hbes]
    · show ((g2.raiseAll w fl).lane l).accr = _
      rw [r2 l hl, hbes, show g2.lane l = g.lane l from by rw [hp]; rfl]
    · show ((g2.raiseAll w fl).lane l).srcnt = _
      rw [r3, show g2.lane l = g.lane l from by rw [hp]; rfl]; split <;> simp
  · intro h63 hlen l h32
    show (g3.p.getD p 0).getLsbD l = _
    rw [hp, hp2, if_neg (by omega), modAt_getD _ _ _ _ _ hlen]
    simp only [if_true, BitVec.getLsbD_or, BitVec.getLsbD_and, BitVec.getLsbD_not, h32, decide_true, Bool.true_and, maskOf_filter h32]
    cases w.getLsbD l <;> simp
  · intro q hq
    show g3.p.getD q 0 = _
    rw [hp, hp2]
    split
    · rfl
    · next h => exact modAt_getD_ne _ _ _ (by omega)
  · show g3.v = g.v
    rw [hv]; simp only [g2, Group.putPred]; split <;> rfl
  · have hb : ({ g3 with p := [], latch := latch } : Group).bare = ({ g with p := [] } : Group).bare := by
      simp only [g3]; rw [hr1]; simp only [g2, Group.putPred]; split <;> rfl
    have h1 := fields_of_bare hb
    have h2 : ∀ x y : Group, ({ x with p := [] } : Group) = { ({ y with p := [] } : Group) with v := x.v, window := x.window, latch := x.latch, status := x.status, lanes := x.lanes } →
        x = { y with p := x.p, window := x.window, latch := x.latch, status := x.status, lanes := x.lanes, v := x.v } := by
      intro x y h; cases x; cases y; simp only [Group.mk.injEq, true_and] at h ⊢; exact h
    have h3 := h2 { g3 with latch := latch } g h1
    have hv3 : g3.v = g.v := by rw [hv]; simp only [g2, Group.putPred]; split <;> rfl
    refine h3.trans ?_
    simp only [hv3]

/-- A word that computes a predicate completes with it. -/
theorem predResult_completes {s : State} {g : Group} {c : Ctl} {srcs : List Src} {eval : Group → Mask → Except Trap AluOut} {p : Nat}
    {cond : Nat → Bool} {os : List Opnd} {fl : Nat → FlagSet} (hi : Issues s g) (hlen : g.lanes.length = 32) (hw : lanesOf g c ≠ 0)
    (he : eval g (lanesOf g c) = predResult (lanesOf g c) p os fl cond) :
    ∃ g', aluWord s c srcs eval = .next (s.nextWord g') ∧ WrotePred g g' (lanesOf g c) p cond ∧
      Raised g g' (lanesOf g c) (fun l => fl l ||| srcFl os) 0 := by
  obtain ⟨h1, h2⟩ := commit_wrotePred (g := g) (w := lanesOf g c) (p := p) (cond := cond) (fl := fun l => fl l ||| srcFl os) (latchOf c srcs) c.tr
  refine ⟨_, ?_, h1, h2 hlen⟩
  · unfold aluWord withIssuer
    rw [hi.cur]; simp only [hi.group]
    have : (g.writeSet c.gp.val c.gn == 0) = false := by simpa using hw
    simp only [this, Bool.false_eq_true, if_false]
    rw [show eval g (g.writeSet c.gp.val c.gn) = _ from he]
    rfl

theorem predMap_completes {s : State} {g : Group} {c : Ctl} {srcs : List Src} {p : Nat} {xs : List (Src × OTy)} {os : List Opnd}
    {f : List (Nat × Tag) → Bool × FlagSet} (hi : Issues s g) (hlen : g.lanes.length = 32) (hw : lanesOf g c ≠ 0)
    (hx : Sources s g c xs os) :
    ∃ g', aluWord s c srcs (fun g w => predMap s g w p xs f) = .next (s.nextWord g') ∧
      WrotePred g g' (lanesOf g c) p (fun l => (f (valsAt g os l)).1) ∧
      Raised g g' (lanesOf g c) (fun l => (f (valsAt g os l)).2 ||| srcFl os) 0 := by
  refine predResult_completes (os := os) (fl := fun l => (f (valsAt g os l)).2) hi hlen hw ?_
  unfold predMap
  rw [show s.operands g (lanesOf g c) xs = .ok os from hx]

end Sys2Proof.Machine
end

