-- ==== Sys2Proof/Laws/State.lean ====
section
/-! SUPPORT. What each update of the state leaves of its other fields, and what it makes of the one it changes. -/
namespace Sys2Proof.Machine
open Sys2Proof

/-! ## Every field that an update does not concern -/

@[simp] theorem setGroup_agenda (s : State) (g : Group) : (s.setGroup g).agenda = s.agenda := rfl
@[simp] theorem setGroup_cur (s : State) (g : Group) : (s.setGroup g).cur = s.cur := rfl
@[simp] theorem setGroup_uidNext (s : State) (g : Group) : (s.setGroup g).uidNext = s.uidNext := rfl
@[simp] theorem setGroup_freeCtr (s : State) (g : Group) : (s.setGroup g).freeCtr = s.freeCtr := rfl
@[simp] theorem setGroup_time (s : State) (g : Group) : (s.setGroup g).time = s.time := rfl
@[simp] theorem setGroup_mem (s : State) (g : Group) : (s.setGroup g).mem = s.mem := rfl
@[simp] theorem setGroup_clusters (s : State) (g : Group) : (s.setGroup g).clusters = s.clusters := rfl
@[simp] theorem setGroup_cores (s : State) (g : Group) : (s.setGroup g).cores = s.cores := rfl
@[simp] theorem setGroup_parts (s : State) (g : Group) : (s.setGroup g).parts = s.parts := rfl
@[simp] theorem setGroup_queues (s : State) (g : Group) : (s.setGroup g).queues = s.queues := rfl
@[simp] theorem setGroup_scan (s : State) (g : Group) : (s.setGroup g).scan = s.scan := rfl
@[simp] theorem setGroup_dsems (s : State) (g : Group) : (s.setGroup g).dsems = s.dsems := rfl
@[simp] theorem setGroup_hostData (s : State) (g : Group) : (s.setGroup g).hostData = s.hostData := rfl
@[simp] theorem setGroup_posted (s : State) (g : Group) : (s.setGroup g).posted = s.posted := rfl
@[simp] theorem setGroup_launches (s : State) (g : Group) : (s.setGroup g).launches = s.launches := rfl
@[simp] theorem setGroup_launchNext (s : State) (g : Group) : (s.setGroup g).launchNext = s.launchNext := rfl
@[simp] theorem setGroup_connects (s : State) (g : Group) : (s.setGroup g).connects = s.connects := rfl
@[simp] theorem setGroup_sent (s : State) (g : Group) : (s.setGroup g).sent = s.sent := rfl
@[simp] theorem setGroup_wgs (s : State) (g : Group) : (s.setGroup g).wgs = s.wgs := rfl
@[simp] theorem setGroup_accs (s : State) (g : Group) : (s.setGroup g).accs = s.accs := rfl
@[simp] theorem setGroup_batches (s : State) (g : Group) : (s.setGroup g).batches = s.batches := rfl
@[simp] theorem setGroup_mops (s : State) (g : Group) : (s.setGroup g).mops = s.mops := rfl
@[simp] theorem setGroup_sliceqs (s : State) (g : Group) : (s.setGroup g).sliceqs = s.sliceqs := rfl
@[simp] theorem setGroup_saved (s : State) (g : Group) : (s.setGroup g).saved = s.saved := rfl
@[simp] theorem setGroup_openRanges (s : State) (g : Group) : (s.setGroup g).openRanges = s.openRanges := rfl
@[simp] theorem setGroup_peers (s : State) (g : Group) : (s.setGroup g).peers = s.peers := rfl
@[simp] theorem setGroup_retired (s : State) (g : Group) : (s.setGroup g).retired = s.retired := rfl
@[simp] theorem setGroup_ras (s : State) (g : Group) : (s.setGroup g).ras = s.ras := rfl
@[simp] theorem setGroup_boot (s : State) (g : Group) : (s.setGroup g).boot = s.boot := rfl
@[simp] theorem setGroup_power (s : State) (g : Group) : (s.setGroup g).power = s.power := rfl
@[simp] theorem modGroup_agenda (s : State) (u : Nat) (f : Group → Group) : (s.modGroup u f).agenda = s.agenda := rfl
@[simp] theorem modGroup_cur (s : State) (u : Nat) (f : Group → Group) : (s.modGroup u f).cur = s.cur := rfl
@[simp] theorem modGroup_uidNext (s : State) (u : Nat) (f : Group → Group) : (s.modGroup u f).uidNext = s.uidNext := rfl
@[simp] theorem modGroup_freeCtr (s : State) (u : Nat) (f : Group → Group) : (s.modGroup u f).freeCtr = s.freeCtr := rfl
@[simp] theorem modGroup_time (s : State) (u : Nat) (f : Group → Group) : (s.modGroup u f).time = s.time := rfl
@[simp] theorem modGroup_mem (s : State) (u : Nat) (f : Group → Group) : (s.modGroup u f).mem = s.mem := rfl
@[simp] theorem modGroup_clusters (s : State) (u : Nat) (f : Group → Group) : (s.modGroup u f).clusters = s.clusters := rfl
@[simp] theorem modGroup_cores (s : State) (u : Nat) (f : Group → Group) : (s.modGroup u f).cores = s.cores := rfl
@[simp] theorem modGroup_parts (s : State) (u : Nat) (f : Group → Group) : (s.modGroup u f).parts = s.parts := rfl
@[simp] theorem modGroup_queues (s : State) (u : Nat) (f : Group → Group) : (s.modGroup u f).queues = s.queues := rfl
@[simp] theorem modGroup_scan (s : State) (u : Nat) (f : Group → Group) : (s.modGroup u f).scan = s.scan := rfl
@[simp] theorem modGroup_dsems (s : State) (u : Nat) (f : Group → Group) : (s.modGroup u f).dsems = s.dsems := rfl
@[simp] theorem modGroup_hostData (s : State) (u : Nat) (f : Group → Group) : (s.modGroup u f).hostData = s.hostData := rfl
@[simp] theorem modGroup_posted (s : State) (u : Nat) (f : Group → Group) : (s.modGroup u f).posted = s.posted := rfl
@[simp] theorem modGroup_launches (s : State) (u : Nat) (f : Group → Group) : (s.modGroup u f).launches = s.launches := rfl
@[simp] theorem modGroup_launchNext (s : State) (u : Nat) (f : Group → Group) : (s.modGroup u f).launchNext = s.launchNext := rfl
@[simp] theorem modGroup_connects (s : State) (u : Nat) (f : Group → Group) : (s.modGroup u f).connects = s.connects := rfl
@[simp] theorem modGroup_sent (s : State) (u : Nat) (f : Group → Group) : (s.modGroup u f).sent = s.sent := rfl
@[simp] theorem modGroup_wgs (s : State) (u : Nat) (f : Group → Group) : (s.modGroup u f).wgs = s.wgs := rfl
@[simp] theorem modGroup_accs (s : State) (u : Nat) (f : Group → Group) : (s.modGroup u f).accs = s.accs := rfl
@[simp] theorem modGroup_batches (s : State) (u : Nat) (f : Group → Group) : (s.modGroup u f).batches = s.batches := rfl
@[simp] theorem modGroup_mops (s : State) (u : Nat) (f : Group → Group) : (s.modGroup u f).mops = s.mops := rfl
@[simp] theorem modGroup_sliceqs (s : State) (u : Nat) (f : Group → Group) : (s.modGroup u f).sliceqs = s.sliceqs := rfl
@[simp] theorem modGroup_saved (s : State) (u : Nat) (f : Group → Group) : (s.modGroup u f).saved = s.saved := rfl
@[simp] theorem modGroup_openRanges (s : State) (u : Nat) (f : Group → Group) : (s.modGroup u f).openRanges = s.openRanges := rfl
@[simp] theorem modGroup_peers (s : State) (u : Nat) (f : Group → Group) : (s.modGroup u f).peers = s.peers := rfl
@[simp] theorem modGroup_retired (s : State) (u : Nat) (f : Group → Group) : (s.modGroup u f).retired = s.retired := rfl
@[simp] theorem modGroup_ras (s : State) (u : Nat) (f : Group → Group) : (s.modGroup u f).ras = s.ras := rfl
@[simp] theorem modGroup_boot (s : State) (u : Nat) (f : Group → Group) : (s.modGroup u f).boot = s.boot := rfl
@[simp] theorem modGroup_power (s : State) (u : Nat) (f : Group → Group) : (s.modGroup u f).power = s.power := rfl
@[simp] theorem modWg_agenda (s : State) (u : Nat) (f : Wg → Wg) : (s.modWg u f).agenda = s.agenda := rfl
@[simp] theorem modWg_cur (s : State) (u : Nat) (f : Wg → Wg) : (s.modWg u f).cur = s.cur := rfl
@[simp] theorem modWg_uidNext (s : State) (u : Nat) (f : Wg → Wg) : (s.modWg u f).uidNext = s.uidNext := rfl
@[simp] theorem modWg_freeCtr (s : State) (u : Nat) (f : Wg → Wg) : (s.modWg u f).freeCtr = s.freeCtr := rfl
@[simp] theorem modWg_time (s : State) (u : Nat) (f : Wg → Wg) : (s.modWg u f).time = s.time := rfl
@[simp] theorem modWg_mem (s : State) (u : Nat) (f : Wg → Wg) : (s.modWg u f).mem = s.mem := rfl
@[simp] theorem modWg_clusters (s : State) (u : Nat) (f : Wg → Wg) : (s.modWg u f).clusters = s.clusters := rfl
@[simp] theorem modWg_cores (s : State) (u : Nat) (f : Wg → Wg) : (s.modWg u f).cores = s.cores := rfl
@[simp] theorem modWg_parts (s : State) (u : Nat) (f : Wg → Wg) : (s.modWg u f).parts = s.parts := rfl
@[simp] theorem modWg_queues (s : State) (u : Nat) (f : Wg → Wg) : (s.modWg u f).queues = s.queues := rfl
@[simp] theorem modWg_scan (s : State) (u : Nat) (f : Wg → Wg) : (s.modWg u f).scan = s.scan := rfl
@[simp] theorem modWg_dsems (s : State) (u : Nat) (f : Wg → Wg) : (s.modWg u f).dsems = s.dsems := rfl
@[simp] theorem modWg_hostData (s : State) (u : Nat) (f : Wg → Wg) : (s.modWg u f).hostData = s.hostData := rfl
@[simp] theorem modWg_posted (s : State) (u : Nat) (f : Wg → Wg) : (s.modWg u f).posted = s.posted := rfl
@[simp] theorem modWg_launches (s : State) (u : Nat) (f : Wg → Wg) : (s.modWg u f).launches = s.launches := rfl
@[simp] theorem modWg_launchNext (s : State) (u : Nat) (f : Wg → Wg) : (s.modWg u f).launchNext = s.launchNext := rfl
@[simp] theorem modWg_connects (s : State) (u : Nat) (f : Wg → Wg) : (s.modWg u f).connects = s.connects := rfl
@[simp] theorem modWg_sent (s : State) (u : Nat) (f : Wg → Wg) : (s.modWg u f).sent = s.sent := rfl
@[simp] theorem modWg_groups (s : State) (u : Nat) (f : Wg → Wg) : (s.modWg u f).groups = s.groups := rfl
@[simp] theorem modWg_accs (s : State) (u : Nat) (f : Wg → Wg) : (s.modWg u f).accs = s.accs := rfl
@[simp] theorem modWg_batches (s : State) (u : Nat) (f : Wg → Wg) : (s.modWg u f).batches = s.batches := rfl
@[simp] theorem modWg_mops (s : State) (u : Nat) (f : Wg → Wg) : (s.modWg u f).mops = s.mops := rfl
@[simp] theorem modWg_sliceqs (s : State) (u : Nat) (f : Wg → Wg) : (s.modWg u f).sliceqs = s.sliceqs := rfl
@[simp] theorem modWg_saved (s : State) (u : Nat) (f : Wg → Wg) : (s.modWg u f).saved = s.saved := rfl
@[simp] theorem modWg_openRanges (s : State) (u : Nat) (f : Wg → Wg) : (s.modWg u f).openRanges = s.openRanges := rfl
@[simp] theorem modWg_peers (s : State) (u : Nat) (f : Wg → Wg) : (s.modWg u f).peers = s.peers := rfl
@[simp] theorem modWg_retired (s : State) (u : Nat) (f : Wg → Wg) : (s.modWg u f).retired = s.retired := rfl
@[simp] theorem modWg_ras (s : State) (u : Nat) (f : Wg → Wg) : (s.modWg u f).ras = s.ras := rfl
@[simp] theorem modWg_boot (s : State) (u : Nat) (f : Wg → Wg) : (s.modWg u f).boot = s.boot := rfl
@[simp] theorem modWg_power (s : State) (u : Nat) (f : Wg → Wg) : (s.modWg u f).power = s.power := rfl
@[simp] theorem modLaunch_agenda (s : State) (u : Nat) (f : Launch → Launch) : (s.modLaunch u f).agenda = s.agenda := rfl
@[simp] theorem modLaunch_cur (s : State) (u : Nat) (f : Launch → Launch) : (s.modLaunch u f).cur = s.cur := rfl
@[simp] theorem modLaunch_uidNext (s : State) (u : Nat) (f : Launch → Launch) : (s.modLaunch u f).uidNext = s.uidNext := rfl
@[simp] theorem modLaunch_freeCtr (s : State) (u : Nat) (f : Launch → Launch) : (s.modLaunch u f).freeCtr = s.freeCtr := rfl
@[simp] theorem modLaunch_time (s : State) (u : Nat) (f : Launch → Launch) : (s.modLaunch u f).time = s.time := rfl
@[simp] theorem modLaunch_mem (s : State) (u : Nat) (f : Launch → Launch) : (s.modLaunch u f).mem = s.mem := rfl
@[simp] theorem modLaunch_clusters (s : State) (u : Nat) (f : Launch → Launch) : (s.modLaunch u f).clusters = s.clusters := rfl
@[simp] theorem modLaunch_cores (s : State) (u : Nat) (f : Launch → Launch) : (s.modLaunch u f).cores = s.cores := rfl
@[simp] theorem modLaunch_parts (s : State) (u : Nat) (f : Launch → Launch) : (s.modLaunch u f).parts = s.parts := rfl
@[simp] theorem modLaunch_queues (s : State) (u : Nat) (f : Launch → Launch) : (s.modLaunch u f).queues = s.queues := rfl
@[simp] theorem modLaunch_scan (s : State) (u : Nat) (f : Launch → Launch) : (s.modLaunch u f).scan = s.scan := rfl
@[simp] theorem modLaunch_dsems (s : State) (u : Nat) (f : Launch → Launch) : (s.modLaunch u f).dsems = s.dsems := rfl
@[simp] theorem modLaunch_hostData (s : State) (u : Nat) (f : Launch → Launch) : (s.modLaunch u f).hostData = s.hostData := rfl
@[simp] theorem modLaunch_posted (s : State) (u : Nat) (f : Launch → Launch) : (s.modLaunch u f).posted = s.posted := rfl
@[simp] theorem modLaunch_launchNext (s : State) (u : Nat) (f : Launch → Launch) : (s.modLaunch u f).launchNext = s.launchNext := rfl
@[simp] theorem modLaunch_connects (s : State) (u : Nat) (f : Launch → Launch) : (s.modLaunch u f).connects = s.connects := rfl
@[simp] theorem modLaunch_sent (s : State) (u : Nat) (f : Launch → Launch) : (s.modLaunch u f).sent = s.sent := rfl
@[simp] theorem modLaunch_wgs (s : State) (u : Nat) (f : Launch → Launch) : (s.modLaunch u f).wgs = s.wgs := rfl
@[simp] theorem modLaunch_groups (s : State) (u : Nat) (f : Launch → Launch) : (s.modLaunch u f).groups = s.groups := rfl
@[simp] theorem modLaunch_accs (s : State) (u : Nat) (f : Launch → Launch) : (s.modLaunch u f).accs = s.accs := rfl
@[simp] theorem modLaunch_batches (s : State) (u : Nat) (f : Launch → Launch) : (s.modLaunch u f).batches = s.batches := rfl
@[simp] theorem modLaunch_mops (s : State) (u : Nat) (f : Launch → Launch) : (s.modLaunch u f).mops = s.mops := rfl
@[simp] theorem modLaunch_sliceqs (s : State) (u : Nat) (f : Launch → Launch) : (s.modLaunch u f).sliceqs = s.sliceqs := rfl
@[simp] theorem modLaunch_saved (s : State) (u : Nat) (f : Launch → Launch) : (s.modLaunch u f).saved = s.saved := rfl
@[simp] theorem modLaunch_openRanges (s : State) (u : Nat) (f : Launch → Launch) : (s.modLaunch u f).openRanges = s.openRanges := rfl
@[simp] theorem modLaunch_peers (s : State) (u : Nat) (f : Launch → Launch) : (s.modLaunch u f).peers = s.peers := rfl
@[simp] theorem modLaunch_retired (s : State) (u : Nat) (f : Launch → Launch) : (s.modLaunch u f).retired = s.retired := rfl
@[simp] theorem modLaunch_ras (s : State) (u : Nat) (f : Launch → Launch) : (s.modLaunch u f).ras = s.ras := rfl
@[simp] theorem modLaunch_boot (s : State) (u : Nat) (f : Launch → Launch) : (s.modLaunch u f).boot = s.boot := rfl
@[simp] theorem modLaunch_power (s : State) (u : Nat) (f : Launch → Launch) : (s.modLaunch u f).power = s.power := rfl
@[simp] theorem modCore_agenda (s : State) (u : Nat) (f : Core → Core) : (s.modCore u f).agenda = s.agenda := rfl
@[simp] theorem modCore_cur (s : State) (u : Nat) (f : Core → Core) : (s.modCore u f).cur = s.cur := rfl
@[simp] theorem modCore_uidNext (s : State) (u : Nat) (f : Core → Core) : (s.modCore u f).uidNext = s.uidNext := rfl
@[simp] theorem modCore_freeCtr (s : State) (u : Nat) (f : Core → Core) : (s.modCore u f).freeCtr = s.freeCtr := rfl
@[simp] theorem modCore_time (s : State) (u : Nat) (f : Core → Core) : (s.modCore u f).time = s.time := rfl
@[simp] theorem modCore_mem (s : State) (u : Nat) (f : Core → Core) : (s.modCore u f).mem = s.mem := rfl
@[simp] theorem modCore_clusters (s : State) (u : Nat) (f : Core → Core) : (s.modCore u f).clusters = s.clusters := rfl
@[simp] theorem modCore_parts (s : State) (u : Nat) (f : Core → Core) : (s.modCore u f).parts = s.parts := rfl
@[simp] theorem modCore_queues (s : State) (u : Nat) (f : Core → Core) : (s.modCore u f).queues = s.queues := rfl
@[simp] theorem modCore_scan (s : State) (u : Nat) (f : Core → Core) : (s.modCore u f).scan = s.scan := rfl
@[simp] theorem modCore_dsems (s : State) (u : Nat) (f : Core → Core) : (s.modCore u f).dsems = s.dsems := rfl
@[simp] theorem modCore_hostData (s : State) (u : Nat) (f : Core → Core) : (s.modCore u f).hostData = s.hostData := rfl
@[simp] theorem modCore_posted (s : State) (u : Nat) (f : Core → Core) : (s.modCore u f).posted = s.posted := rfl
@[simp] theorem modCore_launches (s : State) (u : Nat) (f : Core → Core) : (s.modCore u f).launches = s.launches := rfl
@[simp] theorem modCore_launchNext (s : State) (u : Nat) (f : Core → Core) : (s.modCore u f).launchNext = s.launchNext := rfl
@[simp] theorem modCore_connects (s : State) (u : Nat) (f : Core → Core) : (s.modCore u f).connects = s.connects := rfl
@[simp] theorem modCore_sent (s : State) (u : Nat) (f : Core → Core) : (s.modCore u f).sent = s.sent := rfl
@[simp] theorem modCore_wgs (s : State) (u : Nat) (f : Core → Core) : (s.modCore u f).wgs = s.wgs := rfl
@[simp] theorem modCore_groups (s : State) (u : Nat) (f : Core → Core) : (s.modCore u f).groups = s.groups := rfl
@[simp] theorem modCore_accs (s : State) (u : Nat) (f : Core → Core) : (s.modCore u f).accs = s.accs := rfl
@[simp] theorem modCore_batches (s : State) (u : Nat) (f : Core → Core) : (s.modCore u f).batches = s.batches := rfl
@[simp] theorem modCore_mops (s : State) (u : Nat) (f : Core → Core) : (s.modCore u f).mops = s.mops := rfl
@[simp] theorem modCore_sliceqs (s : State) (u : Nat) (f : Core → Core) : (s.modCore u f).sliceqs = s.sliceqs := rfl
@[simp] theorem modCore_saved (s : State) (u : Nat) (f : Core → Core) : (s.modCore u f).saved = s.saved := rfl
@[simp] theorem modCore_openRanges (s : State) (u : Nat) (f : Core → Core) : (s.modCore u f).openRanges = s.openRanges := rfl
@[simp] theorem modCore_peers (s : State) (u : Nat) (f : Core → Core) : (s.modCore u f).peers = s.peers := rfl
@[simp] theorem modCore_retired (s : State) (u : Nat) (f : Core → Core) : (s.modCore u f).retired = s.retired := rfl
@[simp] theorem modCore_ras (s : State) (u : Nat) (f : Core → Core) : (s.modCore u f).ras = s.ras := rfl
@[simp] theorem modCore_boot (s : State) (u : Nat) (f : Core → Core) : (s.modCore u f).boot = s.boot := rfl
@[simp] theorem modCore_power (s : State) (u : Nat) (f : Core → Core) : (s.modCore u f).power = s.power := rfl
@[simp] theorem modCluster_agenda (s : State) (u : Nat) (f : Cluster → Cluster) : (s.modCluster u f).agenda = s.agenda := rfl
@[simp] theorem modCluster_cur (s : State) (u : Nat) (f : Cluster → Cluster) : (s.modCluster u f).cur = s.cur := rfl
@[simp] theorem modCluster_uidNext (s : State) (u : Nat) (f : Cluster → Cluster) : (s.modCluster u f).uidNext = s.uidNext := rfl
@[simp] theorem modCluster_freeCtr (s : State) (u : Nat) (f : Cluster → Cluster) : (s.modCluster u f).freeCtr = s.freeCtr := rfl
@[simp] theorem modCluster_time (s : State) (u : Nat) (f : Cluster → Cluster) : (s.modCluster u f).time = s.time := rfl
@[simp] theorem modCluster_mem (s : State) (u : Nat) (f : Cluster → Cluster) : (s.modCluster u f).mem = s.mem := rfl
@[simp] theorem modCluster_cores (s : State) (u : Nat) (f : Cluster → Cluster) : (s.modCluster u f).cores = s.cores := rfl
@[simp] theorem modCluster_parts (s : State) (u : Nat) (f : Cluster → Cluster) : (s.modCluster u f).parts = s.parts := rfl
@[simp] theorem modCluster_queues (s : State) (u : Nat) (f : Cluster → Cluster) : (s.modCluster u f).queues = s.queues := rfl
@[simp] theorem modCluster_scan (s : State) (u : Nat) (f : Cluster → Cluster) : (s.modCluster u f).scan = s.scan := rfl
@[simp] theorem modCluster_dsems (s : State) (u : Nat) (f : Cluster → Cluster) : (s.modCluster u f).dsems = s.dsems := rfl
@[simp] theorem modCluster_hostData (s : State) (u : Nat) (f : Cluster → Cluster) : (s.modCluster u f).hostData = s.hostData := rfl
@[simp] theorem modCluster_posted (s : State) (u : Nat) (f : Cluster → Cluster) : (s.modCluster u f).posted = s.posted := rfl
@[simp] theorem modCluster_launches (s : State) (u : Nat) (f : Cluster → Cluster) : (s.modCluster u f).launches = s.launches := rfl
@[simp] theorem modCluster_launchNext (s : State) (u : Nat) (f : Cluster → Cluster) : (s.modCluster u f).launchNext = s.launchNext := rfl
@[simp] theorem modCluster_connects (s : State) (u : Nat) (f : Cluster → Cluster) : (s.modCluster u f).connects = s.connects := rfl
@[simp] theorem modCluster_sent (s : State) (u : Nat) (f : Cluster → Cluster) : (s.modCluster u f).sent = s.sent := rfl
@[simp] theorem modCluster_wgs (s : State) (u : Nat) (f : Cluster → Cluster) : (s.modCluster u f).wgs = s.wgs := rfl
@[simp] theorem modCluster_groups (s : State) (u : Nat) (f : Cluster → Cluster) : (s.modCluster u f).groups = s.groups := rfl
@[simp] theorem modCluster_accs (s : State) (u : Nat) (f : Cluster → Cluster) : (s.modCluster u f).accs = s.accs := rfl
@[simp] theorem modCluster_batches (s : State) (u : Nat) (f : Cluster → Cluster) : (s.modCluster u f).batches = s.batches := rfl
@[simp] theorem modCluster_mops (s : State) (u : Nat) (f : Cluster → Cluster) : (s.modCluster u f).mops = s.mops := rfl
@[simp] theorem modCluster_sliceqs (s : State) (u : Nat) (f : Cluster → Cluster) : (s.modCluster u f).sliceqs = s.sliceqs := rfl
@[simp] theorem modCluster_saved (s : State) (u : Nat) (f : Cluster → Cluster) : (s.modCluster u f).saved = s.saved := rfl
@[simp] theorem modCluster_openRanges (s : State) (u : Nat) (f : Cluster → Cluster) : (s.modCluster u f).openRanges = s.openRanges := rfl
@[simp] theorem modCluster_peers (s : State) (u : Nat) (f : Cluster → Cluster) : (s.modCluster u f).peers = s.peers := rfl
@[simp] theorem modCluster_retired (s : State) (u : Nat) (f : Cluster → Cluster) : (s.modCluster u f).retired = s.retired := rfl
@[simp] theorem modCluster_ras (s : State) (u : Nat) (f : Cluster → Cluster) : (s.modCluster u f).ras = s.ras := rfl
@[simp] theorem modCluster_boot (s : State) (u : Nat) (f : Cluster → Cluster) : (s.modCluster u f).boot = s.boot := rfl
@[simp] theorem modCluster_power (s : State) (u : Nat) (f : Cluster → Cluster) : (s.modCluster u f).power = s.power := rfl
@[simp] theorem modPart_agenda (s : State) (u : Nat) (f : Partition → Partition) : (s.modPart u f).agenda = s.agenda := rfl
@[simp] theorem modPart_cur (s : State) (u : Nat) (f : Partition → Partition) : (s.modPart u f).cur = s.cur := rfl
@[simp] theorem modPart_uidNext (s : State) (u : Nat) (f : Partition → Partition) : (s.modPart u f).uidNext = s.uidNext := rfl
@[simp] theorem modPart_freeCtr (s : State) (u : Nat) (f : Partition → Partition) : (s.modPart u f).freeCtr = s.freeCtr := rfl
@[simp] theorem modPart_time (s : State) (u : Nat) (f : Partition → Partition) : (s.modPart u f).time = s.time := rfl
@[simp] theorem modPart_mem (s : State) (u : Nat) (f : Partition → Partition) : (s.modPart u f).mem = s.mem := rfl
@[simp] theorem modPart_clusters (s : State) (u : Nat) (f : Partition → Partition) : (s.modPart u f).clusters = s.clusters := rfl
@[simp] theorem modPart_cores (s : State) (u : Nat) (f : Partition → Partition) : (s.modPart u f).cores = s.cores := rfl
@[simp] theorem modPart_queues (s : State) (u : Nat) (f : Partition → Partition) : (s.modPart u f).queues = s.queues := rfl
@[simp] theorem modPart_scan (s : State) (u : Nat) (f : Partition → Partition) : (s.modPart u f).scan = s.scan := rfl
@[simp] theorem modPart_dsems (s : State) (u : Nat) (f : Partition → Partition) : (s.modPart u f).dsems = s.dsems := rfl
@[simp] theorem modPart_hostData (s : State) (u : Nat) (f : Partition → Partition) : (s.modPart u f).hostData = s.hostData := rfl
@[simp] theorem modPart_posted (s : State) (u : Nat) (f : Partition → Partition) : (s.modPart u f).posted = s.posted := rfl
@[simp] theorem modPart_launches (s : State) (u : Nat) (f : Partition → Partition) : (s.modPart u f).launches = s.launches := rfl
@[simp] theorem modPart_launchNext (s : State) (u : Nat) (f : Partition → Partition) : (s.modPart u f).launchNext = s.launchNext := rfl
@[simp] theorem modPart_connects (s : State) (u : Nat) (f : Partition → Partition) : (s.modPart u f).connects = s.connects := rfl
@[simp] theorem modPart_sent (s : State) (u : Nat) (f : Partition → Partition) : (s.modPart u f).sent = s.sent := rfl
@[simp] theorem modPart_wgs (s : State) (u : Nat) (f : Partition → Partition) : (s.modPart u f).wgs = s.wgs := rfl
@[simp] theorem modPart_groups (s : State) (u : Nat) (f : Partition → Partition) : (s.modPart u f).groups = s.groups := rfl
@[simp] theorem modPart_accs (s : State) (u : Nat) (f : Partition → Partition) : (s.modPart u f).accs = s.accs := rfl
@[simp] theorem modPart_batches (s : State) (u : Nat) (f : Partition → Partition) : (s.modPart u f).batches = s.batches := rfl
@[simp] theorem modPart_mops (s : State) (u : Nat) (f : Partition → Partition) : (s.modPart u f).mops = s.mops := rfl
@[simp] theorem modPart_sliceqs (s : State) (u : Nat) (f : Partition → Partition) : (s.modPart u f).sliceqs = s.sliceqs := rfl
@[simp] theorem modPart_saved (s : State) (u : Nat) (f : Partition → Partition) : (s.modPart u f).saved = s.saved := rfl
@[simp] theorem modPart_openRanges (s : State) (u : Nat) (f : Partition → Partition) : (s.modPart u f).openRanges = s.openRanges := rfl
@[simp] theorem modPart_peers (s : State) (u : Nat) (f : Partition → Partition) : (s.modPart u f).peers = s.peers := rfl
@[simp] theorem modPart_retired (s : State) (u : Nat) (f : Partition → Partition) : (s.modPart u f).retired = s.retired := rfl
@[simp] theorem modPart_ras (s : State) (u : Nat) (f : Partition → Partition) : (s.modPart u f).ras = s.ras := rfl
@[simp] theorem modPart_boot (s : State) (u : Nat) (f : Partition → Partition) : (s.modPart u f).boot = s.boot := rfl
@[simp] theorem modPart_power (s : State) (u : Nat) (f : Partition → Partition) : (s.modPart u f).power = s.power := rfl
@[simp] theorem modQueue_agenda (s : State) (u : Nat) (f : Queue → Queue) : (s.modQueue u f).agenda = s.agenda := rfl
@[simp] theorem modQueue_cur (s : State) (u : Nat) (f : Queue → Queue) : (s.modQueue u f).cur = s.cur := rfl
@[simp] theorem modQueue_uidNext (s : State) (u : Nat) (f : Queue → Queue) : (s.modQueue u f).uidNext = s.uidNext := rfl
@[simp] theorem modQueue_freeCtr (s : State) (u : Nat) (f : Queue → Queue) : (s.modQueue u f).freeCtr = s.freeCtr := rfl
@[simp] theorem modQueue_time (s : State) (u : Nat) (f : Queue → Queue) : (s.modQueue u f).time = s.time := rfl
@[simp] theorem modQueue_mem (s : State) (u : Nat) (f : Queue → Queue) : (s.modQueue u f).mem = s.mem := rfl
@[simp] theorem modQueue_clusters (s : State) (u : Nat) (f : Queue → Queue) : (s.modQueue u f).clusters = s.clusters := rfl
@[simp] theorem modQueue_cores (s : State) (u : Nat) (f : Queue → Queue) : (s.modQueue u f).cores = s.cores := rfl
@[simp] theorem modQueue_parts (s : State) (u : Nat) (f : Queue → Queue) : (s.modQueue u f).parts = s.parts := rfl
@[simp] theorem modQueue_scan (s : State) (u : Nat) (f : Queue → Queue) : (s.modQueue u f).scan = s.scan := rfl
@[simp] theorem modQueue_dsems (s : State) (u : Nat) (f : Queue → Queue) : (s.modQueue u f).dsems = s.dsems := rfl
@[simp] theorem modQueue_hostData (s : State) (u : Nat) (f : Queue → Queue) : (s.modQueue u f).hostData = s.hostData := rfl
@[simp] theorem modQueue_posted (s : State) (u : Nat) (f : Queue → Queue) : (s.modQueue u f).posted = s.posted := rfl
@[simp] theorem modQueue_launches (s : State) (u : Nat) (f : Queue → Queue) : (s.modQueue u f).launches = s.launches := rfl
@[simp] theorem modQueue_launchNext (s : State) (u : Nat) (f : Queue → Queue) : (s.modQueue u f).launchNext = s.launchNext := rfl
@[simp] theorem modQueue_connects (s : State) (u : Nat) (f : Queue → Queue) : (s.modQueue u f).connects = s.connects := rfl
@[simp] theorem modQueue_sent (s : State) (u : Nat) (f : Queue → Queue) : (s.modQueue u f).sent = s.sent := rfl
@[simp] theorem modQueue_wgs (s : State) (u : Nat) (f : Queue → Queue) : (s.modQueue u f).wgs = s.wgs := rfl
@[simp] theorem modQueue_groups (s : State) (u : Nat) (f : Queue → Queue) : (s.modQueue u f).groups = s.groups := rfl
@[simp] theorem modQueue_accs (s : State) (u : Nat) (f : Queue → Queue) : (s.modQueue u f).accs = s.accs := rfl
@[simp] theorem modQueue_batches (s : State) (u : Nat) (f : Queue → Queue) : (s.modQueue u f).batches = s.batches := rfl
@[simp] theorem modQueue_mops (s : State) (u : Nat) (f : Queue → Queue) : (s.modQueue u f).mops = s.mops := rfl
@[simp] theorem modQueue_sliceqs (s : State) (u : Nat) (f : Queue → Queue) : (s.modQueue u f).sliceqs = s.sliceqs := rfl
@[simp] theorem modQueue_saved (s : State) (u : Nat) (f : Queue → Queue) : (s.modQueue u f).saved = s.saved := rfl
@[simp] theorem modQueue_openRanges (s : State) (u : Nat) (f : Queue → Queue) : (s.modQueue u f).openRanges = s.openRanges := rfl
@[simp] theorem modQueue_peers (s : State) (u : Nat) (f : Queue → Queue) : (s.modQueue u f).peers = s.peers := rfl
@[simp] theorem modQueue_retired (s : State) (u : Nat) (f : Queue → Queue) : (s.modQueue u f).retired = s.retired := rfl
@[simp] theorem modQueue_ras (s : State) (u : Nat) (f : Queue → Queue) : (s.modQueue u f).ras = s.ras := rfl
@[simp] theorem modQueue_boot (s : State) (u : Nat) (f : Queue → Queue) : (s.modQueue u f).boot = s.boot := rfl
@[simp] theorem modQueue_power (s : State) (u : Nat) (f : Queue → Queue) : (s.modQueue u f).power = s.power := rfl
@[simp] theorem post_agenda (s : State) (o v : Nat) : (s.post o v).agenda = s.agenda := rfl
@[simp] theorem post_cur (s : State) (o v : Nat) : (s.post o v).cur = s.cur := rfl
@[simp] theorem post_uidNext (s : State) (o v : Nat) : (s.post o v).uidNext = s.uidNext := rfl
@[simp] theorem post_freeCtr (s : State) (o v : Nat) : (s.post o v).freeCtr = s.freeCtr := rfl
@[simp] theorem post_time (s : State) (o v : Nat) : (s.post o v).time = s.time := rfl
@[simp] theorem post_mem (s : State) (o v : Nat) : (s.post o v).mem = s.mem := rfl
@[simp] theorem post_clusters (s : State) (o v : Nat) : (s.post o v).clusters = s.clusters := rfl
@[simp] theorem post_cores (s : State) (o v : Nat) : (s.post o v).cores = s.cores := rfl
@[simp] theorem post_parts (s : State) (o v : Nat) : (s.post o v).parts = s.parts := rfl
@[simp] theorem post_queues (s : State) (o v : Nat) : (s.post o v).queues = s.queues := rfl
@[simp] theorem post_scan (s : State) (o v : Nat) : (s.post o v).scan = s.scan := rfl
@[simp] theorem post_dsems (s : State) (o v : Nat) : (s.post o v).dsems = s.dsems := rfl
@[simp] theorem post_hostData (s : State) (o v : Nat) : (s.post o v).hostData = s.hostData := rfl
@[simp] theorem post_launches (s : State) (o v : Nat) : (s.post o v).launches = s.launches := rfl
@[simp] theorem post_launchNext (s : State) (o v : Nat) : (s.post o v).launchNext = s.launchNext := rfl
@[simp] theorem post_connects (s : State) (o v : Nat) : (s.post o v).connects = s.connects := rfl
@[simp] theorem post_sent (s : State) (o v : Nat) : (s.post o v).sent = s.sent := rfl
@[simp] theorem post_wgs (s : State) (o v : Nat) : (s.post o v).wgs = s.wgs := rfl
@[simp] theorem post_groups (s : State) (o v : Nat) : (s.post o v).groups = s.groups := rfl
@[simp] theorem post_accs (s : State) (o v : Nat) : (s.post o v).accs = s.accs := rfl
@[simp] theorem post_batches (s : State) (o v : Nat) : (s.post o v).batches = s.batches := rfl
@[simp] theorem post_mops (s : State) (o v : Nat) : (s.post o v).mops = s.mops := rfl
@[simp] theorem post_sliceqs (s : State) (o v : Nat) : (s.post o v).sliceqs = s.sliceqs := rfl
@[simp] theorem post_saved (s : State) (o v : Nat) : (s.post o v).saved = s.saved := rfl
@[simp] theorem post_openRanges (s : State) (o v : Nat) : (s.post o v).openRanges = s.openRanges := rfl
@[simp] theorem post_peers (s : State) (o v : Nat) : (s.post o v).peers = s.peers := rfl
@[simp] theorem post_retired (s : State) (o v : Nat) : (s.post o v).retired = s.retired := rfl
@[simp] theorem post_ras (s : State) (o v : Nat) : (s.post o v).ras = s.ras := rfl
@[simp] theorem post_boot (s : State) (o v : Nat) : (s.post o v).boot = s.boot := rfl
@[simp] theorem post_power (s : State) (o v : Nat) : (s.post o v).power = s.power := rfl

/-! ## The field that an update concerns -/

/-- A table read where it was written. -/
@[simp] theorem aget_aset_self {α : Type} (d : α) (m : Assoc α) (i : Nat) (v : α) : aget d (aset m i v) i = v := by
  induction m with
  | nil => simp [aset, aget]
  | cons x m ih =>
    obtain ⟨k, w⟩ := x
    simp only [aset]
    split
    · simp [aget]
    · split
      · simp [aget]
      · next h => simp only [aget, if_neg (Ne.symm h), ih]

/-- A table read elsewhere. -/
theorem aget_aset_ne {α : Type} (d : α) (m : Assoc α) {i j : Nat} (v : α) (h : j ≠ i) : aget d (aset m i v) j = aget d m j := by
  induction m with
  | nil => simp [aset, aget, Ne.symm h]
  | cons x m ih =>
    obtain ⟨k, w⟩ := x
    simp only [aset]
    split
    · simp [aget, Ne.symm h]
    · split
      · next hk => subst hk; simp [aget, Ne.symm h]
      · simp only [aget, ih]

/-- A list element found by a key that an update keeps. -/
theorem find_updWhere {α : Type} {key : α → Nat} {u : Nat} {f : α → α} (l : List α) (i : Nat) (hf : ∀ x, key x = u → key (f x) = u) :
    (updWhere (fun x => key x == u) f l).find? (fun x => key x == i) =
      if i = u then (l.find? fun x => key x == i).map f else l.find? fun x => key x == i := by
  unfold updWhere
  induction l with
  | nil => simp
  | cons x l ih =>
    rw [List.map_cons, List.find?_cons, List.find?_cons, ih]
    by_cases hx : key x = u
    · simp only [hx, beq_self_eq_true, if_true, hf x hx]
      by_cases hi : i = u
      · simp [hi]
      · have : (u == i) = false := by simpa using Ne.symm hi
        simp [hi, this]
    · simp only [show (key x == u) = false by simpa using hx, Bool.false_eq_true, if_false]
      by_cases hi : i = u
      · subst hi; simp [show (key x == i) = false by simpa using hx]
      · simp only [hi, if_false]

/-- The group that a write puts in its place. -/
theorem group?_setGroup_self {s : State} {g h : Group} (he : s.group? g.uid = some h) : (s.setGroup g).group? g.uid = some g := by
  unfold State.group? State.setGroup
  rw [find_updWhere (key := Group.uid) _ _ (fun _ _ => rfl)]
  unfold State.group? at he
  simp [he]

/-- The same, by identity. -/
theorem group?_setGroup {s : State} {g h : Group} {u : Nat} (he : s.group? u = some h) (hu : g.uid = u) : (s.setGroup g).group? u = some g := by
  subst hu; exact group?_setGroup_self he

/-- A write of a group leaves the others. -/
theorem group?_setGroup_ne {s : State} {g : Group} {u : Nat} (h : u ≠ g.uid) : (s.setGroup g).group? u = s.group? u := by
  unfold State.group? State.setGroup
  rw [find_updWhere (key := Group.uid) _ _ (fun _ _ => rfl), if_neg h]

/-- A change of a group that keeps its identity. -/
theorem group?_modGroup {s : State} {u v : Nat} {f : Group → Group} (hf : ∀ x, x.uid = u → (f x).uid = u) :
    (s.modGroup u f).group? v = if v = u then (s.group? v).map f else s.group? v :=
  find_updWhere (key := Group.uid) _ _ hf

/-- A change of a workgroup that keeps its identity. -/
theorem wg?_modWg {s : State} {u v : Nat} {f : Wg → Wg} (hf : ∀ x, x.uid = u → (f x).uid = u) :
    (s.modWg u f).wg? v = if v = u then (s.wg? v).map f else s.wg? v :=
  find_updWhere (key := Wg.uid) _ _ hf

/-- A change of a launch that keeps its number. -/
theorem launch?_modLaunch {s : State} {u v : Nat} {f : Launch → Launch} (hf : ∀ x, x.num = u → (f x).num = u) :
    (s.modLaunch u f).launch? v = if v = u then (s.launch? v).map f else s.launch? v :=
  find_updWhere (key := Launch.num) _ _ hf

@[simp] theorem core_modCore_self (s : State) (c : Nat) (f : Core → Core) : (s.modCore c f).core c = f (s.core c) := aget_aset_self ..
theorem core_modCore_ne (s : State) {c i : Nat} (f : Core → Core) (h : i ≠ c) : (s.modCore c f).core i = s.core i := aget_aset_ne _ _ _ h
@[simp] theorem part_modPart_self (s : State) (c : Nat) (f : Partition → Partition) : (s.modPart c f).part c = f (s.part c) := aget_aset_self ..
theorem part_modPart_ne (s : State) {c i : Nat} (f : Partition → Partition) (h : i ≠ c) : (s.modPart c f).part i = s.part i := aget_aset_ne _ _ _ h
@[simp] theorem queue_modQueue_self (s : State) (c : Nat) (f : Queue → Queue) : (s.modQueue c f).queue c = f (s.queue c) := aget_aset_self ..
theorem queue_modQueue_ne (s : State) {c i : Nat} (f : Queue → Queue) (h : i ≠ c) : (s.modQueue c f).queue i = s.queue i := aget_aset_ne _ _ _ h
@[simp] theorem cluster_modCluster_self (s : State) (c : Nat) (f : Cluster → Cluster) : (s.modCluster c f).cluster c = f (s.cluster c) :=
  aget_aset_self ..
theorem cluster_modCluster_ne (s : State) {c i : Nat} (f : Cluster → Cluster) (h : i ≠ c) : (s.modCluster c f).cluster i = s.cluster i :=
  aget_aset_ne _ _ _ h
@[simp] theorem core_setGroup (s : State) (g : Group) (i : Nat) : (s.setGroup g).core i = s.core i := rfl
@[simp] theorem part_setGroup (s : State) (g : Group) (i : Nat) : (s.setGroup g).part i = s.part i := rfl
@[simp] theorem queue_setGroup (s : State) (g : Group) (i : Nat) : (s.setGroup g).queue i = s.queue i := rfl
@[simp] theorem wg?_setGroup (s : State) (g : Group) (i : Nat) : (s.setGroup g).wg? i = s.wg? i := rfl
@[simp] theorem launch?_setGroup (s : State) (g : Group) (i : Nat) : (s.setGroup g).launch? i = s.launch? i := rfl
@[simp] theorem wg_setGroup (s : State) (g : Group) (i : Nat) : (s.setGroup g).wg i = s.wg i := rfl
@[simp] theorem launch_setGroup (s : State) (g : Group) (i : Nat) : (s.setGroup g).launch i = s.launch i := rfl
@[simp] theorem core_modGroup (s : State) (u : Nat) (f : Group → Group) (i : Nat) : (s.modGroup u f).core i = s.core i := rfl
@[simp] theorem part_modGroup (s : State) (u : Nat) (f : Group → Group) (i : Nat) : (s.modGroup u f).part i = s.part i := rfl
@[simp] theorem queue_modGroup (s : State) (u : Nat) (f : Group → Group) (i : Nat) : (s.modGroup u f).queue i = s.queue i := rfl
@[simp] theorem wg?_modGroup (s : State) (u : Nat) (f : Group → Group) (i : Nat) : (s.modGroup u f).wg? i = s.wg? i := rfl
@[simp] theorem launch?_modGroup (s : State) (u : Nat) (f : Group → Group) (i : Nat) : (s.modGroup u f).launch? i = s.launch? i := rfl
@[simp] theorem wg_modGroup (s : State) (u : Nat) (f : Group → Group) (i : Nat) : (s.modGroup u f).wg i = s.wg i := rfl
@[simp] theorem launch_modGroup (s : State) (u : Nat) (f : Group → Group) (i : Nat) : (s.modGroup u f).launch i = s.launch i := rfl
@[simp] theorem core_modWg (s : State) (u : Nat) (f : Wg → Wg) (i : Nat) : (s.modWg u f).core i = s.core i := rfl
@[simp] theorem part_modWg (s : State) (u : Nat) (f : Wg → Wg) (i : Nat) : (s.modWg u f).part i = s.part i := rfl
@[simp] theorem queue_modWg (s : State) (u : Nat) (f : Wg → Wg) (i : Nat) : (s.modWg u f).queue i = s.queue i := rfl
@[simp] theorem group?_modWg (s : State) (u : Nat) (f : Wg → Wg) (i : Nat) : (s.modWg u f).group? i = s.group? i := rfl
@[simp] theorem launch?_modWg (s : State) (u : Nat) (f : Wg → Wg) (i : Nat) : (s.modWg u f).launch? i = s.launch? i := rfl
@[simp] theorem group_modWg (s : State) (u : Nat) (f : Wg → Wg) (i : Nat) : (s.modWg u f).group i = s.group i := rfl
@[simp] theorem launch_modWg (s : State) (u : Nat) (f : Wg → Wg) (i : Nat) : (s.modWg u f).launch i = s.launch i := rfl
@[simp] theorem core_modLaunch (s : State) (u : Nat) (f : Launch → Launch) (i : Nat) : (s.modLaunch u f).core i = s.core i := rfl
@[simp] theorem part_modLaunch (s : State) (u : Nat) (f : Launch → Launch) (i : Nat) : (s.modLaunch u f).part i = s.part i := rfl
@[simp] theorem queue_modLaunch (s : State) (u : Nat) (f : Launch → Launch) (i : Nat) : (s.modLaunch u f).queue i = s.queue i := rfl
@[simp] theorem group?_modLaunch (s : State) (u : Nat) (f : Launch → Launch) (i : Nat) : (s.modLaunch u f).group? i = s.group? i := rfl
@[simp] theorem wg?_modLaunch (s : State) (u : Nat) (f : Launch → Launch) (i : Nat) : (s.modLaunch u f).wg? i = s.wg? i := rfl
@[simp] theorem group_modLaunch (s : State) (u : Nat) (f : Launch → Launch) (i : Nat) : (s.modLaunch u f).group i = s.group i := rfl
@[simp] theorem wg_modLaunch (s : State) (u : Nat) (f : Launch → Launch) (i : Nat) : (s.modLaunch u f).wg i = s.wg i := rfl
@[simp] theorem part_modCore (s : State) (u : Nat) (f : Core → Core) (i : Nat) : (s.modCore u f).part i = s.part i := rfl
@[simp] theorem queue_modCore (s : State) (u : Nat) (f : Core → Core) (i : Nat) : (s.modCore u f).queue i = s.queue i := rfl
@[simp] theorem group?_modCore (s : State) (u : Nat) (f : Core → Core) (i : Nat) : (s.modCore u f).group? i = s.group? i := rfl
@[simp] theorem wg?_modCore (s : State) (u : Nat) (f : Core → Core) (i : Nat) : (s.modCore u f).wg? i = s.wg? i := rfl
@[simp] theorem launch?_modCore (s : State) (u : Nat) (f : Core → Core) (i : Nat) : (s.modCore u f).launch? i = s.launch? i := rfl
@[simp] theorem group_modCore (s : State) (u : Nat) (f : Core → Core) (i : Nat) : (s.modCore u f).group i = s.group i := rfl
@[simp] theorem wg_modCore (s : State) (u : Nat) (f : Core → Core) (i : Nat) : (s.modCore u f).wg i = s.wg i := rfl
@[simp] theorem launch_modCore (s : State) (u : Nat) (f : Core → Core) (i : Nat) : (s.modCore u f).launch i = s.launch i := rfl
@[simp] theorem core_modCluster (s : State) (u : Nat) (f : Cluster → Cluster) (i : Nat) : (s.modCluster u f).core i = s.core i := rfl
@[simp] theorem part_modCluster (s : State) (u : Nat) (f : Cluster → Cluster) (i : Nat) : (s.modCluster u f).part i = s.part i := rfl
@[simp] theorem queue_modCluster (s : State) (u : Nat) (f : Cluster → Cluster) (i : Nat) : (s.modCluster u f).queue i = s.queue i := rfl
@[simp] theorem group?_modCluster (s : State) (u : Nat) (f : Cluster → Cluster) (i : Nat) : (s.modCluster u f).group? i = s.group? i := rfl
@[simp] theorem wg?_modCluster (s : State) (u : Nat) (f : Cluster → Cluster) (i : Nat) : (s.modCluster u f).wg? i = s.wg? i := rfl
@[simp] theorem launch?_modCluster (s : State) (u : Nat) (f : Cluster → Cluster) (i : Nat) : (s.modCluster u f).launch? i = s.launch? i := rfl
@[simp] theorem group_modCluster (s : State) (u : Nat) (f : Cluster → Cluster) (i : Nat) : (s.modCluster u f).group i = s.group i := rfl
@[simp] theorem wg_modCluster (s : State) (u : Nat) (f : Cluster → Cluster) (i : Nat) : (s.modCluster u f).wg i = s.wg i := rfl
@[simp] theorem launch_modCluster (s : State) (u : Nat) (f : Cluster → Cluster) (i : Nat) : (s.modCluster u f).launch i = s.launch i := rfl
@[simp] theorem core_modPart (s : State) (u : Nat) (f : Partition → Partition) (i : Nat) : (s.modPart u f).core i = s.core i := rfl
@[simp] theorem queue_modPart (s : State) (u : Nat) (f : Partition → Partition) (i : Nat) : (s.modPart u f).queue i = s.queue i := rfl
@[simp] theorem group?_modPart (s : State) (u : Nat) (f : Partition → Partition) (i : Nat) : (s.modPart u f).group? i = s.group? i := rfl
@[simp] theorem wg?_modPart (s : State) (u : Nat) (f : Partition → Partition) (i : Nat) : (s.modPart u f).wg? i = s.wg? i := rfl
@[simp] theorem launch?_modPart (s : State) (u : Nat) (f : Partition → Partition) (i : Nat) : (s.modPart u f).launch? i = s.launch? i := rfl
@[simp] theorem group_modPart (s : State) (u : Nat) (f : Partition → Partition) (i : Nat) : (s.modPart u f).group i = s.group i := rfl
@[simp] theorem wg_modPart (s : State) (u : Nat) (f : Partition → Partition) (i : Nat) : (s.modPart u f).wg i = s.wg i := rfl
@[simp] theorem launch_modPart (s : State) (u : Nat) (f : Partition → Partition) (i : Nat) : (s.modPart u f).launch i = s.launch i := rfl
@[simp] theorem core_modQueue (s : State) (u : Nat) (f : Queue → Queue) (i : Nat) : (s.modQueue u f).core i = s.core i := rfl
@[simp] theorem part_modQueue (s : State) (u : Nat) (f : Queue → Queue) (i : Nat) : (s.modQueue u f).part i = s.part i := rfl
@[simp] theorem group?_modQueue (s : State) (u : Nat) (f : Queue → Queue) (i : Nat) : (s.modQueue u f).group? i = s.group? i := rfl
@[simp] theorem wg?_modQueue (s : State) (u : Nat) (f : Queue → Queue) (i : Nat) : (s.modQueue u f).wg? i = s.wg? i := rfl
@[simp] theorem launch?_modQueue (s : State) (u : Nat) (f : Queue → Queue) (i : Nat) : (s.modQueue u f).launch? i = s.launch? i := rfl
@[simp] theorem group_modQueue (s : State) (u : Nat) (f : Queue → Queue) (i : Nat) : (s.modQueue u f).group i = s.group i := rfl
@[simp] theorem wg_modQueue (s : State) (u : Nat) (f : Queue → Queue) (i : Nat) : (s.modQueue u f).wg i = s.wg i := rfl
@[simp] theorem launch_modQueue (s : State) (u : Nat) (f : Queue → Queue) (i : Nat) : (s.modQueue u f).launch i = s.launch i := rfl
@[simp] theorem core_post (s : State) (o v : Nat) (i : Nat) : (s.post o v).core i = s.core i := rfl
@[simp] theorem part_post (s : State) (o v : Nat) (i : Nat) : (s.post o v).part i = s.part i := rfl
@[simp] theorem queue_post (s : State) (o v : Nat) (i : Nat) : (s.post o v).queue i = s.queue i := rfl
@[simp] theorem group?_post (s : State) (o v : Nat) (i : Nat) : (s.post o v).group? i = s.group? i := rfl
@[simp] theorem wg?_post (s : State) (o v : Nat) (i : Nat) : (s.post o v).wg? i = s.wg? i := rfl
@[simp] theorem launch?_post (s : State) (o v : Nat) (i : Nat) : (s.post o v).launch? i = s.launch? i := rfl
@[simp] theorem group_post (s : State) (o v : Nat) (i : Nat) : (s.post o v).group i = s.group i := rfl
@[simp] theorem wg_post (s : State) (o v : Nat) (i : Nat) : (s.post o v).wg i = s.wg i := rfl
@[simp] theorem launch_post (s : State) (o v : Nat) (i : Nat) : (s.post o v).launch i = s.launch i := rfl

end Sys2Proof.Machine
end

