-- ==== Sys2Proof/Laws/Control.lean ====
section
/-! SUPPORT. The end of a clause (R119, R125): where its lanes go, and what stays. -/
namespace Sys2Proof.Machine
open Sys2Proof Sys2Proof.Safety

/-- A lane record after a change of the lanes of a mask. -/
theorem lane_modLanes (g : Group) (m : Mask) (f : Nat → Lane → Lane) (l : Nat) :
    (g.modLanes m f).lane l = if l < g.lanes.length ∧ m.getLsbD l = true then f l (g.lane l) else g.lane l := by
  unfold Group.lane Group.modLanes
  simp only [List.getD_eq_getElem?_getD, List.getElem?_mapIdx]
  by_cases h : l < g.lanes.length
  · rw [List.getElem?_eq_getElem h]
    by_cases hm : m.getLsbD l = true <;> simp [h, hm]
  · rw [List.getElem?_eq_none (by omega)]
    simp [h]

/-- A lane record outside the mask. -/
theorem lane_modLanes_ne {g : Group} {m : Mask} {f : Nat → Lane → Lane} {l : Nat} (h : m.getLsbD l = false) :
    (g.modLanes m f).lane l = g.lane l := by
  rw [lane_modLanes, if_neg (by simp [h])]

/-- What settling a group can change: its phase, its rejoin timer, its masks of active and expected lanes, and lane records. -/
def SameButPaths (g g' : Group) : Prop :=
  g' = { g with phase := g'.phase, heldSince := g'.heldSince, heldFor := g'.heldFor, lanes := g'.lanes, active := g'.active, k := g'.k }

theorem SameButPaths.refl (g : Group) : SameButPaths g g := rfl
theorem SameButPaths.trans {a b c : Group} (h : SameButPaths a b) (h' : SameButPaths b c) : SameButPaths a c := by
  unfold SameButPaths at *
  rw [h'] at ⊢
  rw [h]

/-- What settling leaves of a lane that is not held and no helper. -/
def KeepsPath (g g' : Group) : Prop :=
  ∀ l, (∀ a k m, (g.lane l).state ≠ .held a k m) → g.helper.getLsbD l = false → g'.lane l = g.lane l

theorem passOne_spec (g : Group) (a : Addr) (k : Nat) : SameButPaths g (g.passOne a k) ∧ KeepsPath g (g.passOne a k) := by
  unfold Group.passOne
  simp only
  split
  · refine ⟨rfl, fun l hl _ => ?_⟩
    show (Group.modLanes _ _ _).lane l = _
    rw [lane_modLanes]
    split
    · split
      · next e => exact absurd e (hl _ _ _)
      · rfl
    · rfl
  · exact ⟨rfl, fun _ _ _ => rfl⟩

theorem passAll_spec (ls : List (Addr × Nat)) (g : Group) :
    SameButPaths g (ls.foldl (fun g x => g.passOne x.1 x.2) g) ∧ KeepsPath g (ls.foldl (fun g x => g.passOne x.1 x.2) g) := by
  induction ls generalizing g with
  | nil => exact ⟨rfl, fun _ _ _ => rfl⟩
  | cons x xs ih =>
    obtain ⟨a1, a2⟩ := passOne_spec g x.1 x.2
    obtain ⟨b1, b2⟩ := ih (g.passOne x.1 x.2)
    rw [List.foldl_cons]
    refine ⟨a1.trans b1, fun l h1 h2 => ?_⟩
    have e := a2 l h1 h2
    have hh : (g.passOne x.1 x.2).helper = g.helper := by rw [a1]
    rw [b2 l (by rw [e]; exact h1) (by rw [hh]; exact h2), e]

theorem KeepsPath.trans {a b c : Group} (s : SameButPaths a b) (h : KeepsPath a b) (h' : KeepsPath b c) : KeepsPath a c := by
  intro l h1 h2
  have e := h l h1 h2
  have hh : b.helper = a.helper := by rw [s]
  rw [h' l (by rw [e]; exact h1) (by rw [hh]; exact h2), e]

theorem passWaitj_spec (g : Group) : SameButPaths g g.passWaitj ∧ KeepsPath g g.passWaitj := by
  unfold Group.passWaitj
  simp only
  have r := fun g : Group => passAll_spec g.heldAt g
  refine ⟨(((r g).1.trans (r _).1).trans (r _).1).trans (r _).1, ?_⟩
  exact KeepsPath.trans (((r g).1.trans (r _).1).trans (r _).1) (KeepsPath.trans ((r g).1.trans (r _).1) (KeepsPath.trans (r g).1 (r g).2 (r _).2) (r _).2) (r _).2

theorem helperSync_spec (g : Group) : SameButPaths g g.helperSync ∧ KeepsPath g g.helperSync := by
  unfold Group.helperSync
  refine ⟨rfl, fun l _ h => ?_⟩
  exact lane_modLanes_ne h

/-- Settling a group keeps every lane that is on a path, and everything but phases, masks and lane records (R115, R123, Table 6.1). -/
theorem settle_spec (g : Group) (clk : Nat) : SameButPaths g (g.settle clk) ∧ KeepsPath g (g.settle clk) := by
  have a := passWaitj_spec g
  have b := helperSync_spec g.passWaitj
  have c : SameButPaths g g.passWaitj.helperSync ∧ KeepsPath g g.passWaitj.helperSync := ⟨a.1.trans b.1, KeepsPath.trans a.1 a.2 b.2⟩
  unfold Group.settle
  simp only
  generalize g.passWaitj.helperSync = h at c
  split
  · exact c
  · have st : ∀ (p : Phase), SameButPaths h { h.stopTimer clk with phase := p } ∧ KeepsPath h { h.stopTimer clk with phase := p } := by
      intro p; unfold Group.stopTimer; split <;> exact ⟨rfl, fun _ _ _ => rfl⟩
    have up : ∀ {x : Group}, SameButPaths h x ∧ KeepsPath h x → SameButPaths g x ∧ KeepsPath g x :=
      fun y => ⟨c.1.trans y.1, KeepsPath.trans c.1 c.2 y.2⟩
    split
    · exact up (st _)
    · split
      · exact up (st _)
      · exact up ⟨rfl, fun _ _ _ => rfl⟩

@[simp] theorem freePort_group? (s : State) (g : Group) (u : Nat) : (s.freePort g).group? u = s.group? u := by
  unfold State.freePort; split <;> rfl
theorem freePort_others (s : State) (g : Group) :
    (s.freePort g).mem = s.mem ∧ (s.freePort g).wgs = s.wgs ∧ (s.freePort g).launches = s.launches ∧ (s.freePort g).accs = s.accs ∧
      (s.freePort g).parts = s.parts := by
  unfold State.freePort; split <;> exact ⟨rfl, rfl, rfl, rfl, rfl⟩

/-- The state once an ejected context has shared its REP count with its home group (R125). -/
def sharedRep (s : State) (h : Group) (n : Nat) : State :=
  match h.sleeve with | some x => s.modGroup x.homeUid fun k => k.setRepc n | none => s

/-- Setting the REP count of a group keeps its identity. -/
theorem setRepc_uid (k : Group) (n : Nat) : (k.setRepc n).uid = k.uid := by unfold Group.setRepc; split <;> rfl

theorem sharedRep_spec (s : State) (h : Group) (n : Nat) :
    (sharedRep s h n).mem = s.mem ∧ (sharedRep s h n).wgs = s.wgs ∧ (sharedRep s h n).launches = s.launches ∧ (sharedRep s h n).accs = s.accs ∧
      (sharedRep s h n).parts = s.parts ∧
      (∀ u, (∀ x, h.sleeve = some x → u ≠ x.homeUid) → (sharedRep s h n).group? u = s.group? u) ∧
      ∀ u, ((sharedRep s h n).group? u).isSome = (s.group? u).isSome := by
  unfold sharedRep
  cases e : h.sleeve with
  | none => exact ⟨rfl, rfl, rfl, rfl, rfl, fun _ _ => rfl, fun _ => rfl⟩
  | some x =>
    have key := fun u => group?_modGroup (s := s) (u := x.homeUid) (v := u) (f := fun k => k.setRepc n) fun y hy => (setRepc_uid y n).trans hy
    refine ⟨rfl, rfl, rfl, rfl, rfl, fun u hu => (key u).trans (if_neg (hu x rfl)), fun u => ?_⟩
    show ((s.modGroup x.homeUid fun k => k.setRepc n).group? u).isSome = _
    rw [key u]; split <;> simp

/-- What the end of a clause does before the group settles: lanes to their destinations, `dest` after a control instruction, no clause, no bypass. -/
theorem clauseOver_form (s : State) (h : Group) (ctl : Bool) (dest : Nat → Addr) :
    ∃ (s1 : State) (g2 : Group) (clk : Nat) (goal : Nat → Addr), s.clauseOver h ctl dest = s1.setGroup (g2.settle clk) ∧ (ctl = true → goal = dest) ∧
      s1.mem = s.mem ∧ s1.wgs = s.wgs ∧ s1.launches = s.launches ∧ s1.accs = s.accs ∧ s1.parts = s.parts ∧
      (∀ u, (∀ x, h.sleeve = some x → u ≠ x.homeUid) → s1.group? u = s.group? u) ∧
      (∀ u, (s1.group? u).isSome = (s.group? u).isSome) ∧
      g2 = { h with lanes := g2.lanes, repc := g2.repc, clause := none, window := [], latch := [], yldUntil := g2.yldUntil, quantum := g2.quantum, readyAt := none, gate := .none } ∧
      g2.lanes = (h.modLanes (h.active &&& h.live) fun l x => if x.state == .onPath then { x with next := goal l, resume := none } else x).lanes := by
  have fp := freePort_others
  obtain ⟨n, hn⟩ : ∃ n, n = (if (!((s.repOf h).1 != 0 && h.cl.addr == (s.repOf h).2)) then (s.repOf h).1
    else if ctl then 0 else (s.repOf h).1 - 1) := ⟨_, rfl⟩
  obtain ⟨k1, k2, k3, k4, k7, k5, k6⟩ := sharedRep_spec s h n
  refine ⟨(sharedRep s h n).freePort _, _, _,
    fun l => if ((s.repOf h).1 != 0 && h.cl.addr == (s.repOf h).2) && !ctl && n != 0 then (s.repOf h).2 else dest l,
    by unfold State.clauseOver sharedRep; rw [hn]; rfl, ?_, ?_⟩
  · intro hc; funext l; simp [hc]
  refine ⟨(fp _ _).1.trans k1, (fp _ _).2.1.trans k2, (fp _ _).2.2.1.trans k3, (fp _ _).2.2.2.1.trans k4, (fp _ _).2.2.2.2.trans k7,
    fun u hu => (freePort_group? ..).trans (k5 u hu), fun u => by rw [freePort_group?]; exact k6 u, ?_, ?_⟩
  · rfl
  · rw [hn]

/-- The end of a clause by a control instruction (R119). -/
theorem clauseOver_went {s : State} {g h : Group} {dest : Nat → Addr} (hg : s.group? g.uid = some g) (hu : h.uid = g.uid)
    (hs : ∀ x, h.sleeve = some x → ∃ y, g.sleeve = some y ∧ y.homeUid = x.homeUid) : Went s (s.clauseOver h true dest) g h dest := by
  obtain ⟨s1, g2, clk, goal, e, hc, m1, m2, m3, m4, _, mo, mi, hf, hl⟩ := clauseOver_form s h true dest
  rw [hc rfl] at hl
  obtain ⟨b1, b2⟩ := settle_spec g2 clk
  have hu2 : (g2.settle clk).uid = g.uid := by rw [b1, hf, ← hu]
  rw [e]
  refine ⟨⟨g2.settle clk, ?_, ?_, ?_, ?_, ?_, ?_, ?_, ?_, ?_, fun l hm => ?_, fun l h1 h2 h3 => ?_⟩, fun u h1 h2 => ?_, m1, m2, m3, m4⟩
  · have : (s1.group? g.uid).isSome := by rw [mi, hg]; rfl
    obtain ⟨k, hk⟩ := Option.isSome_iff_exists.1 this
    rw [← hu2] at hk ⊢
    exact group?_setGroup_self hk
  · rw [b1, hf]
  · rw [b1, hf]
  · rw [b1, hf]
  · rw [b1, hf]
  · rw [b1, hf]
  · rw [b1, hf]
  · rw [b1, hf]
  · rw [b1, hf]
  · obtain ⟨h1, h2, h3, h4, h5⟩ := hm
    have hl2 : g2.lane l = { h.lane l with next := dest l, resume := none } := by
      unfold Group.lane
      rw [hl]
      show (Group.modLanes _ _ _).lane l = _
      rw [lane_modLanes, if_pos ⟨h1, by simp [h2, h3]⟩]
      have e : ((h.lane l).state == .onPath) = true := by rw [h5]; rfl
      rw [if_pos e]; rfl
    have := b2 l (by rw [hl2]; intro a k m e; rw [show ({ h.lane l with next := dest l, resume := none } : Lane).state = .onPath from h5] at e; cases e)
      (by rw [hf]; exact h4)
    rw [this, hl2]
    exact ⟨rfl, rfl, h5⟩
  · have hl2 : g2.lane l = h.lane l := by
      unfold Group.lane
      rw [hl]
      show (Group.modLanes _ _ _).lane l = _
      rw [lane_modLanes]
      have e : ((h.lane l).state == .onPath) = false := by simpa using h2
      simp only [e, Bool.false_eq_true, if_false, ite_self]
      rfl
    rw [b2 l (by rw [hl2]; exact h3) (by rw [hf]; exact h1), hl2]
  · rw [group?_setGroup_ne (by rw [hu2]; exact h1)]
    exact mo u fun x hx => by obtain ⟨y, e, e'⟩ := hs x hx; rw [← e']; exact h2 y e

/-- What the next word, or the end of the clause, leaves of a group that returns from no trap. -/
theorem nextWord_group {s : State} {g h : Group} (hg : s.group? g.uid = some g) (hu : h.uid = g.uid) (hr : h.retPending = none) :
    ∃ k, (s.nextWord h).group? g.uid = some k ∧ k.uid = h.uid ∧ k.merge = h.merge ∧ k.frame = h.frame ∧ k.live = h.live ∧ k.part = h.part ∧
      k.sleeve = h.sleeve ∧ k.v = h.v ∧ k.p = h.p ∧ k.mode = h.mode ∧ k.status = h.status ∧ k.launch = h.launch ∧
      (s.nextWord h).parts = s.parts ∧ (s.nextWord h).mem = s.mem ∧ (s.nextWord h).launches = s.launches ∧ (s.nextWord h).wgs = s.wgs := by
  unfold State.nextWord
  simp only
  split
  · refine ⟨{ h with clause := some { h.cl with pos := h.cl.pos + 1 } }, ?_, rfl, rfl, rfl, rfl, rfl, rfl, rfl, rfl, rfl, rfl, rfl, rfl, rfl, rfl, rfl⟩
    exact group?_setGroup (g := { h with clause := some { h.cl with pos := h.cl.pos + 1 } }) hg hu
  · have e : s.endClause h false (fun _ => h.fall) = s.clauseOver h false (fun _ => h.fall) := by unfold State.endClause; rw [hr]
    rw [e]
    obtain ⟨s1, g2, clk, goal, e, _, m1, m2, m3, m4, m5, mo, mi, hf, hl⟩ := clauseOver_form s h false (fun _ => h.fall)
    obtain ⟨b1, _⟩ := settle_spec g2 clk
    have hu2 : (g2.settle clk).uid = g.uid := by rw [b1, hf, ← hu]
    rw [e]
    refine ⟨g2.settle clk, ?_, by rw [b1, hf], by rw [b1, hf], by rw [b1, hf], by rw [b1, hf], by rw [b1, hf], by rw [b1, hf], by rw [b1, hf],
      by rw [b1, hf], by rw [b1, hf], by rw [b1, hf], by rw [b1, hf], m5, m1, m3, m2⟩
    have : (s1.group? g.uid).isSome := by rw [mi, hg]; rfl
    obtain ⟨k, hk⟩ := Option.isSome_iff_exists.1 this
    rw [← hu2] at hk ⊢
    exact group?_setGroup_self hk

/-- A word that leaves the context leaves its home. -/
theorem sameSleeve {g h : Group} (hs : h.sleeve = g.sleeve) : ∀ x, h.sleeve = some x → ∃ y, g.sleeve = some y ∧ y.homeUid = x.homeUid :=
  fun x e => ⟨x, hs ▸ e, rfl⟩

/-- A control instruction of a plain group (R119). -/
theorem goTo_went {s : State} {g h : Group} {dest : Nat → Addr} (hg : s.group? g.uid = some g) (hu : h.uid = g.uid)
    (hs : ∀ x, h.sleeve = some x → ∃ y, g.sleeve = some y ∧ y.homeUid = x.homeUid) (hp : Plain h) : Went s (s.goTo h dest) g h dest := by
  have w := clauseOver_went (dest := dest) hg hu hs
  have e : s.endClause h true dest = s.clauseOver h true dest := by unfold State.endClause; rw [hp.ret]
  have : s.goTo h dest = s.clauseOver h true dest := by
    unfold State.goTo State.splitMerge
    rw [e]
    obtain ⟨g1, e1, _, _, _, _, _, _, e2, _, _, _⟩ := w.group
    have : (s.clauseOver h true dest).group h.uid = g1 := by unfold State.group; rw [hu, e1]; rfl
    simp only [this]
    split
    · next a b c e => rw [e2] at e; exact absurd e (hp.host a b c)
    · rfl
  rw [this]; exact w

/-- A word that issues runs its meaning. -/
theorem issuer {s : State} {g : Group} (h : Issues s g) (k : Group → State) : withIssuer s k = .next (k g) := by
  unfold withIssuer; rw [h.cur]; simp only [h.group]

/-- A group that is no merge host has nothing to dissolve. -/
theorem dissolve_plain {s : State} {g : Group} (hi : Issues s g) (hp : Plain g) : s.dissolve g.uid = s := by
  unfold State.dissolve State.group
  simp only [hi.group, Option.getD_some]
  split
  · next a b c e => exact absurd e (hp.host a b c)
  · rfl

/-- A group that is found. -/
theorem group_of {s : State} {u : Nat} {g : Group} (h : s.group? u = some g) : s.group u = g := by unfold State.group; rw [h]; rfl

/-- An instruction that ends a merge first, in a group without one (Table 5.7). -/
theorem dissolving_plain {s : State} {g : Group} {ill : Bool} {k : State → Group → State} (hi : Issues s g) (hp : Plain g)
    (h : ill = false ∨ g.sleeve = none) : s.dissolving ill k = .next (k s g) := by
  unfold State.dissolving
  rw [issuer hi]
  have : (ill && g.sleeve.isSome) = false := by rcases h with h | h <;> simp [h]
  simp only [this, Bool.false_eq_true, if_false, dissolve_plain hi hp, group_of hi.group]

/-- An event counter is no part of where lanes go. -/
theorem Went_bump {s t : State} {g h : Group} {d : Nat → Addr} {c i n : Nat} (w : Went (s.bump c i n) t g h d) : Went s t g h d :=
  ⟨w.group, w.others, w.mem, w.wgs, w.launches, w.accs⟩

/-- Marking a side for ejection is no part of where lanes go. -/
theorem Went_eject {s t : State} {g h : Group} {d : Nat → Addr} (m : Option Mask) (w : Went s t g h d) :
    Went s (match m with | some m => t.modGroup g.uid fun g => { g with ejectNext := some m } | none => t) g h d ∧
    ((match m with | some m => t.modGroup g.uid fun g => { g with ejectNext := some m } | none => t : State).group g.uid).ejectNext = m.or (t.group g.uid).ejectNext := by
  cases m with
  | none => exact ⟨w, rfl⟩
  | some m =>
    have key := fun v => group?_modGroup (s := t) (u := g.uid) (v := v) (f := fun g => { g with ejectNext := some m }) fun y hy => hy
    obtain ⟨g1, e, h1, h2, h3, h4, h5, h6, h7, h8, h9, h10⟩ := w.group
    have e2 : (t.modGroup g.uid fun g => { g with ejectNext := some m }).group? g.uid = some { g1 with ejectNext := some m } := by
      rw [key, if_pos rfl, e]; rfl
    refine ⟨⟨⟨_, e2, h1, h2, h3, h4, h5, h6, h7, h8, h9, h10⟩, fun u h1 h2 => ?_, w.mem, w.wgs, w.launches, w.accs⟩, ?_⟩
    · show (t.modGroup g.uid fun g => { g with ejectNext := some m }).group? u = _
      rw [key, if_neg h1]; exact w.others u h1 h2
    · show ((t.modGroup g.uid fun g => { g with ejectNext := some m }).group g.uid).ejectNext = _
      rw [group_of e2]; rfl

/-- BRA (R119, R152). -/
theorem branch_went {s : State} {g h : Group} {w : Mask} {dest : Addr} (hg : s.group? g.uid = some g) (hu : h.uid = g.uid) (hs : h.sleeve = g.sleeve)
    (hp : Plain h) : Went s (s.branch h w dest) g h (fun l => if w.getLsbD l then dest else h.fall) ∧
    ((s.branch h w dest).group g.uid).ejectNext = ((s.ejection h w).1).or ((s.branch h w dest).group g.uid).ejectNext := by
  unfold State.branch
  simp only
  generalize hs1 : (if (s.ejection h w).2 = true then s.bump h.core 4 1 else s) = s1
  have hg1 : s1.group? g.uid = some g := by rw [← hs1]; split <;> exact hg
  have w1 := goTo_went (dest := fun l => if w.getLsbD l then dest else h.fall) hg1 hu (sameSleeve hs) hp
  have w2 : Went s (s1.goTo h fun l => if w.getLsbD l then dest else h.fall) g h (fun l => if w.getLsbD l then dest else h.fall) := by
    rw [← hs1] at w1 ⊢
    split at w1
    · next e => rw [if_pos e]; exact Went_bump w1
    · next e => rw [if_neg e]; exact w1
  obtain ⟨a, b⟩ := Went_eject ((s.ejection h w).1) w2
  rw [hu]
  refine ⟨a, ?_⟩
  clear a
  revert b
  cases (s.ejection h w).1 with
  | none => intro _; rfl
  | some m => exact id

end Sys2Proof.Machine
end

