-- ==== Sys2Proof/Laws/Decoding.lean ====
section
/-! SUPPORT. What each reader of Decode gives on a field that the encoder wrote: the value, and no fault (R66 to R76). The lemmas
of PerInstr.lean are simp calls over these. -/
namespace Sys2Proof

@[simp] theorem of_val {α : Type} (a : α) : (Rd.of a).val = a := rfl
@[simp] theorem of_codes {α : Type} (a : α) : (Rd.of a).codes = [] := rfl
@[simp] theorem of_regs {α : Type} (a : α) : (Rd.of a).regs = [] := rfl
@[simp] theorem k1_eq {α : Type} (k : α → Instr) : Rd.k1 k = Rd.of k := rfl
@[simp] theorem k2_eq {α β : Type} (k : α → β → Instr) : Rd.k2 k = Rd.of k := rfl
@[simp] theorem k3_eq {α β γ : Type} (k : α → β → γ → Instr) : Rd.k3 k = Rd.of k := rfl
@[simp] theorem k4_eq {α β γ δ : Type} (k : α → β → γ → δ → Instr) : Rd.k4 k = Rd.of k := rfl
@[simp] theorem k5_eq {α β γ δ ε : Type} (k : α → β → γ → δ → ε → Instr) : Rd.k5 k = Rd.of k := rfl
@[simp] theorem andThen_val {α β : Type} (x : Rd α) (k : α → Rd β) : (x.andThen k).val = (k x.val).val := rfl
@[simp] theorem andThen_codes {α β : Type} (x : Rd α) (k : α → Rd β) : (x.andThen k).codes = x.codes ++ (k x.val).codes := rfl
@[simp] theorem andThen_regs {α β : Type} (x : Rd α) (k : α → Rd β) : (x.andThen k).regs = x.regs ++ (k x.val).regs := rfl
@[simp] theorem ap_val {α β : Type} (g : Rd (α → β)) (x : Rd α) : (g.ap x).val = g.val x.val := rfl
@[simp] theorem ap_codes {α β : Type} (g : Rd (α → β)) (x : Rd α) : (g.ap x).codes = g.codes ++ x.codes := rfl
@[simp] theorem ap_regs {α β : Type} (g : Rd (α → β)) (x : Rd α) : (g.ap x).regs = g.regs ++ x.regs := rfl
@[simp] theorem map_val {α β : Type} (g : α → β) (x : Rd α) : (x.map g).val = g x.val := rfl
@[simp] theorem map_codes {α β : Type} (g : α → β) (x : Rd α) : (x.map g).codes = x.codes := rfl
@[simp] theorem map_regs {α β : Type} (g : α → β) (x : Rd α) : (x.map g).regs = x.regs := rfl
@[simp] theorem check_val {α : Type} (x : Rd α) (ok : Bool) (n : Nat) : (x.check ok n).val = x.val := rfl
@[simp] theorem check_codes {α : Type} (x : Rd α) (ok : Bool) (n : Nat) : ((x.check ok n).codes = []) = (x.codes = [] ∧ ok = true) := by
  cases ok <;> simp [Rd.check]
@[simp] theorem check_regs {α : Type} (x : Rd α) (ok : Bool) (n : Nat) : (x.check ok n).regs = x.regs := rfl
@[simp] theorem zero_val {α : Type} (x : Rd α) (v : Nat) : (x.zero v).val = x.val := rfl
@[simp] theorem zero_codes {α : Type} (x : Rd α) (v : Nat) : ((x.zero v).codes = []) = (x.codes = [] ∧ v = 0) := by
  simp [Rd.zero]
@[simp] theorem zero_regs {α : Type} (x : Rd α) (v : Nat) : (x.zero v).regs = x.regs := rfl
@[simp] theorem uses_val {α : Type} (x : Rd α) (u : List RegUse) : (x.uses u).val = x.val := rfl
@[simp] theorem uses_codes {α : Type} (x : Rd α) (u : List RegUse) : (x.uses u).codes = x.codes := rfl
@[simp] theorem uses_regs {α : Type} (x : Rd α) (u : List RegUse) : (x.uses u).regs = x.regs ++ u := rfl
@[simp] theorem plain_val {α : Type} (x : Rd α) (f : FWord) (m : Nat) (r s : Bool) : (x.plain f m r s).val = x.val := rfl
@[simp] theorem plain_codes {α : Type} (x : Rd α) (f : FWord) (m : Nat) (r s : Bool) :
    ((x.plain f m r s).codes = []) = (((x.codes = [] ∧ (f.md &&& (127 - m)) = 0) ∧ r = true) ∧ (s = true ∨ f.fsl = 0)) := by
  simp [Rd.plain]
@[simp] theorem plain_regs {α : Type} (x : Rd α) (f : FWord) (m : Nat) (r s : Bool) : (x.plain f m r s).regs = x.regs := rfl
@[simp] theorem mem_val {α : Type} (x : Rd α) (f : FWord) (r s : Bool) (m : Nat) : (x.mem f r s m).val = x.val := rfl
@[simp] theorem mem_codes {α : Type} (x : Rd α) (f : FWord) (r s : Bool) (m : Nat) :
    ((x.mem f r s m).codes = []) = ((x.codes = [] ∧ (r = true ∧ s = true)) ∧ (f.md &&& (127 - m)) = 0) := by
  simp [Rd.mem]
@[simp] theorem mem_regs {α : Type} (x : Rd α) (f : FWord) (r s : Bool) (m : Nat) : (x.mem f r s m).regs = x.regs := rfl

@[simp] theorem rdCtl_val (f : FWord) (c : Ctl) (trn : Bool) (h1 : f.gp = c.gp.val) (h2 : f.gn = c.gn.toNat)
    (h3 : f.trn = c.tr.toNat) (h4 : f.ruse = c.ru.toNat) : (rdCtl f trn).val = c := by
  obtain ⟨gp, gn, tr, ru⟩ := c
  have e : Fin.ofNat 64 gp.val = gp := Fin.ext (Nat.mod_eq_of_lt gp.isLt)
  simp only at h1 h2 h3 h4
  simp only [rdCtl, h1, h2, h3, h4, e]
  cases gn <;> cases tr <;> cases ru <;> rfl
@[simp] theorem rdCtl_codes (f : FWord) (c : Ctl) (trn : Bool) (h3 : f.trn = c.tr.toNat) (h : trn = true ∨ c.tr = false) :
    (rdCtl f trn).codes = [] := by
  cases e : c.tr <;> cases trn <;> simp_all [rdCtl]
@[simp] theorem rdCtl_regs (f : FWord) (trn : Bool) : (rdCtl f trn).regs = [] := rfl

@[simp] theorem rdReg_val (k : UseKind) (r : VReg) (n al : Nat) : (rdReg k r.val n al).val = r := by
  simp [rdReg, r.isLt, Fin.ofNat, Nat.mod_eq_of_lt]
@[simp] theorem rdReg_codes (k : UseKind) (r : VReg) (n al : Nat) : ((rdReg k r.val n al).codes = []) = (r.val % al = 0) := by
  simp [rdReg, r.isLt]
@[simp] theorem rdReg_regs (k : UseKind) (r : VReg) (n al : Nat) : (rdReg k r.val n al).regs = [⟨k, r.val, n⟩] := by
  simp [rdReg, r.isLt]

theorem ofNat_val {n : Nat} [NeZero n] (x : Fin n) : Fin.ofNat n x.val = x := Fin.ext (Nat.mod_eq_of_lt x.isLt)
@[simp] theorem rdIdx_val {n : Nat} [NeZero n] (x : Fin n) : (rdIdx x.val n).val = x := ofNat_val x
@[simp] theorem rdIdx_codes {n : Nat} [NeZero n] (x : Fin n) : (rdIdx x.val n).codes = [] := by simp [rdIdx, x.isLt]
@[simp] theorem rdIdx_regs {n : Nat} [NeZero n] (v : Nat) : (rdIdx v n).regs = [] := rfl
@[simp] theorem rdBase_val (r : VReg) : (rdBase r.val).val = r := by simp [rdBase]
@[simp] theorem rdBase_codes (r : VReg) : (rdBase r.val).codes = [] := by simp [rdBase, Nat.mod_one]
@[simp] theorem rdBase_regs (r : VReg) : (rdBase r.val).regs = [⟨.src, r.val, if r.val % 2 == 0 then 2 else 1⟩] := by simp [rdBase]


/-- A source that is neither a window word nor an immediate. -/
theorem rdSrc_plain_val (x : Src) (sc cnt : Nat) (nc w : Bool) (hw : x.isWin = false) (hi : x.isImm = false) :
    (rdSrc x.field sc cnt nc w).val = x := by
  cases x with
  | reg r => simp [rdSrc, Src.field, r.isLt]
  | const c =>
    have h1 : ¬ 224 + c.val < 224 := by omega
    have h2 : 224 + c.val < 240 := by omega
    simp [rdSrc, Src.field, h1, h2]
  | win n o => cases hw
  | imm v => cases hi
theorem rdSrc_plain_codes (x : Src) (sc cnt : Nat) (nc w : Bool) (hw : x.isWin = false) (hi : x.isImm = false)
    (ha : x.aligned cnt = true) (hc : x.constOk nc = true) : (rdSrc x.field sc cnt nc w).codes = [] := by
  cases x with
  | reg r => simpa [rdSrc, Src.field, r.isLt, Src.aligned] using ha
  | const c =>
    have h1 : ¬ 224 + c.val < 224 := by omega
    have h2 : 224 + c.val < 240 := by omega
    simpa [rdSrc, Src.field, h1, h2, Src.constOk] using hc
  | win n o => cases hw
  | imm v => cases hi
/-- A source that is a window word in a place that takes one. -/
theorem rdSrc_win_val (n : Fin 8) (o : BitVec 8) (cnt : Nat) (nc w : Bool) :
    (rdSrc (248 + n.val) o.toNat cnt nc w).val = .win n o := by
  have h1 : ¬ 248 + n.val < 224 := by omega
  have h2 : ¬ 248 + n.val < 240 := by omega
  have h3 : ¬ 248 + n.val < 248 := by omega
  simp [rdSrc, h1, h2, h3]
theorem rdSrc_win_codes (n : Fin 8) (o : BitVec 8) (cnt : Nat) (nc : Bool) (h : cnt = 1 ∨ o.toNat % 2 = 0) :
    (rdSrc (248 + n.val) o.toNat cnt nc true).codes = [] := by
  have h1 : ¬ 248 + n.val < 224 := by omega
  have h2 : ¬ 248 + n.val < 240 := by omega
  have h3 : ¬ 248 + n.val < 248 := by omega
  simp only [rdSrc, h1, h2, h3, if_false, Bool.not_true]
  rcases h with h | h <;> simp [h]
@[simp] theorem rdSrc_any (v sc cnt : Nat) (nc w : Bool) : (rdSrc v sc cnt nc w).regs.any (fun u => u.kind == .src) = true := by
  unfold rdSrc
  split
  · rfl
  split
  · rfl
  split <;> rfl

theorem immOf_eq (v : BitVec 16) (f : FWord) (hb : f.sb = v.toNat / 256) (hc : f.sc = v.toNat % 256) : immOf f = v := by
  simp only [immOf, hb, hc]
  rw [show v.toNat / 256 * 256 + v.toNat % 256 = v.toNat by omega, BitVec.ofNat_toNat, BitVec.setWidth_eq]

theorem rdSrc_ok (x : Src) (sc cnt : Nat) (nc : Bool) (hi : x.isImm = false) (ha : x.aligned cnt = true) (hc : x.constOk nc = true)
    (hs : x.isWin = true → sc = x.scPart) : (rdSrc x.field sc cnt nc true).val = x ∧ (rdSrc x.field sc cnt nc true).codes = [] := by
  cases x with
  | win n o =>
    obtain rfl := hs rfl
    refine ⟨rdSrc_win_val .., rdSrc_win_codes _ _ _ _ ?_⟩
    simpa [Src.aligned] using ha
  | reg r => exact ⟨rdSrc_plain_val _ _ _ _ _ rfl rfl, rdSrc_plain_codes _ _ _ _ _ rfl rfl ha hc⟩
  | const r => exact ⟨rdSrc_plain_val _ _ _ _ _ rfl rfl, rdSrc_plain_codes _ _ _ _ _ rfl rfl ha hc⟩
  | imm v => cases hi

/-- The two sources of a word, read back. -/
theorem rdAB_ok {α : Type} {f : FWord} {imm : Bool} {ca cb : Nat} {nc : Bool} {a b : Src} (k : Rd (Src → Src → α))
    (ha : f.sa = a.field) (hb : f.sb = b.field) (hc : f.sc = a.scPart + b.scPart) (hi : b.isImm = imm)
    (hw : wfAB true ca cb nc a b = true) :
    (rdAB f imm ca cb nc k).val = k.val a b ∧ ((rdAB f imm ca cb nc k).codes = []) = (k.codes = []) := by
  simp only [wfAB, Bool.and_eq_true, Bool.not_eq_true', Bool.true_or] at hw
  obtain ⟨⟨⟨⟨⟨⟨a1, b1⟩, a2⟩, -⟩, a3⟩, b3⟩, hx⟩ := hw
  have lt (x : Src) (h1 : x.isWin = false) (h2 : x.isImm = false) : ¬ 248 ≤ x.field := by
    cases x <;> simp_all [Src.field, Src.isWin, Src.isImm] <;> omega
  have sc0 (x : Src) (h1 : x.isWin = false) (h2 : x.isImm = false) : x.scPart = 0 := by
    cases x <;> simp_all [Src.scPart, Src.isWin, Src.isImm]
  unfold rdAB
  simp only [check_val, ap_val, check_codes, ap_codes, List.append_eq_nil_iff, ha, hb, hc]
  cases himm : imm with
  | true =>
    subst himm
    have hwin : a.isWin = false := by
      cases hq : a.isWin
      · rfl
      · simp [hq, hi] at hx
    cases b with
    | imm v =>
      have h0 : a.scPart = 0 := sc0 a hwin a2
      have e : immOf f = v := immOf_eq v f hb (by rw [hc, h0]; simp [Src.scPart])
      simp [rdSrcB, e, rdSrc_plain_val a _ ca nc _ hwin a2, rdSrc_plain_codes a _ ca nc _ hwin a2 a1 a3]
    | reg => cases hi
    | const => cases hi
    | win => cases hi
  | false =>
    subst himm
    have e : rdSrcB f false cb nc = rdSrc f.sb f.sc cb nc := rfl
    have w1 (x y : Src) (h : x.isWin = false ∨ y.isWin = false) (h1 : x.isImm = false) (h2 : y.isImm = false) :
        (!(decide (248 ≤ x.field) && decide (248 ≤ y.field))) = true := by
      rcases h with h | h
      · simp [lt x h h1]
      · simp [lt y h h2]
    have hx' : a.isWin = false ∨ b.isWin = false := by
      cases ha' : a.isWin
      · exact .inl rfl
      · simp only [ha', hi, Bool.or_false, Bool.true_and] at hx
        exact .inr hx
    have A := rdSrc_ok a (a.scPart + b.scPart) ca nc a2 a1 a3 (by
      intro h; rcases hx' with h' | h'
      · simp [h] at h'
      · rw [sc0 b h' hi]; rfl)
    have B := rdSrc_ok b (a.scPart + b.scPart) cb nc hi b1 b3 (by
      intro h; rcases hx' with h' | h'
      · rw [sc0 a h' a2]; omega
      · simp [h] at h')
    have w2 := w1 a b hx' a2 hi
    simp only [e, w2, Bool.not_false, Bool.true_and, hb, hc, A, B, and_true, true_and]
    refine eq_iff_iff.2 (and_iff_left ?_)
    cases ha' : a.isWin
    · cases hb' : b.isWin
      · simp [sc0 a ha' a2, sc0 b hb' hi]
      · have : 248 ≤ b.field := by cases b <;> simp_all [Src.isWin, Src.field]
        simp [this]
    · have : 248 ≤ a.field := by cases a <;> simp_all [Src.isWin, Src.field]
      simp [this]
theorem rdAB_any {α : Type} (f : FWord) (imm : Bool) (ca cb : Nat) (nc : Bool) (k : Rd (Src → Src → α)) :
    (rdAB f imm ca cb nc k).regs.any (fun u => u.kind == .src) = true := by
  simp [rdAB, List.any_append]
theorem rdB_ok {α : Type} {f : FWord} {cb : Nat} {nc : Bool} {b : Src} (k : Rd (Src → α))
    (ha : f.sa = 0) (hb : f.sb = b.field) (hc : f.sc = b.scPart) (hw : wfB cb nc b = true) :
    (rdB f cb nc k).val = k.val b ∧ ((rdB f cb nc k).codes = []) = (k.codes = []) := by
  simp only [wfB, Bool.and_eq_true, Bool.not_eq_true'] at hw
  obtain ⟨⟨h1, h2⟩, h3⟩ := hw
  have B := rdSrc_ok b b.scPart cb nc h2 h1 h3 (fun _ => rfl)
  unfold rdB
  simp only [check_val, zero_val, ap_val, check_codes, zero_codes, ap_codes, List.append_eq_nil_iff, ha, hb, hc, B, and_true, true_and]
  refine eq_iff_iff.2 (and_iff_left ?_)
  cases b with
  | reg r => simp [Src.scPart]
  | const c => simp [Src.scPart]
  | win n o => simp [Src.field]
  | imm v => cases h2
theorem rdB_any {α : Type} (f : FWord) (cb : Nat) (nc : Bool) (k : Rd (Src → α)) : (rdB f cb nc k).regs.any (fun u => u.kind == .src) = true := by
  simp [rdB, List.any_append]
theorem rdA_ok {α : Type} {f : FWord} {cb : Nat} {nc : Bool} {b : Src} (k : Rd (Src → α))
    (ha : f.sb = 0) (hb : f.sa = b.field) (hc : f.sc = b.scPart) (hw : wfB cb nc b = true) :
    (rdA f cb nc k).val = k.val b ∧ ((rdA f cb nc k).codes = []) = (k.codes = []) := by
  simp only [wfB, Bool.and_eq_true, Bool.not_eq_true'] at hw
  obtain ⟨⟨h1, h2⟩, h3⟩ := hw
  have B := rdSrc_ok b b.scPart cb nc h2 h1 h3 (fun _ => rfl)
  unfold rdA
  simp only [check_val, zero_val, ap_val, check_codes, zero_codes, ap_codes, List.append_eq_nil_iff, ha, hb, hc, B, and_true, true_and]
  refine eq_iff_iff.2 (and_iff_left ?_)
  cases b with
  | reg r => simp [Src.scPart]
  | const c => simp [Src.scPart]
  | win n o => simp [Src.field]
  | imm v => cases h2
theorem rdA_any {α : Type} (f : FWord) (cb : Nat) (nc : Bool) (k : Rd (Src → α)) : (rdA f cb nc k).regs.any (fun u => u.kind == .src) = true := by
  simp [rdA, List.any_append]
theorem rdN_ok {x : Src} {cnt : Nat} {nc : Bool} (sc : Nat) (w : Bool) (h : wfN cnt nc x = true) :
    (rdSrc x.field sc cnt nc w).val = x ∧ (rdSrc x.field sc cnt nc w).codes = [] := by
  simp only [wfN, Bool.and_eq_true, Bool.not_eq_true'] at h
  obtain ⟨⟨⟨h1, h2⟩, h3⟩, h4⟩ := h
  exact ⟨rdSrc_plain_val _ _ _ _ _ h3 h2, rdSrc_plain_codes _ _ _ _ _ h3 h2 h1 h4⟩
theorem rdABC_ok {α : Type} {f : FWord} {ca cb cc : Nat} {a b e : Src} (k : Rd (Src → Src → Src → α))
    (ha : f.sa = a.field) (hb : f.sb = b.field) (hc : f.sc = e.field) (h1 : wfN ca false a = true) (h2 : wfN cb false b = true)
    (h3 : wfN cc false e = true) :
    (rdABC f ca cb cc k).val = k.val a b e ∧ ((rdABC f ca cb cc k).codes = []) = (k.codes = []) := by
  unfold rdABC
  simp only [ap_val, ap_codes, List.append_eq_nil_iff, ha, hb, hc, rdN_ok _ _ h1, rdN_ok _ _ h2, rdN_ok _ _ h3, and_true]
theorem rdABC_any {α : Type} (f : FWord) (ca cb cc : Nat) (k : Rd (Src → Src → Src → α)) : (rdABC f ca cb cc k).regs.any (fun u => u.kind == .src) = true := by
  simp [rdABC, List.any_append]
theorem rdCD_ok {α : Type} {f : FWord} {trn : Bool} {cd : Nat} {c : Ctl} {d : VReg} (k : Ctl → VReg → α)
    (h1 : f.gp = c.gp.val) (h2 : f.gn = c.gn.toNat)
    (h3 : f.trn = c.tr.toNat) (h4 : f.ruse = c.ru.toNat) (h : trn = true ∨ c.tr = false) (hd : f.dst = d.val) (hw : wfD cd d = true) :
    (rdCD f trn cd k).val = k c d ∧ (rdCD f trn cd k).codes = [] := by
  simp only [wfD, beq_iff_eq] at hw
  simp [rdCD, rdCtl_val f c trn h1 h2 h3 h4, rdCtl_codes f c trn h3 h, hd, hw]

/-! ## The same for a word whose fields are written out -/

theorem wfAB_false {na nb : Nat} {nc : Bool} {a b : Src} (h : wfAB false na nb nc a b = true) :
    wfAB true na nb nc a b = true ∧ b.isImm = false := by
  simp only [wfAB, Bool.and_eq_true, Bool.false_or, Bool.true_or, Bool.not_eq_true'] at h ⊢
  exact ⟨⟨⟨⟨⟨h.1.1.1.1, trivial⟩, h.1.1.2⟩, h.1.2⟩, h.2⟩, h.1.1.1.2⟩
@[simp] theorem rdAB_val {α : Type} (o dst gp gn rm fs tr ru md : Nat) (imm : Bool) (ca cb : Nat) (nc : Bool) (a b : Src)
    (k : Rd (Src → Src → α)) (hi : b.isImm = imm) (hw : wfAB true ca cb nc a b = true) :
    (rdAB ⟨o, dst, a.field, b.field, a.scPart + b.scPart, gp, gn, rm, fs, tr, ru, md⟩ imm ca cb nc k).val = k.val a b :=
  (rdAB_ok k rfl rfl rfl hi hw).1
@[simp] theorem rdAB_codes {α : Type} (o dst gp gn rm fs tr ru md : Nat) (imm : Bool) (ca cb : Nat) (nc : Bool) (a b : Src)
    (k : Rd (Src → Src → α)) (hi : b.isImm = imm) (hw : wfAB true ca cb nc a b = true) :
    ((rdAB ⟨o, dst, a.field, b.field, a.scPart + b.scPart, gp, gn, rm, fs, tr, ru, md⟩ imm ca cb nc k).codes = []) = (k.codes = []) :=
  (rdAB_ok k rfl rfl rfl hi hw).2
@[simp] theorem rdB_val {α : Type} (o dst gp gn rm fs tr ru md : Nat) (cb : Nat) (nc : Bool) (b : Src)
    (k : Rd (Src → α)) (hw : wfB cb nc b = true) :
    (rdB ⟨o, dst, 0, b.field, b.scPart, gp, gn, rm, fs, tr, ru, md⟩ cb nc k).val = k.val b :=
  (rdB_ok k rfl rfl rfl hw).1
@[simp] theorem rdB_codes {α : Type} (o dst gp gn rm fs tr ru md : Nat) (cb : Nat) (nc : Bool) (b : Src)
    (k : Rd (Src → α)) (hw : wfB cb nc b = true) :
    ((rdB ⟨o, dst, 0, b.field, b.scPart, gp, gn, rm, fs, tr, ru, md⟩ cb nc k).codes = []) = (k.codes = []) :=
  (rdB_ok k rfl rfl rfl hw).2
@[simp] theorem rdA_val {α : Type} (o dst gp gn rm fs tr ru md : Nat) (cb : Nat) (nc : Bool) (b : Src)
    (k : Rd (Src → α)) (hw : wfB cb nc b = true) :
    (rdA ⟨o, dst, b.field, 0, b.scPart, gp, gn, rm, fs, tr, ru, md⟩ cb nc k).val = k.val b :=
  (rdA_ok k rfl rfl rfl hw).1
@[simp] theorem rdA_codes {α : Type} (o dst gp gn rm fs tr ru md : Nat) (cb : Nat) (nc : Bool) (b : Src)
    (k : Rd (Src → α)) (hw : wfB cb nc b = true) :
    ((rdA ⟨o, dst, b.field, 0, b.scPart, gp, gn, rm, fs, tr, ru, md⟩ cb nc k).codes = []) = (k.codes = []) :=
  (rdA_ok k rfl rfl rfl hw).2
@[simp] theorem rdN_val (x : Src) (cnt : Nat) (nc : Bool) (sc : Nat) (w : Bool) (h : wfN cnt nc x = true) :
    (rdSrc x.field sc cnt nc w).val = x := (rdN_ok sc w h).1
@[simp] theorem rdN_codes (x : Src) (cnt : Nat) (nc : Bool) (sc : Nat) (w : Bool) (h : wfN cnt nc x = true) :
    (rdSrc x.field sc cnt nc w).codes = [] := (rdN_ok sc w h).2
theorem wfN_imm {cnt : Nat} {nc : Bool} {x : Src} (h : wfN cnt nc x = true) : x.isImm = false := by
  simp only [wfN, Bool.and_eq_true, Bool.not_eq_true'] at h; exact h.1.1.2
theorem wfB_imm {cnt : Nat} {nc : Bool} {x : Src} (h : wfB cnt nc x = true) : x.isImm = false := by
  simp only [wfB, Bool.and_eq_true, Bool.not_eq_true'] at h; exact h.1.2
theorem off0_sc {x : Src} (h : x.off0 = true) (hi : x.isImm = false) : x.scPart = 0 := by
  cases x with
  | reg r => rfl
  | const c => rfl
  | win n o => simp only [Src.off0, beq_iff_eq] at h; simp [Src.scPart, h]
  | imm v => cases hi
@[simp] theorem rdCtl_lit_val (c : Ctl) (o d a b s r fs m : Nat) (trn : Bool) :
    (rdCtl ⟨o, d, a, b, s, c.gp.val, c.gn.toNat, r, fs, c.tr.toNat, c.ru.toNat, m⟩ trn).val = c :=
  rdCtl_val _ _ _ rfl rfl rfl rfl
@[simp] theorem rdCtl_lit_codes (c : Ctl) (o d a b s r fs m : Nat) (trn : Bool) :
    ((rdCtl ⟨o, d, a, b, s, c.gp.val, c.gn.toNat, r, fs, c.tr.toNat, c.ru.toNat, m⟩ trn).codes = []) = (trn = true ∨ c.tr = false) := by
  obtain ⟨gp, gn, tr, ru⟩ := c
  cases tr <;> cases trn <;> simp [rdCtl]
theorem ctl_tr {c : Ctl} {r : Bool} (h : c.ok false r = true) : c.tr = false := by
  simpa [Ctl.ok] using (Bool.and_eq_true_iff.1 h).1
theorem ctl_ru {c : Ctl} {t : Bool} (h : c.ok t false = true) : c.ru = false := by
  simpa [Ctl.ok] using (Bool.and_eq_true_iff.1 h).2
@[simp] theorem immOf_lit (v : BitVec 16) (o d a gp gn rm fs tr ru md : Nat) :
    immOf ⟨o, d, a, v.toNat / 256, v.toNat % 256, gp, gn, rm, fs, tr, ru, md⟩ = v := immOf_eq v _ rfl rfl
@[simp] theorem ofNat_fin8 (x : Fin 8) : Fin.ofNat 8 x.val = x := ofNat_val x
@[simp] theorem ofNat_fin16 (x : Fin 16) : Fin.ofNat 16 x.val = x := ofNat_val x

/-! ## The parts of MOD -/

/-- The six ways MOD is put together from a type code, a flag and the immediate bit. -/
@[simp] theorem mod_ty_si (x : Bool) (i : Bool) {n : Nat} (h : n < 32) : (flag x 32 + n + if i = true then 64 else 0) % 32 = n := by
  revert n; cases x <;> cases i <;> decide
@[simp] theorem mod_b5_si (x : Bool) (i : Bool) {n : Nat} (h : n < 32) : Nat.testBit (flag x 32 + n + if i = true then 64 else 0) 5 = x := by
  revert n; cases x <;> cases i <;> decide
@[simp] theorem mod_b6_si (x : Bool) (i : Bool) {n : Nat} (h : n < 32) : Nat.testBit (flag x 32 + n + if i = true then 64 else 0) 6 = i := by
  revert n; cases x <;> cases i <;> decide
@[simp] theorem mod_m32_si (x : Bool) (i : Bool) {n : Nat} (h : n < 32) : ((flag x 32 + n + if i = true then 64 else 0) &&& 32 = 0) = (x = false) := by
  revert n; cases x <;> cases i <;> decide
@[simp] theorem mod_m64_si (x : Bool) (i : Bool) {n : Nat} (h : n < 32) : ((flag x 32 + n + if i = true then 64 else 0) &&& 64 = 0) = (i = false) := by
  revert n; cases x <;> cases i <;> decide
@[simp] theorem mod_m96_si (x : Bool) (i : Bool) {n : Nat} (h : n < 32) : ((flag x 32 + n + if i = true then 64 else 0) &&& 96 = 0) = (x = false ∧ i = false) := by
  revert n; cases x <;> cases i <;> decide
@[simp] theorem mod_ty_i (i : Bool) {n : Nat} (h : n < 32) : (n + if i = true then 64 else 0) % 32 = n := by
  revert n; cases i <;> decide
@[simp] theorem mod_b5_i (i : Bool) {n : Nat} (h : n < 32) : Nat.testBit (n + if i = true then 64 else 0) 5 = false := by
  revert n; cases i <;> decide
@[simp] theorem mod_b6_i (i : Bool) {n : Nat} (h : n < 32) : Nat.testBit (n + if i = true then 64 else 0) 6 = i := by
  revert n; cases i <;> decide
@[simp] theorem mod_m32_i (i : Bool) {n : Nat} (h : n < 32) : ((n + if i = true then 64 else 0) &&& 32 = 0) = (True) := by
  revert n; cases i <;> decide
@[simp] theorem mod_m64_i (i : Bool) {n : Nat} (h : n < 32) : ((n + if i = true then 64 else 0) &&& 64 = 0) = (i = false) := by
  revert n; cases i <;> decide
@[simp] theorem mod_m96_i (i : Bool) {n : Nat} (h : n < 32) : ((n + if i = true then 64 else 0) &&& 96 = 0) = (True ∧ i = false) := by
  revert n; cases i <;> decide
@[simp] theorem mod_ty_s (x : Bool) {n : Nat} (h : n < 32) : (flag x 32 + n) % 32 = n := by
  revert n; cases x <;> decide
@[simp] theorem mod_b5_s (x : Bool) {n : Nat} (h : n < 32) : Nat.testBit (flag x 32 + n) 5 = x := by
  revert n; cases x <;> decide
@[simp] theorem mod_b6_s (x : Bool) {n : Nat} (h : n < 32) : Nat.testBit (flag x 32 + n) 6 = false := by
  revert n; cases x <;> decide
@[simp] theorem mod_m32_s (x : Bool) {n : Nat} (h : n < 32) : ((flag x 32 + n) &&& 32 = 0) = (x = false) := by
  revert n; cases x <;> decide
@[simp] theorem mod_m64_s (x : Bool) {n : Nat} (h : n < 32) : ((flag x 32 + n) &&& 64 = 0) = (True) := by
  revert n; cases x <;> decide
@[simp] theorem mod_m96_s (x : Bool) {n : Nat} (h : n < 32) : ((flag x 32 + n) &&& 96 = 0) = (x = false ∧ True) := by
  revert n; cases x <;> decide
@[simp] theorem mod_ty_sI (x : Bool) {n : Nat} (h : n < 32) : (flag x 32 + n + 64) % 32 = n := by
  revert n; cases x <;> decide
@[simp] theorem mod_b5_sI (x : Bool) {n : Nat} (h : n < 32) : Nat.testBit (flag x 32 + n + 64) 5 = x := by
  revert n; cases x <;> decide
@[simp] theorem mod_b6_sI (x : Bool) {n : Nat} (h : n < 32) : Nat.testBit (flag x 32 + n + 64) 6 = true := by
  revert n; cases x <;> decide
@[simp] theorem mod_m32_sI (x : Bool) {n : Nat} (h : n < 32) : ((flag x 32 + n + 64) &&& 32 = 0) = (x = false) := by
  revert n; cases x <;> decide
@[simp] theorem mod_m64_sI (x : Bool) {n : Nat} (h : n < 32) : ((flag x 32 + n + 64) &&& 64 = 0) = (False) := by
  revert n; cases x <;> decide
@[simp] theorem mod_m96_sI (x : Bool) {n : Nat} (h : n < 32) : ((flag x 32 + n + 64) &&& 96 = 0) = (x = false ∧ False) := by
  revert n; cases x <;> decide
@[simp] theorem mod_ty_I {n : Nat} (h : n < 32) : (n + 64) % 32 = n := by
  revert n; decide
@[simp] theorem mod_b5_I {n : Nat} (h : n < 32) : Nat.testBit (n + 64) 5 = false := by
  revert n; decide
@[simp] theorem mod_b6_I {n : Nat} (h : n < 32) : Nat.testBit (n + 64) 6 = true := by
  revert n; decide
@[simp] theorem mod_m32_I {n : Nat} (h : n < 32) : ((n + 64) &&& 32 = 0) = (True) := by
  revert n; decide
@[simp] theorem mod_m64_I {n : Nat} (h : n < 32) : ((n + 64) &&& 64 = 0) = (False) := by
  revert n; decide
@[simp] theorem mod_m96_I {n : Nat} (h : n < 32) : ((n + 64) &&& 96 = 0) = (True ∧ False) := by
  revert n; decide
/-- A type code alone. -/
theorem mod_n {n : Nat} (h : n < 32) : n % 32 = n ∧ Nat.testBit n 5 = false ∧ Nat.testBit n 6 = false ∧ n &&& 32 = 0 ∧
    n &&& 64 = 0 ∧ n &&& 96 = 0 ∧ n < 128 := by
  revert n; decide
@[simp] theorem IntTy.code_lt (t : IntTy) : t.code < 32 := by cases t <;> decide
@[simp] theorem IntTy.read (d t : IntTy) : rdTable intTyOf d t.code = Rd.of t := by cases t <;> rfl
@[simp] theorem BitTy.code_lt (t : BitTy) : t.code < 32 := by cases t <;> decide
@[simp] theorem BitTy.read (d t : BitTy) : rdTable bitTyOf d t.code = Rd.of t := by cases t <;> rfl
@[simp] theorem FltTy.code_lt (t : FltTy) : t.code < 32 := by cases t <;> decide
@[simp] theorem FltTy.read (d t : FltTy) : rdTable fltTyOf d t.code = Rd.of t := by cases t <;> rfl
@[simp] theorem HlfTy.code_lt (t : HlfTy) : t.code < 32 := by cases t <;> decide
@[simp] theorem HlfTy.read (d t : HlfTy) : rdTable hlfTyOf d t.code = Rd.of t := by cases t <;> rfl
@[simp] theorem Fmt.code_lt (t : Fmt) : t.code < 32 := by cases t <;> decide
@[simp] theorem Fmt.read (d t : Fmt) : rdTable fmtOf d t.code = Rd.of t := by cases t <;> rfl
@[simp] theorem CvtInt.code_lt (t : CvtInt) : t.code < 32 := by cases t <;> decide
@[simp] theorem CvtInt.read (d t : CvtInt) : rdTable cvtIntOf d t.code = Rd.of t := by cases t <;> rfl
@[simp] theorem CmpTy.code_lt (t : CmpTy) : t.code < 32 := by rcases t with t | t <;> cases t <;> decide
@[simp] theorem CmpTy.read (d t : CmpTy) : rdTable cmpTyOf d t.code = Rd.of t := by rcases t with t | t <;> cases t <;> rfl
@[simp] theorem SigTy.code_lt (t : SigTy) : t.code < 32 := by rcases t with t | t <;> cases t <;> decide
@[simp] theorem SigTy.read (d t : SigTy) : rdTable sigTyOf d t.code = Rd.of t := by rcases t with t | t <;> cases t <;> rfl
@[simp] theorem RedTy.code_lt (t : RedTy) : t.code < 32 := by rcases t with t | t <;> cases t <;> decide
@[simp] theorem RedTy.read (d t : RedTy) : rdTable redTyOf d t.code = Rd.of t := by rcases t with t | t <;> cases t <;> rfl
@[simp] theorem LdTy.code_lt (t : LdTy) : t.code < 32 := by cases t <;> decide
@[simp] theorem LdTy.read (d t : LdTy) : rdTable ldTyOf d t.code = Rd.of t := by cases t <;> rfl
@[simp] theorem StTy.code_lt (t : StTy) : t.code < 32 := by cases t <;> decide
@[simp] theorem StTy.read (d t : StTy) : rdTable stTyOf d t.code = Rd.of t := by cases t <;> rfl
@[simp] theorem WinTy.code_lt (t : WinTy) : t.code < 32 := by cases t <;> decide
@[simp] theorem WinTy.read (d t : WinTy) : rdTable winTyOf d t.code = Rd.of t := by cases t <;> rfl
@[simp] theorem MstTy.code_lt (t : MstTy) : t.code < 32 := by cases t <;> decide
@[simp] theorem MstTy.read (d t : MstTy) : rdTable mstTyOf d t.code = Rd.of t := by cases t <;> rfl
@[simp] theorem rmOf_code (r : Rm) : rmOf r.code = r := by cases r <;> rfl
@[simp] theorem ccOf_code (r : Cc) : ccOf r.code = r := by cases r <;> rfl
@[simp] theorem rdWidth_code (w : Width) : rdWidth w.code = Rd.of w := by cases w <;> rfl
@[simp] theorem rdScope_code (w : Scope) : rdScope w.code = Rd.of w := by cases w <;> rfl
@[simp] theorem sgCode_lt (s : Bool) : sgCode s < 32 := by cases s <;> decide
@[simp] theorem sg_read (d s : Bool) : rdTable sgOf d (sgCode s) = Rd.of s := by cases s <;> rfl
@[simp] theorem s64Code_lt (s : Bool) : s64Code s < 32 := by cases s <;> decide
@[simp] theorem s64_read (d s : Bool) : rdTable s64Of d (s64Code s) = Rd.of s := by cases s <;> rfl
@[simp] theorem rdCtl_tr0_val (c : Ctl) (o d a b s r fs m : Nat) (trn : Bool) (h : c.tr = false) :
    (rdCtl ⟨o, d, a, b, s, c.gp.val, c.gn.toNat, r, fs, 0, c.ru.toNat, m⟩ trn).val = c :=
  rdCtl_val _ _ _ rfl rfl (by rw [h]; rfl) rfl
@[simp] theorem rdCtl_ru0_val (c : Ctl) (o d a b s r fs m : Nat) (trn : Bool) (h : c.ru = false) :
    (rdCtl ⟨o, d, a, b, s, c.gp.val, c.gn.toNat, r, fs, c.tr.toNat, 0, m⟩ trn).val = c :=
  rdCtl_val _ _ _ rfl rfl rfl (by rw [h]; rfl)
@[simp] theorem rdCtl_00_val (c : Ctl) (o d a b s r fs m : Nat) (trn : Bool) (h : c.tr = false) (h' : c.ru = false) :
    (rdCtl ⟨o, d, a, b, s, c.gp.val, c.gn.toNat, r, fs, 0, 0, m⟩ trn).val = c :=
  rdCtl_val _ _ _ rfl rfl (by rw [h]; rfl) (by rw [h']; rfl)
@[simp] theorem rdCtl_tr0_codes (o d a b s p n r fs u m : Nat) (trn : Bool) :
    (rdCtl ⟨o, d, a, b, s, p, n, r, fs, 0, u, m⟩ trn).codes = [] := by simp [rdCtl]
@[simp] theorem rdCtl_ok_codes (f : FWord) : (rdCtl f true).codes = [] := by simp [rdCtl]
@[simp] theorem two_or_one (p : Prop) [Decidable p] : ((if p then 2 else 1) = 0) = False := by split <;> simp
@[simp] theorem flag32_b5 (x : Bool) : Nat.testBit (flag x 32) 5 = x := by cases x <;> decide
@[simp] theorem flag32_m95 (x : Bool) : (flag x 32 &&& 95 = 0) = True := by cases x <;> decide
@[simp] theorem bit_odd (x : Bool) : decide (x.toNat % 2 = 1) = x := by cases x <;> rfl
@[simp] theorem bit_one (x : Bool) : (x.toNat == 1) = x := by cases x <;> rfl
@[simp] theorem bit_m126 (x : Bool) : (x.toNat &&& 126 = 0) = True := by cases x <;> decide
@[simp] theorem bit_lt (x : Bool) : (x.toNat < 2) = True := by cases x <;> decide
@[simp] theorem rdIdx_bit_val (x : Bool) : ((rdIdx x.toNat 2).val == 1) = x := by cases x <;> rfl
@[simp] theorem rdIdx_bit_codes (x : Bool) : (rdIdx x.toNat 2).codes = [] := by cases x <;> rfl
@[simp] theorem imm64_b6 (i : Bool) : Nat.testBit (if i = true then 64 else 0) 6 = i := by cases i <;> decide
@[simp] theorem imm64_m63 (i : Bool) : ((if i = true then 64 else 0) &&& 63 = 0) = True := by cases i <;> decide
@[simp] theorem rm_lt6 (r : Rm) : (r.code < 6) = (r.upTo5 = true) := by cases r <;> decide
@[simp] theorem rm_lt7 (r : Rm) : (r.code < 7) = (r.upTo6 = true) := by cases r <;> decide
@[simp] theorem rm_ne6 (r : Rm) : (r.code = 6) = (r.noStoch = false) := by cases r <;> decide
@[simp] theorem rdW_val (x : Src) (cnt : Nat) (nc : Bool) (h : wfB cnt nc x = true) : (rdSrc x.field x.scPart cnt nc true).val = x := by
  simp only [wfB, Bool.and_eq_true, Bool.not_eq_true'] at h
  exact (rdSrc_ok x _ cnt nc h.1.2 h.1.1 h.2 (fun _ => rfl)).1
@[simp] theorem rdW_codes (x : Src) (cnt : Nat) (nc : Bool) (h : wfB cnt nc x = true) : (rdSrc x.field x.scPart cnt nc true).codes = [] := by
  simp only [wfB, Bool.and_eq_true, Bool.not_eq_true'] at h
  exact (rdSrc_ok x _ cnt nc h.1.2 h.1.1 h.2 (fun _ => rfl)).2
theorem win_or_zero {x : Src} {cnt : Nat} {nc : Bool} (h : wfB cnt nc x = true) : (248 ≤ x.field ∨ x.scPart = 0) = True := by
  have h := wfB_imm h
  cases x with
  | win n o => simp [Src.field]
  | imm v => cases h
  | reg r => simp [Src.scPart]
  | const r => simp [Src.scPart]
theorem wfN_sc {x : Src} {cnt : Nat} {nc : Bool} (h : wfN cnt nc x = true) : x.scPart = 0 := by
  simp only [wfN, Bool.and_eq_true, Bool.not_eq_true'] at h
  cases x with
  | win n o => cases h.1.2
  | imm v => cases h.1.1.2
  | reg r => rfl
  | const r => rfl
@[simp] theorem rdSrcB_imm_val (f : FWord) (cnt : Nat) (nc w : Bool) : (rdSrcB f true cnt nc w).val = .imm (immOf f) := rfl
@[simp] theorem rdSrcB_false (f : FWord) (cnt : Nat) (nc w : Bool) : rdSrcB f false cnt nc w = rdSrc f.sb f.sc cnt nc w := rfl
@[simp] theorem Aop.read (op : Aop) : aopOf (op.code.1 / 8 * 8 + op.code.1 % 8) op.code.2 = some (some op) := by
  cases op <;> first | rfl | (rename_i t; cases t <;> rfl)
@[simp] theorem Aop.ty_lt (op : Aop) : op.code.2 < 32 := by
  cases op <;> first | decide | (rename_i t; cases t <;> decide)
/-- What the third operand of an atomic is. -/
def Aop.third : Aop → Option VReg → Bool
  | .cas t, some e => wfD (Aop.cas t).regs e | .cas _, none => false | _, none => true | _, some _ => false
theorem Aop.third_some {op : Aop} {e : VReg} (h : op.third (some e) = true) : op.isCas = true ∧ e.val % op.regs = 0 := by
  cases op <;> first | cases h | exact ⟨rfl, beq_iff_eq.1 h⟩
theorem Aop.third_none {op : Aop} (h : op.third none = true) : op.isCas = false := by
  cases op <;> first | rfl | cases h

/-- Whether constants are refused changes only what a constant reports. -/
theorem rdSrc_nc (x : Src) (sc cnt : Nat) (nc w : Bool) (h : x.constOk nc = true) (hi : x.isImm = false) :
    (rdSrc x.field sc cnt nc w).val = (rdSrc x.field sc cnt false w).val ∧
    (rdSrc x.field sc cnt nc w).codes = (rdSrc x.field sc cnt false w).codes := by
  cases nc with
  | false => exact ⟨rfl, rfl⟩
  | true =>
    cases x with
    | const c => cases h
    | reg r => simp [rdSrc, Src.field, r.isLt]
    | win n o =>
      have h1 : ¬ 248 + n.val < 224 := by omega
      have h2 : ¬ 248 + n.val < 240 := by omega
      simp [rdSrc, Src.field, h1, h2]
    | imm v => cases hi
/-- Two sources read under one rule for windows and immediates. -/
theorem src2_ok {f : FWord} {ca cb : Nat} {nca : Bool} {a b : Src}
    (ha : f.sa = a.field) (hb : f.sb = b.field) (hc : f.sc = a.scPart + b.scPart)
    (hw : wfAB true ca cb false a b = true) (hn : a.constOk nca = true) :
    let w := !b.isImm && !(decide (248 ≤ f.sa) && decide (248 ≤ f.sb))
    (rdSrc f.sa f.sc ca nca w).val = a ∧ (rdSrc f.sa f.sc ca nca w).codes = [] ∧
    (rdSrcB f b.isImm cb false w).val = b ∧ (rdSrcB f b.isImm cb false w).codes = [] ∧
    (b.isImm || decide (248 ≤ f.sa) || decide (248 ≤ f.sb) || f.sc == 0) = true := by
  have A := rdAB_ok (f := f) (imm := b.isImm) (ca := ca) (cb := cb) (nc := false) (a := a) (b := b)
    (⟨fun x y => (x, y), [], []⟩ : Rd (Src → Src → Src × Src)) ha hb hc rfl hw
  obtain ⟨A1, A2⟩ := A
  have A3 := (A2.symm ▸ rfl : (rdAB f b.isImm ca cb false (⟨fun x y => (x, y), [], []⟩ : Rd (Src → Src → Src × Src))).codes = [])
  simp only [rdAB, check_val, ap_val, check_codes, ap_codes, List.append_eq_nil_iff, Prod.mk.injEq, List.nil_append] at A1 A3
  have hi : a.isImm = false := by
    simp only [wfAB, Bool.and_eq_true, Bool.not_eq_true', Bool.true_or] at hw
    exact hw.1.1.1.1.2
  have e := rdSrc_nc a (a.scPart + b.scPart) ca nca (!b.isImm && !(decide (248 ≤ a.field) && decide (248 ≤ b.field))) hn hi
  simp only [ha, hb, hc] at A1 A3 ⊢
  exact ⟨e.1.trans A1.1, e.2.trans A3.1.1, A1.2, A3.1.2, A3.2⟩

/-- Source B of CVTQ, beside a register in SA (R98). -/
theorem srcQ_ok {f : FWord} {b : Src} (hb : f.sb = b.field) (hc : f.sc = b.scPart) (ha : b.aligned 1 = true) :
    (rdSrcB f b.isImm 1 false (!b.isImm)).val = b ∧ (rdSrcB f b.isImm 1 false (!b.isImm)).codes = [] ∧
    ((b.isImm = true ∨ 248 ≤ b.field) ∨ b.scPart = 0) := by
  cases b with
  | imm v => exact ⟨congrArg Src.imm (immOf_eq v f hb hc), rfl, .inl (.inl rfl)⟩
  | reg r =>
    simp only [Src.isImm, hb, rdSrcB_false, Bool.not_false]
    exact ⟨rdSrc_plain_val _ _ _ _ _ rfl rfl, rdSrc_plain_codes _ _ _ _ _ rfl rfl ha rfl, .inr rfl⟩
  | const r =>
    simp only [Src.isImm, hb, rdSrcB_false, Bool.not_false]
    exact ⟨rdSrc_plain_val _ _ _ _ _ rfl rfl, rdSrc_plain_codes _ _ _ _ _ rfl rfl ha rfl, .inr rfl⟩
  | win n o =>
    have h := rdSrc_ok (.win n o) o.toNat 1 false rfl ha rfl (fun _ => rfl)
    simp only [Src.isImm, hb, hc, rdSrcB_false, Bool.not_false]
    exact ⟨h.1, h.2, .inl (.inr (by simp [Src.field]))⟩
theorem noConst_read {d t : Fmt} (h : t.noConst = false) : rdTable fmtWideOf d t.code = Rd.of t := by
  cases t <;> first | rfl | cases h
/-- A register operand is aligned (R14). -/
def regOk (n : Nat) : Src → Bool | .reg r => wfD n r | _ => true
theorem regOk_field {n : Nat} {b : Src} (h : regOk n b = true) (hn : wfN 1 false b = true) : 224 ≤ b.field ∨ b.field % n = 0 := by
  cases b with
  | reg r => exact .inr (beq_iff_eq.1 h)
  | const r => exact .inl (by simp [Src.field])
  | win n o => exact .inl (by simp only [Src.field]; omega)
  | imm v => exact absurd (wfN_imm hn) (by simp [Src.isImm])
theorem reuse_src {c : Ctl} {t : Bool} {x : Src} (h : c.ok t x.isReg = true) (sc : Nat) (nc w : Bool) :
    c.ru = false ∨ ∃ u, u ∈ (rdSrc x.field sc 1 nc w).regs ∧ u.kind = .src ∧ ¬ u.count = 0 := by
  cases x with
  | reg r => exact .inr ⟨⟨.src, r.val, 1⟩, by simp [rdSrc, Src.field, r.isLt], rfl, by simp⟩
  | const r => exact .inl (ctl_ru h)
  | win n o => exact .inl (ctl_ru h)
  | imm v => exact .inl (ctl_ru h)
@[simp] theorem flag_false (w : Nat) : flag false w = 0 := rfl
@[simp] theorem flag_true (w : Nat) : flag true w = w := rfl
/-- The rounding values of SCANADD. -/
def scanRm : RedTy → Rm → Bool | .int _, r => r == .mode | .flt _, r => r.noStoch
theorem scanRm_ok {t : RedTy} {r : Rm} (h : scanRm t r = true) :
    (match t with | .int _ => r.code == 0 | .flt _ => r.code != 6) = true := by
  cases t <;> cases r <;> first | rfl | cases h
/-! Small fields of MOD. -/
theorem k16_i (k : Fin 16) : Fin.ofNat 16 (k.val + 64) = k ∧ Nat.testBit (k.val + 64) 6 = true ∧ k.val + 64 &&& 48 = 0 ∧
    k.val + 64 < 128 := by
  revert k; decide
theorem k16_n (k : Fin 16) : Nat.testBit k.val 6 = false ∧ k.val &&& 48 = 0 := by revert k; decide
theorem k8_asc (x : Bool) (k : Fin 8) :
    Nat.testBit (flag x 8 + k.val) 3 = x ∧ Fin.ofNat 8 (flag x 8 + k.val) = k ∧ flag x 8 + k.val &&& 112 = 0 ∧
    flag x 8 + k.val < 128 := by
  revert k; cases x <;> decide
theorem k8_F (x : Bool) (k : Fin 8) :
    Nat.testBit (flag x 32 + k.val) 5 = x ∧ Fin.ofNat 8 (flag x 32 + k.val) = k ∧ flag x 32 + k.val &&& 88 = 0 ∧
    flag x 32 + k.val < 128 := by
  revert k; cases x <;> decide
theorem twalk_md (x : Bool) (n k : Fin 8) : Nat.testBit (flag x 64 + n.val * 8 + k.val) 6 = x ∧
    Fin.ofNat 8 ((flag x 64 + n.val * 8 + k.val) / 8) = n ∧ Fin.ofNat 8 (flag x 64 + n.val * 8 + k.val) = k ∧
    flag x 64 + n.val * 8 + k.val < 128 := by
  revert n k; cases x <;> decide
theorem gather_sc (x : Bool) (k : Fin 5) : Nat.testBit (flag x 8 + k.val) 3 = x ∧ Fin.ofNat 5 ((flag x 8 + k.val) % 8) = k ∧
    flag x 8 + k.val < 16 ∧ (flag x 8 + k.val) % 8 < 5 ∧
    flag x 8 + k.val < 256 := by
  revert k; cases x <;> decide
theorem sigB {cc : Cc} {b : Src} (h : (!(cc == .c6 || cc == .c7) || b == .reg 0) = true) :
    (6 ≤ cc.code ∧ b = .reg 0) ∨ ¬ 6 ≤ cc.code := by
  cases cc <;> first | exact .inr (by decide) | exact .inl ⟨by decide, beq_iff_eq.1 h⟩
theorem seal_some_md (x : Bool) : Nat.testBit (x.toNat + 2) 1 = true ∧ decide ((x.toNat + 2) % 2 = 1) = x ∧ x.toNat + 2 &&& 124 = 0 ∧
    x.toNat + 2 < 128 := by
  cases x <;> decide
theorem seal_none_md (x : Bool) : Nat.testBit x.toNat 1 = false ∧ x.toNat &&& 124 = 0 := by cases x <;> decide
theorem mmab_md (f x : Bool) : Nat.testBit (flag f 32 + x.toNat) 5 = f ∧ decide ((flag f 32 + x.toNat) % 2 = 1) = x ∧
    flag f 32 + x.toNat &&& 94 = 0 ∧
    flag f 32 + x.toNat < 128 := by cases f <;> cases x <;> decide
theorem mldf_md (f s : Bool) (w : FragSel) (h : (s && w == .c) = false) : Nat.testBit (flag f 32 + flag s 4 + w.code) 5 = f ∧
    fragOf ((flag f 32 + flag s 4 + w.code) % 4) = w ∧ Nat.testBit (flag f 32 + flag s 4 + w.code) 2 = s ∧
    ((flag f 32 + flag s 4 + w.code) % 4 < 2 ∨
      (flag f 32 + flag s 4 + w.code) % 4 = 2 ∧ s = false) ∧
    flag f 32 + flag s 4 + w.code &&& 88 = 0 ∧
    flag f 32 + flag s 4 + w.code < 128 := by
  revert h; cases f <;> cases s <;> cases w <;> decide
theorem mresume_md (f : Bool) (k : PassKind) : Nat.testBit (flag f 32 + k.code) 5 = f ∧
    passKindOf ((flag f 32 + k.code) % 4) = k ∧ flag f 32 + k.code &&& 92 = 0 ∧
    flag f 32 + k.code < 128 := by cases f <;> cases k <;> decide

/-! ## Fields that fit their places (Table 3.2) -/

/-- Every field of the word fits its place (Table 3.2). -/
def FWord.Fits (f : FWord) : Prop :=
  f.opc < 512 ∧ f.dst < 256 ∧ f.sa < 256 ∧ f.sb < 256 ∧ f.sc < 256 ∧ f.gp < 64 ∧ f.gn < 2 ∧ f.rm < 8 ∧ f.fsl < 8 ∧ f.trn < 2 ∧
  f.ruse < 2 ∧ f.md < 128
@[simp] theorem fin_fits {n m : Nat} (x : Fin n) (h : n ≤ m) : (x.val < m) = True := eq_true (Nat.lt_of_lt_of_le x.isLt h)
@[simp] theorem bool_fits (x : Bool) {m : Nat} (h : 2 ≤ m) : (x.toNat < m) = True := eq_true (Nat.lt_of_lt_of_le x.toNat_lt h)
@[simp] theorem byte_fits (x : BitVec 8) : (x.toNat < 256) = True := eq_true x.isLt
@[simp] theorem half_fits (x : BitVec 16) : (x.toNat / 256 < 256) = True := eq_true (by omega)
@[simp] theorem Src.field_lt (x : Src) : (x.field < 256) = True := eq_true (by cases x <;> simp only [Src.field] <;> omega)
@[simp] theorem Src.scPart_lt (x : Src) : (x.scPart < 256) = True := eq_true (by cases x <;> simp only [Src.scPart] <;> omega)
theorem scAB_lt {na nb : Nat} {nc : Bool} {a b : Src} (h : wfAB true na nb nc a b = true) : a.scPart + b.scPart < 256 := by
  simp only [wfAB, Bool.and_eq_true, Bool.not_eq_true'] at h
  have h1 := h.1.1.1.1.2
  have h2 := h.2
  cases a <;> cases b <;> simp_all [Src.scPart, Src.isImm, Src.isWin] <;> omega
@[simp] theorem rm_fits (r : Rm) : (r.code < 8) = True := by cases r <;> decide
@[simp] theorem cc_fits (r : Cc) : (r.code < 8) = True := by cases r <;> decide
@[simp] theorem width_fits (r : Width) : (r.code < 256) = True := by cases r <;> decide
@[simp] theorem scope_fits (r : Scope) : (r.code < 8) = True := by cases r <;> decide
@[simp] theorem op_fits (op : Aop) : (op.code.1 / 8 < 8) = True := by
  cases op <;> first | exact eq_true (by decide) | (rename_i t; cases t <;> exact eq_true (by decide))
@[simp] theorem code_fits_Fmt (t : Fmt) : (t.code < 256) = True := by cases t <;> decide
@[simp] theorem code_fits_CvtInt (t : CvtInt) : (t.code < 256) = True := by cases t <;> decide
@[simp] theorem mod_lt_si (x : Bool) (i : Bool) {n : Nat} (h : n < 32) : (flag x 32 + n + if i = true then 64 else 0) < 128 := by
  revert n; cases x <;> cases i <;> decide
@[simp] theorem mod_lt_i (i : Bool) {n : Nat} (h : n < 32) : (n + if i = true then 64 else 0) < 128 := by
  revert n; cases i <;> decide
@[simp] theorem mod_lt_s (x : Bool) {n : Nat} (h : n < 32) : (flag x 32 + n) < 128 := by
  revert n; cases x <;> decide
@[simp] theorem mod_lt_sI (x : Bool) {n : Nat} (h : n < 32) : (flag x 32 + n + 64) < 128 := by
  revert n; cases x <;> decide
@[simp] theorem mod_lt_I {n : Nat} (h : n < 32) : (n + 64) < 128 := by
  revert n; decide
@[simp] theorem flag32_fits (x : Bool) : (flag x 32 < 128) = True := by cases x <;> decide
@[simp] theorem imm_fits (i : Bool) : ((if i = true then 64 else 0) < 128) = True := by cases i <;> decide
@[simp] theorem half_mod_fits (x : BitVec 16) : (x.toNat % 256 < 256) = True := eq_true (by omega)
@[simp] theorem op_mod_fits (op : Aop) : (op.code.1 % 8 < 8) = True := eq_true (by omega)

/-! ## P-form slots -/

theorem pOpOf_code (o : POp) : pOpOf o.code = some o := by cases o <;> rfl
theorem POp.code_le (o : POp) : 0 < o.code ∧ o.code ≤ 0x22 := by cases o <;> decide
/-- What reading back a slot's bits gives (R72). -/
def SlotReads (s : PSlot) : Prop :=
  slotBits s < 2 ^ 31 ∧ bits (slotBits s) 24 7 ≤ 0x22 ∧ (readSlot (slotBits s)).val = s ∧ (readSlot (slotBits s)).codes = []
theorem PSrc.field_lt (b : PSrc) : b.field < 240 := by cases b <;> simp only [PSrc.field] <;> omega
theorem slot_fields (o : POp) (gp : Pred) (gn : Bool) (d : VReg) (b : PSrc) :
    let w := slotBits (.op o gp gn d b)
    bits w 24 7 = o.code ∧ bits w 16 8 = d.val ∧ bits w 8 8 = b.field ∧ bits w 2 6 = gp.val ∧ bits w 1 1 = gn.toNat ∧ w % 2 = 0 ∧
    w < 2 ^ 31 := by
  have h1 := POp.code_le o
  have h2 := d.isLt
  have h3 := PSrc.field_lt b
  have h4 := gp.isLt
  have h5 := gn.toNat_lt
  simp only [slotBits, bits, Nat.reducePow]
  omega
theorem slot_reads (s : PSlot) : SlotReads s := by
  cases s with
  | nop => exact ⟨by decide, by decide, rfl, rfl⟩
  | op o gp gn d b =>
    obtain ⟨e1, e2, e3, e4, e5, e6, e7⟩ := slot_fields o gp gn d b
    refine ⟨e7, e1 ▸ (POp.code_le o).2, ?_, ?_⟩
    · simp only [readSlot, e1, e2, e3, e4, e5, pOpOf_code, check_val]
      have hg : (gn.toNat == 1) = gn := by cases gn <;> rfl
      cases b with
      | reg r => split <;> simp [PSrc.field, r.isLt, hg]
      | const k =>
        have h1 : ¬ 224 + k.val < 224 := by omega
        have h2 : 224 + k.val < 240 := by omega
        split <;> simp [PSrc.field, h1, h2, hg]
    · simp only [readSlot, e1, e2, e3, e4, e5, pOpOf_code, check_codes, e6]
      cases b with
      | reg r => split <;> simp [PSrc.field, r.isLt, Nat.mod_one]
      | const k =>
        have h1 : ¬ 224 + k.val < 224 := by omega
        have h2 : 224 + k.val < 240 := by omega
        split <;> simp [PSrc.field, h1, h2, Nat.mod_one]
theorem pair_reads (s0 s1 : PSlot) (h : pairingOk s0 s1 = true) : pairBad (slotBits s0) (slotBits s1) = false := by
  cases s0 with
  | nop => rfl
  | op o gp gn d b =>
    cases s1 with
    | nop =>
      simp only [pairBad, (by decide : pOpOf (bits (slotBits .nop) 24 7) = none), Option.isSome_none, Bool.and_false, Bool.false_and]
    | op o' gp' gn' d' b' =>
      obtain ⟨e1, e2, e3, -, -, -, -⟩ := slot_fields o gp gn d b
      obtain ⟨f1, f2, f3, -, -, -, -⟩ := slot_fields o' gp' gn' d' b'
      simp only [pairBad, e1, e2, e3, f1, f2, f3, pOpOf_code, Option.isSome_some, Bool.true_and]
      simp only [pairingOk, bank, Bool.and_eq_true, bne_iff_ne] at h
      cases b <;> cases b' <;> simp_all [PSrc.field]
      all_goals (intro hc; exact absurd (of_decide_eq_true hc) (by omega))

/-! ## The word of its fields -/

/-- Fields that fit are read back from the word that packs them (Table 3.2). -/
theorem unpackF_packF {f : FWord} (h : f.Fits) : unpackF (packF f) = f := by
  obtain ⟨opc, dst, sa, sb, sc, gp, gn, rm, fsl, trn, ruse, md⟩ := f
  obtain ⟨h1, h2, h3, h4, h5, h6, h7, h8, h9, h10, h11, h12⟩ := h
  simp only [] at h1 h2 h3 h4 h5 h6 h7 h8 h9 h10 h11 h12
  simp only [unpackF, packF, bits, FWord.mk.injEq, Nat.reducePow]
  omega
/-- The word of fields that fit has its top bit clear: it is an F-form word (R65). -/
theorem packF_lt {f : FWord} (h : f.Fits) : packF f < 2 ^ 63 := by
  obtain ⟨h1, h2, h3, h4, h5, h6, h7, h8, h9, h10, h11, h12⟩ := h
  simp only [packF, Nat.reducePow]
  omega
end Sys2Proof
end

