-- ==== Sys2Proof/Laws/Memory.lean ====
section
/-! SUPPORT. The laws of byte memory: its canonical form is kept, a read gives what was written last, a write leaves every other byte alone. -/
namespace Sys2Proof.Machine
open Sys2Proof

/-- A memory in canonical form from a bound is in canonical form from any lower bound. -/
theorem memWfFrom_mono {m : Mem} {a b : Nat} (h : memWfFrom b m = true) (hab : a ≤ b) : memWfFrom a m = true := by
  cases m with
  | nil => rfl
  | cons x m =>
    obtain ⟨c, v⟩ := x
    simp only [memWfFrom, Bool.and_eq_true, decide_eq_true_eq] at h ⊢
    exact ⟨⟨by omega, h.1.2⟩, h.2⟩

/-- The canonical form of a memory that lists something. -/
theorem memWfFrom_cons {lo a : Nat} {b : Byte} {m : Mem} : memWfFrom lo ((a, b) :: m) = true ↔ lo ≤ a ∧ b ≠ 0 ∧ memWfFrom (a + 1) m = true := by
  show (decide (lo ≤ a) && b != 0 && memWfFrom (a + 1) m) = true ↔ _
  rw [Bool.and_eq_true, Bool.and_eq_true, decide_eq_true_eq, bne_iff_ne, and_assoc]

/-- Writing a byte keeps the canonical form. -/
theorem memWfFrom_memSet (b : Byte) : ∀ (m : Mem) (a lo : Nat), lo ≤ a → memWfFrom lo m = true → memWfFrom lo (memSet m a b) = true
  | [], a, lo, ha, _ => by
    unfold memSet
    split
    · rfl
    · next h => exact memWfFrom_cons.2 ⟨ha, h, rfl⟩
  | (c, x) :: m, a, lo, ha, h => by
    unfold memSet
    obtain ⟨h1, h2, h3⟩ := memWfFrom_cons.1 h
    split
    · split
      · exact h
      · next hb => exact memWfFrom_cons.2 ⟨ha, hb, memWfFrom_cons.2 ⟨by omega, h2, h3⟩⟩
    · split
      · next e =>
        subst e
        split
        · exact memWfFrom_mono h3 (by omega)
        · next hb => exact memWfFrom_cons.2 ⟨ha, hb, h3⟩
      · exact memWfFrom_cons.2 ⟨h1, h2, memWfFrom_memSet b m a (c + 1) (by omega) h3⟩

/-- Writing a byte keeps the canonical form of memory. -/
theorem wf_memSet {m : Mem} (a : Nat) (b : Byte) (h : Memory.wf m = true) : Memory.wf (memSet m a b) = true :=
  memWfFrom_memSet b m a 0 (Nat.zero_le _) h

/-- Writing bytes keeps the canonical form of memory. -/
theorem wf_memWrite {m : Mem} (a : Nat) (bs : List Byte) (h : Memory.wf m = true) : Memory.wf (memWrite m a bs) = true := by
  induction bs generalizing m a with
  | nil => exact h
  | cons b bs ih => exact ih (a + 1) (wf_memSet a b h)

/-- A byte below the first one listed is not listed. -/
theorem memGet_below : ∀ (m : Mem) (lo a : Nat), memWfFrom lo m = true → a < lo → memGet m a = 0
  | [], _, _, _, _ => rfl
  | (c, x) :: m, lo, a, h, ha => by
    simp only [memWfFrom, Bool.and_eq_true, decide_eq_true_eq] at h
    unfold memGet
    rw [if_neg (by omega)]
    exact memGet_below m (c + 1) a h.2 (by omega)

/-- A byte reads as what was written there last; every other byte reads as before. -/
theorem memGet_memSetFrom (b : Byte) : ∀ (m : Mem) (lo a k : Nat), memWfFrom lo m = true → memGet (memSet m a b) k = if k = a then b else memGet m k
  | [], _, a, k, _ => by
    unfold memSet
    by_cases hb : b = 0
    · simp [hb, memGet]
    · rw [if_neg hb]
      simp only [memGet]
      by_cases h : a = k
      · rw [if_pos h, if_pos h.symm]
      · rw [if_neg h, if_neg (Ne.symm h)]
  | (c, x) :: m, lo, a, k, h => by
    simp only [memWfFrom, Bool.and_eq_true, decide_eq_true_eq] at h
    unfold memSet
    split
    · next hac =>
      split
      · next hb =>
        by_cases hk : k = a
        · rw [if_pos hk, hb, hk]
          unfold memGet
          rw [if_neg (by omega)]
          exact memGet_below m (c + 1) a h.2 (by omega)
        · rw [if_neg hk]
      · simp only [memGet]
        by_cases hk : k = a
        · rw [if_pos hk, if_pos hk.symm]
        · rw [if_neg hk, if_neg (Ne.symm hk)]
    · split
      · next hac e =>
        subst e
        split
        · next hb =>
          by_cases hk : k = a
          · rw [if_pos hk, hb, hk]; exact memGet_below m (a + 1) a h.2 (by omega)
          · rw [if_neg hk]; simp only [memGet]; rw [if_neg (Ne.symm hk)]
        · simp only [memGet]
          by_cases hk : k = a
          · rw [if_pos hk, if_pos hk.symm]
          · rw [if_neg hk, if_neg (Ne.symm hk)]
            rw [if_neg (Ne.symm hk)]
      · next h1 h2 =>
        simp only [memGet]
        by_cases hc : c = k
        · rw [if_pos hc, if_neg (by omega), if_pos hc]
        · rw [if_neg hc, if_neg hc]; exact memGet_memSetFrom b m (c + 1) a k h.2

/-- Read after write of one byte. -/
theorem memGet_memSet {m : Mem} (h : Memory.wf m = true) (a : Nat) (b : Byte) (k : Nat) :
    memGet (memSet m a b) k = if k = a then b else memGet m k := memGet_memSetFrom b m 0 a k h

/-- Read after write of several bytes. -/
theorem memGet_memWrite {m : Mem} (h : Memory.wf m = true) (a : Nat) (bs : List Byte) (k : Nat) :
    memGet (memWrite m a bs) k = if a ≤ k ∧ k < a + bs.length then bs.getD (k - a) 0 else memGet m k := by
  induction bs generalizing m a with
  | nil => rw [if_neg (by simp only [List.length_nil]; omega)]; rfl
  | cons b bs ih =>
    show memGet (memWrite (memSet m a b) (a + 1) bs) k = _
    rw [ih (wf_memSet a b h), memGet_memSet h]
    by_cases h1 : k = a
    · subst h1
      rw [if_neg (by omega), if_pos rfl, if_pos (by simp), Nat.sub_self, List.getD_cons_zero]
    · rw [if_neg h1]
      by_cases h2 : a + 1 ≤ k ∧ k < a + 1 + bs.length
      · rw [if_pos h2, if_pos (by simp; omega)]
        obtain ⟨j, hj⟩ : ∃ j, k - a = j + 1 := ⟨k - a - 1, by omega⟩
        rw [hj, List.getD_cons_succ]; congr 1; omega
      · rw [if_neg h2, if_neg (by simp; omega)]

/-- The bytes read are the bytes at the addresses. -/
theorem memRead_getD (m : Mem) (a n i : Nat) (h : i < n) : (memRead m a n).getD i 0 = memGet m (a + i) := by
  unfold memRead
  rw [List.getD_eq_getElem?_getD, List.getElem?_map, upFrom_getElem?, if_pos h]; rfl

/-- Reading bytes gives as many as were asked for. -/
theorem memRead_length (m : Mem) (a n : Nat) : (memRead m a n).length = n := by unfold memRead; rw [List.length_map, upFrom_length]

/-- A number has as many bytes as were asked for. -/
theorem toBytes_length (n v : Nat) : (toBytes n v).length = n := by
  induction n generalizing v with
  | zero => rfl
  | succ n ih => simp [toBytes, ih]

/-- The i-th byte of a number. -/
theorem toBytes_getD (n v i : Nat) (h : i < n) : (toBytes n v).getD i 0 = BitVec.ofNat 8 (v / 2 ^ (8 * i)) := by
  induction n generalizing v i with
  | zero => omega
  | succ n ih =>
    unfold toBytes
    cases i with
    | zero => simp
    | succ i =>
      rw [List.getD_cons_succ, ih _ _ (by omega), Nat.div_div_eq_div_mul]
      congr 2
      rw [Nat.mul_add, Nat.pow_add, Nat.mul_comm]

/-- The bytes of a number give the number back. -/
theorem ofBytes_toBytes (n v : Nat) (h : v < 2 ^ (8 * n)) : ofBytes (toBytes n v) = v := by
  induction n generalizing v with
  | zero => simp at h; simp [toBytes, ofBytes, h]
  | succ n ih =>
    unfold toBytes ofBytes
    rw [ih (v / 256) (by rw [Nat.mul_add, Nat.pow_add] at h; omega)]
    simp only [BitVec.toNat_ofNat]
    omega

/-- The reset memory is in canonical form. -/
theorem wf_reset : Memory.wf State.reset.mem = true := rfl

/-- An error record keeps the canonical form (R338). -/
theorem wf_errRecord {s : State} (r k p l : Nat) (h : Memory.wf s.mem = true) : Memory.wf (s.errRecord r k p l).mem = true := by
  unfold State.errRecord
  simp only
  split
  · exact h
  · simp only [post_mem]
    exact wf_memWrite _ _ h

/-- Writing each byte of a list where a condition lets it keeps the canonical form. -/
theorem wf_memSets {f : Byte × Nat → Bool} {key : Nat} : ∀ (l : List (Byte × Nat)) (m : Mem), Memory.wf m = true →
    Memory.wf (l.foldl (fun (mem : Mem) (x : Byte × Nat) => if f x then mem else memSet mem (key + x.2) x.1) m) = true
  | [], _, h => h
  | x :: xs, m, h => by
    rw [List.foldl_cons]
    apply wf_memSets xs
    split
    · exact h
    · exact wf_memSet _ _ h

/-- Several error records keep the canonical form. -/
theorem wf_errRecords : ∀ (l : List EccMark) (s : State), Memory.wf s.mem = true →
    Memory.wf (l.foldl (fun s m => s.errRecord m.region 2 0xFF m.loc) s).mem = true
  | [], _, h => h
  | _ :: xs, _, h => wf_errRecords xs _ (wf_errRecord _ _ _ _ h)

/-- A store to physical memory keeps the canonical form (R336). -/
theorem wf_physWrite {s : State} (key : Nat) (bs : List Byte) (h : Memory.wf s.mem = true) : Memory.wf (s.physWrite key bs).mem = true := by
  unfold State.physWrite
  split
  · exact wf_memWrite _ _ h
  · apply wf_errRecords
    exact wf_memSets _ _ h

/-- A write to a page keeps the canonical form. -/
theorem wf_pageWrite {s : State} (p : Page) (va : Nat) (bs : List Byte) (ts : List Tag) (h : Memory.wf s.mem = true) :
    Memory.wf (s.pageWrite p va bs ts).mem = true := by
  unfold State.pageWrite
  simp only
  split
  · exact wf_physWrite _ _ (wf_physWrite _ _ h)
  · exact wf_physWrite _ _ h

/-- Where no granule is uncorrectable, a store to physical memory is the plain one. -/
theorem physWrite_plain {s : State} (h : s.ras.marks = []) (key : Nat) (bs : List Byte) : s.physWrite key bs = { s with mem := memWrite s.mem key bs } := by
  unfold State.physWrite; rw [h]; rfl

end Sys2Proof.Machine
end

