-- ==== Sys2Proof/Laws/PerInstr.lean ====
section
/-! SUPPORT. The family RoundTrip: for every instruction word, that its encoded fields read back as the instruction (R65 to R76). -/
set_option linter.unusedSimpArgs false
namespace Sys2Proof

/-- The fields of a word fit their places, its opcode is assigned, and the word reads back as the instruction, with nothing to
report (R66 to R76). -/
def Laws.RoundTrip.Reads (f : FWord) (i : Instr) : Prop :=
  (f.Fits ∧ opcAssigned f.opc = true) ∧ (readF f).val = i ∧ (readF f).codes = []

/-- What the family says: a well-formed F-form word reads back from its fields; the slots of a well-formed P-form word read back
and do not conflict (R73); an unassigned opcode reads as one (R74). An event has no word. -/
def Laws.RoundTrip.Statement (i : Instr) : Prop := i.isWord = true → i.wf = true →
  match i with
  | .pFormWord s0 s1 => SlotReads s0 ∧ SlotReads s1 ∧ pairBad (slotBits s0) (slotBits s1) = false
  | .unassignedOpcode w => wordUnassigned w.toNat = true
  | i => Reads (fields i) i

theorem Laws.RoundTrip.reads_of {i : Instr} {f : FWord} (h : fields i = f)
    (hr : (f.Fits ∧ opcAssigned f.opc = true) ∧ (readF f).val = i ∧ (readF f).codes = []) : Reads (fields i) i := by
  rw [h]; exact hr

theorem Laws.RoundTrip.iadd (c : Ctl) (sat : Bool) (t : IntTy) (d : VReg) (a b : Src) : Statement (.iadd c sat t d a b) := by
  intro _ h
  replace h : (c.ok true true && wfD t.regs d && wfAB true t.regs t.regs false a b) = true := h
  simp only [Bool.and_eq_true, wfD, beq_iff_eq] at h
  refine reads_of (f := ⟨0x000, d.val, a.field, b.field, 0 + a.scPart + b.scPart, c.gp.val, c.gn.toNat, 0, 0, c.tr.toNat, c.ru.toNat, flag sat 32 + t.code + (if b.isImm = true then 64 else 0)⟩) rfl ?_
  simp only [readF, decodeInt]
  simp [h, scAB_lt h.2, mod_n, Nat.mod_one, rdOff, rdImm?, FWord.Fits, opcAssigned, Bool.toNat_le, FWord.ty, FWord.i, FWord.b, rdCD, rdABC, List.any_append, rdAB_any, rdB_any, rdA_any]
theorem Laws.RoundTrip.isub (c : Ctl) (sat : Bool) (t : IntTy) (d : VReg) (a b : Src) : Statement (.isub c sat t d a b) := by
  intro _ h
  replace h : (c.ok true true && wfD t.regs d && wfAB true t.regs t.regs false a b) = true := h
  simp only [Bool.and_eq_true, wfD, beq_iff_eq] at h
  refine reads_of (f := ⟨0x001, d.val, a.field, b.field, 0 + a.scPart + b.scPart, c.gp.val, c.gn.toNat, 0, 0, c.tr.toNat, c.ru.toNat, flag sat 32 + t.code + (if b.isImm = true then 64 else 0)⟩) rfl ?_
  simp only [readF, decodeInt]
  simp [h, scAB_lt h.2, mod_n, Nat.mod_one, rdOff, rdImm?, FWord.Fits, opcAssigned, Bool.toNat_le, FWord.ty, FWord.i, FWord.b, rdCD, rdABC, List.any_append, rdAB_any, rdB_any, rdA_any]
theorem Laws.RoundTrip.imul (c : Ctl) (t : IntTy) (d : VReg) (a b : Src) : Statement (.imul c t d a b) := by
  intro _ h
  replace h : (c.ok true true && wfD t.regs d && wfAB true t.regs t.regs false a b) = true := h
  simp only [Bool.and_eq_true, wfD, beq_iff_eq] at h
  refine reads_of (f := ⟨0x002, d.val, a.field, b.field, 0 + a.scPart + b.scPart, c.gp.val, c.gn.toNat, 0, 0, c.tr.toNat, c.ru.toNat, t.code + (if b.isImm = true then 64 else 0)⟩) rfl ?_
  simp only [readF, decodeInt]
  simp [h, scAB_lt h.2, mod_n, Nat.mod_one, rdOff, rdImm?, FWord.Fits, opcAssigned, Bool.toNat_le, FWord.ty, FWord.i, FWord.b, rdCD, rdABC, List.any_append, rdAB_any, rdB_any, rdA_any]
theorem Laws.RoundTrip.imulhi (c : Ctl) (t : IntTy) (d : VReg) (a b : Src) : Statement (.imulhi c t d a b) := by
  intro _ h
  replace h : (c.ok true true && wfD t.regs d && wfAB true t.regs t.regs false a b) = true := h
  simp only [Bool.and_eq_true, wfD, beq_iff_eq] at h
  refine reads_of (f := ⟨0x003, d.val, a.field, b.field, 0 + a.scPart + b.scPart, c.gp.val, c.gn.toNat, 0, 0, c.tr.toNat, c.ru.toNat, t.code + (if b.isImm = true then 64 else 0)⟩) rfl ?_
  simp only [readF, decodeInt]
  simp [h, scAB_lt h.2, mod_n, Nat.mod_one, rdOff, rdImm?, FWord.Fits, opcAssigned, Bool.toNat_le, FWord.ty, FWord.i, FWord.b, rdCD, rdABC, List.any_append, rdAB_any, rdB_any, rdA_any]
theorem Laws.RoundTrip.imad (c : Ctl) (t : IntTy) (d : VReg) (a b e : Src) : Statement (.imad c t d a b e) := by
  intro _ h
  replace h : (c.ok true true && wfD t.regs d && wfN t.regs false a && wfN t.regs false b && wfN t.regs false e) = true := h
  simp only [Bool.and_eq_true, wfD, beq_iff_eq] at h
  refine reads_of (f := ⟨0x004, d.val, a.field, b.field, e.field, c.gp.val, c.gn.toNat, 0, 0, c.tr.toNat, c.ru.toNat, t.code + (if b.isImm = true then 64 else 0)⟩) rfl ?_
  simp only [readF, decodeInt]
  simp [h, wfN_imm h.1.2, mod_n, Nat.mod_one, rdOff, rdImm?, FWord.Fits, opcAssigned, Bool.toNat_le, FWord.ty, FWord.i, FWord.b, rdCD, rdABC, List.any_append, rdAB_any, rdB_any, rdA_any]
theorem Laws.RoundTrip.imadw (c : Ctl) (sg : Bool) (d : VReg) (a b e : Src) : Statement (.imadw c sg d a b e) := by
  intro _ h
  replace h : (c.ok true true && wfD 2 d && wfN 1 false a && wfN 1 false b && wfN 2 false e) = true := h
  simp only [Bool.and_eq_true, wfD, beq_iff_eq] at h
  refine reads_of (f := ⟨0x005, d.val, a.field, b.field, e.field, c.gp.val, c.gn.toNat, 0, 0, c.tr.toNat, c.ru.toNat, sgCode sg + (if b.isImm = true then 64 else 0)⟩) rfl ?_
  simp only [readF, decodeInt]
  simp [h, wfN_imm h.1.2, mod_n, Nat.mod_one, rdOff, rdImm?, FWord.Fits, opcAssigned, Bool.toNat_le, FWord.ty, FWord.i, FWord.b, rdCD, rdABC, List.any_append, rdAB_any, rdB_any, rdA_any]
theorem Laws.RoundTrip.imin (c : Ctl) (t : IntTy) (d : VReg) (a b : Src) : Statement (.imin c t d a b) := by
  intro _ h
  replace h : (c.ok true true && wfD t.regs d && wfAB true t.regs t.regs false a b) = true := h
  simp only [Bool.and_eq_true, wfD, beq_iff_eq] at h
  refine reads_of (f := ⟨0x006, d.val, a.field, b.field, 0 + a.scPart + b.scPart, c.gp.val, c.gn.toNat, 0, 0, c.tr.toNat, c.ru.toNat, t.code + (if b.isImm = true then 64 else 0)⟩) rfl ?_
  simp only [readF, decodeInt]
  simp [h, scAB_lt h.2, mod_n, Nat.mod_one, rdOff, rdImm?, FWord.Fits, opcAssigned, Bool.toNat_le, FWord.ty, FWord.i, FWord.b, rdCD, rdABC, List.any_append, rdAB_any, rdB_any, rdA_any]
theorem Laws.RoundTrip.imax (c : Ctl) (t : IntTy) (d : VReg) (a b : Src) : Statement (.imax c t d a b) := by
  intro _ h
  replace h : (c.ok true true && wfD t.regs d && wfAB true t.regs t.regs false a b) = true := h
  simp only [Bool.and_eq_true, wfD, beq_iff_eq] at h
  refine reads_of (f := ⟨0x007, d.val, a.field, b.field, 0 + a.scPart + b.scPart, c.gp.val, c.gn.toNat, 0, 0, c.tr.toNat, c.ru.toNat, t.code + (if b.isImm = true then 64 else 0)⟩) rfl ?_
  simp only [readF, decodeInt]
  simp [h, scAB_lt h.2, mod_n, Nat.mod_one, rdOff, rdImm?, FWord.Fits, opcAssigned, Bool.toNat_le, FWord.ty, FWord.i, FWord.b, rdCD, rdABC, List.any_append, rdAB_any, rdB_any, rdA_any]
theorem Laws.RoundTrip.iabs (c : Ctl) (sat w64 : Bool) (d : VReg) (b : Src) : Statement (.iabs c sat w64 d b) := by
  intro _ h
  replace h : (c.ok true true && wfD (if w64 then 2 else 1) d && wfB (if w64 then 2 else 1) false b) = true := h
  simp only [Bool.and_eq_true, wfD, beq_iff_eq] at h
  refine reads_of (f := ⟨0x008, d.val, 0, b.field, 0 + b.scPart, c.gp.val, c.gn.toNat, 0, 0, c.tr.toNat, c.ru.toNat, flag sat 32 + s64Code w64 + (if b.isImm = true then 64 else 0)⟩) rfl ?_
  simp only [readF, decodeInt]
  cases w64 <;> simp only [Bool.false_eq_true, ↓reduceIte] at h <;> simp [h, wfB_imm h.2, mod_n, Nat.mod_one, rdOff, rdImm?, FWord.Fits, opcAssigned, Bool.toNat_le, FWord.ty, FWord.i, FWord.b, rdCD, rdABC, List.any_append, rdAB_any, rdB_any, rdA_any]
theorem Laws.RoundTrip.ineg (c : Ctl) (sat w64 : Bool) (d : VReg) (b : Src) : Statement (.ineg c sat w64 d b) := by
  intro _ h
  replace h : (c.ok true true && wfD (if w64 then 2 else 1) d && wfB (if w64 then 2 else 1) false b) = true := h
  simp only [Bool.and_eq_true, wfD, beq_iff_eq] at h
  refine reads_of (f := ⟨0x009, d.val, 0, b.field, 0 + b.scPart, c.gp.val, c.gn.toNat, 0, 0, c.tr.toNat, c.ru.toNat, flag sat 32 + s64Code w64 + (if b.isImm = true then 64 else 0)⟩) rfl ?_
  simp only [readF, decodeInt]
  cases w64 <;> simp only [Bool.false_eq_true, ↓reduceIte] at h <;> simp [h, wfB_imm h.2, mod_n, Nat.mod_one, rdOff, rdImm?, FWord.Fits, opcAssigned, Bool.toNat_le, FWord.ty, FWord.i, FWord.b, rdCD, rdABC, List.any_append, rdAB_any, rdB_any, rdA_any]
theorem Laws.RoundTrip.shl (c : Ctl) (t : BitTy) (d : VReg) (a b : Src) : Statement (.shl c t d a b) := by
  intro _ h
  replace h : (c.ok true true && wfD t.regs d && wfAB true t.regs 1 false a b) = true := h
  simp only [Bool.and_eq_true, wfD, beq_iff_eq] at h
  refine reads_of (f := ⟨0x00A, d.val, a.field, b.field, 0 + a.scPart + b.scPart, c.gp.val, c.gn.toNat, 0, 0, c.tr.toNat, c.ru.toNat, t.code + (if b.isImm = true then 64 else 0)⟩) rfl ?_
  simp only [readF, decodeInt]
  simp [h, scAB_lt h.2, mod_n, Nat.mod_one, rdOff, rdImm?, FWord.Fits, opcAssigned, Bool.toNat_le, FWord.ty, FWord.i, FWord.b, rdCD, rdABC, List.any_append, rdAB_any, rdB_any, rdA_any]
theorem Laws.RoundTrip.shr (c : Ctl) (t : BitTy) (d : VReg) (a b : Src) : Statement (.shr c t d a b) := by
  intro _ h
  replace h : (c.ok true true && wfD t.regs d && wfAB true t.regs 1 false a b) = true := h
  simp only [Bool.and_eq_true, wfD, beq_iff_eq] at h
  refine reads_of (f := ⟨0x00B, d.val, a.field, b.field, 0 + a.scPart + b.scPart, c.gp.val, c.gn.toNat, 0, 0, c.tr.toNat, c.ru.toNat, t.code + (if b.isImm = true then 64 else 0)⟩) rfl ?_
  simp only [readF, decodeInt]
  simp [h, scAB_lt h.2, mod_n, Nat.mod_one, rdOff, rdImm?, FWord.Fits, opcAssigned, Bool.toNat_le, FWord.ty, FWord.i, FWord.b, rdCD, rdABC, List.any_append, rdAB_any, rdB_any, rdA_any]
theorem Laws.RoundTrip.sar (c : Ctl) (t : BitTy) (d : VReg) (a b : Src) : Statement (.sar c t d a b) := by
  intro _ h
  replace h : (c.ok true true && wfD t.regs d && wfAB true t.regs 1 false a b) = true := h
  simp only [Bool.and_eq_true, wfD, beq_iff_eq] at h
  refine reads_of (f := ⟨0x00C, d.val, a.field, b.field, 0 + a.scPart + b.scPart, c.gp.val, c.gn.toNat, 0, 0, c.tr.toNat, c.ru.toNat, t.code + (if b.isImm = true then 64 else 0)⟩) rfl ?_
  simp only [readF, decodeInt]
  simp [h, scAB_lt h.2, mod_n, Nat.mod_one, rdOff, rdImm?, FWord.Fits, opcAssigned, Bool.toNat_le, FWord.ty, FWord.i, FWord.b, rdCD, rdABC, List.any_append, rdAB_any, rdB_any, rdA_any]
theorem Laws.RoundTrip.rot (c : Ctl) (t : BitTy) (d : VReg) (a b : Src) : Statement (.rot c t d a b) := by
  intro _ h
  replace h : (c.ok true true && wfD t.regs d && wfAB true t.regs 1 false a b) = true := h
  simp only [Bool.and_eq_true, wfD, beq_iff_eq] at h
  refine reads_of (f := ⟨0x00D, d.val, a.field, b.field, 0 + a.scPart + b.scPart, c.gp.val, c.gn.toNat, 0, 0, c.tr.toNat, c.ru.toNat, t.code + (if b.isImm = true then 64 else 0)⟩) rfl ?_
  simp only [readF, decodeInt]
  simp [h, scAB_lt h.2, mod_n, Nat.mod_one, rdOff, rdImm?, FWord.Fits, opcAssigned, Bool.toNat_le, FWord.ty, FWord.i, FWord.b, rdCD, rdABC, List.any_append, rdAB_any, rdB_any, rdA_any]
theorem Laws.RoundTrip.bfe (c : Ctl) (t : IntTy) (d : VReg) (a b : Src) : Statement (.bfe c t d a b) := by
  intro _ h
  replace h : (c.ok true true && wfD t.regs d && wfAB true t.regs 1 false a b) = true := h
  simp only [Bool.and_eq_true, wfD, beq_iff_eq] at h
  refine reads_of (f := ⟨0x00E, d.val, a.field, b.field, 0 + a.scPart + b.scPart, c.gp.val, c.gn.toNat, 0, 0, c.tr.toNat, c.ru.toNat, t.code + (if b.isImm = true then 64 else 0)⟩) rfl ?_
  simp only [readF, decodeInt]
  simp [h, scAB_lt h.2, mod_n, Nat.mod_one, rdOff, rdImm?, FWord.Fits, opcAssigned, Bool.toNat_le, FWord.ty, FWord.i, FWord.b, rdCD, rdABC, List.any_append, rdAB_any, rdB_any, rdA_any]
theorem Laws.RoundTrip.bfi (c : Ctl) (t : BitTy) (d : VReg) (a b e : Src) : Statement (.bfi c t d a b e) := by
  intro _ h
  replace h : (c.ok true true && wfD t.regs d && wfN t.regs false a && wfN t.regs false b && wfN 1 false e) = true := h
  simp only [Bool.and_eq_true, wfD, beq_iff_eq] at h
  refine reads_of (f := ⟨0x00F, d.val, a.field, b.field, e.field, c.gp.val, c.gn.toNat, 0, 0, c.tr.toNat, c.ru.toNat, t.code + (if b.isImm = true then 64 else 0)⟩) rfl ?_
  simp only [readF, decodeInt]
  simp [h, wfN_imm h.1.2, mod_n, Nat.mod_one, rdOff, rdImm?, FWord.Fits, opcAssigned, Bool.toNat_le, FWord.ty, FWord.i, FWord.b, rdCD, rdABC, List.any_append, rdAB_any, rdB_any, rdA_any]
theorem Laws.RoundTrip.popc (c : Ctl) (t : BitTy) (d : VReg) (b : Src) : Statement (.popc c t d b) := by
  intro _ h
  replace h : (c.ok true true && wfB t.regs false b) = true := h
  simp only [Bool.and_eq_true] at h
  refine reads_of (f := ⟨0x010, d.val, 0, b.field, 0 + b.scPart, c.gp.val, c.gn.toNat, 0, 0, c.tr.toNat, c.ru.toNat, t.code + (if b.isImm = true then 64 else 0)⟩) rfl ?_
  simp only [readF, decodeInt]
  simp [h, wfB_imm h.2, mod_n, Nat.mod_one, rdOff, rdImm?, FWord.Fits, opcAssigned, Bool.toNat_le, FWord.ty, FWord.i, FWord.b, rdCD, rdABC, List.any_append, rdAB_any, rdB_any, rdA_any]
theorem Laws.RoundTrip.clz (c : Ctl) (t : BitTy) (d : VReg) (b : Src) : Statement (.clz c t d b) := by
  intro _ h
  replace h : (c.ok true true && wfB t.regs false b) = true := h
  simp only [Bool.and_eq_true] at h
  refine reads_of (f := ⟨0x011, d.val, 0, b.field, 0 + b.scPart, c.gp.val, c.gn.toNat, 0, 0, c.tr.toNat, c.ru.toNat, t.code + (if b.isImm = true then 64 else 0)⟩) rfl ?_
  simp only [readF, decodeInt]
  simp [h, wfB_imm h.2, mod_n, Nat.mod_one, rdOff, rdImm?, FWord.Fits, opcAssigned, Bool.toNat_le, FWord.ty, FWord.i, FWord.b, rdCD, rdABC, List.any_append, rdAB_any, rdB_any, rdA_any]
theorem Laws.RoundTrip.ctz (c : Ctl) (t : BitTy) (d : VReg) (b : Src) : Statement (.ctz c t d b) := by
  intro _ h
  replace h : (c.ok true true && wfB t.regs false b) = true := h
  simp only [Bool.and_eq_true] at h
  refine reads_of (f := ⟨0x012, d.val, 0, b.field, 0 + b.scPart, c.gp.val, c.gn.toNat, 0, 0, c.tr.toNat, c.ru.toNat, t.code + (if b.isImm = true then 64 else 0)⟩) rfl ?_
  simp only [readF, decodeInt]
  simp [h, wfB_imm h.2, mod_n, Nat.mod_one, rdOff, rdImm?, FWord.Fits, opcAssigned, Bool.toNat_le, FWord.ty, FWord.i, FWord.b, rdCD, rdABC, List.any_append, rdAB_any, rdB_any, rdA_any]
theorem Laws.RoundTrip.brev (c : Ctl) (t : BitTy) (d : VReg) (b : Src) : Statement (.brev c t d b) := by
  intro _ h
  replace h : (c.ok true true && wfD t.regs d && wfB t.regs false b) = true := h
  simp only [Bool.and_eq_true, wfD, beq_iff_eq] at h
  refine reads_of (f := ⟨0x013, d.val, 0, b.field, 0 + b.scPart, c.gp.val, c.gn.toNat, 0, 0, c.tr.toNat, c.ru.toNat, t.code + (if b.isImm = true then 64 else 0)⟩) rfl ?_
  simp only [readF, decodeInt]
  simp [h, wfB_imm h.2, mod_n, Nat.mod_one, rdOff, rdImm?, FWord.Fits, opcAssigned, Bool.toNat_le, FWord.ty, FWord.i, FWord.b, rdCD, rdABC, List.any_append, rdAB_any, rdB_any, rdA_any]
theorem Laws.RoundTrip.permb (c : Ctl) (d : VReg) (a b e : Src) : Statement (.permb c d a b e) := by
  intro _ h
  replace h : (c.ok true true && wfN 1 false a && wfN 1 false b && wfN 1 false e) = true := h
  simp only [Bool.and_eq_true] at h
  refine reads_of (f := ⟨0x014, d.val, a.field, b.field, e.field, c.gp.val, c.gn.toNat, 0, 0, c.tr.toNat, c.ru.toNat, 0 + (if b.isImm = true then 64 else 0)⟩) rfl ?_
  simp only [readF, decodeInt]
  simp [h, wfN_imm h.1.2, mod_n, Nat.mod_one, rdOff, rdImm?, FWord.Fits, opcAssigned, Bool.toNat_le, FWord.ty, FWord.i, FWord.b, rdCD, rdABC, List.any_append, rdAB_any, rdB_any, rdA_any]
theorem Laws.RoundTrip.and (c : Ctl) (t : BitTy) (d : VReg) (a b : Src) : Statement (.and c t d a b) := by
  intro _ h
  replace h : (c.ok true true && wfD t.regs d && wfAB true t.regs t.regs false a b) = true := h
  simp only [Bool.and_eq_true, wfD, beq_iff_eq] at h
  refine reads_of (f := ⟨0x015, d.val, a.field, b.field, 0 + a.scPart + b.scPart, c.gp.val, c.gn.toNat, 0, 0, c.tr.toNat, c.ru.toNat, t.code + (if b.isImm = true then 64 else 0)⟩) rfl ?_
  simp only [readF, decodeInt]
  simp [h, scAB_lt h.2, mod_n, Nat.mod_one, rdOff, rdImm?, FWord.Fits, opcAssigned, Bool.toNat_le, FWord.ty, FWord.i, FWord.b, rdCD, rdABC, List.any_append, rdAB_any, rdB_any, rdA_any]
theorem Laws.RoundTrip.or (c : Ctl) (t : BitTy) (d : VReg) (a b : Src) : Statement (.or c t d a b) := by
  intro _ h
  replace h : (c.ok true true && wfD t.regs d && wfAB true t.regs t.regs false a b) = true := h
  simp only [Bool.and_eq_true, wfD, beq_iff_eq] at h
  refine reads_of (f := ⟨0x016, d.val, a.field, b.field, 0 + a.scPart + b.scPart, c.gp.val, c.gn.toNat, 0, 0, c.tr.toNat, c.ru.toNat, t.code + (if b.isImm = true then 64 else 0)⟩) rfl ?_
  simp only [readF, decodeInt]
  simp [h, scAB_lt h.2, mod_n, Nat.mod_one, rdOff, rdImm?, FWord.Fits, opcAssigned, Bool.toNat_le, FWord.ty, FWord.i, FWord.b, rdCD, rdABC, List.any_append, rdAB_any, rdB_any, rdA_any]
theorem Laws.RoundTrip.xor (c : Ctl) (t : BitTy) (d : VReg) (a b : Src) : Statement (.xor c t d a b) := by
  intro _ h
  replace h : (c.ok true true && wfD t.regs d && wfAB true t.regs t.regs false a b) = true := h
  simp only [Bool.and_eq_true, wfD, beq_iff_eq] at h
  refine reads_of (f := ⟨0x017, d.val, a.field, b.field, 0 + a.scPart + b.scPart, c.gp.val, c.gn.toNat, 0, 0, c.tr.toNat, c.ru.toNat, t.code + (if b.isImm = true then 64 else 0)⟩) rfl ?_
  simp only [readF, decodeInt]
  simp [h, scAB_lt h.2, mod_n, Nat.mod_one, rdOff, rdImm?, FWord.Fits, opcAssigned, Bool.toNat_le, FWord.ty, FWord.i, FWord.b, rdCD, rdABC, List.any_append, rdAB_any, rdB_any, rdA_any]
theorem Laws.RoundTrip.not (c : Ctl) (t : BitTy) (d : VReg) (b : Src) : Statement (.not c t d b) := by
  intro _ h
  replace h : (c.ok true true && wfD t.regs d && wfB t.regs false b) = true := h
  simp only [Bool.and_eq_true, wfD, beq_iff_eq] at h
  refine reads_of (f := ⟨0x018, d.val, 0, b.field, 0 + b.scPart, c.gp.val, c.gn.toNat, 0, 0, c.tr.toNat, c.ru.toNat, t.code + (if b.isImm = true then 64 else 0)⟩) rfl ?_
  simp only [readF, decodeInt]
  simp [h, wfB_imm h.2, mod_n, Nat.mod_one, rdOff, rdImm?, FWord.Fits, opcAssigned, Bool.toNat_le, FWord.ty, FWord.i, FWord.b, rdCD, rdABC, List.any_append, rdAB_any, rdB_any, rdA_any]
theorem Laws.RoundTrip.andn (c : Ctl) (t : BitTy) (d : VReg) (a b : Src) : Statement (.andn c t d a b) := by
  intro _ h
  replace h : (c.ok true true && wfD t.regs d && wfAB true t.regs t.regs false a b) = true := h
  simp only [Bool.and_eq_true, wfD, beq_iff_eq] at h
  refine reads_of (f := ⟨0x019, d.val, a.field, b.field, 0 + a.scPart + b.scPart, c.gp.val, c.gn.toNat, 0, 0, c.tr.toNat, c.ru.toNat, t.code + (if b.isImm = true then 64 else 0)⟩) rfl ?_
  simp only [readF, decodeInt]
  simp [h, scAB_lt h.2, mod_n, Nat.mod_one, rdOff, rdImm?, FWord.Fits, opcAssigned, Bool.toNat_le, FWord.ty, FWord.i, FWord.b, rdCD, rdABC, List.any_append, rdAB_any, rdB_any, rdA_any]
theorem Laws.RoundTrip.sel (c : Ctl) (t : BitTy) (d : VReg) (a b : Src) (p : Pred) : Statement (.sel c t d a b p) := by
  intro _ h
  replace h : (c.ok true true && wfD t.regs d && wfN t.regs false a && wfN t.regs false b) = true := h
  simp only [Bool.and_eq_true, wfD, beq_iff_eq] at h
  refine reads_of (f := ⟨0x01A, d.val, a.field, b.field, p.val, c.gp.val, c.gn.toNat, 0, 0, c.tr.toNat, c.ru.toNat, t.code + (if b.isImm = true then 64 else 0)⟩) rfl ?_
  simp only [readF, decodeInt]
  simp [h, wfN_imm h.2, mod_n, Nat.mod_one, rdOff, rdImm?, FWord.Fits, opcAssigned, Bool.toNat_le, FWord.ty, FWord.i, FWord.b, rdCD, rdABC, List.any_append, rdAB_any, rdB_any, rdA_any]
theorem Laws.RoundTrip.addr (c : Ctl) (sg : Bool) (d : VReg) (a b : Src) (sh : Fin 8) : Statement (.addr c sg d a b sh) := by
  intro _ h
  replace h : (c.ok true true && wfD 2 d && wfN 2 false a && wfN 1 false b) = true := h
  simp only [Bool.and_eq_true, wfD, beq_iff_eq] at h
  refine reads_of (f := ⟨0x01B, d.val, a.field, b.field, sh.val, c.gp.val, c.gn.toNat, 0, 0, c.tr.toNat, c.ru.toNat, sgCode sg + (if b.isImm = true then 64 else 0)⟩) rfl ?_
  simp only [readF, decodeInt]
  simp [h, wfN_imm h.2, mod_n, Nat.mod_one, rdOff, rdImm?, FWord.Fits, opcAssigned, Bool.toNat_le, FWord.ty, FWord.i, FWord.b, rdCD, rdABC, List.any_append, rdAB_any, rdB_any, rdA_any]
theorem Laws.RoundTrip.cmp (c : Ctl) (cc : Cc) (t : CmpTy) (p : Pred) (a b : Src) : Statement (.cmp c cc t p a b) := by
  intro _ h
  replace h : (c.ok false true && wfAB true t.regs t.regs false a b) = true := h
  simp only [Bool.and_eq_true] at h
  refine reads_of (f := ⟨0x01C, p.val, a.field, b.field, 0 + a.scPart + b.scPart, c.gp.val, c.gn.toNat, cc.code, 0, c.tr.toNat, c.ru.toNat, t.code + (if b.isImm = true then 64 else 0)⟩) rfl ?_
  simp only [readF, decodeInt]
  simp [h, scAB_lt h.2, ctl_tr h.1, mod_n, Nat.mod_one, rdOff, rdImm?, FWord.Fits, opcAssigned, Bool.toNat_le, FWord.ty, FWord.i, FWord.b, rdCD, rdABC, List.any_append, rdAB_any, rdB_any, rdA_any]
theorem Laws.RoundTrip.pand (c : Ctl) (na nb : Bool) (d a b : Pred) : Statement (.pand c na nb d a b) := by
  intro _ h
  replace h : (c.ok false false) = true := h
  refine reads_of (f := ⟨0x01D, d.val, a.val, b.val, 0, c.gp.val, c.gn.toNat, 0, 0, c.tr.toNat, c.ru.toNat, flag na 1 + flag nb 2⟩) rfl ?_
  simp only [readF, decodeInt]
  cases na <;> cases nb <;> simp [h, ctl_tr h, ctl_ru h, Nat.testBit, mod_n, Nat.mod_one, rdOff, rdImm?, FWord.Fits, opcAssigned, Bool.toNat_le, FWord.ty, FWord.i, FWord.b, rdCD, rdABC, List.any_append, rdAB_any, rdB_any, rdA_any]
theorem Laws.RoundTrip.por (c : Ctl) (na nb : Bool) (d a b : Pred) : Statement (.por c na nb d a b) := by
  intro _ h
  replace h : (c.ok false false) = true := h
  refine reads_of (f := ⟨0x01E, d.val, a.val, b.val, 0, c.gp.val, c.gn.toNat, 0, 0, c.tr.toNat, c.ru.toNat, flag na 1 + flag nb 2⟩) rfl ?_
  simp only [readF, decodeInt]
  cases na <;> cases nb <;> simp [h, ctl_tr h, ctl_ru h, Nat.testBit, mod_n, Nat.mod_one, rdOff, rdImm?, FWord.Fits, opcAssigned, Bool.toNat_le, FWord.ty, FWord.i, FWord.b, rdCD, rdABC, List.any_append, rdAB_any, rdB_any, rdA_any]
theorem Laws.RoundTrip.pxor (c : Ctl) (na nb : Bool) (d a b : Pred) : Statement (.pxor c na nb d a b) := by
  intro _ h
  replace h : (c.ok false false) = true := h
  refine reads_of (f := ⟨0x01F, d.val, a.val, b.val, 0, c.gp.val, c.gn.toNat, 0, 0, c.tr.toNat, c.ru.toNat, flag na 1 + flag nb 2⟩) rfl ?_
  simp only [readF, decodeInt]
  cases na <;> cases nb <;> simp [h, ctl_tr h, ctl_ru h, Nat.testBit, mod_n, Nat.mod_one, rdOff, rdImm?, FWord.Fits, opcAssigned, Bool.toNat_le, FWord.ty, FWord.i, FWord.b, rdCD, rdABC, List.any_append, rdAB_any, rdB_any, rdA_any]
theorem Laws.RoundTrip.pnot (c : Ctl) (d b : Pred) : Statement (.pnot c d b) := by
  intro _ h
  replace h : (c.ok false false) = true := h
  refine reads_of (f := ⟨0x020, d.val, 0, b.val, 0, c.gp.val, c.gn.toNat, 0, 0, c.tr.toNat, c.ru.toNat, 0⟩) rfl ?_
  simp only [readF, decodeInt]
  simp [h, ctl_tr h, ctl_ru h, mod_n, Nat.mod_one, rdOff, rdImm?, FWord.Fits, opcAssigned, Bool.toNat_le, FWord.ty, FWord.i, FWord.b, rdCD, rdABC, List.any_append, rdAB_any, rdB_any, rdA_any]
theorem Laws.RoundTrip.pmov (c : Ctl) (d b : Pred) : Statement (.pmov c d b) := by
  intro _ h
  replace h : (c.ok false false) = true := h
  refine reads_of (f := ⟨0x021, d.val, 0, b.val, 0, c.gp.val, c.gn.toNat, 0, 0, c.tr.toNat, c.ru.toNat, 0⟩) rfl ?_
  simp only [readF, decodeInt]
  simp [h, ctl_tr h, ctl_ru h, mod_n, Nat.mod_one, rdOff, rdImm?, FWord.Fits, opcAssigned, Bool.toNat_le, FWord.ty, FWord.i, FWord.b, rdCD, rdABC, List.any_append, rdAB_any, rdB_any, rdA_any]
theorem Laws.RoundTrip.mov (c : Ctl) (t : BitTy) (d : VReg) (b : Src) : Statement (.mov c t d b) := by
  intro _ h
  replace h : (c.ok true true && wfD t.regs d && wfB t.regs false b) = true := h
  simp only [Bool.and_eq_true, wfD, beq_iff_eq] at h
  refine reads_of (f := ⟨0x022, d.val, 0, b.field, 0 + b.scPart, c.gp.val, c.gn.toNat, 0, 0, c.tr.toNat, c.ru.toNat, t.code + (if b.isImm = true then 64 else 0)⟩) rfl ?_
  simp only [readF, decodeInt]
  simp [h, wfB_imm h.2, mod_n, Nat.mod_one, rdOff, rdImm?, FWord.Fits, opcAssigned, Bool.toNat_le, FWord.ty, FWord.i, FWord.b, rdCD, rdABC, List.any_append, rdAB_any, rdB_any, rdA_any]
theorem Laws.RoundTrip.movi (c : Ctl) (t : MoviTy) (d : VReg) (v : BitVec 16) : Statement (.movi c t d v) := by
  intro _ h
  replace h : (c.ok true false) = true := h
  refine reads_of (f := ⟨0x023, d.val, 0, v.toNat / 256, v.toNat % 256, c.gp.val, c.gn.toNat, 0, 0, c.tr.toNat, c.ru.toNat, t.code + 64⟩) rfl ?_
  simp only [readF, decodeInt]
  cases t <;> simp [h, ctl_ru h, MoviTy.code, moviTyOf, rdTable, Nat.testBit, mod_n, Nat.mod_one, rdOff, rdImm?, FWord.Fits, opcAssigned, Bool.toNat_le, FWord.ty, FWord.i, FWord.b, rdCD, rdABC, List.any_append, rdAB_any, rdB_any, rdA_any]
theorem Laws.RoundTrip.fadd (c : Ctl) (rm : Rm) (t : FltTy) (d : VReg) (a b : Src) : Statement (.fadd c rm t d a b) := by
  intro _ h
  replace h : (c.ok true true && wfD t.regs d && wfAB true t.regs t.regs false a b) = true := h
  simp only [Bool.and_eq_true, wfD, beq_iff_eq] at h
  refine reads_of (f := ⟨0x080, d.val, a.field, b.field, 0 + a.scPart + b.scPart, c.gp.val, c.gn.toNat, rm.code, 0, c.tr.toNat, c.ru.toNat, t.code + (if b.isImm = true then 64 else 0)⟩) rfl ?_
  simp only [readF, decodeFlt]
  simp [h, scAB_lt h.2, mod_n, Nat.mod_one, rdOff, rdImm?, FWord.Fits, opcAssigned, Bool.toNat_le, FWord.ty, FWord.i, FWord.b, rdCD, rdABC, List.any_append, rdAB_any, rdB_any, rdA_any]
theorem Laws.RoundTrip.fsub (c : Ctl) (rm : Rm) (t : FltTy) (d : VReg) (a b : Src) : Statement (.fsub c rm t d a b) := by
  intro _ h
  replace h : (c.ok true true && wfD t.regs d && wfAB true t.regs t.regs false a b) = true := h
  simp only [Bool.and_eq_true, wfD, beq_iff_eq] at h
  refine reads_of (f := ⟨0x081, d.val, a.field, b.field, 0 + a.scPart + b.scPart, c.gp.val, c.gn.toNat, rm.code, 0, c.tr.toNat, c.ru.toNat, t.code + (if b.isImm = true then 64 else 0)⟩) rfl ?_
  simp only [readF, decodeFlt]
  simp [h, scAB_lt h.2, mod_n, Nat.mod_one, rdOff, rdImm?, FWord.Fits, opcAssigned, Bool.toNat_le, FWord.ty, FWord.i, FWord.b, rdCD, rdABC, List.any_append, rdAB_any, rdB_any, rdA_any]
theorem Laws.RoundTrip.fmul (c : Ctl) (rm : Rm) (t : FltTy) (d : VReg) (a b : Src) : Statement (.fmul c rm t d a b) := by
  intro _ h
  replace h : (c.ok true true && wfD t.regs d && wfAB true t.regs t.regs false a b) = true := h
  simp only [Bool.and_eq_true, wfD, beq_iff_eq] at h
  refine reads_of (f := ⟨0x082, d.val, a.field, b.field, 0 + a.scPart + b.scPart, c.gp.val, c.gn.toNat, rm.code, 0, c.tr.toNat, c.ru.toNat, t.code + (if b.isImm = true then 64 else 0)⟩) rfl ?_
  simp only [readF, decodeFlt]
  simp [h, scAB_lt h.2, mod_n, Nat.mod_one, rdOff, rdImm?, FWord.Fits, opcAssigned, Bool.toNat_le, FWord.ty, FWord.i, FWord.b, rdCD, rdABC, List.any_append, rdAB_any, rdB_any, rdA_any]
theorem Laws.RoundTrip.fdiv (c : Ctl) (rm : Rm) (t : FltTy) (d : VReg) (a b : Src) : Statement (.fdiv c rm t d a b) := by
  intro _ h
  replace h : (c.ok true true && wfD t.regs d && wfAB false t.regs t.regs false a b) = true := h
  simp only [Bool.and_eq_true, wfD, beq_iff_eq] at h
  refine reads_of (f := ⟨0x083, d.val, a.field, b.field, 0 + a.scPart + b.scPart, c.gp.val, c.gn.toNat, rm.code, 0, c.tr.toNat, c.ru.toNat, t.code + (if b.isImm = true then 64 else 0)⟩) rfl ?_
  simp only [readF, decodeFlt]
  simp [h, scAB_lt (wfAB_false h.2).1, (wfAB_false h.2).1, (wfAB_false h.2).2, mod_n, Nat.mod_one, rdOff, rdImm?, FWord.Fits, opcAssigned, Bool.toNat_le, FWord.ty, FWord.i, FWord.b, rdCD, rdABC, List.any_append, rdAB_any, rdB_any, rdA_any]
theorem Laws.RoundTrip.ffma (c : Ctl) (rm : Rm) (t : FltTy) (d : VReg) (a b e : Src) : Statement (.ffma c rm t d a b e) := by
  intro _ h
  replace h : (c.ok true true && wfD t.regs d && wfN t.regs false a && wfN t.regs false b && wfN t.regs false e) = true := h
  simp only [Bool.and_eq_true, wfD, beq_iff_eq] at h
  refine reads_of (f := ⟨0x084, d.val, a.field, b.field, e.field, c.gp.val, c.gn.toNat, rm.code, 0, c.tr.toNat, c.ru.toNat, t.code + (if b.isImm = true then 64 else 0)⟩) rfl ?_
  simp only [readF, decodeFlt]
  simp [h, wfN_imm h.1.2, mod_n, Nat.mod_one, rdOff, rdImm?, FWord.Fits, opcAssigned, Bool.toNat_le, FWord.ty, FWord.i, FWord.b, rdCD, rdABC, List.any_append, rdAB_any, rdB_any, rdA_any]
theorem Laws.RoundTrip.fmin (c : Ctl) (t : FltTy) (d : VReg) (a b : Src) : Statement (.fmin c t d a b) := by
  intro _ h
  replace h : (c.ok true true && wfD t.regs d && wfAB true t.regs t.regs false a b) = true := h
  simp only [Bool.and_eq_true, wfD, beq_iff_eq] at h
  refine reads_of (f := ⟨0x085, d.val, a.field, b.field, 0 + a.scPart + b.scPart, c.gp.val, c.gn.toNat, 0, 0, c.tr.toNat, c.ru.toNat, t.code + (if b.isImm = true then 64 else 0)⟩) rfl ?_
  simp only [readF, decodeFlt]
  simp [h, scAB_lt h.2, mod_n, Nat.mod_one, rdOff, rdImm?, FWord.Fits, opcAssigned, Bool.toNat_le, FWord.ty, FWord.i, FWord.b, rdCD, rdABC, List.any_append, rdAB_any, rdB_any, rdA_any]
theorem Laws.RoundTrip.fmax (c : Ctl) (t : FltTy) (d : VReg) (a b : Src) : Statement (.fmax c t d a b) := by
  intro _ h
  replace h : (c.ok true true && wfD t.regs d && wfAB true t.regs t.regs false a b) = true := h
  simp only [Bool.and_eq_true, wfD, beq_iff_eq] at h
  refine reads_of (f := ⟨0x086, d.val, a.field, b.field, 0 + a.scPart + b.scPart, c.gp.val, c.gn.toNat, 0, 0, c.tr.toNat, c.ru.toNat, t.code + (if b.isImm = true then 64 else 0)⟩) rfl ?_
  simp only [readF, decodeFlt]
  simp [h, scAB_lt h.2, mod_n, Nat.mod_one, rdOff, rdImm?, FWord.Fits, opcAssigned, Bool.toNat_le, FWord.ty, FWord.i, FWord.b, rdCD, rdABC, List.any_append, rdAB_any, rdB_any, rdA_any]
theorem Laws.RoundTrip.fabs (c : Ctl) (t : FltTy) (d : VReg) (b : Src) : Statement (.fabs c t d b) := by
  intro _ h
  replace h : (c.ok true true && wfD t.regs d && wfB t.regs false b) = true := h
  simp only [Bool.and_eq_true, wfD, beq_iff_eq] at h
  refine reads_of (f := ⟨0x087, d.val, 0, b.field, 0 + b.scPart, c.gp.val, c.gn.toNat, 0, 0, c.tr.toNat, c.ru.toNat, t.code + (if b.isImm = true then 64 else 0)⟩) rfl ?_
  simp only [readF, decodeFlt]
  simp [h, wfB_imm h.2, mod_n, Nat.mod_one, rdOff, rdImm?, FWord.Fits, opcAssigned, Bool.toNat_le, FWord.ty, FWord.i, FWord.b, rdCD, rdABC, List.any_append, rdAB_any, rdB_any, rdA_any]
theorem Laws.RoundTrip.fneg (c : Ctl) (t : FltTy) (d : VReg) (b : Src) : Statement (.fneg c t d b) := by
  intro _ h
  replace h : (c.ok true true && wfD t.regs d && wfB t.regs false b) = true := h
  simp only [Bool.and_eq_true, wfD, beq_iff_eq] at h
  refine reads_of (f := ⟨0x088, d.val, 0, b.field, 0 + b.scPart, c.gp.val, c.gn.toNat, 0, 0, c.tr.toNat, c.ru.toNat, t.code + (if b.isImm = true then 64 else 0)⟩) rfl ?_
  simp only [readF, decodeFlt]
  simp [h, wfB_imm h.2, mod_n, Nat.mod_one, rdOff, rdImm?, FWord.Fits, opcAssigned, Bool.toNat_le, FWord.ty, FWord.i, FWord.b, rdCD, rdABC, List.any_append, rdAB_any, rdB_any, rdA_any]
theorem Laws.RoundTrip.fcmp (c : Ctl) (cc : Cc) (t : FltTy) (p : Pred) (a b : Src) : Statement (.fcmp c cc t p a b) := by
  intro _ h
  replace h : (c.ok false true && wfAB true t.regs t.regs false a b) = true := h
  simp only [Bool.and_eq_true] at h
  refine reads_of (f := ⟨0x089, p.val, a.field, b.field, 0 + a.scPart + b.scPart, c.gp.val, c.gn.toNat, cc.code, 0, c.tr.toNat, c.ru.toNat, t.code + (if b.isImm = true then 64 else 0)⟩) rfl ?_
  simp only [readF, decodeFlt]
  simp [h, scAB_lt h.2, ctl_tr h.1, mod_n, Nat.mod_one, rdOff, rdImm?, FWord.Fits, opcAssigned, Bool.toNat_le, FWord.ty, FWord.i, FWord.b, rdCD, rdABC, List.any_append, rdAB_any, rdB_any, rdA_any]
theorem Laws.RoundTrip.fclass (c : Ctl) (t : Fmt) (p : Pred) (a b : Src) : Statement (.fclass c t p a b) := by
  intro _ h
  replace h : (c.ok false true && wfAB true t.regs 1 false a b && a.constOk t.noConst) = true := h
  simp only [Bool.and_eq_true] at h
  refine reads_of (f := ⟨0x08A, p.val, a.field, b.field, 0 + a.scPart + b.scPart, c.gp.val, c.gn.toNat, 0, 0, c.tr.toNat, c.ru.toNat, t.code + (if b.isImm = true then 64 else 0)⟩) rfl ?_
  simp only [readF, decodeFlt]
  have q := src2_ok (f := ⟨0x08A, p.val, a.field, b.field, a.scPart + b.scPart, c.gp.val, c.gn.toNat, 0, 0, 0, c.ru.toNat, t.code + (if b.isImm = true then 64 else 0)⟩) rfl rfl rfl h.1.2 h.2
  simp at q
  simp [h, scAB_lt h.1.2, ctl_tr h.1.1, q, mod_n, Nat.mod_one, rdOff, rdImm?, FWord.Fits, opcAssigned, Bool.toNat_le, FWord.ty, FWord.i, FWord.b, rdCD, rdABC, List.any_append, rdAB_any, rdB_any, rdA_any]
theorem Laws.RoundTrip.frnd (c : Ctl) (rm : Rm) (t : FltTy) (d : VReg) (b : Src) : Statement (.frnd c rm t d b) := by
  intro _ h
  replace h : (c.ok true true && rm.upTo5 && wfD t.regs d && wfB t.regs false b) = true := h
  simp only [Bool.and_eq_true, wfD, beq_iff_eq] at h
  refine reads_of (f := ⟨0x08B, d.val, 0, b.field, 0 + b.scPart, c.gp.val, c.gn.toNat, rm.code, 0, c.tr.toNat, c.ru.toNat, t.code + (if b.isImm = true then 64 else 0)⟩) rfl ?_
  simp only [readF, decodeFlt]
  simp [h, wfB_imm h.2, mod_n, Nat.mod_one, rdOff, rdImm?, FWord.Fits, opcAssigned, Bool.toNat_le, FWord.ty, FWord.i, FWord.b, rdCD, rdABC, List.any_append, rdAB_any, rdB_any, rdA_any]
theorem Laws.RoundTrip.fscale (c : Ctl) (rm : Rm) (t : FltTy) (d : VReg) (a b : Src) : Statement (.fscale c rm t d a b) := by
  intro _ h
  replace h : (c.ok true true && wfD t.regs d && wfAB true t.regs 1 false a b) = true := h
  simp only [Bool.and_eq_true, wfD, beq_iff_eq] at h
  refine reads_of (f := ⟨0x08C, d.val, a.field, b.field, 0 + a.scPart + b.scPart, c.gp.val, c.gn.toNat, rm.code, 0, c.tr.toNat, c.ru.toNat, t.code + (if b.isImm = true then 64 else 0)⟩) rfl ?_
  simp only [readF, decodeFlt]
  simp [h, scAB_lt h.2, mod_n, Nat.mod_one, rdOff, rdImm?, FWord.Fits, opcAssigned, Bool.toNat_le, FWord.ty, FWord.i, FWord.b, rdCD, rdABC, List.any_append, rdAB_any, rdB_any, rdA_any]
theorem Laws.RoundTrip.fdot2 (c : Ctl) (rm : Rm) (t : HlfTy) (d : VReg) (a b e : Src) : Statement (.fdot2 c rm t d a b e) := by
  intro _ h
  replace h : (c.ok true true && wfN 1 false a && wfN 1 false b && wfN 1 false e) = true := h
  simp only [Bool.and_eq_true] at h
  refine reads_of (f := ⟨0x08D, d.val, a.field, b.field, e.field, c.gp.val, c.gn.toNat, rm.code, 0, c.tr.toNat, c.ru.toNat, t.code + (if b.isImm = true then 64 else 0)⟩) rfl ?_
  simp only [readF, decodeFlt]
  simp [h, wfN_imm h.1.2, mod_n, Nat.mod_one, rdOff, rdImm?, FWord.Fits, opcAssigned, Bool.toNat_le, FWord.ty, FWord.i, FWord.b, rdCD, rdABC, List.any_append, rdAB_any, rdB_any, rdA_any]
theorem Laws.RoundTrip.fadd2 (c : Ctl) (rm : Rm) (t : HlfTy) (d : VReg) (a b : Src) : Statement (.fadd2 c rm t d a b) := by
  intro _ h
  replace h : (c.ok true true && wfAB true 1 1 false a b) = true := h
  simp only [Bool.and_eq_true] at h
  refine reads_of (f := ⟨0x08E, d.val, a.field, b.field, 0 + a.scPart + b.scPart, c.gp.val, c.gn.toNat, rm.code, 0, c.tr.toNat, c.ru.toNat, t.code + (if b.isImm = true then 64 else 0)⟩) rfl ?_
  simp only [readF, decodeFlt]
  simp [h, scAB_lt h.2, mod_n, Nat.mod_one, rdOff, rdImm?, FWord.Fits, opcAssigned, Bool.toNat_le, FWord.ty, FWord.i, FWord.b, rdCD, rdABC, List.any_append, rdAB_any, rdB_any, rdA_any]
theorem Laws.RoundTrip.fmul2 (c : Ctl) (rm : Rm) (t : HlfTy) (d : VReg) (a b : Src) : Statement (.fmul2 c rm t d a b) := by
  intro _ h
  replace h : (c.ok true true && wfAB true 1 1 false a b) = true := h
  simp only [Bool.and_eq_true] at h
  refine reads_of (f := ⟨0x08F, d.val, a.field, b.field, 0 + a.scPart + b.scPart, c.gp.val, c.gn.toNat, rm.code, 0, c.tr.toNat, c.ru.toNat, t.code + (if b.isImm = true then 64 else 0)⟩) rfl ?_
  simp only [readF, decodeFlt]
  simp [h, scAB_lt h.2, mod_n, Nat.mod_one, rdOff, rdImm?, FWord.Fits, opcAssigned, Bool.toNat_le, FWord.ty, FWord.i, FWord.b, rdCD, rdABC, List.any_append, rdAB_any, rdB_any, rdA_any]
theorem Laws.RoundTrip.ffma2 (c : Ctl) (rm : Rm) (t : HlfTy) (d : VReg) (a b e : Src) : Statement (.ffma2 c rm t d a b e) := by
  intro _ h
  replace h : (c.ok true true && wfN 1 false a && wfN 1 false b && wfN 1 false e) = true := h
  simp only [Bool.and_eq_true] at h
  refine reads_of (f := ⟨0x090, d.val, a.field, b.field, e.field, c.gp.val, c.gn.toNat, rm.code, 0, c.tr.toNat, c.ru.toNat, t.code + (if b.isImm = true then 64 else 0)⟩) rfl ?_
  simp only [readF, decodeFlt]
  simp [h, wfN_imm h.1.2, mod_n, Nat.mod_one, rdOff, rdImm?, FWord.Fits, opcAssigned, Bool.toNat_le, FWord.ty, FWord.i, FWord.b, rdCD, rdABC, List.any_append, rdAB_any, rdB_any, rdA_any]
theorem Laws.RoundTrip.fmin2 (c : Ctl) (t : HlfTy) (d : VReg) (a b : Src) : Statement (.fmin2 c t d a b) := by
  intro _ h
  replace h : (c.ok true true && wfAB true 1 1 false a b) = true := h
  simp only [Bool.and_eq_true] at h
  refine reads_of (f := ⟨0x091, d.val, a.field, b.field, 0 + a.scPart + b.scPart, c.gp.val, c.gn.toNat, 0, 0, c.tr.toNat, c.ru.toNat, t.code + (if b.isImm = true then 64 else 0)⟩) rfl ?_
  simp only [readF, decodeFlt]
  simp [h, scAB_lt h.2, mod_n, Nat.mod_one, rdOff, rdImm?, FWord.Fits, opcAssigned, Bool.toNat_le, FWord.ty, FWord.i, FWord.b, rdCD, rdABC, List.any_append, rdAB_any, rdB_any, rdA_any]
theorem Laws.RoundTrip.fmax2 (c : Ctl) (t : HlfTy) (d : VReg) (a b : Src) : Statement (.fmax2 c t d a b) := by
  intro _ h
  replace h : (c.ok true true && wfAB true 1 1 false a b) = true := h
  simp only [Bool.and_eq_true] at h
  refine reads_of (f := ⟨0x092, d.val, a.field, b.field, 0 + a.scPart + b.scPart, c.gp.val, c.gn.toNat, 0, 0, c.tr.toNat, c.ru.toNat, t.code + (if b.isImm = true then 64 else 0)⟩) rfl ?_
  simp only [readF, decodeFlt]
  simp [h, scAB_lt h.2, mod_n, Nat.mod_one, rdOff, rdImm?, FWord.Fits, opcAssigned, Bool.toNat_le, FWord.ty, FWord.i, FWord.b, rdCD, rdABC, List.any_append, rdAB_any, rdB_any, rdA_any]
theorem Laws.RoundTrip.fcvt (c : Ctl) (rm : Rm) (sat : Bool) (td ts : Fmt) (d : VReg) (b : Src) : Statement (.fcvt c rm sat td ts d b) := by
  intro _ h
  replace h : (c.ok true true && wfD td.regs d && wfN ts.regs ts.noConst b) = true := h
  simp only [Bool.and_eq_true, wfD, beq_iff_eq] at h
  refine reads_of (f := ⟨0x093, d.val, 0, b.field, ts.code, c.gp.val, c.gn.toNat, rm.code, 0, c.tr.toNat, c.ru.toNat, flag sat 32 + td.code + (if b.isImm = true then 64 else 0)⟩) rfl ?_
  simp only [readF, decodeFlt]
  simp [h, wfN_imm h.2, mod_n, Nat.mod_one, rdOff, rdImm?, FWord.Fits, opcAssigned, Bool.toNat_le, FWord.ty, FWord.i, FWord.b, rdCD, rdABC, List.any_append, rdAB_any, rdB_any, rdA_any]
theorem Laws.RoundTrip.fcvti (c : Ctl) (rm : Rm) (td : CvtInt) (ts : Fmt) (d : VReg) (b : Src) : Statement (.fcvti c rm td ts d b) := by
  intro _ h
  replace h : (c.ok true true && rm.upTo6 && !ts.noConst && wfD td.regs d && wfN ts.regs false b) = true := h
  simp only [Bool.and_eq_true, wfD, beq_iff_eq, Bool.not_eq_true'] at h
  refine reads_of (f := ⟨0x094, d.val, 0, b.field, ts.code, c.gp.val, c.gn.toNat, rm.code, 0, c.tr.toNat, c.ru.toNat, td.code + (if b.isImm = true then 64 else 0)⟩) rfl ?_
  simp only [readF, decodeFlt]
  simp [h, wfN_imm h.2, noConst_read h.1.1.2, mod_n, Nat.mod_one, rdOff, rdImm?, FWord.Fits, opcAssigned, Bool.toNat_le, FWord.ty, FWord.i, FWord.b, rdCD, rdABC, List.any_append, rdAB_any, rdB_any, rdA_any]
theorem Laws.RoundTrip.icvtf (c : Ctl) (rm : Rm) (sat : Bool) (td : Fmt) (ts : CvtInt) (d : VReg) (b : Src) : Statement (.icvtf c rm sat td ts d b) := by
  intro _ h
  replace h : (c.ok true true && wfD td.regs d && wfN ts.regs false b) = true := h
  simp only [Bool.and_eq_true, wfD, beq_iff_eq] at h
  refine reads_of (f := ⟨0x095, d.val, 0, b.field, ts.code, c.gp.val, c.gn.toNat, rm.code, 0, c.tr.toNat, c.ru.toNat, flag sat 32 + td.code + (if b.isImm = true then 64 else 0)⟩) rfl ?_
  simp only [readF, decodeFlt]
  simp [h, wfN_imm h.2, mod_n, Nat.mod_one, rdOff, rdImm?, FWord.Fits, opcAssigned, Bool.toNat_le, FWord.ty, FWord.i, FWord.b, rdCD, rdABC, List.any_append, rdAB_any, rdB_any, rdA_any]
theorem Laws.RoundTrip.cvtq (c : Ctl) (rm : Rm) (fs : Fin 8) (d a : VReg) (b : Src) : Statement (.cvtq c rm fs d a b) := by
  intro _ h
  replace h : (c.ok false true && b.aligned 1) = true := h
  simp only [Bool.and_eq_true] at h
  refine reads_of (f := ⟨0x096, d.val, a.val, b.field, 0 + b.scPart, c.gp.val, c.gn.toNat, rm.code, fs.val, c.tr.toNat, c.ru.toNat, 15 + (if b.isImm = true then 64 else 0)⟩) rfl ?_
  simp only [readF, decodeFlt]
  simp [h, ctl_tr h.1, srcQ_ok (f := ⟨0x096, d.val, a.val, b.field, b.scPart, c.gp.val, c.gn.toNat, rm.code, fs.val, 0, c.ru.toNat, 15 + (if b.isImm = true then 64 else 0)⟩) rfl rfl h.2, mod_n, Nat.mod_one, rdOff, rdImm?, FWord.Fits, opcAssigned, Bool.toNat_le, FWord.ty, FWord.i, FWord.b, rdCD, rdABC, List.any_append, rdAB_any, rdB_any, rdA_any]
theorem Laws.RoundTrip.cvtdq (c : Ctl) (rm : Rm) (fs : Fin 8) (d : VReg) (a b : Src) : Statement (.cvtdq c rm fs d a b) := by
  intro _ h
  replace h : (c.ok false true && wfAB true 1 1 false a b) = true := h
  simp only [Bool.and_eq_true] at h
  refine reads_of (f := ⟨0x097, d.val, a.field, b.field, 0 + a.scPart + b.scPart, c.gp.val, c.gn.toNat, rm.code, fs.val, c.tr.toNat, c.ru.toNat, 15 + (if b.isImm = true then 64 else 0)⟩) rfl ?_
  simp only [readF, decodeFlt]
  simp [h, scAB_lt h.2, ctl_tr h.1, mod_n, Nat.mod_one, rdOff, rdImm?, FWord.Fits, opcAssigned, Bool.toNat_le, FWord.ty, FWord.i, FWord.b, rdCD, rdABC, List.any_append, rdAB_any, rdB_any, rdA_any]
theorem Laws.RoundTrip.frcp (c : Ctl) (d : VReg) (b : Src) : Statement (.frcp c d b) := by
  intro _ h
  replace h : (c.ok true true && wfB 1 false b) = true := h
  simp only [Bool.and_eq_true] at h
  refine reads_of (f := ⟨0x098, d.val, 0, b.field, 0 + b.scPart, c.gp.val, c.gn.toNat, 0, 0, c.tr.toNat, c.ru.toNat, 15 + (if b.isImm = true then 64 else 0)⟩) rfl ?_
  simp only [readF, decodeFlt]
  simp [h, wfB_imm h.2, mod_n, Nat.mod_one, rdOff, rdImm?, FWord.Fits, opcAssigned, Bool.toNat_le, FWord.ty, FWord.i, FWord.b, rdCD, rdABC, List.any_append, rdAB_any, rdB_any, rdA_any]
theorem Laws.RoundTrip.frsq (c : Ctl) (d : VReg) (b : Src) : Statement (.frsq c d b) := by
  intro _ h
  replace h : (c.ok true true && wfB 1 false b) = true := h
  simp only [Bool.and_eq_true] at h
  refine reads_of (f := ⟨0x099, d.val, 0, b.field, 0 + b.scPart, c.gp.val, c.gn.toNat, 0, 0, c.tr.toNat, c.ru.toNat, 15 + (if b.isImm = true then 64 else 0)⟩) rfl ?_
  simp only [readF, decodeFlt]
  simp [h, wfB_imm h.2, mod_n, Nat.mod_one, rdOff, rdImm?, FWord.Fits, opcAssigned, Bool.toNat_le, FWord.ty, FWord.i, FWord.b, rdCD, rdABC, List.any_append, rdAB_any, rdB_any, rdA_any]
theorem Laws.RoundTrip.fsqrt (c : Ctl) (rm : Rm) (t : FltTy) (d : VReg) (b : Src) : Statement (.fsqrt c rm t d b) := by
  intro _ h
  replace h : (c.ok true true && wfD t.regs d && wfB t.regs false b) = true := h
  simp only [Bool.and_eq_true, wfD, beq_iff_eq] at h
  refine reads_of (f := ⟨0x09A, d.val, 0, b.field, 0 + b.scPart, c.gp.val, c.gn.toNat, rm.code, 0, c.tr.toNat, c.ru.toNat, t.code + (if b.isImm = true then 64 else 0)⟩) rfl ?_
  simp only [readF, decodeFlt]
  simp [h, wfB_imm h.2, mod_n, Nat.mod_one, rdOff, rdImm?, FWord.Fits, opcAssigned, Bool.toNat_le, FWord.ty, FWord.i, FWord.b, rdCD, rdABC, List.any_append, rdAB_any, rdB_any, rdA_any]
theorem Laws.RoundTrip.fexp2 (c : Ctl) (d : VReg) (b : Src) : Statement (.fexp2 c d b) := by
  intro _ h
  replace h : (c.ok true true && wfB 1 false b) = true := h
  simp only [Bool.and_eq_true] at h
  refine reads_of (f := ⟨0x09B, d.val, 0, b.field, 0 + b.scPart, c.gp.val, c.gn.toNat, 0, 0, c.tr.toNat, c.ru.toNat, 15 + (if b.isImm = true then 64 else 0)⟩) rfl ?_
  simp only [readF, decodeFlt]
  simp [h, wfB_imm h.2, mod_n, Nat.mod_one, rdOff, rdImm?, FWord.Fits, opcAssigned, Bool.toNat_le, FWord.ty, FWord.i, FWord.b, rdCD, rdABC, List.any_append, rdAB_any, rdB_any, rdA_any]
theorem Laws.RoundTrip.flog2 (c : Ctl) (d : VReg) (b : Src) : Statement (.flog2 c d b) := by
  intro _ h
  replace h : (c.ok true true && wfB 1 false b) = true := h
  simp only [Bool.and_eq_true] at h
  refine reads_of (f := ⟨0x09C, d.val, 0, b.field, 0 + b.scPart, c.gp.val, c.gn.toNat, 0, 0, c.tr.toNat, c.ru.toNat, 15 + (if b.isImm = true then 64 else 0)⟩) rfl ?_
  simp only [readF, decodeFlt]
  simp [h, wfB_imm h.2, mod_n, Nat.mod_one, rdOff, rdImm?, FWord.Fits, opcAssigned, Bool.toNat_le, FWord.ty, FWord.i, FWord.b, rdCD, rdABC, List.any_append, rdAB_any, rdB_any, rdA_any]
theorem Laws.RoundTrip.fsin (c : Ctl) (d : VReg) (b : Src) : Statement (.fsin c d b) := by
  intro _ h
  replace h : (c.ok true true && wfB 1 false b) = true := h
  simp only [Bool.and_eq_true] at h
  refine reads_of (f := ⟨0x09D, d.val, 0, b.field, 0 + b.scPart, c.gp.val, c.gn.toNat, 0, 0, c.tr.toNat, c.ru.toNat, 15 + (if b.isImm = true then 64 else 0)⟩) rfl ?_
  simp only [readF, decodeFlt]
  simp [h, wfB_imm h.2, mod_n, Nat.mod_one, rdOff, rdImm?, FWord.Fits, opcAssigned, Bool.toNat_le, FWord.ty, FWord.i, FWord.b, rdCD, rdABC, List.any_append, rdAB_any, rdB_any, rdA_any]
theorem Laws.RoundTrip.fcos (c : Ctl) (d : VReg) (b : Src) : Statement (.fcos c d b) := by
  intro _ h
  replace h : (c.ok true true && wfB 1 false b) = true := h
  simp only [Bool.and_eq_true] at h
  refine reads_of (f := ⟨0x09E, d.val, 0, b.field, 0 + b.scPart, c.gp.val, c.gn.toNat, 0, 0, c.tr.toNat, c.ru.toNat, 15 + (if b.isImm = true then 64 else 0)⟩) rfl ?_
  simp only [readF, decodeFlt]
  simp [h, wfB_imm h.2, mod_n, Nat.mod_one, rdOff, rdImm?, FWord.Fits, opcAssigned, Bool.toNat_le, FWord.ty, FWord.i, FWord.b, rdCD, rdABC, List.any_append, rdAB_any, rdB_any, rdA_any]
theorem Laws.RoundTrip.ftanh (c : Ctl) (d : VReg) (b : Src) : Statement (.ftanh c d b) := by
  intro _ h
  replace h : (c.ok true true && wfB 1 false b) = true := h
  simp only [Bool.and_eq_true] at h
  refine reads_of (f := ⟨0x09F, d.val, 0, b.field, 0 + b.scPart, c.gp.val, c.gn.toNat, 0, 0, c.tr.toNat, c.ru.toNat, 15 + (if b.isImm = true then 64 else 0)⟩) rfl ?_
  simp only [readF, decodeFlt]
  simp [h, wfB_imm h.2, mod_n, Nat.mod_one, rdOff, rdImm?, FWord.Fits, opcAssigned, Bool.toNat_le, FWord.ty, FWord.i, FWord.b, rdCD, rdABC, List.any_append, rdAB_any, rdB_any, rdA_any]
theorem Laws.RoundTrip.sigget (c : Ctl) (t : SigTy) (d : VReg) (b : Src) : Statement (.sigget c t d b) := by
  intro _ h
  replace h : (c.ok true true && wfB t.regs t.noConst b) = true := h
  simp only [Bool.and_eq_true] at h
  refine reads_of (f := ⟨0x100, d.val, 0, b.field, 0 + b.scPart, c.gp.val, c.gn.toNat, 0, 0, c.tr.toNat, c.ru.toNat, t.code + (if b.isImm = true then 64 else 0)⟩) rfl ?_
  simp only [readF, decodeSig]
  simp [h, wfB_imm h.2, mod_n, Nat.mod_one, rdOff, rdImm?, FWord.Fits, opcAssigned, Bool.toNat_le, FWord.ty, FWord.i, FWord.b, rdCD, rdABC, List.any_append, rdAB_any, rdB_any, rdA_any]
theorem Laws.RoundTrip.sigset (c : Ctl) (t : BitTy) (d : VReg) (a b : Src) : Statement (.sigset c t d a b) := by
  intro _ h
  replace h : (c.ok true true && wfD t.regs d && wfAB true t.regs 1 false a b) = true := h
  simp only [Bool.and_eq_true, wfD, beq_iff_eq] at h
  refine reads_of (f := ⟨0x101, d.val, a.field, b.field, 0 + a.scPart + b.scPart, c.gp.val, c.gn.toNat, 0, 0, c.tr.toNat, c.ru.toNat, t.code + (if b.isImm = true then 64 else 0)⟩) rfl ?_
  simp only [readF, decodeSig]
  simp [h, scAB_lt h.2, mod_n, Nat.mod_one, rdOff, rdImm?, FWord.Fits, opcAssigned, Bool.toNat_le, FWord.ty, FWord.i, FWord.b, rdCD, rdABC, List.any_append, rdAB_any, rdB_any, rdA_any]
theorem Laws.RoundTrip.sigmin (c : Ctl) (t : BitTy) (d : VReg) (a b : Src) : Statement (.sigmin c t d a b) := by
  intro _ h
  replace h : (c.ok true true && wfD t.regs d && wfAB false t.regs 1 false a b) = true := h
  simp only [Bool.and_eq_true, wfD, beq_iff_eq] at h
  refine reads_of (f := ⟨0x102, d.val, a.field, b.field, 0 + a.scPart + b.scPart, c.gp.val, c.gn.toNat, 0, 0, c.tr.toNat, c.ru.toNat, t.code + (if b.isImm = true then 64 else 0)⟩) rfl ?_
  simp only [readF, decodeSig]
  simp [h, scAB_lt (wfAB_false h.2).1, (wfAB_false h.2).1, (wfAB_false h.2).2, mod_n, Nat.mod_one, rdOff, rdImm?, FWord.Fits, opcAssigned, Bool.toNat_le, FWord.ty, FWord.i, FWord.b, rdCD, rdABC, List.any_append, rdAB_any, rdB_any, rdA_any]
theorem Laws.RoundTrip.sigcmp (c : Ctl) (cc : Cc) (t : SigTy) (p : Pred) (a b : Src) : Statement (.sigcmp c cc t p a b) := by
  intro _ h
  replace h : (c.ok false true && wfAB true t.regs 1 false a b && a.constOk t.noConst && (!(cc == .c6 || cc == .c7) || b == .reg 0)) = true := h
  simp only [Bool.and_eq_true, beq_iff_eq, Bool.not_eq_true'] at h
  refine reads_of (f := ⟨0x103, p.val, a.field, b.field, 0 + a.scPart + b.scPart, c.gp.val, c.gn.toNat, cc.code, 0, c.tr.toNat, c.ru.toNat, t.code + (if b.isImm = true then 64 else 0)⟩) rfl ?_
  simp only [readF, decodeSig]
  have q := src2_ok (f := ⟨0x103, p.val, a.field, b.field, a.scPart + b.scPart, c.gp.val, c.gn.toNat, cc.code, 0, 0, c.ru.toNat, t.code + (if b.isImm = true then 64 else 0)⟩) rfl rfl rfl h.1.1.2 h.1.2
  simp at q
  have hb := sigB h.2
  rcases hb with ⟨h6, hb⟩ | h6 <;> simp [h, scAB_lt h.1.1.2, ctl_tr h.1.1.1, q, h6, mod_n, Nat.mod_one, rdOff, rdImm?, FWord.Fits, opcAssigned, Bool.toNat_le, FWord.ty, FWord.i, FWord.b, rdCD, rdABC, List.any_append, rdAB_any, rdB_any, rdA_any]
  subst hb; simp [Src.isImm, Src.field]
theorem Laws.RoundTrip.moderd (c : Ctl) (d : VReg) (status : Bool) : Statement (.moderd c d status) := by
  intro _ h
  replace h : (c.ok true false) = true := h
  refine reads_of (f := ⟨0x104, d.val, 0, status.toNat, 0, c.gp.val, c.gn.toNat, 0, 0, c.tr.toNat, c.ru.toNat, 0⟩) rfl ?_
  simp only [readF, decodeSig]
  simp [h, ctl_ru h, mod_n, Nat.mod_one, rdOff, rdImm?, FWord.Fits, opcAssigned, Bool.toNat_le, FWord.ty, FWord.i, FWord.b, rdCD, rdABC, List.any_append, rdAB_any, rdB_any, rdA_any]
theorem Laws.RoundTrip.modewr (c : Ctl) (status : Bool) (a b : Src) : Statement (.modewr c status a b) := by
  intro _ h
  replace h : (c.ok false true && wfAB true 1 1 false a b) = true := h
  simp only [Bool.and_eq_true] at h
  refine reads_of (f := ⟨0x105, status.toNat, a.field, b.field, 0 + a.scPart + b.scPart, c.gp.val, c.gn.toNat, 0, 0, c.tr.toNat, c.ru.toNat, 0 + (if b.isImm = true then 64 else 0)⟩) rfl ?_
  simp only [readF, decodeSig]
  simp [h, scAB_lt h.2, ctl_tr h.1, mod_n, Nat.mod_one, rdOff, rdImm?, FWord.Fits, opcAssigned, Bool.toNat_le, FWord.ty, FWord.i, FWord.b, rdCD, rdABC, List.any_append, rdAB_any, rdB_any, rdA_any]
theorem Laws.RoundTrip.philox (c : Ctl) (d a b : VReg) : Statement (.philox c d a b) := by
  intro _ h
  replace h : (c.ok false true && wfD 4 d && wfD 4 a && wfD 2 b) = true := h
  simp only [Bool.and_eq_true, wfD, beq_iff_eq] at h
  refine reads_of (f := ⟨0x106, d.val, a.val, b.val, 0, c.gp.val, c.gn.toNat, 0, 0, c.tr.toNat, c.ru.toNat, 2⟩) rfl ?_
  simp only [readF, decodeSig]
  simp [h, ctl_tr h.1.1.1, mod_n, Nat.mod_one, rdOff, rdImm?, FWord.Fits, opcAssigned, Bool.toNat_le, FWord.ty, FWord.i, FWord.b, rdCD, rdABC, List.any_append, rdAB_any, rdB_any, rdA_any]
theorem Laws.RoundTrip.philoxf (c : Ctl) (t : FltTy) (d a b : VReg) : Statement (.philoxf c t d a b) := by
  intro _ h
  replace h : (c.ok false true && wfD 4 d && wfD 4 a && wfD 2 b) = true := h
  simp only [Bool.and_eq_true, wfD, beq_iff_eq] at h
  refine reads_of (f := ⟨0x107, d.val, a.val, b.val, 0, c.gp.val, c.gn.toNat, 0, 0, c.tr.toNat, c.ru.toNat, t.code⟩) rfl ?_
  simp only [readF, decodeSig]
  simp [h, ctl_tr h.1.1.1, mod_n, Nat.mod_one, rdOff, rdImm?, FWord.Fits, opcAssigned, Bool.toNat_le, FWord.ty, FWord.i, FWord.b, rdCD, rdABC, List.any_append, rdAB_any, rdB_any, rdA_any]
theorem Laws.RoundTrip.twalk (c : Ctl) (idx : Bool) (n dep : Fin 8) (d : VReg) (a : Src) (b : VReg) : Statement (.twalk c idx n dep d a b) := by
  intro _ h
  replace h : (c.ok false true && wfN 1 false a) = true := h
  simp only [Bool.and_eq_true] at h
  refine reads_of (f := ⟨0x108, d.val, a.field, b.val, 0 + a.scPart, c.gp.val, c.gn.toNat, 0, 0, c.tr.toNat, c.ru.toNat, flag idx 64 + n.val * 8 + dep.val⟩) rfl ?_
  simp only [readF, decodeSig]
  simp [h, ctl_tr h.1, twalk_md idx n dep, wfN_sc h.2, mod_n, Nat.mod_one, rdOff, rdImm?, FWord.Fits, opcAssigned, Bool.toNat_le, FWord.ty, FWord.i, FWord.b, rdCD, rdABC, List.any_append, rdAB_any, rdB_any, rdA_any] <;> exact ⟨(twalk_md idx n dep).2.1, (twalk_md idx n dep).2.2.1⟩
theorem Laws.RoundTrip.topkins (c : Ctl) (asc : Bool) (k : Fin 8) (d : VReg) (a b : Src) : Statement (.topkins c asc k d a b) := by
  intro _ h
  replace h : (c.ok false true && wfAB false 1 1 false a b) = true := h
  simp only [Bool.and_eq_true] at h
  refine reads_of (f := ⟨0x109, d.val, a.field, b.field, 0 + a.scPart + b.scPart, c.gp.val, c.gn.toNat, 0, 0, c.tr.toNat, c.ru.toNat, flag asc 8 + k.val + (if b.isImm = true then 64 else 0)⟩) rfl ?_
  simp only [readF, decodeSig]
  simp [h, scAB_lt (wfAB_false h.2).1, ctl_tr h.1, (wfAB_false h.2).1, (wfAB_false h.2).2, k8_asc asc k, mod_n, Nat.mod_one, rdOff, rdImm?, FWord.Fits, opcAssigned, Bool.toNat_le, FWord.ty, FWord.i, FWord.b, rdCD, rdABC, List.any_append, rdAB_any, rdB_any, rdA_any] <;> exact (k8_asc asc k).2.1
theorem Laws.RoundTrip.topkmrg (c : Ctl) (asc : Bool) (k : Fin 8) (d a : VReg) : Statement (.topkmrg c asc k d a) := by
  intro _ h
  replace h : (c.ok false true) = true := h
  refine reads_of (f := ⟨0x10A, d.val, a.val, 0, 0, c.gp.val, c.gn.toNat, 0, 0, c.tr.toNat, c.ru.toNat, flag asc 8 + k.val⟩) rfl ?_
  simp only [readF, decodeSig]
  simp [h, ctl_tr h, k8_asc asc k, mod_n, Nat.mod_one, rdOff, rdImm?, FWord.Fits, opcAssigned, Bool.toNat_le, FWord.ty, FWord.i, FWord.b, rdCD, rdABC, List.any_append, rdAB_any, rdB_any, rdA_any] <;> exact (k8_asc asc k).2.1
theorem Laws.RoundTrip.scalemax (c : Ctl) (p2 : Bool) (fs : Fin 8) (d : VReg) (b : Src) : Statement (.scalemax c p2 fs d b) := by
  intro _ h
  replace h : (c.ok true true && wfB 1 false b) = true := h
  simp only [Bool.and_eq_true] at h
  refine reads_of (f := ⟨0x10B, d.val, 0, b.field, 0 + b.scPart, c.gp.val, c.gn.toNat, 0, fs.val, c.tr.toNat, c.ru.toNat, flag p2 32 + 15 + (if b.isImm = true then 64 else 0)⟩) rfl ?_
  simp only [readF, decodeSig]
  simp [h, wfB_imm h.2, mod_n, Nat.mod_one, rdOff, rdImm?, FWord.Fits, opcAssigned, Bool.toNat_le, FWord.ty, FWord.i, FWord.b, rdCD, rdABC, List.any_append, rdAB_any, rdB_any, rdA_any]
theorem Laws.RoundTrip.bra (c : Ctl) (off : BitVec 16) : Statement (.bra c off) := by
  intro _ h
  replace h : (c.ok false false) = true := h
  refine reads_of (f := ⟨0x140, 0, 0, off.toNat / 256, off.toNat % 256, c.gp.val, c.gn.toNat, 0, 0, c.tr.toNat, c.ru.toNat, 0 + 64⟩) rfl ?_
  simp only [readF, decodeCtl]
  simp [h, ctl_tr h, ctl_ru h, mod_n, Nat.mod_one, rdOff, rdImm?, FWord.Fits, opcAssigned, Bool.toNat_le, FWord.ty, FWord.i, FWord.b, rdCD, rdABC, List.any_append, rdAB_any, rdB_any, rdA_any]
theorem Laws.RoundTrip.brau (c : Ctl) (off : BitVec 16) : Statement (.brau c off) := by
  intro _ h
  replace h : (c.ok false false) = true := h
  refine reads_of (f := ⟨0x141, 0, 0, off.toNat / 256, off.toNat % 256, c.gp.val, c.gn.toNat, 0, 0, c.tr.toNat, c.ru.toNat, 0 + 64⟩) rfl ?_
  simp only [readF, decodeCtl]
  simp [h, ctl_tr h, ctl_ru h, mod_n, Nat.mod_one, rdOff, rdImm?, FWord.Fits, opcAssigned, Bool.toNat_le, FWord.ty, FWord.i, FWord.b, rdCD, rdABC, List.any_append, rdAB_any, rdB_any, rdA_any]
theorem Laws.RoundTrip.brx (c : Ctl) (b : VReg) : Statement (.brx c b) := by
  intro _ h
  replace h : (c.ok false true && wfD 2 b) = true := h
  simp only [Bool.and_eq_true, wfD, beq_iff_eq] at h
  refine reads_of (f := ⟨0x142, 0, 0, b.val, 0, c.gp.val, c.gn.toNat, 0, 0, c.tr.toNat, c.ru.toNat, 0⟩) rfl ?_
  simp only [readF, decodeCtl]
  simp [h, ctl_tr h.1, mod_n, Nat.mod_one, rdOff, rdImm?, FWord.Fits, opcAssigned, Bool.toNat_le, FWord.ty, FWord.i, FWord.b, rdCD, rdABC, List.any_append, rdAB_any, rdB_any, rdA_any]
theorem Laws.RoundTrip.call (c : Ctl) (d : VReg) (off : BitVec 16) : Statement (.call c d off) := by
  intro _ h
  replace h : (c.ok false false && wfD 2 d) = true := h
  simp only [Bool.and_eq_true, wfD, beq_iff_eq] at h
  refine reads_of (f := ⟨0x143, d.val, 0, off.toNat / 256, off.toNat % 256, c.gp.val, c.gn.toNat, 0, 0, c.tr.toNat, c.ru.toNat, 0 + 64⟩) rfl ?_
  simp only [readF, decodeCtl]
  simp [h, ctl_tr h.1, ctl_ru h.1, mod_n, Nat.mod_one, rdOff, rdImm?, FWord.Fits, opcAssigned, Bool.toNat_le, FWord.ty, FWord.i, FWord.b, rdCD, rdABC, List.any_append, rdAB_any, rdB_any, rdA_any]
theorem Laws.RoundTrip.callReg (c : Ctl) (d b : VReg) : Statement (.callReg c d b) := by
  intro _ h
  replace h : (c.ok false true && wfD 2 d && wfD 2 b) = true := h
  simp only [Bool.and_eq_true, wfD, beq_iff_eq] at h
  refine reads_of (f := ⟨0x143, d.val, 0, b.val, 0, c.gp.val, c.gn.toNat, 0, 0, c.tr.toNat, c.ru.toNat, 0⟩) rfl ?_
  simp only [readF, decodeCtl]
  simp [h, ctl_tr h.1.1, mod_n, Nat.mod_one, rdOff, rdImm?, FWord.Fits, opcAssigned, Bool.toNat_le, FWord.ty, FWord.i, FWord.b, rdCD, rdABC, List.any_append, rdAB_any, rdB_any, rdA_any]
theorem Laws.RoundTrip.ret (c : Ctl) (b : VReg) : Statement (.ret c b) := by
  intro _ h
  replace h : (c.ok false true && wfD 2 b) = true := h
  simp only [Bool.and_eq_true, wfD, beq_iff_eq] at h
  refine reads_of (f := ⟨0x144, 0, 0, b.val, 0, c.gp.val, c.gn.toNat, 0, 0, c.tr.toNat, c.ru.toNat, 0⟩) rfl ?_
  simp only [readF, decodeCtl]
  simp [h, ctl_tr h.1, mod_n, Nat.mod_one, rdOff, rdImm?, FWord.Fits, opcAssigned, Bool.toNat_le, FWord.ty, FWord.i, FWord.b, rdCD, rdABC, List.any_append, rdAB_any, rdB_any, rdA_any]
theorem Laws.RoundTrip.join (c : Ctl) (k : Fin 16) (n : VReg) (off : BitVec 16) : Statement (.join c k n off) := by
  intro _ h
  replace h : (c.ok false false) = true := h
  refine reads_of (f := ⟨0x145, n.val, 0, off.toNat / 256, off.toNat % 256, c.gp.val, c.gn.toNat, 0, 0, c.tr.toNat, c.ru.toNat, k.val + 64⟩) rfl ?_
  simp only [readF, decodeCtl]
  simp [h, ctl_tr h, ctl_ru h, k16_i k, mod_n, Nat.mod_one, rdOff, rdImm?, FWord.Fits, opcAssigned, Bool.toNat_le, FWord.ty, FWord.i, FWord.b, rdCD, rdABC, List.any_append, rdAB_any, rdB_any, rdA_any] <;> exact (k16_i k).1
theorem Laws.RoundTrip.waitj_some (c : Ctl) (k : Fin 16) (ov : BitVec 16) : Statement (.waitj c k (some ov)) := by
  intro _ h
  replace h : (c.ok false false) = true := h
  refine reads_of (f := ⟨0x146, 0, 0, ov.toNat / 256, ov.toNat % 256, c.gp.val, c.gn.toNat, 0, 0, c.tr.toNat, c.ru.toNat, k.val + 64⟩) rfl ?_
  simp only [readF, decodeCtl]
  simp [h, ctl_tr h, ctl_ru h, k16_i k, mod_n, Nat.mod_one, rdOff, rdImm?, FWord.Fits, opcAssigned, Bool.toNat_le, FWord.ty, FWord.i, FWord.b, rdCD, rdABC, List.any_append, rdAB_any, rdB_any, rdA_any] <;> exact (k16_i k).1
theorem Laws.RoundTrip.waitj_none (c : Ctl) (k : Fin 16) : Statement (.waitj c k none) := by
  intro _ h
  replace h : (c.ok false false) = true := h
  refine reads_of (f := ⟨0x146, 0, 0, 0, 0, c.gp.val, c.gn.toNat, 0, 0, c.tr.toNat, c.ru.toNat, k.val⟩) rfl ?_
  simp only [readF, decodeCtl]
  simp [h, ctl_tr h, ctl_ru h, k16_n k, mod_n, Nat.mod_one, rdOff, rdImm?, FWord.Fits, opcAssigned, Bool.toNat_le, FWord.ty, FWord.i, FWord.b, rdCD, rdABC, List.any_append, rdAB_any, rdB_any, rdA_any]
theorem Laws.RoundTrip.waitj (c : Ctl) (k : Fin 16) (off : Option (BitVec 16)) : Statement (.waitj c k off) := by
  cases off with
  | some ov =>
    exact waitj_some _ _ _
  | none =>
    exact waitj_none _ _
theorem Laws.RoundTrip.rep (c : Ctl) (b : Src) : Statement (.rep c b) := by
  intro _ h
  replace h : (c.ok false true && wfB 1 false b && b.off0) = true := h
  simp only [Bool.and_eq_true] at h
  refine reads_of (f := ⟨0x147, 0, 0, b.field, 0 + b.scPart, c.gp.val, c.gn.toNat, 0, 0, c.tr.toNat, c.ru.toNat, 0 + (if b.isImm = true then 64 else 0)⟩) rfl ?_
  simp only [readF, decodeCtl]
  simp [h, ctl_tr h.1.1, wfB_imm h.1.2, mod_n, Nat.mod_one, rdOff, rdImm?, FWord.Fits, opcAssigned, Bool.toNat_le, FWord.ty, FWord.i, FWord.b, rdCD, rdABC, List.any_append, rdAB_any, rdB_any, rdA_any] <;> exact off0_sc h.2 (wfB_imm h.1.2)
theorem Laws.RoundTrip.repImm (c : Ctl) (n : BitVec 16) : Statement (.repImm c n) := by
  intro _ h
  replace h : (c.ok false false) = true := h
  refine reads_of (f := ⟨0x147, 0, 0, n.toNat / 256, n.toNat % 256, c.gp.val, c.gn.toNat, 0, 0, c.tr.toNat, c.ru.toNat, 0 + 64⟩) rfl ?_
  simp only [readF, decodeCtl]
  simp [h, ctl_tr h, ctl_ru h, mod_n, Nat.mod_one, rdOff, rdImm?, FWord.Fits, opcAssigned, Bool.toNat_le, FWord.ty, FWord.i, FWord.b, rdCD, rdABC, List.any_append, rdAB_any, rdB_any, rdA_any]
theorem Laws.RoundTrip.loop (c : Ctl) (d : VReg) (off : BitVec 16) : Statement (.loop c d off) := by
  intro _ h
  replace h : (c.ok false false) = true := h
  refine reads_of (f := ⟨0x148, d.val, 0, off.toNat / 256, off.toNat % 256, c.gp.val, c.gn.toNat, 0, 0, c.tr.toNat, c.ru.toNat, 0 + 64⟩) rfl ?_
  simp only [readF, decodeCtl]
  simp [h, ctl_tr h, ctl_ru h, mod_n, Nat.mod_one, rdOff, rdImm?, FWord.Fits, opcAssigned, Bool.toNat_le, FWord.ty, FWord.i, FWord.b, rdCD, rdABC, List.any_append, rdAB_any, rdB_any, rdA_any]
theorem Laws.RoundTrip.exit (c : Ctl) : Statement (.exit c) := by
  intro _ h
  replace h : (c.ok false false) = true := h
  refine reads_of (f := ⟨0x149, 0, 0, 0, 0, c.gp.val, c.gn.toNat, 0, 0, c.tr.toNat, c.ru.toNat, 0⟩) rfl ?_
  simp only [readF, decodeCtl]
  simp [h, ctl_tr h, ctl_ru h, mod_n, Nat.mod_one, rdOff, rdImm?, FWord.Fits, opcAssigned, Bool.toNat_le, FWord.ty, FWord.i, FWord.b, rdCD, rdABC, List.any_append, rdAB_any, rdB_any, rdA_any]
theorem Laws.RoundTrip.trap (c : Ctl) (code : BitVec 16) : Statement (.trap c code) := by
  intro _ h
  replace h : (c.ok false false) = true := h
  refine reads_of (f := ⟨0x14A, 0, 0, code.toNat / 256, code.toNat % 256, c.gp.val, c.gn.toNat, 0, 0, c.tr.toNat, c.ru.toNat, 0 + 64⟩) rfl ?_
  simp only [readF, decodeCtl]
  simp [h, ctl_tr h, ctl_ru h, mod_n, Nat.mod_one, rdOff, rdImm?, FWord.Fits, opcAssigned, Bool.toNat_le, FWord.ty, FWord.i, FWord.b, rdCD, rdABC, List.any_append, rdAB_any, rdB_any, rdA_any]
theorem Laws.RoundTrip.bpt (c : Ctl) : Statement (.bpt c) := by
  intro _ h
  replace h : (c.ok false false) = true := h
  refine reads_of (f := ⟨0x14B, 0, 0, 0, 0, c.gp.val, c.gn.toNat, 0, 0, c.tr.toNat, c.ru.toNat, 0⟩) rfl ?_
  simp only [readF, decodeCtl]
  simp [h, ctl_tr h, ctl_ru h, mod_n, Nat.mod_one, rdOff, rdImm?, FWord.Fits, opcAssigned, Bool.toNat_le, FWord.ty, FWord.i, FWord.b, rdCD, rdABC, List.any_append, rdAB_any, rdB_any, rdA_any]
theorem Laws.RoundTrip.yield (c : Ctl) : Statement (.yield c) := by
  intro _ h
  replace h : (c.ok false false) = true := h
  refine reads_of (f := ⟨0x14C, 0, 0, 0, 0, c.gp.val, c.gn.toNat, 0, 0, c.tr.toNat, c.ru.toNat, 0⟩) rfl ?_
  simp only [readF, decodeCtl]
  simp [h, ctl_tr h, ctl_ru h, mod_n, Nat.mod_one, rdOff, rdImm?, FWord.Fits, opcAssigned, Bool.toNat_le, FWord.ty, FWord.i, FWord.b, rdCD, rdABC, List.any_append, rdAB_any, rdB_any, rdA_any]
theorem Laws.RoundTrip.nop (c : Ctl) : Statement (.nop c) := by
  intro _ h
  replace h : (c.ok false false) = true := h
  refine reads_of (f := ⟨0x14D, 0, 0, 0, 0, c.gp.val, c.gn.toNat, 0, 0, c.tr.toNat, c.ru.toNat, 0⟩) rfl ?_
  simp only [readF, decodeCtl]
  simp [h, ctl_tr h, ctl_ru h, mod_n, Nat.mod_one, rdOff, rdImm?, FWord.Fits, opcAssigned, Bool.toNat_le, FWord.ty, FWord.i, FWord.b, rdCD, rdABC, List.any_append, rdAB_any, rdB_any, rdA_any]
theorem Laws.RoundTrip.bsig_some (c : Ctl) (all : Bool) (t : Fmt) (ov : Fin 54) (a : Src) (off : BitVec 16) : Statement (.bsig c all t (some ov) a off) := by
  intro _ h
  replace h : (c.ok false true && wfN t.regs t.noConst a) = true := h
  simp only [Bool.and_eq_true] at h
  refine reads_of (f := ⟨0x14E, ov.val, a.field, off.toNat / 256, off.toNat % 256, c.gp.val, c.gn.toNat, 0, 0, c.tr.toNat, c.ru.toNat, flag all 32 + t.code + 64⟩) rfl ?_
  simp only [readF, decodeCtl]
  simp [h, ctl_tr h.1, Nat.ne_of_lt (Nat.lt_of_lt_of_le ov.isLt (by decide : 54 ≤ 63)), mod_n, Nat.mod_one, rdOff, rdImm?, FWord.Fits, opcAssigned, Bool.toNat_le, FWord.ty, FWord.i, FWord.b, rdCD, rdABC, List.any_append, rdAB_any, rdB_any, rdA_any]
theorem Laws.RoundTrip.bsig_none (c : Ctl) (all : Bool) (t : Fmt) (a : Src) (off : BitVec 16) : Statement (.bsig c all t none a off) := by
  intro _ h
  replace h : (c.ok false true && wfN t.regs t.noConst a) = true := h
  simp only [Bool.and_eq_true] at h
  refine reads_of (f := ⟨0x14E, 63, a.field, off.toNat / 256, off.toNat % 256, c.gp.val, c.gn.toNat, 0, 0, c.tr.toNat, c.ru.toNat, flag all 32 + t.code + 64⟩) rfl ?_
  simp only [readF, decodeCtl]
  simp [h, ctl_tr h.1, mod_n, Nat.mod_one, rdOff, rdImm?, FWord.Fits, opcAssigned, Bool.toNat_le, FWord.ty, FWord.i, FWord.b, rdCD, rdABC, List.any_append, rdAB_any, rdB_any, rdA_any]
theorem Laws.RoundTrip.bsig (c : Ctl) (all : Bool) (t : Fmt) (thr : Option (Fin 54)) (a : Src) (off : BitVec 16) : Statement (.bsig c all t thr a off) := by
  cases thr with
  | some ov =>
    exact bsig_some _ _ _ _ _ _
  | none =>
    exact bsig_none _ _ _ _ _
theorem Laws.RoundTrip.bany (c : Ctl) (p : Pred) (off : BitVec 16) : Statement (.bany c p off) := by
  intro _ h
  replace h : (c.ok false false) = true := h
  refine reads_of (f := ⟨0x14F, p.val, 0, off.toNat / 256, off.toNat % 256, c.gp.val, c.gn.toNat, 0, 0, c.tr.toNat, c.ru.toNat, 0 + 64⟩) rfl ?_
  simp only [readF, decodeCtl]
  simp [h, ctl_tr h, ctl_ru h, mod_n, Nat.mod_one, rdOff, rdImm?, FWord.Fits, opcAssigned, Bool.toNat_le, FWord.ty, FWord.i, FWord.b, rdCD, rdABC, List.any_append, rdAB_any, rdB_any, rdA_any]
theorem Laws.RoundTrip.ball (c : Ctl) (p : Pred) (off : BitVec 16) : Statement (.ball c p off) := by
  intro _ h
  replace h : (c.ok false false) = true := h
  refine reads_of (f := ⟨0x150, p.val, 0, off.toNat / 256, off.toNat % 256, c.gp.val, c.gn.toNat, 0, 0, c.tr.toNat, c.ru.toNat, 0 + 64⟩) rfl ?_
  simp only [readF, decodeCtl]
  simp [h, ctl_tr h, ctl_ru h, mod_n, Nat.mod_one, rdOff, rdImm?, FWord.Fits, opcAssigned, Bool.toNat_le, FWord.ty, FWord.i, FWord.b, rdCD, rdABC, List.any_append, rdAB_any, rdB_any, rdA_any]
theorem Laws.RoundTrip.shfl (c : Ctl) (t : BitTy) (w : Width) (d : VReg) (a b : Src) : Statement (.shfl c t w d a b) := by
  intro _ h
  replace h : (c.ok false true && wfD t.regs d && wfN t.regs false a && wfN 1 false b && regOk t.regs b) = true := h
  simp only [Bool.and_eq_true, wfD, beq_iff_eq] at h
  refine reads_of (f := ⟨0x180, d.val, a.field, b.field, w.code, c.gp.val, c.gn.toNat, 0, 0, c.tr.toNat, c.ru.toNat, t.code + (if b.isImm = true then 64 else 0)⟩) rfl ?_
  simp only [readF, decodeXl]
  simp [h, ctl_tr h.1.1.1.1, wfN_imm h.1.2, regOk_field h.2 h.1.2, mod_n, Nat.mod_one, rdOff, rdImm?, FWord.Fits, opcAssigned, Bool.toNat_le, FWord.ty, FWord.i, FWord.b, rdCD, rdABC, List.any_append, rdAB_any, rdB_any, rdA_any]
theorem Laws.RoundTrip.shflup (c : Ctl) (t : BitTy) (w : Width) (d : VReg) (a b : Src) : Statement (.shflup c t w d a b) := by
  intro _ h
  replace h : (c.ok false true && wfD t.regs d && wfN t.regs false a && wfN 1 false b && regOk t.regs b) = true := h
  simp only [Bool.and_eq_true, wfD, beq_iff_eq] at h
  refine reads_of (f := ⟨0x181, d.val, a.field, b.field, w.code, c.gp.val, c.gn.toNat, 0, 0, c.tr.toNat, c.ru.toNat, t.code + (if b.isImm = true then 64 else 0)⟩) rfl ?_
  simp only [readF, decodeXl]
  simp [h, ctl_tr h.1.1.1.1, wfN_imm h.1.2, regOk_field h.2 h.1.2, mod_n, Nat.mod_one, rdOff, rdImm?, FWord.Fits, opcAssigned, Bool.toNat_le, FWord.ty, FWord.i, FWord.b, rdCD, rdABC, List.any_append, rdAB_any, rdB_any, rdA_any]
theorem Laws.RoundTrip.shfldn (c : Ctl) (t : BitTy) (w : Width) (d : VReg) (a b : Src) : Statement (.shfldn c t w d a b) := by
  intro _ h
  replace h : (c.ok false true && wfD t.regs d && wfN t.regs false a && wfN 1 false b && regOk t.regs b) = true := h
  simp only [Bool.and_eq_true, wfD, beq_iff_eq] at h
  refine reads_of (f := ⟨0x182, d.val, a.field, b.field, w.code, c.gp.val, c.gn.toNat, 0, 0, c.tr.toNat, c.ru.toNat, t.code + (if b.isImm = true then 64 else 0)⟩) rfl ?_
  simp only [readF, decodeXl]
  simp [h, ctl_tr h.1.1.1.1, wfN_imm h.1.2, regOk_field h.2 h.1.2, mod_n, Nat.mod_one, rdOff, rdImm?, FWord.Fits, opcAssigned, Bool.toNat_le, FWord.ty, FWord.i, FWord.b, rdCD, rdABC, List.any_append, rdAB_any, rdB_any, rdA_any]
theorem Laws.RoundTrip.shflx (c : Ctl) (t : BitTy) (w : Width) (d : VReg) (a b : Src) : Statement (.shflx c t w d a b) := by
  intro _ h
  replace h : (c.ok false true && wfD t.regs d && wfN t.regs false a && wfN 1 false b && regOk t.regs b) = true := h
  simp only [Bool.and_eq_true, wfD, beq_iff_eq] at h
  refine reads_of (f := ⟨0x183, d.val, a.field, b.field, w.code, c.gp.val, c.gn.toNat, 0, 0, c.tr.toNat, c.ru.toNat, t.code + (if b.isImm = true then 64 else 0)⟩) rfl ?_
  simp only [readF, decodeXl]
  simp [h, ctl_tr h.1.1.1.1, wfN_imm h.1.2, regOk_field h.2 h.1.2, mod_n, Nat.mod_one, rdOff, rdImm?, FWord.Fits, opcAssigned, Bool.toNat_le, FWord.ty, FWord.i, FWord.b, rdCD, rdABC, List.any_append, rdAB_any, rdB_any, rdA_any]
theorem Laws.RoundTrip.voteany (c : Ctl) (na : Bool) (d a : Pred) : Statement (.voteany c na d a) := by
  intro _ h
  replace h : (c.ok false false) = true := h
  refine reads_of (f := ⟨0x184, d.val, a.val, 0, 0, c.gp.val, c.gn.toNat, 0, 0, c.tr.toNat, c.ru.toNat, na.toNat⟩) rfl ?_
  simp only [readF, decodeXl]
  simp [h, ctl_tr h, ctl_ru h, mod_n, Nat.mod_one, rdOff, rdImm?, FWord.Fits, opcAssigned, Bool.toNat_le, FWord.ty, FWord.i, FWord.b, rdCD, rdABC, List.any_append, rdAB_any, rdB_any, rdA_any]
theorem Laws.RoundTrip.voteall (c : Ctl) (na : Bool) (d a : Pred) : Statement (.voteall c na d a) := by
  intro _ h
  replace h : (c.ok false false) = true := h
  refine reads_of (f := ⟨0x185, d.val, a.val, 0, 0, c.gp.val, c.gn.toNat, 0, 0, c.tr.toNat, c.ru.toNat, na.toNat⟩) rfl ?_
  simp only [readF, decodeXl]
  simp [h, ctl_tr h, ctl_ru h, mod_n, Nat.mod_one, rdOff, rdImm?, FWord.Fits, opcAssigned, Bool.toNat_le, FWord.ty, FWord.i, FWord.b, rdCD, rdABC, List.any_append, rdAB_any, rdB_any, rdA_any]
theorem Laws.RoundTrip.voteuni (c : Ctl) (t : BitTy) (d : Pred) (a : Src) : Statement (.voteuni c t d a) := by
  intro _ h
  replace h : (c.ok false true && wfB t.regs false a && a.off0) = true := h
  simp only [Bool.and_eq_true] at h
  refine reads_of (f := ⟨0x186, d.val, a.field, 0, 0 + a.scPart, c.gp.val, c.gn.toNat, 0, 0, c.tr.toNat, c.ru.toNat, t.code⟩) rfl ?_
  simp only [readF, decodeXl]
  simp [h, ctl_tr h.1.1, mod_n, Nat.mod_one, rdOff, rdImm?, FWord.Fits, opcAssigned, Bool.toNat_le, FWord.ty, FWord.i, FWord.b, rdCD, rdABC, List.any_append, rdAB_any, rdB_any, rdA_any] <;> exact off0_sc h.2 (wfB_imm h.1.2)
theorem Laws.RoundTrip.ballot (c : Ctl) (na : Bool) (d : VReg) (a : Pred) : Statement (.ballot c na d a) := by
  intro _ h
  replace h : (c.ok false false) = true := h
  refine reads_of (f := ⟨0x187, d.val, a.val, 0, 0, c.gp.val, c.gn.toNat, 0, 0, c.tr.toNat, c.ru.toNat, na.toNat⟩) rfl ?_
  simp only [readF, decodeXl]
  simp [h, ctl_tr h, ctl_ru h, mod_n, Nat.mod_one, rdOff, rdImm?, FWord.Fits, opcAssigned, Bool.toNat_le, FWord.ty, FWord.i, FWord.b, rdCD, rdABC, List.any_append, rdAB_any, rdB_any, rdA_any]
theorem Laws.RoundTrip.matchLanes (c : Ctl) (t : BitTy) (d : VReg) (a : Src) : Statement (.matchLanes c t d a) := by
  intro _ h
  replace h : (c.ok false true && wfB t.regs false a && a.off0) = true := h
  simp only [Bool.and_eq_true] at h
  refine reads_of (f := ⟨0x188, d.val, a.field, 0, 0 + a.scPart, c.gp.val, c.gn.toNat, 0, 0, c.tr.toNat, c.ru.toNat, t.code⟩) rfl ?_
  simp only [readF, decodeXl]
  simp [h, ctl_tr h.1.1, mod_n, Nat.mod_one, rdOff, rdImm?, FWord.Fits, opcAssigned, Bool.toNat_le, FWord.ty, FWord.i, FWord.b, rdCD, rdABC, List.any_append, rdAB_any, rdB_any, rdA_any] <;> exact off0_sc h.2 (wfB_imm h.1.2)
theorem Laws.RoundTrip.redadd (c : Ctl) (t : IntTy) (w : Width) (d : VReg) (a : Src) : Statement (.redadd c t w d a) := by
  intro _ h
  replace h : (c.ok false true && wfD t.regs d && wfN t.regs false a) = true := h
  simp only [Bool.and_eq_true, wfD, beq_iff_eq] at h
  refine reads_of (f := ⟨0x189, d.val, a.field, 0, w.code, c.gp.val, c.gn.toNat, 0, 0, c.tr.toNat, c.ru.toNat, t.code⟩) rfl ?_
  simp only [readF, decodeXl]
  simp [h, ctl_tr h.1.1, mod_n, Nat.mod_one, rdOff, rdImm?, FWord.Fits, opcAssigned, Bool.toNat_le, FWord.ty, FWord.i, FWord.b, rdCD, rdABC, List.any_append, rdAB_any, rdB_any, rdA_any]
theorem Laws.RoundTrip.redfadd (c : Ctl) (rm : Rm) (t : FltTy) (w : Width) (d : VReg) (a : Src) : Statement (.redfadd c rm t w d a) := by
  intro _ h
  replace h : (c.ok false true && rm.noStoch && wfD t.regs d && wfN t.regs false a) = true := h
  simp only [Bool.and_eq_true, wfD, beq_iff_eq] at h
  refine reads_of (f := ⟨0x18A, d.val, a.field, 0, w.code, c.gp.val, c.gn.toNat, rm.code, 0, c.tr.toNat, c.ru.toNat, t.code⟩) rfl ?_
  simp only [readF, decodeXl]
  simp [h, ctl_tr h.1.1.1, mod_n, Nat.mod_one, rdOff, rdImm?, FWord.Fits, opcAssigned, Bool.toNat_le, FWord.ty, FWord.i, FWord.b, rdCD, rdABC, List.any_append, rdAB_any, rdB_any, rdA_any]
theorem Laws.RoundTrip.redmin (c : Ctl) (t : RedTy) (w : Width) (d : VReg) (a : Src) : Statement (.redmin c t w d a) := by
  intro _ h
  replace h : (c.ok false true && wfD t.regs d && wfN t.regs false a) = true := h
  simp only [Bool.and_eq_true, wfD, beq_iff_eq] at h
  refine reads_of (f := ⟨0x18B, d.val, a.field, 0, w.code, c.gp.val, c.gn.toNat, 0, 0, c.tr.toNat, c.ru.toNat, t.code⟩) rfl ?_
  simp only [readF, decodeXl]
  simp [h, ctl_tr h.1.1, mod_n, Nat.mod_one, rdOff, rdImm?, FWord.Fits, opcAssigned, Bool.toNat_le, FWord.ty, FWord.i, FWord.b, rdCD, rdABC, List.any_append, rdAB_any, rdB_any, rdA_any]
theorem Laws.RoundTrip.redmax (c : Ctl) (t : RedTy) (w : Width) (d : VReg) (a : Src) : Statement (.redmax c t w d a) := by
  intro _ h
  replace h : (c.ok false true && wfD t.regs d && wfN t.regs false a) = true := h
  simp only [Bool.and_eq_true, wfD, beq_iff_eq] at h
  refine reads_of (f := ⟨0x18C, d.val, a.field, 0, w.code, c.gp.val, c.gn.toNat, 0, 0, c.tr.toNat, c.ru.toNat, t.code⟩) rfl ?_
  simp only [readF, decodeXl]
  simp [h, ctl_tr h.1.1, mod_n, Nat.mod_one, rdOff, rdImm?, FWord.Fits, opcAssigned, Bool.toNat_le, FWord.ty, FWord.i, FWord.b, rdCD, rdABC, List.any_append, rdAB_any, rdB_any, rdA_any]
theorem Laws.RoundTrip.scanadd (c : Ctl) (excl : Bool) (rm : Rm) (t : RedTy) (w : Width) (d : VReg) (a : Src) : Statement (.scanadd c excl rm t w d a) := by
  intro _ h
  replace h : (c.ok false true && scanRm t rm && wfD t.regs d && wfN t.regs false a) = true := by cases t <;> exact h
  simp only [Bool.and_eq_true, wfD, beq_iff_eq] at h
  refine reads_of (f := ⟨0x18D, d.val, a.field, 0, w.code, c.gp.val, c.gn.toNat, rm.code, 0, c.tr.toNat, c.ru.toNat, flag excl 32 + t.code⟩) rfl ?_
  simp only [readF, decodeXl]
  cases t <;> simp only [scanRm, beq_iff_eq] at h <;> simp [h, ctl_tr h.1.1.1, show Rm.mode.code = 0 from rfl, show rmOf 0 = .mode from rfl, mod_n, Nat.mod_one, rdOff, rdImm?, FWord.Fits, opcAssigned, Bool.toNat_le, FWord.ty, FWord.i, FWord.b, rdCD, rdABC, List.any_append, rdAB_any, rdB_any, rdA_any]
theorem Laws.RoundTrip.qswph (c : Ctl) (t : BitTy) (d : VReg) (a : Src) : Statement (.qswph c t d a) := by
  intro _ h
  replace h : (c.ok false true && wfD t.regs d && wfB t.regs false a && a.off0) = true := h
  simp only [Bool.and_eq_true, wfD, beq_iff_eq] at h
  refine reads_of (f := ⟨0x18E, d.val, a.field, 0, 0 + a.scPart, c.gp.val, c.gn.toNat, 0, 0, c.tr.toNat, c.ru.toNat, t.code⟩) rfl ?_
  simp only [readF, decodeXl]
  simp [h, ctl_tr h.1.1.1, mod_n, Nat.mod_one, rdOff, rdImm?, FWord.Fits, opcAssigned, Bool.toNat_le, FWord.ty, FWord.i, FWord.b, rdCD, rdABC, List.any_append, rdAB_any, rdB_any, rdA_any] <;> exact off0_sc h.2 (wfB_imm h.1.2)
theorem Laws.RoundTrip.qswpv (c : Ctl) (t : BitTy) (d : VReg) (a : Src) : Statement (.qswpv c t d a) := by
  intro _ h
  replace h : (c.ok false true && wfD t.regs d && wfB t.regs false a && a.off0) = true := h
  simp only [Bool.and_eq_true, wfD, beq_iff_eq] at h
  refine reads_of (f := ⟨0x18F, d.val, a.field, 0, 0 + a.scPart, c.gp.val, c.gn.toNat, 0, 0, c.tr.toNat, c.ru.toNat, t.code⟩) rfl ?_
  simp only [readF, decodeXl]
  simp [h, ctl_tr h.1.1.1, mod_n, Nat.mod_one, rdOff, rdImm?, FWord.Fits, opcAssigned, Bool.toNat_le, FWord.ty, FWord.i, FWord.b, rdCD, rdABC, List.any_append, rdAB_any, rdB_any, rdA_any] <;> exact off0_sc h.2 (wfB_imm h.1.2)
theorem Laws.RoundTrip.qswpd (c : Ctl) (t : BitTy) (d : VReg) (a : Src) : Statement (.qswpd c t d a) := by
  intro _ h
  replace h : (c.ok false true && wfD t.regs d && wfB t.regs false a && a.off0) = true := h
  simp only [Bool.and_eq_true, wfD, beq_iff_eq] at h
  refine reads_of (f := ⟨0x190, d.val, a.field, 0, 0 + a.scPart, c.gp.val, c.gn.toNat, 0, 0, c.tr.toNat, c.ru.toNat, t.code⟩) rfl ?_
  simp only [readF, decodeXl]
  simp [h, ctl_tr h.1.1.1, mod_n, Nat.mod_one, rdOff, rdImm?, FWord.Fits, opcAssigned, Bool.toNat_le, FWord.ty, FWord.i, FWord.b, rdCD, rdABC, List.any_append, rdAB_any, rdB_any, rdA_any] <;> exact off0_sc h.2 (wfB_imm h.1.2)
theorem Laws.RoundTrip.qbcast (c : Ctl) (t : BitTy) (d : VReg) (a : Src) (q : Fin 4) : Statement (.qbcast c t d a q) := by
  intro _ h
  replace h : (c.ok false true && wfD t.regs d && wfB t.regs false a && a.off0) = true := h
  simp only [Bool.and_eq_true, wfD, beq_iff_eq] at h
  refine reads_of (f := ⟨0x191, d.val, a.field, q.val, 0 + a.scPart, c.gp.val, c.gn.toNat, 0, 0, c.tr.toNat, c.ru.toNat, t.code⟩) rfl ?_
  simp only [readF, decodeXl]
  simp [h, ctl_tr h.1.1.1, win_or_zero h.1.2, mod_n, Nat.mod_one, rdOff, rdImm?, FWord.Fits, opcAssigned, Bool.toNat_le, FWord.ty, FWord.i, FWord.b, rdCD, rdABC, List.any_append, rdAB_any, rdB_any, rdA_any] <;> exact off0_sc h.2 (wfB_imm h.1.2)
theorem Laws.RoundTrip.regroup (c : Ctl) (a : Src) : Statement (.regroup c a) := by
  intro _ h
  replace h : (c.ok false true && wfB 1 false a && a.off0) = true := h
  simp only [Bool.and_eq_true] at h
  refine reads_of (f := ⟨0x192, 0, a.field, 0, 0 + a.scPart, c.gp.val, c.gn.toNat, 0, 0, c.tr.toNat, c.ru.toNat, 11⟩) rfl ?_
  simp only [readF, decodeXl]
  simp [h, ctl_tr h.1.1, mod_n, Nat.mod_one, rdOff, rdImm?, FWord.Fits, opcAssigned, Bool.toNat_le, FWord.ty, FWord.i, FWord.b, rdCD, rdABC, List.any_append, rdAB_any, rdB_any, rdA_any] <;> exact off0_sc h.2 (wfB_imm h.1.2)
theorem Laws.RoundTrip.ungroup (c : Ctl) : Statement (.ungroup c) := by
  intro _ h
  replace h : (c.ok false false) = true := h
  refine reads_of (f := ⟨0x193, 0, 0, 0, 0, c.gp.val, c.gn.toNat, 0, 0, c.tr.toNat, c.ru.toNat, 0⟩) rfl ?_
  simp only [readF, decodeXl]
  simp [h, ctl_tr h, ctl_ru h, mod_n, Nat.mod_one, rdOff, rdImm?, FWord.Fits, opcAssigned, Bool.toNat_le, FWord.ty, FWord.i, FWord.b, rdCD, rdABC, List.any_append, rdAB_any, rdB_any, rdA_any]
theorem Laws.RoundTrip.grpinfo (c : Ctl) (d : VReg) (sel : Fin 4) : Statement (.grpinfo c d sel) := by
  intro _ h
  replace h : (c.ok false false) = true := h
  refine reads_of (f := ⟨0x194, d.val, 0, sel.val, 0, c.gp.val, c.gn.toNat, 0, 0, c.tr.toNat, c.ru.toNat, 0⟩) rfl ?_
  simp only [readF, decodeXl]
  simp [h, ctl_tr h, ctl_ru h, mod_n, Nat.mod_one, rdOff, rdImm?, FWord.Fits, opcAssigned, Bool.toNat_le, FWord.ty, FWord.i, FWord.b, rdCD, rdABC, List.any_append, rdAB_any, rdB_any, rdA_any]
theorem Laws.RoundTrip.rdspec (c : Ctl) (d : VReg) (idx : Fin 22) : Statement (.rdspec c d idx) := by
  intro _ h
  replace h : (c.ok false false) = true := h
  refine reads_of (f := ⟨0x195, d.val, 0, idx.val, 0, c.gp.val, c.gn.toNat, 0, 0, c.tr.toNat, c.ru.toNat, 0⟩) rfl ?_
  simp only [readF, decodeXl]
  simp [h, ctl_tr h, ctl_ru h, mod_n, Nat.mod_one, rdOff, rdImm?, FWord.Fits, opcAssigned, Bool.toNat_le, FWord.ty, FWord.i, FWord.b, rdCD, rdABC, List.any_append, rdAB_any, rdB_any, rdA_any]
theorem Laws.RoundTrip.shape (c : Ctl) (d : VReg) (b : Src) : Statement (.shape c d b) := by
  intro _ h
  replace h : (c.ok true true && wfB 1 false b && b.off0) = true := h
  simp only [Bool.and_eq_true] at h
  refine reads_of (f := ⟨0x196, d.val, 0, b.field, 0 + b.scPart, c.gp.val, c.gn.toNat, 0, 0, c.tr.toNat, c.ru.toNat, 0 + (if b.isImm = true then 64 else 0)⟩) rfl ?_
  simp only [readF, decodeXl]
  simp [h, wfB_imm h.1.2, mod_n, Nat.mod_one, rdOff, rdImm?, FWord.Fits, opcAssigned, Bool.toNat_le, FWord.ty, FWord.i, FWord.b, rdCD, rdABC, List.any_append, rdAB_any, rdB_any, rdA_any] <;> exact off0_sc h.2 (wfB_imm h.1.2)
theorem Laws.RoundTrip.movg (c : Ctl) (t : BitTy) (d : VReg) (b : Src) : Statement (.movg c t d b) := by
  intro _ h
  replace h : (c.ok true true && wfD t.regs d && wfB t.regs false b && b.off0) = true := h
  simp only [Bool.and_eq_true, wfD, beq_iff_eq] at h
  refine reads_of (f := ⟨0x197, d.val, 0, b.field, 0 + b.scPart, c.gp.val, c.gn.toNat, 0, 0, c.tr.toNat, c.ru.toNat, t.code + (if b.isImm = true then 64 else 0)⟩) rfl ?_
  simp only [readF, decodeXl]
  simp [h, wfB_imm h.1.2, mod_n, Nat.mod_one, rdOff, rdImm?, FWord.Fits, opcAssigned, Bool.toNat_le, FWord.ty, FWord.i, FWord.b, rdCD, rdABC, List.any_append, rdAB_any, rdB_any, rdA_any] <;> exact off0_sc h.2 (wfB_imm h.1.2)
theorem Laws.RoundTrip.ld_imm (c : Ctl) (f prv : Bool) (cp : LdCp) (t : LdTy) (d a : VReg) (iv : BitVec 16) : Statement (.ld c f prv cp t d a (.imm iv)) := by
  intro _ h
  replace h : (c.ok false true && wfD t.regs d) = true := h
  simp only [Bool.and_eq_true, wfD, beq_iff_eq] at h
  refine reads_of (f := ⟨0x1C0, d.val, a.val, iv.toNat / 256, iv.toNat % 256, c.gp.val, c.gn.toNat, 0, flag prv 4 + cp.code, c.tr.toNat, c.ru.toNat, flag f 32 + t.code + 64⟩) rfl ?_
  simp only [readF, decodeMem]
  cases prv <;> cases cp <;> simp [h, ctl_tr h.1, LdCp.code, ldCpOf, mod_n, Nat.mod_one, rdOff, rdImm?, FWord.Fits, opcAssigned, Bool.toNat_le, FWord.ty, FWord.i, FWord.b, rdCD, rdABC, List.any_append, rdAB_any, rdB_any, rdA_any]
theorem Laws.RoundTrip.ld_reg (c : Ctl) (f prv : Bool) (cp : LdCp) (t : LdTy) (d a ir : VReg) : Statement (.ld c f prv cp t d a (.reg ir)) := by
  intro _ h
  replace h : (c.ok false true && wfD t.regs d) = true := h
  simp only [Bool.and_eq_true, wfD, beq_iff_eq] at h
  refine reads_of (f := ⟨0x1C0, d.val, a.val, ir.val, 0, c.gp.val, c.gn.toNat, 0, flag prv 4 + cp.code, c.tr.toNat, c.ru.toNat, flag f 32 + t.code⟩) rfl ?_
  simp only [readF, decodeMem]
  cases prv <;> cases cp <;> simp [h, ctl_tr h.1, LdCp.code, ldCpOf, mod_n, Nat.mod_one, rdOff, rdImm?, FWord.Fits, opcAssigned, Bool.toNat_le, FWord.ty, FWord.i, FWord.b, rdCD, rdABC, List.any_append, rdAB_any, rdB_any, rdA_any]
theorem Laws.RoundTrip.ld (c : Ctl) (f prv : Bool) (cp : LdCp) (t : LdTy) (d a : VReg) (o : Off) : Statement (.ld c f prv cp t d a o) := by
  cases o with
  | imm iv =>
    exact ld_imm _ _ _ _ _ _ _ _
  | reg ir =>
    exact ld_reg _ _ _ _ _ _ _ _
theorem Laws.RoundTrip.st_imm (c : Ctl) (f prv : Bool) (t : StTy) (d a : VReg) (iv : BitVec 16) : Statement (.st c f prv t d a (.imm iv)) := by
  intro _ h
  replace h : (c.ok false true && wfD t.regs d) = true := h
  simp only [Bool.and_eq_true, wfD, beq_iff_eq] at h
  refine reads_of (f := ⟨0x1C1, d.val, a.val, iv.toNat / 256, iv.toNat % 256, c.gp.val, c.gn.toNat, 0, flag prv 4, c.tr.toNat, c.ru.toNat, flag f 32 + t.code + 64⟩) rfl ?_
  simp only [readF, decodeMem]
  cases prv <;> simp [h, ctl_tr h.1, mod_n, Nat.mod_one, rdOff, rdImm?, FWord.Fits, opcAssigned, Bool.toNat_le, FWord.ty, FWord.i, FWord.b, rdCD, rdABC, List.any_append, rdAB_any, rdB_any, rdA_any]
theorem Laws.RoundTrip.st_reg (c : Ctl) (f prv : Bool) (t : StTy) (d a ir : VReg) : Statement (.st c f prv t d a (.reg ir)) := by
  intro _ h
  replace h : (c.ok false true && wfD t.regs d) = true := h
  simp only [Bool.and_eq_true, wfD, beq_iff_eq] at h
  refine reads_of (f := ⟨0x1C1, d.val, a.val, ir.val, 0, c.gp.val, c.gn.toNat, 0, flag prv 4, c.tr.toNat, c.ru.toNat, flag f 32 + t.code⟩) rfl ?_
  simp only [readF, decodeMem]
  cases prv <;> simp [h, ctl_tr h.1, mod_n, Nat.mod_one, rdOff, rdImm?, FWord.Fits, opcAssigned, Bool.toNat_le, FWord.ty, FWord.i, FWord.b, rdCD, rdABC, List.any_append, rdAB_any, rdB_any, rdA_any]
theorem Laws.RoundTrip.st (c : Ctl) (f prv : Bool) (t : StTy) (d a : VReg) (o : Off) : Statement (.st c f prv t d a o) := by
  cases o with
  | imm iv =>
    exact st_imm _ _ _ _ _ _ _
  | reg ir =>
    exact st_reg _ _ _ _ _ _ _
theorem Laws.RoundTrip.lds_inl_imm (c : Ctl) (f : Bool) (t : LdTy) (sd a : VReg) (iv : BitVec 16) : Statement (.lds c f t (.inl sd) a (.imm iv)) := by
  intro _ h
  replace h : (c.ok false true && wfD t.regs sd) = true := h
  simp only [Bool.and_eq_true, wfD, beq_iff_eq] at h
  refine reads_of (f := ⟨0x1C2, sd.val, a.val, iv.toNat / 256, iv.toNat % 256, c.gp.val, c.gn.toNat, 0, 0, c.tr.toNat, c.ru.toNat, flag f 32 + t.code + 64⟩) rfl ?_
  simp only [readF, decodeMem]
  simp [h, ctl_tr h.1, mod_n, Nat.mod_one, rdOff, rdImm?, FWord.Fits, opcAssigned, Bool.toNat_le, FWord.ty, FWord.i, FWord.b, rdCD, rdABC, List.any_append, rdAB_any, rdB_any, rdA_any]
theorem Laws.RoundTrip.lds_inl_reg (c : Ctl) (f : Bool) (t : LdTy) (sd a ir : VReg) : Statement (.lds c f t (.inl sd) a (.reg ir)) := by
  intro _ h
  replace h : (c.ok false true && wfD t.regs sd) = true := h
  simp only [Bool.and_eq_true, wfD, beq_iff_eq] at h
  refine reads_of (f := ⟨0x1C2, sd.val, a.val, ir.val, 0, c.gp.val, c.gn.toNat, 0, 0, c.tr.toNat, c.ru.toNat, flag f 32 + t.code⟩) rfl ?_
  simp only [readF, decodeMem]
  simp [h, ctl_tr h.1, mod_n, Nat.mod_one, rdOff, rdImm?, FWord.Fits, opcAssigned, Bool.toNat_le, FWord.ty, FWord.i, FWord.b, rdCD, rdABC, List.any_append, rdAB_any, rdB_any, rdA_any]
theorem Laws.RoundTrip.lds_inr_imm (c : Ctl) (f : Bool) (t : LdTy) (sh : HReg) (a : VReg) (iv : BitVec 16) : Statement (.lds c f t (.inr sh) a (.imm iv)) := by
  intro _ h
  replace h : (c.ok false true && t == .b32) = true := h
  simp only [Bool.and_eq_true, beq_iff_eq] at h
  refine reads_of (f := ⟨0x1C2, sh.val, a.val, iv.toNat / 256, iv.toNat % 256, c.gp.val, c.gn.toNat, 0, 4, c.tr.toNat, c.ru.toNat, flag f 32 + t.code + 64⟩) rfl ?_
  simp only [readF, decodeMem]
  simp [h, ctl_tr h.1, mod_n, Nat.mod_one, rdOff, rdImm?, FWord.Fits, opcAssigned, Bool.toNat_le, FWord.ty, FWord.i, FWord.b, rdCD, rdABC, List.any_append, rdAB_any, rdB_any, rdA_any]
theorem Laws.RoundTrip.lds_inr_reg (c : Ctl) (f : Bool) (t : LdTy) (sh : HReg) (a ir : VReg) : Statement (.lds c f t (.inr sh) a (.reg ir)) := by
  intro _ h
  replace h : (c.ok false true && t == .b32) = true := h
  simp only [Bool.and_eq_true, beq_iff_eq] at h
  refine reads_of (f := ⟨0x1C2, sh.val, a.val, ir.val, 0, c.gp.val, c.gn.toNat, 0, 4, c.tr.toNat, c.ru.toNat, flag f 32 + t.code⟩) rfl ?_
  simp only [readF, decodeMem]
  simp [h, ctl_tr h.1, mod_n, Nat.mod_one, rdOff, rdImm?, FWord.Fits, opcAssigned, Bool.toNat_le, FWord.ty, FWord.i, FWord.b, rdCD, rdABC, List.any_append, rdAB_any, rdB_any, rdA_any]
theorem Laws.RoundTrip.lds (c : Ctl) (f : Bool) (t : LdTy) (d : VReg ⊕ HReg) (a : VReg) (o : Off) : Statement (.lds c f t d a o) := by
  cases d with
  | inl sd =>
    cases o with
    | imm iv =>
      exact lds_inl_imm _ _ _ _ _ _
    | reg ir =>
      exact lds_inl_reg _ _ _ _ _ _
  | inr sh =>
    cases o with
    | imm iv =>
      exact lds_inr_imm _ _ _ _ _ _
    | reg ir =>
      exact lds_inr_reg _ _ _ _ _ _
theorem Laws.RoundTrip.sts_inl_imm (c : Ctl) (f : Bool) (t : StTy) (sd a : VReg) (iv : BitVec 16) : Statement (.sts c f t (.inl sd) a (.imm iv)) := by
  intro _ h
  replace h : (c.ok false true && wfD t.regs sd) = true := h
  simp only [Bool.and_eq_true, wfD, beq_iff_eq] at h
  refine reads_of (f := ⟨0x1C3, sd.val, a.val, iv.toNat / 256, iv.toNat % 256, c.gp.val, c.gn.toNat, 0, 0, c.tr.toNat, c.ru.toNat, flag f 32 + t.code + 64⟩) rfl ?_
  simp only [readF, decodeMem]
  simp [h, ctl_tr h.1, mod_n, Nat.mod_one, rdOff, rdImm?, FWord.Fits, opcAssigned, Bool.toNat_le, FWord.ty, FWord.i, FWord.b, rdCD, rdABC, List.any_append, rdAB_any, rdB_any, rdA_any]
theorem Laws.RoundTrip.sts_inl_reg (c : Ctl) (f : Bool) (t : StTy) (sd a ir : VReg) : Statement (.sts c f t (.inl sd) a (.reg ir)) := by
  intro _ h
  replace h : (c.ok false true && wfD t.regs sd) = true := h
  simp only [Bool.and_eq_true, wfD, beq_iff_eq] at h
  refine reads_of (f := ⟨0x1C3, sd.val, a.val, ir.val, 0, c.gp.val, c.gn.toNat, 0, 0, c.tr.toNat, c.ru.toNat, flag f 32 + t.code⟩) rfl ?_
  simp only [readF, decodeMem]
  simp [h, ctl_tr h.1, mod_n, Nat.mod_one, rdOff, rdImm?, FWord.Fits, opcAssigned, Bool.toNat_le, FWord.ty, FWord.i, FWord.b, rdCD, rdABC, List.any_append, rdAB_any, rdB_any, rdA_any]
theorem Laws.RoundTrip.sts_inr_imm (c : Ctl) (f : Bool) (t : StTy) (sh : HReg) (a : VReg) (iv : BitVec 16) : Statement (.sts c f t (.inr sh) a (.imm iv)) := by
  intro _ h
  replace h : (c.ok false true && t == .b32) = true := h
  simp only [Bool.and_eq_true, beq_iff_eq] at h
  refine reads_of (f := ⟨0x1C3, sh.val, a.val, iv.toNat / 256, iv.toNat % 256, c.gp.val, c.gn.toNat, 0, 4, c.tr.toNat, c.ru.toNat, flag f 32 + t.code + 64⟩) rfl ?_
  simp only [readF, decodeMem]
  simp [h, ctl_tr h.1, mod_n, Nat.mod_one, rdOff, rdImm?, FWord.Fits, opcAssigned, Bool.toNat_le, FWord.ty, FWord.i, FWord.b, rdCD, rdABC, List.any_append, rdAB_any, rdB_any, rdA_any]
theorem Laws.RoundTrip.sts_inr_reg (c : Ctl) (f : Bool) (t : StTy) (sh : HReg) (a ir : VReg) : Statement (.sts c f t (.inr sh) a (.reg ir)) := by
  intro _ h
  replace h : (c.ok false true && t == .b32) = true := h
  simp only [Bool.and_eq_true, beq_iff_eq] at h
  refine reads_of (f := ⟨0x1C3, sh.val, a.val, ir.val, 0, c.gp.val, c.gn.toNat, 0, 4, c.tr.toNat, c.ru.toNat, flag f 32 + t.code⟩) rfl ?_
  simp only [readF, decodeMem]
  simp [h, ctl_tr h.1, mod_n, Nat.mod_one, rdOff, rdImm?, FWord.Fits, opcAssigned, Bool.toNat_le, FWord.ty, FWord.i, FWord.b, rdCD, rdABC, List.any_append, rdAB_any, rdB_any, rdA_any]
theorem Laws.RoundTrip.sts (c : Ctl) (f : Bool) (t : StTy) (d : VReg ⊕ HReg) (a : VReg) (o : Off) : Statement (.sts c f t d a o) := by
  cases d with
  | inl sd =>
    cases o with
    | imm iv =>
      exact sts_inl_imm _ _ _ _ _ _
    | reg ir =>
      exact sts_inl_reg _ _ _ _ _ _
  | inr sh =>
    cases o with
    | imm iv =>
      exact sts_inr_imm _ _ _ _ _ _
    | reg ir =>
      exact sts_inr_reg _ _ _ _ _ _
theorem Laws.RoundTrip.ldp_some (c : Ctl) (t : WinTy) (n : Fin 8) (d a : VReg) (ov : BitVec 16) : Statement (.ldp c t n d a (some ov)) := by
  intro _ h
  replace h : (c.ok false true && wfD t.regs d) = true := h
  simp only [Bool.and_eq_true, wfD, beq_iff_eq] at h
  refine reads_of (f := ⟨0x1C4, d.val, a.val, ov.toNat / 256, ov.toNat % 256, c.gp.val, c.gn.toNat, 0, n.val, c.tr.toNat, c.ru.toNat, t.code + 64⟩) rfl ?_
  simp only [readF, decodeMem]
  simp [h, ctl_tr h.1, mod_n, Nat.mod_one, rdOff, rdImm?, FWord.Fits, opcAssigned, Bool.toNat_le, FWord.ty, FWord.i, FWord.b, rdCD, rdABC, List.any_append, rdAB_any, rdB_any, rdA_any]
theorem Laws.RoundTrip.ldp_none (c : Ctl) (t : WinTy) (n : Fin 8) (d a : VReg) : Statement (.ldp c t n d a none) := by
  intro _ h
  replace h : (c.ok false true && wfD t.regs d) = true := h
  simp only [Bool.and_eq_true, wfD, beq_iff_eq] at h
  refine reads_of (f := ⟨0x1C4, d.val, a.val, 0, 0, c.gp.val, c.gn.toNat, 0, n.val, c.tr.toNat, c.ru.toNat, t.code⟩) rfl ?_
  simp only [readF, decodeMem]
  simp [h, ctl_tr h.1, mod_n, Nat.mod_one, rdOff, rdImm?, FWord.Fits, opcAssigned, Bool.toNat_le, FWord.ty, FWord.i, FWord.b, rdCD, rdABC, List.any_append, rdAB_any, rdB_any, rdA_any]
theorem Laws.RoundTrip.ldp (c : Ctl) (t : WinTy) (n : Fin 8) (d a : VReg) (w : Option (BitVec 16)) : Statement (.ldp c t n d a w) := by
  cases w with
  | some ov =>
    exact ldp_some _ _ _ _ _ _
  | none =>
    exact ldp_none _ _ _ _ _
theorem Laws.RoundTrip.gather (c : Ctl) (f : Bool) (t : BitTy) (d a b : VReg) (sx : Bool) (sh : Fin 5) : Statement (.gather c f t d a b sx sh) := by
  intro _ h
  replace h : (c.ok false true && wfD t.regs d) = true := h
  simp only [Bool.and_eq_true, wfD, beq_iff_eq] at h
  refine reads_of (f := ⟨0x1C5, d.val, a.val, b.val, flag sx 8 + sh.val, c.gp.val, c.gn.toNat, 0, 0, c.tr.toNat, c.ru.toNat, flag f 32 + t.code⟩) rfl ?_
  simp only [readF, decodeMem]
  simp [h, ctl_tr h.1, gather_sc sx sh, mod_n, Nat.mod_one, rdOff, rdImm?, FWord.Fits, opcAssigned, Bool.toNat_le, FWord.ty, FWord.i, FWord.b, rdCD, rdABC, List.any_append, rdAB_any, rdB_any, rdA_any] <;> exact (gather_sc sx sh).2.1
theorem Laws.RoundTrip.scatter (c : Ctl) (f : Bool) (t : BitTy) (d a b : VReg) (sx : Bool) (sh : Fin 5) : Statement (.scatter c f t d a b sx sh) := by
  intro _ h
  replace h : (c.ok false true && wfD t.regs d) = true := h
  simp only [Bool.and_eq_true, wfD, beq_iff_eq] at h
  refine reads_of (f := ⟨0x1C6, d.val, a.val, b.val, flag sx 8 + sh.val, c.gp.val, c.gn.toNat, 0, 0, c.tr.toNat, c.ru.toNat, flag f 32 + t.code⟩) rfl ?_
  simp only [readF, decodeMem]
  simp [h, ctl_tr h.1, gather_sc sx sh, mod_n, Nat.mod_one, rdOff, rdImm?, FWord.Fits, opcAssigned, Bool.toNat_le, FWord.ty, FWord.i, FWord.b, rdCD, rdABC, List.any_append, rdAB_any, rdB_any, rdA_any] <;> exact (gather_sc sx sh).2.1
theorem Laws.RoundTrip.atom_some (c : Ctl) (f : Bool) (op : Aop) (d a b ov : VReg) : Statement (.atom c f op d a b (some ov)) := by
  intro _ h
  replace h : (c.ok false true && wfD op.regs d && wfD op.regs b && op.third (some ov)) = true := by cases op <;> exact h
  simp only [Bool.and_eq_true, wfD, beq_iff_eq] at h
  refine reads_of (f := ⟨0x1C7, d.val, a.val, b.val, ov.val, c.gp.val, c.gn.toNat, op.code.1 / 8, op.code.1 % 8, c.tr.toNat, c.ru.toNat, flag f 32 + op.code.2⟩) rfl ?_
  simp only [readF, decodeMem]
  simp [h, ctl_tr h.1.1.1, (Aop.third_some h.2).1, (Aop.third_some h.2).2, mod_n, Nat.mod_one, rdOff, rdImm?, FWord.Fits, opcAssigned, Bool.toNat_le, FWord.ty, FWord.i, FWord.b, rdCD, rdABC, List.any_append, rdAB_any, rdB_any, rdA_any]
theorem Laws.RoundTrip.atom_none (c : Ctl) (f : Bool) (op : Aop) (d a b : VReg) : Statement (.atom c f op d a b none) := by
  intro _ h
  replace h : (c.ok false true && wfD op.regs d && wfD op.regs b && op.third none) = true := by cases op <;> exact h
  simp only [Bool.and_eq_true, wfD, beq_iff_eq] at h
  refine reads_of (f := ⟨0x1C7, d.val, a.val, b.val, 0, c.gp.val, c.gn.toNat, op.code.1 / 8, op.code.1 % 8, c.tr.toNat, c.ru.toNat, flag f 32 + op.code.2⟩) rfl ?_
  simp only [readF, decodeMem]
  simp [h, ctl_tr h.1.1.1, Aop.third_none h.2, mod_n, Nat.mod_one, rdOff, rdImm?, FWord.Fits, opcAssigned, Bool.toNat_le, FWord.ty, FWord.i, FWord.b, rdCD, rdABC, List.any_append, rdAB_any, rdB_any, rdA_any]
theorem Laws.RoundTrip.atom (c : Ctl) (f : Bool) (op : Aop) (d a b : VReg) (e : Option VReg) : Statement (.atom c f op d a b e) := by
  cases e with
  | some ov =>
    exact atom_some _ _ _ _ _ _ _
  | none =>
    exact atom_none _ _ _ _ _ _
theorem Laws.RoundTrip.red (c : Ctl) (f : Bool) (op : Aop) (a b : VReg) : Statement (.red c f op a b) := by
  intro _ h
  replace h : (c.ok false true && wfD op.regs b && !op.isCas) = true := by cases op <;> exact h
  simp only [Bool.and_eq_true, wfD, beq_iff_eq, Bool.not_eq_true'] at h
  refine reads_of (f := ⟨0x1C8, 0, a.val, b.val, 0, c.gp.val, c.gn.toNat, op.code.1 / 8, op.code.1 % 8, c.tr.toNat, c.ru.toNat, flag f 32 + op.code.2⟩) rfl ?_
  simp only [readF, decodeMem]
  simp [h, ctl_tr h.1.1, mod_n, Nat.mod_one, rdOff, rdImm?, FWord.Fits, opcAssigned, Bool.toNat_le, FWord.ty, FWord.i, FWord.b, rdCD, rdABC, List.any_append, rdAB_any, rdB_any, rdA_any]
theorem Laws.RoundTrip.atoms_some (c : Ctl) (f : Bool) (op : Aop) (d a b ov : VReg) : Statement (.atoms c f op d a b (some ov)) := by
  intro _ h
  replace h : (c.ok false true && wfD op.regs d && wfD op.regs b && op.third (some ov)) = true := by cases op <;> exact h
  simp only [Bool.and_eq_true, wfD, beq_iff_eq] at h
  refine reads_of (f := ⟨0x1C9, d.val, a.val, b.val, ov.val, c.gp.val, c.gn.toNat, op.code.1 / 8, op.code.1 % 8, c.tr.toNat, c.ru.toNat, flag f 32 + op.code.2⟩) rfl ?_
  simp only [readF, decodeMem]
  simp [h, ctl_tr h.1.1.1, (Aop.third_some h.2).1, (Aop.third_some h.2).2, mod_n, Nat.mod_one, rdOff, rdImm?, FWord.Fits, opcAssigned, Bool.toNat_le, FWord.ty, FWord.i, FWord.b, rdCD, rdABC, List.any_append, rdAB_any, rdB_any, rdA_any]
theorem Laws.RoundTrip.atoms_none (c : Ctl) (f : Bool) (op : Aop) (d a b : VReg) : Statement (.atoms c f op d a b none) := by
  intro _ h
  replace h : (c.ok false true && wfD op.regs d && wfD op.regs b && op.third none) = true := by cases op <;> exact h
  simp only [Bool.and_eq_true, wfD, beq_iff_eq] at h
  refine reads_of (f := ⟨0x1C9, d.val, a.val, b.val, 0, c.gp.val, c.gn.toNat, op.code.1 / 8, op.code.1 % 8, c.tr.toNat, c.ru.toNat, flag f 32 + op.code.2⟩) rfl ?_
  simp only [readF, decodeMem]
  simp [h, ctl_tr h.1.1.1, Aop.third_none h.2, mod_n, Nat.mod_one, rdOff, rdImm?, FWord.Fits, opcAssigned, Bool.toNat_le, FWord.ty, FWord.i, FWord.b, rdCD, rdABC, List.any_append, rdAB_any, rdB_any, rdA_any]
theorem Laws.RoundTrip.atoms (c : Ctl) (f : Bool) (op : Aop) (d a b : VReg) (e : Option VReg) : Statement (.atoms c f op d a b e) := by
  cases e with
  | some ov =>
    exact atoms_some _ _ _ _ _ _ _
  | none =>
    exact atoms_none _ _ _ _ _ _
theorem Laws.RoundTrip.pref_imm (c : Ctl) (mt : Bool) (a : VReg) (iv : BitVec 16) : Statement (.pref c mt a (.imm iv)) := by
  intro _ h
  replace h : (c.ok false true) = true := h
  refine reads_of (f := ⟨0x1CA, 0, a.val, iv.toNat / 256, iv.toNat % 256, c.gp.val, c.gn.toNat, 0, mt.toNat, c.tr.toNat, c.ru.toNat, 0 + 64⟩) rfl ?_
  simp only [readF, decodeMem]
  simp [h, ctl_tr h, mod_n, Nat.mod_one, rdOff, rdImm?, FWord.Fits, opcAssigned, Bool.toNat_le, FWord.ty, FWord.i, FWord.b, rdCD, rdABC, List.any_append, rdAB_any, rdB_any, rdA_any]
theorem Laws.RoundTrip.pref_reg (c : Ctl) (mt : Bool) (a ir : VReg) : Statement (.pref c mt a (.reg ir)) := by
  intro _ h
  replace h : (c.ok false true) = true := h
  refine reads_of (f := ⟨0x1CA, 0, a.val, ir.val, 0, c.gp.val, c.gn.toNat, 0, mt.toNat, c.tr.toNat, c.ru.toNat, 0⟩) rfl ?_
  simp only [readF, decodeMem]
  simp [h, ctl_tr h, mod_n, Nat.mod_one, rdOff, rdImm?, FWord.Fits, opcAssigned, Bool.toNat_le, FWord.ty, FWord.i, FWord.b, rdCD, rdABC, List.any_append, rdAB_any, rdB_any, rdA_any]
theorem Laws.RoundTrip.pref (c : Ctl) (mt : Bool) (a : VReg) (o : Off) : Statement (.pref c mt a o) := by
  cases o with
  | imm iv =>
    exact pref_imm _ _ _ _
  | reg ir =>
    exact pref_reg _ _ _ _
theorem Laws.RoundTrip.cctlIvl_imm (c : Ctl) (a : VReg) (iv : BitVec 16) : Statement (.cctlIvl c a (.imm iv)) := by
  intro _ h
  replace h : (c.ok false true) = true := h
  refine reads_of (f := ⟨0x1CB, 0, a.val, iv.toNat / 256, iv.toNat % 256, c.gp.val, c.gn.toNat, 0, 0, c.tr.toNat, c.ru.toNat, 0 + 64⟩) rfl ?_
  simp only [readF, decodeMem]
  simp [h, ctl_tr h, mod_n, Nat.mod_one, rdOff, rdImm?, FWord.Fits, opcAssigned, Bool.toNat_le, FWord.ty, FWord.i, FWord.b, rdCD, rdABC, List.any_append, rdAB_any, rdB_any, rdA_any]
theorem Laws.RoundTrip.cctlIvl_reg (c : Ctl) (a ir : VReg) : Statement (.cctlIvl c a (.reg ir)) := by
  intro _ h
  replace h : (c.ok false true) = true := h
  refine reads_of (f := ⟨0x1CB, 0, a.val, ir.val, 0, c.gp.val, c.gn.toNat, 0, 0, c.tr.toNat, c.ru.toNat, 0⟩) rfl ?_
  simp only [readF, decodeMem]
  simp [h, ctl_tr h, mod_n, Nat.mod_one, rdOff, rdImm?, FWord.Fits, opcAssigned, Bool.toNat_le, FWord.ty, FWord.i, FWord.b, rdCD, rdABC, List.any_append, rdAB_any, rdB_any, rdA_any]
theorem Laws.RoundTrip.cctlIvl (c : Ctl) (a : VReg) (o : Off) : Statement (.cctlIvl c a o) := by
  cases o with
  | imm iv =>
    exact cctlIvl_imm _ _ _
  | reg ir =>
    exact cctlIvl_reg _ _ _
theorem Laws.RoundTrip.cctlIvr (c : Ctl) (a b : VReg) : Statement (.cctlIvr c a b) := by
  intro _ h
  replace h : (c.ok false true) = true := h
  refine reads_of (f := ⟨0x1CB, 0, a.val, b.val, 0, c.gp.val, c.gn.toNat, 1, 0, c.tr.toNat, c.ru.toNat, 0⟩) rfl ?_
  simp only [readF, decodeMem]
  simp [h, ctl_tr h, mod_n, Nat.mod_one, rdOff, rdImm?, FWord.Fits, opcAssigned, Bool.toNat_le, FWord.ty, FWord.i, FWord.b, rdCD, rdABC, List.any_append, rdAB_any, rdB_any, rdA_any]
theorem Laws.RoundTrip.cctlIva (c : Ctl) : Statement (.cctlIva c) := by
  intro _ h
  replace h : (c.ok false false) = true := h
  refine reads_of (f := ⟨0x1CB, 0, 0, 0, 0, c.gp.val, c.gn.toNat, 2, 0, c.tr.toNat, c.ru.toNat, 0⟩) rfl ?_
  simp only [readF, decodeMem]
  simp [h, ctl_tr h, ctl_ru h, mod_n, Nat.mod_one, rdOff, rdImm?, FWord.Fits, opcAssigned, Bool.toNat_le, FWord.ty, FWord.i, FWord.b, rdCD, rdABC, List.any_append, rdAB_any, rdB_any, rdA_any]
theorem Laws.RoundTrip.bind (c : Ctl) (f : Bool) (sc : Scope) (a b e : VReg) : Statement (.bind c f sc a b e) := by
  intro _ h
  replace h : (c.ok false true && wfD 2 b && wfD 2 e) = true := h
  simp only [Bool.and_eq_true, wfD, beq_iff_eq] at h
  refine reads_of (f := ⟨0x1CC, 0, a.val, b.val, e.val, c.gp.val, c.gn.toNat, sc.code, 0, c.tr.toNat, c.ru.toNat, flag f 32⟩) rfl ?_
  simp only [readF, decodeSync]
  simp [h, ctl_tr h.1.1, mod_n, Nat.mod_one, rdOff, rdImm?, FWord.Fits, opcAssigned, Bool.toNat_le, FWord.ty, FWord.i, FWord.b, rdCD, rdABC, List.any_append, rdAB_any, rdB_any, rdA_any]
theorem Laws.RoundTrip.acqLock (c : Ctl) (sc : Scope) (p : Pred) (a : VReg) : Statement (.acqLock c sc p a) := by
  intro _ h
  replace h : (c.ok false true) = true := h
  refine reads_of (f := ⟨0x1CD, p.val, a.val, 0, 0, c.gp.val, c.gn.toNat, sc.code, 0, c.tr.toNat, c.ru.toNat, 0⟩) rfl ?_
  simp only [readF, decodeSync]
  simp [h, ctl_tr h, mod_n, Nat.mod_one, rdOff, rdImm?, FWord.Fits, opcAssigned, Bool.toNat_le, FWord.ty, FWord.i, FWord.b, rdCD, rdABC, List.any_append, rdAB_any, rdB_any, rdA_any]
theorem Laws.RoundTrip.acqGen (c : Ctl) (sc : Scope) (p : Pred) (a b : VReg) : Statement (.acqGen c sc p a b) := by
  intro _ h
  replace h : (c.ok false true) = true := h
  refine reads_of (f := ⟨0x1CD, p.val, a.val, b.val, 0, c.gp.val, c.gn.toNat, sc.code, 0, c.tr.toNat, c.ru.toNat, 1⟩) rfl ?_
  simp only [readF, decodeSync]
  simp [h, ctl_tr h, mod_n, Nat.mod_one, rdOff, rdImm?, FWord.Fits, opcAssigned, Bool.toNat_le, FWord.ty, FWord.i, FWord.b, rdCD, rdABC, List.any_append, rdAB_any, rdB_any, rdA_any]
theorem Laws.RoundTrip.rel (c : Ctl) (unlock : Bool) (sc : Scope) (a : VReg) : Statement (.rel c unlock sc a) := by
  intro _ h
  replace h : (c.ok false true) = true := h
  refine reads_of (f := ⟨0x1CE, 0, a.val, 0, 0, c.gp.val, c.gn.toNat, sc.code, 0, c.tr.toNat, c.ru.toNat, unlock.toNat⟩) rfl ?_
  simp only [readF, decodeSync]
  simp [h, ctl_tr h, mod_n, Nat.mod_one, rdOff, rdImm?, FWord.Fits, opcAssigned, Bool.toNat_le, FWord.ty, FWord.i, FWord.b, rdCD, rdABC, List.any_append, rdAB_any, rdB_any, rdA_any]
theorem Laws.RoundTrip.fence (c : Ctl) (sc : Scope) : Statement (.fence c sc) := by
  intro _ h
  replace h : (c.ok false false) = true := h
  refine reads_of (f := ⟨0x1CF, 0, 0, 0, 0, c.gp.val, c.gn.toNat, sc.code, 0, c.tr.toNat, c.ru.toNat, 0⟩) rfl ?_
  simp only [readF, decodeSync]
  simp [h, ctl_tr h, ctl_ru h, mod_n, Nat.mod_one, rdOff, rdImm?, FWord.Fits, opcAssigned, Bool.toNat_le, FWord.ty, FWord.i, FWord.b, rdCD, rdABC, List.any_append, rdAB_any, rdB_any, rdA_any]
theorem Laws.RoundTrip.bar (c : Ctl) (pub : Bool) : Statement (.bar c pub) := by
  intro _ h
  replace h : (c.ok false false) = true := h
  refine reads_of (f := ⟨0x1D0, 0, 0, 0, 0, c.gp.val, c.gn.toNat, 0, 0, c.tr.toNat, c.ru.toNat, pub.toNat⟩) rfl ?_
  simp only [readF, decodeSync]
  simp [h, ctl_tr h, ctl_ru h, mod_n, Nat.mod_one, rdOff, rdImm?, FWord.Fits, opcAssigned, Bool.toNat_le, FWord.ty, FWord.i, FWord.b, rdCD, rdABC, List.any_append, rdAB_any, rdB_any, rdA_any]
theorem Laws.RoundTrip.nbar (c : Ctl) (pub : Bool) : Statement (.nbar c pub) := by
  intro _ h
  replace h : (c.ok false false) = true := h
  refine reads_of (f := ⟨0x1D1, 0, 0, 0, 0, c.gp.val, c.gn.toNat, 0, 0, c.tr.toNat, c.ru.toNat, pub.toNat⟩) rfl ?_
  simp only [readF, decodeSync]
  simp [h, ctl_tr h, ctl_ru h, mod_n, Nat.mod_one, rdOff, rdImm?, FWord.Fits, opcAssigned, Bool.toNat_le, FWord.ty, FWord.i, FWord.b, rdCD, rdABC, List.any_append, rdAB_any, rdB_any, rdA_any]
theorem Laws.RoundTrip.seminc (c : Ctl) (f : Bool) (n : BitVec 8) (b : Src) : Statement (.seminc c f n b) := by
  intro _ h
  replace h : (c.ok false b.isReg && wfB 1 false b) = true := h
  simp only [Bool.and_eq_true] at h
  refine reads_of (f := ⟨0x1D2, 0, n.toNat, b.field, 0 + b.scPart, c.gp.val, c.gn.toNat, 0, 0, c.tr.toNat, c.ru.toNat, flag f 32 + 7 + (if b.isImm = true then 64 else 0)⟩) rfl ?_
  simp only [readF, decodeSync]
  simp [h, ctl_tr h.1, win_or_zero h.2, wfB_imm h.2, reuse_src h.1 _ false true, mod_n, Nat.mod_one, rdOff, rdImm?, FWord.Fits, opcAssigned, Bool.toNat_le, FWord.ty, FWord.i, FWord.b, rdCD, rdABC, List.any_append, rdAB_any, rdB_any, rdA_any]
theorem Laws.RoundTrip.semincImm (c : Ctl) (f : Bool) (n : BitVec 8) (v : BitVec 16) : Statement (.semincImm c f n v) := by
  intro _ h
  replace h : (c.ok false false) = true := h
  refine reads_of (f := ⟨0x1D2, 0, n.toNat, v.toNat / 256, v.toNat % 256, c.gp.val, c.gn.toNat, 0, 0, c.tr.toNat, c.ru.toNat, flag f 32 + 7 + 64⟩) rfl ?_
  simp only [readF, decodeSync]
  simp [h, ctl_tr h, ctl_ru h, mod_n, Nat.mod_one, rdOff, rdImm?, FWord.Fits, opcAssigned, Bool.toNat_le, FWord.ty, FWord.i, FWord.b, rdCD, rdABC, List.any_append, rdAB_any, rdB_any, rdA_any]
theorem Laws.RoundTrip.semwait (c : Ctl) (n : BitVec 8) (b : Src) : Statement (.semwait c n b) := by
  intro _ h
  replace h : (c.ok false b.isReg && wfB 1 false b) = true := h
  simp only [Bool.and_eq_true] at h
  refine reads_of (f := ⟨0x1D3, 0, n.toNat, b.field, 0 + b.scPart, c.gp.val, c.gn.toNat, 0, 0, c.tr.toNat, c.ru.toNat, 11 + (if b.isImm = true then 64 else 0)⟩) rfl ?_
  simp only [readF, decodeSync]
  simp [h, ctl_tr h.1, win_or_zero h.2, wfB_imm h.2, reuse_src h.1 _ false true, mod_n, Nat.mod_one, rdOff, rdImm?, FWord.Fits, opcAssigned, Bool.toNat_le, FWord.ty, FWord.i, FWord.b, rdCD, rdABC, List.any_append, rdAB_any, rdB_any, rdA_any]
theorem Laws.RoundTrip.semwaitImm (c : Ctl) (n : BitVec 8) (v : BitVec 16) : Statement (.semwaitImm c n v) := by
  intro _ h
  replace h : (c.ok false false) = true := h
  refine reads_of (f := ⟨0x1D3, 0, n.toNat, v.toNat / 256, v.toNat % 256, c.gp.val, c.gn.toNat, 0, 0, c.tr.toNat, c.ru.toNat, 11 + 64⟩) rfl ?_
  simp only [readF, decodeSync]
  simp [h, ctl_tr h, ctl_ru h, mod_n, Nat.mod_one, rdOff, rdImm?, FWord.Fits, opcAssigned, Bool.toNat_le, FWord.ty, FWord.i, FWord.b, rdCD, rdABC, List.any_append, rdAB_any, rdB_any, rdA_any]
theorem Laws.RoundTrip.semrd (c : Ctl) (f : Bool) (d : VReg) (n : BitVec 8) : Statement (.semrd c f d n) := by
  intro _ h
  replace h : (c.ok false false) = true := h
  refine reads_of (f := ⟨0x1D4, d.val, n.toNat, 0, 0, c.gp.val, c.gn.toNat, 0, 0, c.tr.toNat, c.ru.toNat, flag f 32 + 11⟩) rfl ?_
  simp only [readF, decodeSync]
  simp [h, ctl_tr h, ctl_ru h, mod_n, Nat.mod_one, rdOff, rdImm?, FWord.Fits, opcAssigned, Bool.toNat_le, FWord.ty, FWord.i, FWord.b, rdCD, rdABC, List.any_append, rdAB_any, rdB_any, rdA_any]
theorem Laws.RoundTrip.copy (c : Ctl) (ds ss : CpSpace) (a b e : VReg) : Statement (.copy c ds ss a b e) := by
  intro _ h
  replace h : (c.ok false true) = true := h
  refine reads_of (f := ⟨0x1D5, 0, a.val, b.val, e.val, c.gp.val, c.gn.toNat, 0, 0, c.tr.toNat, c.ru.toNat, ds.code * 4 + ss.code⟩) rfl ?_
  simp only [readF, decodeSync]
  cases ds <;> cases ss <;> simp [h, ctl_tr h, CpSpace.code, rdSpace, mod_n, Nat.mod_one, rdOff, rdImm?, FWord.Fits, opcAssigned, Bool.toNat_le, FWord.ty, FWord.i, FWord.b, rdCD, rdABC, List.any_append, rdAB_any, rdB_any, rdA_any]
theorem Laws.RoundTrip.seal_some (c : Ctl) (cancellable : Bool) (hr : HReg) (ov : BitVec 8) : Statement (.seal c cancellable hr (some ov)) := by
  intro _ h
  replace h : (c.ok false false) = true := h
  refine reads_of (f := ⟨0x1D6, hr.val, ov.toNat, 0, 0, c.gp.val, c.gn.toNat, 0, 0, c.tr.toNat, c.ru.toNat, cancellable.toNat + 2⟩) rfl ?_
  simp only [readF, decodeSync]
  simp [h, ctl_tr h, ctl_ru h, seal_some_md cancellable, mod_n, Nat.mod_one, rdOff, rdImm?, FWord.Fits, opcAssigned, Bool.toNat_le, FWord.ty, FWord.i, FWord.b, rdCD, rdABC, List.any_append, rdAB_any, rdB_any, rdA_any]
theorem Laws.RoundTrip.seal_none (c : Ctl) (cancellable : Bool) (hr : HReg) : Statement (.seal c cancellable hr none) := by
  intro _ h
  replace h : (c.ok false false) = true := h
  refine reads_of (f := ⟨0x1D6, hr.val, 0, 0, 0, c.gp.val, c.gn.toNat, 0, 0, c.tr.toNat, c.ru.toNat, cancellable.toNat + 0⟩) rfl ?_
  simp only [readF, decodeSync]
  simp [h, ctl_tr h, ctl_ru h, seal_none_md cancellable, mod_n, Nat.mod_one, rdOff, rdImm?, FWord.Fits, opcAssigned, Bool.toNat_le, FWord.ty, FWord.i, FWord.b, rdCD, rdABC, List.any_append, rdAB_any, rdB_any, rdA_any]
theorem Laws.RoundTrip.seal (c : Ctl) (cancellable : Bool) (hr : HReg) (sem : Option (BitVec 8)) : Statement (.seal c cancellable hr sem) := by
  cases sem with
  | some ov =>
    exact seal_some _ _ _ _
  | none =>
    exact seal_none _ _ _
theorem Laws.RoundTrip.waitf (c : Ctl) (hr : HReg) : Statement (.waitf c hr) := by
  intro _ h
  replace h : (c.ok false false) = true := h
  refine reads_of (f := ⟨0x1D7, 0, 0, hr.val, 0, c.gp.val, c.gn.toNat, 0, 0, c.tr.toNat, c.ru.toNat, 0⟩) rfl ?_
  simp only [readF, decodeSync]
  simp [h, ctl_tr h, ctl_ru h, mod_n, Nat.mod_one, rdOff, rdImm?, FWord.Fits, opcAssigned, Bool.toNat_le, FWord.ty, FWord.i, FWord.b, rdCD, rdABC, List.any_append, rdAB_any, rdB_any, rdA_any]
theorem Laws.RoundTrip.testf (c : Ctl) (p : Pred) (hr : HReg) : Statement (.testf c p hr) := by
  intro _ h
  replace h : (c.ok false false) = true := h
  refine reads_of (f := ⟨0x1D8, p.val, 0, hr.val, 0, c.gp.val, c.gn.toNat, 0, 0, c.tr.toNat, c.ru.toNat, 0⟩) rfl ?_
  simp only [readF, decodeSync]
  simp [h, ctl_tr h, ctl_ru h, mod_n, Nat.mod_one, rdOff, rdImm?, FWord.Fits, opcAssigned, Bool.toNat_le, FWord.ty, FWord.i, FWord.b, rdCD, rdABC, List.any_append, rdAB_any, rdB_any, rdA_any]
theorem Laws.RoundTrip.cancelf (c : Ctl) (hr : HReg) : Statement (.cancelf c hr) := by
  intro _ h
  replace h : (c.ok false false) = true := h
  refine reads_of (f := ⟨0x1D9, 0, 0, hr.val, 0, c.gp.val, c.gn.toNat, 0, 0, c.tr.toNat, c.ru.toNat, 0⟩) rfl ?_
  simp only [readF, decodeSync]
  simp [h, ctl_tr h, ctl_ru h, mod_n, Nat.mod_one, rdOff, rdImm?, FWord.Fits, opcAssigned, Bool.toNat_le, FWord.ty, FWord.i, FWord.b, rdCD, rdABC, List.any_append, rdAB_any, rdB_any, rdA_any]
theorem Laws.RoundTrip.tilestSet (c : Ctl) (f : Bool) (a b : VReg) : Statement (.tilestSet c f a b) := by
  intro _ h
  replace h : (c.ok false true && wfD 2 b) = true := h
  simp only [Bool.and_eq_true, wfD, beq_iff_eq] at h
  refine reads_of (f := ⟨0x1DA, 0, a.val, b.val, 0, c.gp.val, c.gn.toNat, 0, 0, c.tr.toNat, c.ru.toNat, flag f 32⟩) rfl ?_
  simp only [readF, decodeSync]
  simp [h, ctl_tr h.1, mod_n, Nat.mod_one, rdOff, rdImm?, FWord.Fits, opcAssigned, Bool.toNat_le, FWord.ty, FWord.i, FWord.b, rdCD, rdABC, List.any_append, rdAB_any, rdB_any, rdA_any]
theorem Laws.RoundTrip.tilestFull (c : Ctl) (f : Bool) (a : VReg) : Statement (.tilestFull c f a) := by
  intro _ h
  replace h : (c.ok false true) = true := h
  refine reads_of (f := ⟨0x1DA, 0, a.val, 0, 0, c.gp.val, c.gn.toNat, 1, 0, c.tr.toNat, c.ru.toNat, flag f 32⟩) rfl ?_
  simp only [readF, decodeSync]
  simp [h, ctl_tr h, mod_n, Nat.mod_one, rdOff, rdImm?, FWord.Fits, opcAssigned, Bool.toNat_le, FWord.ty, FWord.i, FWord.b, rdCD, rdABC, List.any_append, rdAB_any, rdB_any, rdA_any]
theorem Laws.RoundTrip.tilestEmpty (c : Ctl) (f : Bool) (a : VReg) : Statement (.tilestEmpty c f a) := by
  intro _ h
  replace h : (c.ok false true) = true := h
  refine reads_of (f := ⟨0x1DA, 0, a.val, 0, 0, c.gp.val, c.gn.toNat, 2, 0, c.tr.toNat, c.ru.toNat, flag f 32⟩) rfl ?_
  simp only [readF, decodeSync]
  simp [h, ctl_tr h, mod_n, Nat.mod_one, rdOff, rdImm?, FWord.Fits, opcAssigned, Bool.toNat_le, FWord.ty, FWord.i, FWord.b, rdCD, rdABC, List.any_append, rdAB_any, rdB_any, rdA_any]
theorem Laws.RoundTrip.tilewaitFull (c : Ctl) (a : VReg) : Statement (.tilewaitFull c a) := by
  intro _ h
  replace h : (c.ok false true) = true := h
  refine reads_of (f := ⟨0x1DB, 0, a.val, 0, 0, c.gp.val, c.gn.toNat, 0, 0, c.tr.toNat, c.ru.toNat, 0⟩) rfl ?_
  simp only [readF, decodeSync]
  simp [h, ctl_tr h, mod_n, Nat.mod_one, rdOff, rdImm?, FWord.Fits, opcAssigned, Bool.toNat_le, FWord.ty, FWord.i, FWord.b, rdCD, rdABC, List.any_append, rdAB_any, rdB_any, rdA_any]
theorem Laws.RoundTrip.tilewaitEmpty (c : Ctl) (a : VReg) : Statement (.tilewaitEmpty c a) := by
  intro _ h
  replace h : (c.ok false true) = true := h
  refine reads_of (f := ⟨0x1DB, 0, a.val, 0, 0, c.gp.val, c.gn.toNat, 1, 0, c.tr.toNat, c.ru.toNat, 0⟩) rfl ?_
  simp only [readF, decodeSync]
  simp [h, ctl_tr h, mod_n, Nat.mod_one, rdOff, rdImm?, FWord.Fits, opcAssigned, Bool.toNat_le, FWord.ty, FWord.i, FWord.b, rdCD, rdABC, List.any_append, rdAB_any, rdB_any, rdA_any]
theorem Laws.RoundTrip.emit (c : Ctl) (f : Bool) (a : VReg) (e : Fin 8) : Statement (.emit c f a e) := by
  intro _ h
  replace h : (c.ok false true && wfD 2 a) = true := h
  simp only [Bool.and_eq_true, wfD, beq_iff_eq] at h
  refine reads_of (f := ⟨0x1DC, 0, a.val, e.val, 0, c.gp.val, c.gn.toNat, 0, 0, c.tr.toNat, c.ru.toNat, flag f 32⟩) rfl ?_
  simp only [readF, decodeSync]
  simp [h, ctl_tr h.1, mod_n, Nat.mod_one, rdOff, rdImm?, FWord.Fits, opcAssigned, Bool.toNat_le, FWord.ty, FWord.i, FWord.b, rdCD, rdABC, List.any_append, rdAB_any, rdB_any, rdA_any]
theorem Laws.RoundTrip.emitx (c : Ctl) (f : Bool) (a b : VReg) : Statement (.emitx c f a b) := by
  intro _ h
  replace h : (c.ok false true && wfD 2 a) = true := h
  simp only [Bool.and_eq_true, wfD, beq_iff_eq] at h
  refine reads_of (f := ⟨0x1DD, 0, a.val, b.val, 0, c.gp.val, c.gn.toNat, 0, 0, c.tr.toNat, c.ru.toNat, flag f 32⟩) rfl ?_
  simp only [readF, decodeSync]
  simp [h, ctl_tr h.1, mod_n, Nat.mod_one, rdOff, rdImm?, FWord.Fits, opcAssigned, Bool.toNat_le, FWord.ty, FWord.i, FWord.b, rdCD, rdABC, List.any_append, rdAB_any, rdB_any, rdA_any]
theorem Laws.RoundTrip.rdrec_some (c : Ctl) (f : Bool) (t : WinTy) (d a : VReg) (ov : BitVec 16) : Statement (.rdrec c f t d a (some ov)) := by
  intro _ h
  replace h : (c.ok false true && wfD t.regs d) = true := h
  simp only [Bool.and_eq_true, wfD, beq_iff_eq] at h
  refine reads_of (f := ⟨0x1DE, d.val, a.val, ov.toNat / 256, ov.toNat % 256, c.gp.val, c.gn.toNat, 0, 0, c.tr.toNat, c.ru.toNat, flag f 32 + t.code + 64⟩) rfl ?_
  simp only [readF, decodeSync]
  simp [h, ctl_tr h.1, mod_n, Nat.mod_one, rdOff, rdImm?, FWord.Fits, opcAssigned, Bool.toNat_le, FWord.ty, FWord.i, FWord.b, rdCD, rdABC, List.any_append, rdAB_any, rdB_any, rdA_any]
theorem Laws.RoundTrip.rdrec_none (c : Ctl) (f : Bool) (t : WinTy) (d a : VReg) : Statement (.rdrec c f t d a none) := by
  intro _ h
  replace h : (c.ok false true && wfD t.regs d) = true := h
  simp only [Bool.and_eq_true, wfD, beq_iff_eq] at h
  refine reads_of (f := ⟨0x1DE, d.val, a.val, 0, 0, c.gp.val, c.gn.toNat, 0, 0, c.tr.toNat, c.ru.toNat, flag f 32 + t.code⟩) rfl ?_
  simp only [readF, decodeSync]
  simp [h, ctl_tr h.1, mod_n, Nat.mod_one, rdOff, rdImm?, FWord.Fits, opcAssigned, Bool.toNat_le, FWord.ty, FWord.i, FWord.b, rdCD, rdABC, List.any_append, rdAB_any, rdB_any, rdA_any]
theorem Laws.RoundTrip.rdrec (c : Ctl) (f : Bool) (t : WinTy) (d a : VReg) (o : Option (BitVec 16)) : Statement (.rdrec c f t d a o) := by
  cases o with
  | some ov =>
    exact rdrec_some _ _ _ _ _ _
  | none =>
    exact rdrec_none _ _ _ _ _
theorem Laws.RoundTrip.enq (c : Ctl) (f : Bool) (n : Fin 8) (p : Pred) (a b : VReg) : Statement (.enq c f n p a b) := by
  intro _ h
  replace h : (c.ok false true && wfD 2 b) = true := h
  simp only [Bool.and_eq_true, wfD, beq_iff_eq] at h
  refine reads_of (f := ⟨0x1DF, p.val, a.val, b.val, 0, c.gp.val, c.gn.toNat, 0, 0, c.tr.toNat, c.ru.toNat, flag f 32 + n.val⟩) rfl ?_
  simp only [readF, decodeSync]
  simp [h, ctl_tr h.1, k8_F f n, mod_n, Nat.mod_one, rdOff, rdImm?, FWord.Fits, opcAssigned, Bool.toNat_le, FWord.ty, FWord.i, FWord.b, rdCD, rdABC, List.any_append, rdAB_any, rdB_any, rdA_any] <;> exact (k8_F f n).2.1
theorem Laws.RoundTrip.rcsnap (c : Ctl) (f : Bool) (n : BitVec 8) (a b : VReg) : Statement (.rcsnap c f n a b) := by
  intro _ h
  replace h : (c.ok false true) = true := h
  refine reads_of (f := ⟨0x1E0, 0, a.val, b.val, n.toNat, c.gp.val, c.gn.toNat, 0, 0, c.tr.toNat, c.ru.toNat, flag f 32⟩) rfl ?_
  simp only [readF, decodeSync]
  simp [h, ctl_tr h, mod_n, Nat.mod_one, rdOff, rdImm?, FWord.Fits, opcAssigned, Bool.toNat_le, FWord.ty, FWord.i, FWord.b, rdCD, rdABC, List.any_append, rdAB_any, rdB_any, rdA_any]
theorem Laws.RoundTrip.sliceq (c : Ctl) (fill : Bool) (hr : HReg) (d b : VReg) : Statement (.sliceq c fill hr d b) := by
  intro _ h
  replace h : (c.ok false true && wfD 2 d) = true := h
  simp only [Bool.and_eq_true, wfD, beq_iff_eq] at h
  refine reads_of (f := ⟨0x1E1, d.val, 0, b.val, hr.val, c.gp.val, c.gn.toNat, 0, 0, c.tr.toNat, c.ru.toNat, fill.toNat⟩) rfl ?_
  simp only [readF, decodeSync]
  simp [h, ctl_tr h.1, mod_n, Nat.mod_one, rdOff, rdImm?, FWord.Fits, opcAssigned, Bool.toNat_le, FWord.ty, FWord.i, FWord.b, rdCD, rdABC, List.any_append, rdAB_any, rdB_any, rdA_any]
theorem Laws.RoundTrip.slicehintPin (c : Ctl) (f : Bool) (b : VReg) : Statement (.slicehintPin c f b) := by
  intro _ h
  replace h : (c.ok false true) = true := h
  refine reads_of (f := ⟨0x1E2, 0, 0, b.val, 0, c.gp.val, c.gn.toNat, 0, 0, c.tr.toNat, c.ru.toNat, flag f 32⟩) rfl ?_
  simp only [readF, decodeSync]
  simp [h, ctl_tr h, mod_n, Nat.mod_one, rdOff, rdImm?, FWord.Fits, opcAssigned, Bool.toNat_le, FWord.ty, FWord.i, FWord.b, rdCD, rdABC, List.any_append, rdAB_any, rdB_any, rdA_any]
theorem Laws.RoundTrip.slicehintUnpin (c : Ctl) (f : Bool) (b : VReg) : Statement (.slicehintUnpin c f b) := by
  intro _ h
  replace h : (c.ok false true) = true := h
  refine reads_of (f := ⟨0x1E2, 0, 0, b.val, 0, c.gp.val, c.gn.toNat, 1, 0, c.tr.toNat, c.ru.toNat, flag f 32⟩) rfl ?_
  simp only [readF, decodeSync]
  simp [h, ctl_tr h, mod_n, Nat.mod_one, rdOff, rdImm?, FWord.Fits, opcAssigned, Bool.toNat_le, FWord.ty, FWord.i, FWord.b, rdCD, rdABC, List.any_append, rdAB_any, rdB_any, rdA_any]
theorem Laws.RoundTrip.slicehintRep (c : Ctl) (f : Bool) (b e : VReg) : Statement (.slicehintRep c f b e) := by
  intro _ h
  replace h : (c.ok false true) = true := h
  refine reads_of (f := ⟨0x1E2, 0, 0, b.val, e.val, c.gp.val, c.gn.toNat, 2, 0, c.tr.toNat, c.ru.toNat, flag f 32⟩) rfl ?_
  simp only [readF, decodeSync]
  simp [h, ctl_tr h, mod_n, Nat.mod_one, rdOff, rdImm?, FWord.Fits, opcAssigned, Bool.toNat_le, FWord.ty, FWord.i, FWord.b, rdCD, rdABC, List.any_append, rdAB_any, rdB_any, rdA_any]
theorem Laws.RoundTrip.slicehintDrop (c : Ctl) (f : Bool) (b e : VReg) : Statement (.slicehintDrop c f b e) := by
  intro _ h
  replace h : (c.ok false true) = true := h
  refine reads_of (f := ⟨0x1E2, 0, 0, b.val, e.val, c.gp.val, c.gn.toNat, 3, 0, c.tr.toNat, c.ru.toNat, flag f 32⟩) rfl ?_
  simp only [readF, decodeSync]
  simp [h, ctl_tr h, mod_n, Nat.mod_one, rdOff, rdImm?, FWord.Fits, opcAssigned, Bool.toNat_le, FWord.ty, FWord.i, FWord.b, rdCD, rdABC, List.any_append, rdAB_any, rdB_any, rdA_any]
theorem Laws.RoundTrip.mma (c : Ctl) (f : Bool) (fs : Fin 8) (rm : Rm) (hr : HReg) (a : VReg) : Statement (.mma c f fs rm hr a) := by
  intro _ h
  replace h : (c.ok false true) = true := h
  refine reads_of (f := ⟨0x1F0, hr.val, a.val, 0, 0, c.gp.val, c.gn.toNat, rm.code, fs.val, c.tr.toNat, c.ru.toNat, flag f 32⟩) rfl ?_
  simp only [readF, decodeMtx]
  simp [h, ctl_tr h, mod_n, Nat.mod_one, rdOff, rdImm?, FWord.Fits, opcAssigned, Bool.toNat_le, FWord.ty, FWord.i, FWord.b, rdCD, rdABC, List.any_append, rdAB_any, rdB_any, rdA_any]
theorem Laws.RoundTrip.mmas (c : Ctl) (f : Bool) (fs : Fin 8) (rm : Rm) (hr : HReg) (a : VReg) : Statement (.mmas c f fs rm hr a) := by
  intro _ h
  replace h : (c.ok false true) = true := h
  refine reads_of (f := ⟨0x1F1, hr.val, a.val, 0, 0, c.gp.val, c.gn.toNat, rm.code, fs.val, c.tr.toNat, c.ru.toNat, flag f 32⟩) rfl ?_
  simp only [readF, decodeMtx]
  simp [h, ctl_tr h, mod_n, Nat.mod_one, rdOff, rdImm?, FWord.Fits, opcAssigned, Bool.toNat_le, FWord.ty, FWord.i, FWord.b, rdCD, rdABC, List.any_append, rdAB_any, rdB_any, rdA_any]
theorem Laws.RoundTrip.mmab (c : Ctl) (f : Bool) (fs : Fin 8) (rm : Rm) (and : Bool) (hr : HReg) (a : VReg) : Statement (.mmab c f fs rm and hr a) := by
  intro _ h
  replace h : (c.ok false true) = true := h
  refine reads_of (f := ⟨0x1F2, hr.val, a.val, 0, 0, c.gp.val, c.gn.toNat, rm.code, fs.val, c.tr.toNat, c.ru.toNat, flag f 32 + and.toNat⟩) rfl ?_
  simp only [readF, decodeMtx]
  simp [h, ctl_tr h, mmab_md f and, mod_n, Nat.mod_one, rdOff, rdImm?, FWord.Fits, opcAssigned, Bool.toNat_le, FWord.ty, FWord.i, FWord.b, rdCD, rdABC, List.any_append, rdAB_any, rdB_any, rdA_any]
theorem Laws.RoundTrip.mldf (c : Ctl) (f : Bool) (fs : Fin 8) (w : FragSel) (sp : Bool) (hr : HReg) (a b e : VReg) : Statement (.mldf c f fs w sp hr a b e) := by
  intro _ h
  replace h : (c.ok false true && !(sp && w == .c)) = true := h
  simp only [Bool.and_eq_true, beq_iff_eq, Bool.not_eq_true'] at h
  refine reads_of (f := ⟨0x1F3, hr.val, a.val, b.val, e.val, c.gp.val, c.gn.toNat, 0, fs.val, c.tr.toNat, c.ru.toNat, flag f 32 + flag sp 4 + w.code⟩) rfl ?_
  simp only [readF, decodeMtx]
  simp [h, ctl_tr h.1, mldf_md f sp w h.2, mod_n, Nat.mod_one, rdOff, rdImm?, FWord.Fits, opcAssigned, Bool.toNat_le, FWord.ty, FWord.i, FWord.b, rdCD, rdABC, List.any_append, rdAB_any, rdB_any, rdA_any] <;> exact (mldf_md f sp w h.2).2.2.2.1.imp (fun q => by omega) id
theorem Laws.RoundTrip.mstf (c : Ctl) (f : Bool) (fs : Fin 8) (rm : Rm) (t : MstTy) (hr : HReg) (a b e : VReg) : Statement (.mstf c f fs rm t hr a b e) := by
  intro _ h
  replace h : (c.ok false true && rm.noStoch) = true := h
  simp only [Bool.and_eq_true] at h
  refine reads_of (f := ⟨0x1F4, hr.val, a.val, b.val, e.val, c.gp.val, c.gn.toNat, rm.code, fs.val, c.tr.toNat, c.ru.toNat, flag f 32 + t.code⟩) rfl ?_
  simp only [readF, decodeMtx]
  simp [h, ctl_tr h.1, mod_n, Nat.mod_one, rdOff, rdImm?, FWord.Fits, opcAssigned, Bool.toNat_le, FWord.ty, FWord.i, FWord.b, rdCD, rdABC, List.any_append, rdAB_any, rdB_any, rdA_any]
theorem Laws.RoundTrip.mzero (c : Ctl) (a : VReg) : Statement (.mzero c a) := by
  intro _ h
  replace h : (c.ok false true) = true := h
  refine reads_of (f := ⟨0x1F5, 0, a.val, 0, 0, c.gp.val, c.gn.toNat, 0, 0, c.tr.toNat, c.ru.toNat, 0⟩) rfl ?_
  simp only [readF, decodeMtx]
  simp [h, ctl_tr h, mod_n, Nat.mod_one, rdOff, rdImm?, FWord.Fits, opcAssigned, Bool.toNat_le, FWord.ty, FWord.i, FWord.b, rdCD, rdABC, List.any_append, rdAB_any, rdB_any, rdA_any]
theorem Laws.RoundTrip.mresume (c : Ctl) (f : Bool) (fs : Fin 8) (rm : Rm) (k : PassKind) (hr : HReg) (a : VReg) (b : Src) : Statement (.mresume c f fs rm k hr a b) := by
  intro _ h
  replace h : (c.ok false true && wfB 1 false b) = true := h
  simp only [Bool.and_eq_true] at h
  refine reads_of (f := ⟨0x1F6, hr.val, a.val, b.field, 0 + b.scPart, c.gp.val, c.gn.toNat, rm.code, fs.val, c.tr.toNat, c.ru.toNat, flag f 32 + k.code + (if b.isImm = true then 64 else 0)⟩) rfl ?_
  simp only [readF, decodeMtx]
  simp [h, ctl_tr h.1, win_or_zero h.2, wfB_imm h.2, mresume_md f k, mod_n, Nat.mod_one, rdOff, rdImm?, FWord.Fits, opcAssigned, Bool.toNat_le, FWord.ty, FWord.i, FWord.b, rdCD, rdABC, List.any_append, rdAB_any, rdB_any, rdA_any]
theorem Laws.RoundTrip.mqry (c : Ctl) (d : VReg) (hr : HReg) : Statement (.mqry c d hr) := by
  intro _ h
  replace h : (c.ok false true && wfD 2 d) = true := h
  simp only [Bool.and_eq_true, wfD, beq_iff_eq] at h
  refine reads_of (f := ⟨0x1F7, d.val, 0, hr.val, 0, c.gp.val, c.gn.toNat, 0, 0, c.tr.toNat, c.ru.toNat, 0⟩) rfl ?_
  simp only [readF, decodeMtx]
  simp [h, ctl_tr h.1, mod_n, Nat.mod_one, rdOff, rdImm?, FWord.Fits, opcAssigned, Bool.toNat_le, FWord.ty, FWord.i, FWord.b, rdCD, rdABC, List.any_append, rdAB_any, rdB_any, rdA_any]
theorem Laws.RoundTrip.trapret (c : Ctl) (skip : Bool) : Statement (.trapret c skip) := by
  intro _ h
  replace h : (c.ok false false) = true := h
  refine reads_of (f := ⟨0x1F8, 0, 0, 0, 0, c.gp.val, c.gn.toNat, 0, 0, c.tr.toNat, c.ru.toNat, skip.toNat⟩) rfl ?_
  simp only [readF, decodeMtx]
  simp [h, ctl_tr h, ctl_ru h, mod_n, Nat.mod_one, rdOff, rdImm?, FWord.Fits, opcAssigned, Bool.toNat_le, FWord.ty, FWord.i, FWord.b, rdCD, rdABC, List.any_append, rdAB_any, rdB_any, rdA_any]
theorem Laws.RoundTrip.getfault (c : Ctl) (d : VReg) (w : Fin 8) : Statement (.getfault c d w) := by
  intro _ h
  replace h : (c.ok false false) = true := h
  refine reads_of (f := ⟨0x1F9, d.val, 0, w.val, 0, c.gp.val, c.gn.toNat, 0, 0, c.tr.toNat, c.ru.toNat, 0⟩) rfl ?_
  simp only [readF, decodeMtx]
  simp [h, ctl_tr h, ctl_ru h, mod_n, Nat.mod_one, rdOff, rdImm?, FWord.Fits, opcAssigned, Bool.toNat_le, FWord.ty, FWord.i, FWord.b, rdCD, rdABC, List.any_append, rdAB_any, rdB_any, rdA_any]
theorem Laws.RoundTrip.setfault (c : Ctl) (a b : Src) : Statement (.setfault c a b) := by
  intro _ h
  replace h : (!c.tr && !c.ru && wfAB false 1 1 false a b) = true := h
  simp only [Bool.and_eq_true, Bool.not_eq_true'] at h
  refine reads_of (f := ⟨0x1FA, 0, a.field, b.field, 0 + a.scPart + b.scPart, c.gp.val, c.gn.toNat, 0, 0, c.tr.toNat, c.ru.toNat, 0 + (if b.isImm = true then 64 else 0)⟩) rfl ?_
  simp only [readF, decodeMtx]
  simp [h, scAB_lt (wfAB_false h.2).1, (wfAB_false h.2).1, (wfAB_false h.2).2, mod_n, Nat.mod_one, rdOff, rdImm?, FWord.Fits, opcAssigned, Bool.toNat_le, FWord.ty, FWord.i, FWord.b, rdCD, rdABC, List.any_append, rdAB_any, rdB_any, rdA_any]
theorem Laws.RoundTrip.haltg (c : Ctl) (code : BitVec 16) : Statement (.haltg c code) := by
  intro _ h
  replace h : (c.ok false false) = true := h
  refine reads_of (f := ⟨0x1FB, 0, 0, code.toNat / 256, code.toNat % 256, c.gp.val, c.gn.toNat, 0, 0, c.tr.toNat, c.ru.toNat, 0 + 64⟩) rfl ?_
  simp only [readF, decodeMtx]
  simp [h, ctl_tr h, ctl_ru h, mod_n, Nat.mod_one, rdOff, rdImm?, FWord.Fits, opcAssigned, Bool.toNat_le, FWord.ty, FWord.i, FWord.b, rdCD, rdABC, List.any_append, rdAB_any, rdB_any, rdA_any]
theorem Laws.RoundTrip.ctxq (c : Ctl) (d : VReg) (sel : Fin 4) : Statement (.ctxq c d sel) := by
  intro _ h
  replace h : (c.ok false false) = true := h
  refine reads_of (f := ⟨0x1FC, d.val, 0, sel.val, 0, c.gp.val, c.gn.toNat, 0, 0, c.tr.toNat, c.ru.toNat, 0⟩) rfl ?_
  simp only [readF, decodeMtx]
  simp [h, ctl_tr h, ctl_ru h, mod_n, Nat.mod_one, rdOff, rdImm?, FWord.Fits, opcAssigned, Bool.toNat_le, FWord.ty, FWord.i, FWord.b, rdCD, rdABC, List.any_append, rdAB_any, rdB_any, rdA_any]
theorem Laws.RoundTrip.pFormWord (s0 s1 : PSlot) : Statement (.pFormWord s0 s1) :=
  fun _ h => ⟨slot_reads s0, slot_reads s1, pair_reads s0 s1 h⟩
theorem Laws.RoundTrip.unassignedOpcode (w : Addr) : Statement (.unassignedOpcode w) := fun _ h => h
theorem Laws.RoundTrip.clauseStart (p : IssuePort) : Statement (.clauseStart p) := fun h => Bool.noConfusion (h : false = true)
theorem Laws.RoundTrip.icacheFill (uid : Nat) (fresh : Bool) : Statement (.icacheFill uid fresh) := fun h => Bool.noConfusion (h : false = true)
theorem Laws.RoundTrip.groupForm (l n core : Nat) (bin : Word) : Statement (.groupForm l n core bin) := fun h => Bool.noConfusion (h : false = true)
theorem Laws.RoundTrip.gatherTimeout (l n core : Nat) (bin : Word) : Statement (.gatherTimeout l n core bin) := fun h => Bool.noConfusion (h : false = true)
theorem Laws.RoundTrip.retire (uid : Nat) : Statement (.retire uid) := fun h => Bool.noConfusion (h : false = true)
theorem Laws.RoundTrip.pathQuantum (uid : Nat) : Statement (.pathQuantum uid) := fun h => Bool.noConfusion (h : false = true)
theorem Laws.RoundTrip.merge (host donor : Nat) : Statement (.merge host donor) := fun h => Bool.noConfusion (h : false = true)
theorem Laws.RoundTrip.eject (uid : Nat) : Statement (.eject uid) := fun h => Bool.noConfusion (h : false = true)
theorem Laws.RoundTrip.recall (uid : Nat) : Statement (.recall uid) := fun h => Bool.noConfusion (h : false = true)
theorem Laws.RoundTrip.waitjPass (uid : Nat) : Statement (.waitjPass uid) := fun h => Bool.noConfusion (h : false = true)
theorem Laws.RoundTrip.rejoinTimeout (uid : Nat) : Statement (.rejoinTimeout uid) := fun h => Bool.noConfusion (h : false = true)
theorem Laws.RoundTrip.yieldedRestore (uid slot : Nat) : Statement (.yieldedRestore uid slot) := fun h => Bool.noConfusion (h : false = true)
theorem Laws.RoundTrip.barrierComplete (wg : Nat) (nbar : Bool) : Statement (.barrierComplete wg nbar) := fun h => Bool.noConfusion (h : false = true)
theorem Laws.RoundTrip.collectorWindowClose (core : Nat) : Statement (.collectorWindowClose core) := fun h => Bool.noConfusion (h : false = true)
theorem Laws.RoundTrip.memoryAccessComplete (id : Nat) (lanes : Mask) (fromCopy useTlb : Bool) : Statement (.memoryAccessComplete id lanes fromCopy useTlb) := fun h => Bool.noConfusion (h : false = true)
theorem Laws.RoundTrip.trapDelivery (uid : Nat) : Statement (.trapDelivery uid) := fun h => Bool.noConfusion (h : false = true)
theorem Laws.RoundTrip.copyBatchComplete (id : Nat) : Statement (.copyBatchComplete id) := fun h => Bool.noConfusion (h : false = true)
theorem Laws.RoundTrip.copyEngineFault (id : Nat) : Statement (.copyEngineFault id) := fun h => Bool.noConfusion (h : false = true)
theorem Laws.RoundTrip.copyBatchCancelled (id : Nat) : Statement (.copyBatchCancelled id) := fun h => Bool.noConfusion (h : false = true)
theorem Laws.RoundTrip.matrixGrant (cluster : Nat) (transfer : Bool) : Statement (.matrixGrant cluster transfer) := fun h => Bool.noConfusion (h : false = true)
theorem Laws.RoundTrip.matrixComplete (id : Nat) : Statement (.matrixComplete id) := fun h => Bool.noConfusion (h : false = true)
theorem Laws.RoundTrip.matrixEngineFault (id : Nat) : Statement (.matrixEngineFault id) := fun h => Bool.noConfusion (h : false = true)
theorem Laws.RoundTrip.matrixOperationStop (id : Nat) : Statement (.matrixOperationStop id) := fun h => Bool.noConfusion (h : false = true)
theorem Laws.RoundTrip.sliceQueryComplete (id : Nat) : Statement (.sliceQueryComplete id) := fun h => Bool.noConfusion (h : false = true)
theorem Laws.RoundTrip.preempt (wg : Nat) : Statement (.preempt wg) := fun h => Bool.noConfusion (h : false = true)
theorem Laws.RoundTrip.restore (wg core : Nat) : Statement (.restore wg core) := fun h => Bool.noConfusion (h : false = true)
theorem Laws.RoundTrip.connect (accel launch proxy port rnode size : Nat) : Statement (.connect accel launch proxy port rnode size) := fun h => Bool.noConfusion (h : false = true)
theorem Laws.RoundTrip.permitGrant (l n permits : Nat) : Statement (.permitGrant l n permits) := fun h => Bool.noConfusion (h : false = true)
theorem Laws.RoundTrip.remoteRecord (l n : Nat) (r : RecMsg) : Statement (.remoteRecord l n r) := fun h => Bool.noConfusion (h : false = true)
theorem Laws.RoundTrip.permitReturn (l n permits : Nat) : Statement (.permitReturn l n permits) := fun h => Bool.noConfusion (h : false = true)
theorem Laws.RoundTrip.permitReturnBatch (l n : Nat) (sender : Sender) : Statement (.permitReturnBatch l n sender) := fun h => Bool.noConfusion (h : false = true)
theorem Laws.RoundTrip.permitReport (l n held : Nat) : Statement (.permitReport l n held) := fun h => Bool.noConfusion (h : false = true)
theorem Laws.RoundTrip.closeMessage (l n : Nat) (sender : Sender) : Statement (.closeMessage l n sender) := fun h => Bool.noConfusion (h : false = true)
theorem Laws.RoundTrip.remoteAccess (accel pa : Nat) (op : RemoteOp) : Statement (.remoteAccess accel pa op) := fun h => Bool.noConfusion (h : false = true)
theorem Laws.RoundTrip.graphLaunchEnd (l : Nat) : Statement (.graphLaunchEnd l) := fun h => Bool.noConfusion (h : false = true)
theorem Laws.RoundTrip.launchCancel (l : Nat) : Statement (.launchCancel l) := fun h => Bool.noConfusion (h : false = true)
theorem Laws.RoundTrip.packetNop (q : Nat) : Statement (.packetNop q) := fun h => Bool.noConfusion (h : false = true)
theorem Laws.RoundTrip.launch (q : Nat) : Statement (.launch q) := fun h => Bool.noConfusion (h : false = true)
theorem Laws.RoundTrip.packetCopy (q : Nat) : Statement (.packetCopy q) := fun h => Bool.noConfusion (h : false = true)
theorem Laws.RoundTrip.packetCopyComplete (q id : Nat) : Statement (.packetCopyComplete q id) := fun h => Bool.noConfusion (h : false = true)
theorem Laws.RoundTrip.semsig (q : Nat) : Statement (.semsig q) := fun h => Bool.noConfusion (h : false = true)
theorem Laws.RoundTrip.semwaitge (q : Nat) : Statement (.semwaitge q) := fun h => Bool.noConfusion (h : false = true)
theorem Laws.RoundTrip.intr (q : Nat) : Statement (.intr q) := fun h => Bool.noConfusion (h : false = true)
theorem Laws.RoundTrip.phase (q : Nat) : Statement (.phase q) := fun h => Bool.noConfusion (h : false = true)
theorem Laws.RoundTrip.packetFence (q : Nat) : Statement (.packetFence q) := fun h => Bool.noConfusion (h : false = true)
theorem Laws.RoundTrip.tstamp (q : Nat) : Statement (.tstamp q) := fun h => Bool.noConfusion (h : false = true)
theorem Laws.RoundTrip.jump (q : Nat) : Statement (.jump q) := fun h => Bool.noConfusion (h : false = true)
theorem Laws.RoundTrip.queueService : Statement (.queueService) := fun h => Bool.noConfusion (h : false = true)
theorem Laws.RoundTrip.linkMessage (cluster : Nat) (up : Bool) (msg : List Byte) : Statement (.linkMessage cluster up msg) := fun h => Bool.noConfusion (h : false = true)
theorem Laws.RoundTrip.linkPermitReturn (cluster : Nat) (up : Bool) (epoch : Nat) : Statement (.linkPermitReturn cluster up epoch) := fun h => Bool.noConfusion (h : false = true)
theorem Laws.RoundTrip.sync (cluster : Nat) (up : Bool) : Statement (.sync cluster up) := fun h => Bool.noConfusion (h : false = true)
theorem Laws.RoundTrip.syncack (cluster : Nat) (up : Bool) : Statement (.syncack cluster up) := fun h => Bool.noConfusion (h : false = true)
theorem Laws.RoundTrip.scrub (region granule : Nat) : Statement (.scrub region granule) := fun h => Bool.noConfusion (h : false = true)
theorem Laws.RoundTrip.rateDecay (region : Nat) : Statement (.rateDecay region) := fun h => Bool.noConfusion (h : false = true)
theorem Laws.RoundTrip.repair (region loc : Nat) : Statement (.repair region loc) := fun h => Bool.noConfusion (h : false = true)
theorem Laws.RoundTrip.moduleReset : Statement (.moduleReset) := fun h => Bool.noConfusion (h : false = true)
theorem Laws.RoundTrip.attestDone : Statement (.attestDone) := fun h => Bool.noConfusion (h : false = true)
theorem Laws.RoundTrip.queueNotify (part q : Nat) (v : Addr) : Statement (.queueNotify part q v) := fun h => Bool.noConfusion (h : false = true)
theorem Laws.RoundTrip.queueEnable (part q : Nat) (v : Addr) : Statement (.queueEnable part q v) := fun h => Bool.noConfusion (h : false = true)
theorem Laws.RoundTrip.queueDisable (part q : Nat) (v : Addr) : Statement (.queueDisable part q v) := fun h => Bool.noConfusion (h : false = true)
theorem Laws.RoundTrip.queueRst (part q : Nat) (v : Addr) : Statement (.queueRst part q v) := fun h => Bool.noConfusion (h : false = true)
theorem Laws.RoundTrip.queuePlaneChange (part q : Nat) (v : Addr) : Statement (.queuePlaneChange part q v) := fun h => Bool.noConfusion (h : false = true)
theorem Laws.RoundTrip.partEnable (n : Nat) (v : Addr) : Statement (.partEnable n v) := fun h => Bool.noConfusion (h : false = true)
theorem Laws.RoundTrip.partDisable (n : Nat) (v : Addr) : Statement (.partDisable n v) := fun h => Bool.noConfusion (h : false = true)
theorem Laws.RoundTrip.partitionReset (n : Nat) : Statement (.partitionReset n) := fun h => Bool.noConfusion (h : false = true)
theorem Laws.RoundTrip.tlbInvalidatePage (n : Nat) (v : Addr) : Statement (.tlbInvalidatePage n v) := fun h => Bool.noConfusion (h : false = true)
theorem Laws.RoundTrip.tlbInvalidateAll (w : PartWrite) : Statement (.tlbInvalidateAll w) := fun h => Bool.noConfusion (h : false = true)
theorem Laws.RoundTrip.fresumeRetry (n launch : Nat) : Statement (.fresumeRetry n launch) := fun h => Bool.noConfusion (h : false = true)
theorem Laws.RoundTrip.fresumeSkip (n launch : Nat) : Statement (.fresumeSkip n launch) := fun h => Bool.noConfusion (h : false = true)
theorem Laws.RoundTrip.fresumeEnd (n launch : Nat) : Statement (.fresumeEnd n launch) := fun h => Bool.noConfusion (h : false = true)
theorem Laws.RoundTrip.flogrWrite (n : Nat) (v : Addr) : Statement (.flogrWrite n v) := fun h => Bool.noConfusion (h : false = true)
theorem Laws.RoundTrip.sliceFlush (n : Nat) : Statement (.sliceFlush n) := fun h => Bool.noConfusion (h : false = true)
theorem Laws.RoundTrip.hostSemaphoreStore (n j : Nat) (v : Addr) : Statement (.hostSemaphoreStore n j v) := fun h => Bool.noConfusion (h : false = true)
theorem Laws.RoundTrip.registerWrite (off : Nat) (v : Addr) : Statement (.registerWrite off v) := fun h => Bool.noConfusion (h : false = true)
theorem Laws.RoundTrip.rasLogrWrite (v : Addr) : Statement (.rasLogrWrite v) := fun h => Bool.noConfusion (h : false = true)
theorem Laws.RoundTrip.rasFreeze (v : Addr) : Statement (.rasFreeze v) := fun h => Bool.noConfusion (h : false = true)
theorem Laws.RoundTrip.frzN (ns : Nat) : Statement (.frzN ns) := fun h => Bool.noConfusion (h : false = true)
theorem Laws.RoundTrip.tapInstruction (op : TapOp) : Statement (.tapInstruction op) := fun h => Bool.noConfusion (h : false = true)
theorem Laws.RoundTrip.powerOn : Statement (.powerOn) := fun h => Bool.noConfusion (h : false = true)
theorem Laws.RoundTrip.bootGo : Statement (.bootGo) := fun h => Bool.noConfusion (h : false = true)
theorem Laws.RoundTrip.bootForce (v : Bool) : Statement (.bootForce v) := fun h => Bool.noConfusion (h : false = true)
theorem Laws.RoundTrip.attest : Statement (.attest) := fun h => Bool.noConfusion (h : false = true)
theorem Laws.RoundTrip.clockChange (cluster f50 : Nat) : Statement (.clockChange cluster f50) := fun h => Bool.noConfusion (h : false = true)
theorem Laws.RoundTrip.thermalThrottle : Statement (.thermalThrottle) := fun h => Bool.noConfusion (h : false = true)
theorem Laws.RoundTrip.thermalShutdown : Statement (.thermalShutdown) := fun h => Bool.noConfusion (h : false = true)

end Sys2Proof
end

