-- ==== Sys2Proof/Laws/Results.lean ====
section
/-! SUPPORT. Forms of a completion: results in other words, 32-bit values as words, the draw of a rounding. -/
namespace Sys2Proof.Safety
open Sys2Proof Sys2Proof.Machine

/-- A signed result in 32 bits, as a word. -/
theorem ofNat_ofSigned (v : Int) : BitVec.ofNat 32 (ofSigned 32 v) = BitVec.ofInt 32 v := by
  apply BitVec.eq_of_toNat_eq
  simp only [BitVec.toNat_ofNat, BitVec.toNat_ofInt, ofSigned]
  have : (0:Int) ≤ v % ((2^32 : Nat) : Int) := Int.emod_nonneg _ (by decide)
  have h2 : v % ((2^32 : Nat) : Int) < (2^32 : Nat) := Int.emod_lt_of_pos _ (by decide)
  omega

/-- The number of a 32-bit source, as a word. -/
theorem ofInt_num (t : IntTy) (h : t.w = 32) (v : Nat) : BitVec.ofInt 32 (t.num v) = BitVec.ofNat 32 v := by
  apply BitVec.eq_of_toNat_eq
  simp only [BitVec.toNat_ofNat, BitVec.toNat_ofInt, IntTy.num, h, toSigned]
  split
  · split <;> omega
  · omega

/-- Results and flags may be put in other words. -/
theorem Completes.congr {i s g c d n res res' fl fl' k} (h : Completes i s g c d n res fl k) (he : ∀ l, res l = res' l) (hf : ∀ l, fl l = fl' l) :
    Completes i s g c d n res' fl' k := by
  have e1 : res = res' := funext he
  have e2 : fl = fl' := funext hf
  subst e1 e2; exact h
/-- Only the lanes that the word acts in matter. -/
theorem Completes.congr_on {i s g c d n res res' fl fl' k} (h : Completes i s g c d n res fl k)
    (he : ∀ l, Lane.mem (lanesOf g c) l → res l = res' l) (hf : ∀ l, Lane.mem (lanesOf g c) l → fl l = fl' l) :
    Completes i s g c d n res' fl' k := by
  obtain ⟨g', e1, e2, e3⟩ := h
  refine ⟨g', e1, ⟨fun l i hl hi => by rw [← he l hl]; exact e2.read l i hl hi,
    fun ht l i hl hi => by rw [← he l hl]; exact e2.stored ht l i hl hi, e2.kept, e2.preds, e2.frame⟩, ⟨?_, ?_, e3.srcnt⟩⟩
  · rw [e3.status]
    have : ∀ (ls : List Nat) (st : Word), (∀ l ∈ ls, fl l = fl' l) →
        ls.foldl (fun st l => if besides g l then st else orStatus st (fl l)) st =
        ls.foldl (fun st l => if besides g l then st else orStatus st (fl' l)) st := by
      intro ls
      induction ls with
      | nil => intros; rfl
      | cons x xs ih =>
        intro st h
        rw [List.foldl_cons, List.foldl_cons, ih _ (fun l hl => h l (List.mem_cons_of_mem _ hl)), h x List.mem_cons_self]
    exact this _ _ fun l hl => hf l (mem_maskBits.1 hl)
  · intro l hl
    rw [e3.accr l hl]
    by_cases hw : (lanesOf g c).getLsbD l = true
    · rw [hf l ⟨hl, hw⟩]
    · simp [hw]
/-- Only the results in the lanes and registers that are written matter. -/
theorem Wrote.congr {g g' tr w d n res res'} (h : Wrote g g' tr w d n res) (he : ∀ l i, Lane.mem w l → i < n → res l i = res' l i) :
    Wrote g g' tr w d n res' :=
  ⟨fun l i hl hi => by rw [← he l i hl hi]; exact h.read l i hl hi,
   fun ht l i hl hi => by rw [← he l i hl hi]; exact h.stored ht l i hl hi, h.kept, h.preds, h.frame⟩
/-- So may a condition. -/
theorem CompletesPred.congr {i s g c p cond cond' fl fl'} (h : CompletesPred i s g c p cond fl) (he : ∀ l, cond l = cond' l) (hf : ∀ l, fl l = fl' l) :
    CompletesPred i s g c p cond' fl' := by
  have e1 : cond = cond' := funext he
  have e2 : fl = fl' := funext hf
  subst e1 e2; exact h
/-- Two sources of an affine result, in the form of its lane values. -/
theorem two {vs : List Nat} {ls : List (Word × Word)} {x y : Word × Word} {k : Word} (hl : ls = [x, y])
    (h : vs.map (BitVec.ofNat 32) = ls.map (fun x => x.1 + k * x.2)) :
    BitVec.ofNat 32 (nth vs 0) = x.1 + k * x.2 ∧ BitVec.ofNat 32 (nth vs 1) = y.1 + k * y.2 := by
  subst hl
  match vs with
  | [a, b] => simp at h; exact ⟨by simpa using h.1, by simpa using h.2⟩
  | [] => simp at h
  | [a] => simp at h
  | _ :: _ :: _ :: _ => simp at h

/-- Only stochastic rounding reads its random word (R41, R42). -/
theorem roundUp_draw {m r d : Nat} {neg odd : Bool} {k : Nat} (h : m ≠ 6) : roundUp m neg odd r d k = roundUp m neg odd r d 0 := by
  unfold roundUp
  split <;> first | rfl | exact absurd rfl h

theorem roundTo_draw {f : Fmt} {m : Nat} {sat ftz : Bool} {sc : Scale} {k : Nat} {x : XR} (h : m ≠ 6) :
    roundTo f m sat ftz sc k x = roundTo f m sat ftz sc 0 x := by
  unfold roundTo
  split <;> first | rfl | simp only [roundUp_draw (k := k) h]

/-- A rounding environment whose mode is not stochastic is its mode and flush alone. -/
theorem round_draw {e e' : REnv} {f : Fmt} {k : Nat} {x : XR} (hm : e.m = e'.m) (hf : e.ftzo = e'.ftzo) (h : e.m ≠ 6) :
    e.round f k x = e'.round f k x := by
  unfold REnv.round
  rw [roundTo_draw h, ← hm, ← hf, roundTo_draw (k := e'.rnd k) h]

/-- A word of rounded results completes, where `f` reads random words only for a stochastic mode (R42). -/
theorem fltMap_completes {i : Instr} {s : State} {g : Group} {c : Ctl} {d n : Nat} {srcs : List Src} {xs : List (Src × OTy)} {os : List Opnd}
    {rm : Rm} (k : Nat) (f : Group → REnv → List (Nat × Tag) → FRes × List Nat)
    (he : exec i s = aluWord s c srcs fun g w => fltMap s g w d n rm k xs (f g))
    (h : Writes s g c d n) (hx : Sources s g c xs os) (hs : g.sigte = false)
    (hf : ∀ e e' vs, e.m = e'.m → e.ftzo = e'.ftzo → e.m ≠ 6 → f g e vs = f g e' vs) :
    Completes i s g c d n (whole fun l => let r := (f g (s.renv g (rmMode g rm) 0 l) (valsAt g os l)).1; (r.bits, r.tag))
      (fun l => (f g (s.renv g (rmMode g rm) 0 l) (valsAt g os l)).1.fl ||| srcFl os) (if rmMode g rm = 6 then k else 0) := by
  have := aluMap_completes (srcs := srcs) (dep := rmMode g rm == 6) (k := drawsFor (rmMode g rm) k)
    (f := fun l vs => let r := f g (s.renv g (rmMode g rm) 0 l) vs; ⟨r.1.bits, r.1.tag, r.1.fl, some r.2⟩) h hx (.inl hs) (by
      intro hd l l' vs
      have := hf (s.renv g (rmMode g rm) 0 l) (s.renv g (rmMode g rm) 0 l') vs rfl rfl
        (fun e => by have : rmMode g rm = 6 := e; simp [this] at hd)
      simp only [this])
  obtain ⟨g', e1, e2, e3⟩ := this
  refine ⟨g', ?_, e2, ?_⟩
  · rw [he, ← e1]
    unfold aluWord withIssuer
    rw [h.issues.cur]; simp only [h.issues.group]
    rfl
  · simpa [drawsFor] using e3

/-- Raising no flag leaves STATUS as it is (R27). -/
theorem raiseAll_status_none (g : Group) (w : Mask) : (g.raiseAll w fun _ => flNone).status = g.status := by
  unfold Group.raiseAll
  generalize maskBits w = ls
  induction ls generalizing g with
  | nil => rfl
  | cons x xs ih =>
    rw [List.foldl_cons, ih]; unfold Group.raise; rw [if_pos (by rfl)]

/-- The i-th value of a source list. -/
theorem nthFst (vs : List (Nat × Tag)) (i : Nat) : nth (vs.map Prod.fst) i = (vs.getD i (0, 0)).1 := by
  simp only [nth, List.getD_eq_getElem?_getD, List.getElem?_map]; cases vs[i]? <;> rfl

/-- Two computations that agree for the issuing group make one word. -/
theorem inIssuer {s : State} {g : Group} {c : Ctl} {srcs : List Src} {e1 e2 : Group → Mask → Except Trap AluOut} {n d}
   (h : Writes s g c d n) (he : e1 g (lanesOf g c) = e2 g (lanesOf g c)) : aluWord s c srcs e1 = aluWord s c srcs e2 := by
  unfold aluWord withIssuer
  rw [h.issues.cur]; simp only [h.issues.group]
  have he' : e1 g (g.writeSet c.gp.val c.gn) = e2 g (g.writeSet c.gp.val c.gn) := he
  rw [he']

/-- What a collection without an error collected. -/
theorem collect_at {α ε : Type} {xs : List (Except ε α)} {ys : List α} (h : collect xs = .ok ys) : xs = ys.map .ok := by
  induction xs generalizing ys with
  | nil => simp [collect] at h; simp [← h]
  | cons x xs ih =>
    cases x with
    | error e => simp [collect] at h
    | ok v =>
      simp only [collect] at h
      split at h
      · cases h
      · next e => cases h; simp [ih e]

/-- Sources come one for one. -/
theorem sources_length {s : State} {g : Group} {c : Ctl} {xs : List (Src × OTy)} {os : List Opnd} (h : Sources s g c xs os) :
    os.length = xs.length := by
  have := congrArg List.length (collect_at h)
  simpa using this.symm

end Sys2Proof.Safety
end

