-- ==== Sys2Proof/Tests/Slice0.lean ====
section
/-! SUPPORT. Tests: ill-formed terms are refused, words written out from the encodings of the spec decode, and for every statement
with hypotheses a state and operands meet them. -/
set_option Elab.async false
namespace Sys2Proof.Tests
open Sys2Proof Sys2Proof.Machine Sys2Proof.Safety

/-- The control field of an unguarded word: P63, no transient and no reuse bit. -/
def c0 : Ctl := ⟨63, false, false, false⟩

/-! ## Ill-formed terms (Table 3.9) -/

/-- A pair starts at an even register (R14). -/
theorem test_wf_destination : Instr.wf (.iadd c0 false .s64 3 (.reg 4) (.reg 6)) = false := by decide
theorem test_wf_source : Instr.wf (.iadd c0 false .s64 4 (.reg 5) (.reg 6)) = false := by decide
/-- One window operand at most, and none beside an immediate (R69, R70). -/
theorem test_wf_two_windows : Instr.wf (.iadd c0 false .s32 4 (.win 0 0) (.win 0 1)) = false := by decide
theorem test_wf_window_immediate : Instr.wf (.iadd c0 false .s32 4 (.win 0 0) (.imm 1)) = false := by decide
theorem test_wf_window_unaligned : Instr.wf (.iadd c0 false .s64 4 (.win 0 1) (.reg 6)) = false := by decide
/-- An immediate is a second source only, and FDIV takes none (R70). -/
theorem test_wf_immediate_first : Instr.wf (.iadd c0 false .s32 4 (.imm 1) (.reg 6)) = false := by decide
theorem test_wf_immediate_fdiv : Instr.wf (.fdiv c0 .mode .f32 4 (.reg 1) (.imm 1)) = false := by decide
/-- A word whose SC is an operand has neither window nor immediate (R69). -/
theorem test_wf_window_third : Instr.wf (.imad c0 .s32 4 (.reg 1) (.win 0 0) (.reg 2)) = false := by decide
/-- An 8-bit floating-point position takes no constant (R68). -/
theorem test_wf_constant : Instr.wf (.fcvt c0 .mode false .f32 .e4m3 4 (.const 2)) = false := by decide
theorem test_wf_constant_sigget : Instr.wf (.sigget c0 (.flt .e5m2) 4 (.const 2)) = false := by decide
theorem test_wf_fcvti_source : Instr.wf (.fcvti c0 .mode .s32 .e4m3 4 (.reg 1)) = false := by decide
/-- Transient and reuse bits where the entry takes none (R32, R66). -/
theorem test_wf_transient : Instr.wf (.bra ⟨63, false, true, false⟩ 0) = false := by decide
theorem test_wf_reuse : Instr.wf (.movi ⟨63, false, false, true⟩ .b32 4 0) = false := by decide
/-- Reserved rounding values (Tables 4.3 and 4.4). -/
theorem test_wf_rounding_frnd : Instr.wf (.frnd c0 .rsr .f32 4 (.reg 1)) = false := by decide
theorem test_wf_rounding_fcvti : Instr.wf (.fcvti c0 .rodd .s32 .f32 4 (.reg 1)) = false := by decide
theorem test_wf_rounding_mstf : Instr.wf (.mstf c0 false 0 .rsr .f32 0 1 2 4) = false := by decide
theorem test_wf_rounding_scan : Instr.wf (.scanadd c0 false .rne (.int .s32) .w8 4 (.reg 1)) = false := by decide
/-- SIGCMP with condition 6 or 7 has no second source. -/
theorem test_wf_sigcmp : Instr.wf (.sigcmp c0 .c6 (.flt .f32) 1 (.reg 2) (.reg 3)) = false := by decide
/-- A compare has its new value and no other atomic has one (R209); RED has no compare. -/
theorem test_wf_cas : Instr.wf (.atom c0 false (.cas .b32) 4 6 8 none) = false := by decide
theorem test_wf_add : Instr.wf (.atom c0 false (.addI .s32) 4 6 8 (some 9)) = false := by decide
theorem test_wf_red : Instr.wf (.red c0 false (.cas .b32) 6 8) = false := by decide
/-- A handle register takes a 32-bit value (R208); the sparse flag of MLDF is no matter of C. -/
theorem test_wf_handle : Instr.wf (.lds c0 false .b64 (.inr 3) 4 (.imm 0)) = false := by decide
theorem test_wf_mldf : Instr.wf (.mldf c0 false 0 .c true 0 1 2 4) = false := by decide
/-- The pairing rule of the P-form (R73), and an opcode that is assigned is none of the unassigned ones. -/
theorem test_wf_pairing : Instr.wf (.pFormWord (.op .mov 63 false 4 (.reg 1)) (.op .mov 63 false 8 (.reg 2))) = false := by decide
theorem test_wf_unassigned : Instr.wf (.unassignedOpcode 0) = false := by decide

/-! ## Words of the spec -/

theorem test_fadd : decodeTableWord 64 0x2002_C17E_833F_000F = some (.fadd c0 .mode .f32 11 (.reg 5) (.win 2 0x0C)) := by decide
theorem test_iadd : decodeTableWord 64 0x0002_8280_C03F_0047 = some (.iadd c0 false .s32 10 (.reg 10) (.imm 0x0300)) := by decide
theorem test_pform : decodeTableWord 64 0x8084_86FE_0208_0CFC =
    some (.pFormWord (.op .iadd 63 false 8 (.reg 12)) (.op .mov 63 false 9 (.reg 13))) := by decide
theorem test_exit : decodeTableWord 64 0x5240_0000_003F_0000 = some (.exit c0) := by decide
theorem test_cmp : decodeTableWord 64 0x0701_4181_C03F_2007 = some (.cmp c0 .lt (.int .s32) 5 (.reg 6) (.reg 7)) := by decide
theorem test_ld : decodeTableWord 64 0x7002_0100_003F_0040 = some (.ld c0 false false .none .b32 8 4 (.imm 0)) := by decide
theorem test_ld_pair : decodeTableWord 64 0x7002_4180_003F_0040 = some (.ld c0 false false .none .b32 9 6 (.imm 0)) := by decide
theorem test_mzero : decodeTableWord 64 0x7D40_00C0_003F_0000 = some (.mzero c0 3) := by decide
theorem test_mmas : decodeTableWord 64 0x7C40_00C0_003F_0000 = some (.mmas c0 false 0 .mode 0 3) := by decide
theorem test_getfault : decodeTableWord 64 0x7E45_4001_803F_0000 = some (.getfault c0 21 6) := by decide
theorem test_trapret : decodeTableWord 64 0x7E00_0000_003F_0001 = some (.trapret c0 true) := by decide
theorem test_join : decodeTableWord 64 0x5140_C000_02BF_0040 = some (.join c0 0 3 10) := by decide
theorem test_waitj : decodeTableWord 64 0x5180_0000_003F_0000 = some (.waitj c0 0 none) := by decide
theorem test_bra : decodeTableWord 64 0x5000_0000_0201_0040 = some (.bra ⟨1, false, false, false⟩ 8) := by decide
theorem test_rcsnap : decodeTableWord 64 0x7800_0101_83C2_0000 = some (.rcsnap ⟨2, false, false, false⟩ false 15 4 6) := by decide
theorem test_bsig : decodeTableWord 64 0x5383_0600_023F_004F = some (.bsig c0 false .f32 (some 12) (.reg 24) 8) := by decide
theorem test_seal : decodeTableWord 64 0x7580_0000_0002_0001 = some (.seal ⟨2, false, false, false⟩ true 0 none) := by decide
theorem test_sigget : decodeTableWord 64 0x4001_0002_403F_000F = some (.sigget c0 (.flt .f32) 4 (.reg 9)) := by decide
theorem test_qswph : decodeTableWord 64 0x6381_01C0_003F_0000 = some (.qswph c0 .b32 4 (.reg 7)) := by decide
theorem test_bar : decodeTableWord 64 0x7400_0000_003F_0001 = some (.bar c0 true) := by decide
theorem test_copy : decodeTableWord 64 0x7540_0081_023F_0001 = some (.copy c0 .g .s 2 4 8) := by decide
theorem test_emit : decodeTableWord 64 0x7700_0301_403F_0000 = some (.emit c0 false 12 5) := by decide
theorem test_sliceq : decodeTableWord 64 0x7841_8002_40FF_0001 = some (.sliceq c0 true 3 6 9) := by decide
/-- An unassigned opcode, 0x024. -/
theorem test_unassigned : decodeTableWord 64 0x0900_0000_003F_0000 = some (.unassignedOpcode 0x0900_0000_003F_0000) := by decide
/-- A reserved bit of an assigned opcode is refused. -/
theorem test_reserved : decodeTableWord 64 0x5240_0000_003F_0001 = none := by decide
/-- The encoder gives back the word of the spec. -/
theorem test_encode_fadd : encode (.fadd c0 .mode .f32 11 (.reg 5) (.win 2 0x0C)) = 0x2002_C17E_833F_000F := by decide

/-! ## The states of the witnesses -/

theorem ok_of_isOk {ε α : Type} {x : Except ε α} (h : x.isOk = true) : ∃ y, x = .ok y := by
  cases x with
  | ok y => exact ⟨y, rfl⟩
  | error e => cases h
theorem some_of_isSome {α : Type} {x : Option α} (h : x.isSome = true) : ∃ y, x = some y := by
  cases x with
  | some y => exact ⟨y, rfl⟩
  | none => cases h
theorem ok_then {ε α β : Type} {x : Except ε α} {f : α → Except ε β} (h : (match x with | .ok a => (f a).isOk | .error _ => false) = true) :
    ∃ a b, x = .ok a ∧ f a = .ok b := by
  cases x with
  | ok a => exact ⟨a, (ok_of_isOk h).imp fun _ e => ⟨rfl, e⟩⟩
  | error e => cases h
theorem ok_and {ε α : Type} {x : Except ε α} (P : α → Bool) (h : (match x with | .ok a => P a | .error _ => false) = true) :
    ∃ a, x = .ok a ∧ P a = true := by
  cases x with
  | ok a => exact ⟨a, rfl, h⟩
  | error e => cases h

theorem some_and {α : Type} {x : Option α} (P : α → Bool) (h : (match x with | some a => P a | none => false) = true) : ∃ a, x = some a ∧ P a = true := by
  cases x with
  | some a => exact ⟨a, rfl, h⟩
  | none => cases h

/-- A property of every lane of a mask, as a check. -/
theorem lanes_all {w : Mask} {P : Nat → Prop} [DecidablePred P] (h : ((List.range 32).all fun l => !w.getLsbD l || decide (P l)) = true)
    (l : Nat) (m : Lane.mem w l) : P l := by
  have k := List.all_eq_true.mp h l (List.mem_range.mpr m.1)
  rw [m.2] at k
  exact of_decide_eq_true k

theorem lanes_ok {ε α : Type} {w : Mask} {f : Nat → Except ε α} (d : α) (h : ((List.range 32).all fun l => !w.getLsbD l || (f l).isOk) = true) :
    ∃ outs : List α, ∀ l, Lane.mem w l → f l = .ok (outs.getD l d) := by
  refine ⟨(List.range 32).map fun l => ((f l).toOption).getD d, fun l m => ?_⟩
  have k := List.all_eq_true.mp h l (List.mem_range.mpr m.1)
  rw [m.2, Bool.not_true, Bool.false_or] at k
  obtain ⟨y, hy⟩ := ok_of_isOk k
  simp [List.getD, m.1, hy, Except.toOption]

/-- A word for lane 0 only in the states below: guarded by P1. -/
def c1 : Ctl := ⟨1, false, false, false⟩
/-- The reset state with a NOP placed as the next word, and the group of that word issuing: 32 lanes, 224 registers, one workgroup; P1 is true in lane 0. -/
def tS : State := { State.reset.placeWord (encode (.nop c0)) with cur := some 1 }.modGroup 1 fun g => { g with p := modAt (fun _ => 1) 1 g.p }
/-- The group of `tS`. -/
def tG : Group := tS.group 1

theorem tIssues : Issues tS tG := ⟨rfl, by decide +kernel⟩
theorem tFormed : Formed tG := ⟨by decide +kernel, by decide +kernel, by decide +kernel⟩
theorem tNg : tG.decl.ng = 224 := by decide +kernel
theorem tWrites (d n : Nat) (h : d + n ≤ 224) : Writes tS tG c0 d n := ⟨tIssues, tFormed, by decide +kernel, tNg ▸ h⟩
theorem plain_of {g : Group} (m : g.merge = .none) (r : g.retPending = none) : Plain g := ⟨fun _ _ _ h => (by rw [m] at h; cases h), r⟩
theorem tPlain : Plain tG := plain_of (by decide +kernel) (by decide +kernel)
theorem tReads (xs : List (Src × OTy)) (h : (tS.operands tG (lanesOf tG c0) xs).isOk = true) : ∃ os, Sources tS tG c0 xs os :=
  ok_of_isOk h

/-! ## Arithmetic words -/

theorem witness_IntegerResults : Writes tS tG c0 222 IntTy.s64.regs ∧ Writes tS tG c0 223 IntTy.n32.regs ∧
    (∃ os, Sources tS tG c0 [(.reg 4, IntTy.s64.o), (.imm 7, IntTy.s64.o)] os) ∧
    (∃ os, Sources tS tG c0 [(.reg 4, IntTy.n32.o), (.const 3, IntTy.n32.o), (.reg 223, IntTy.n32.o)] os) ∧
    (∃ os, Sources tS tG c0 [(.reg 222, (sTy true).o)] os) ∧
    (∃ os, Sources tS tG c0 [(.reg 4, .int 32 true), (.reg 5, .int 32 true), (.reg 222, .int 64 true)] os) ∧
    (∃ os, Sources tS tG c0 [(.reg 2, .int 64 true), (.reg 5, .int 32 true)] os) :=
  ⟨tWrites _ _ (by decide), tWrites _ _ (by decide), tReads _ (by decide +kernel), tReads _ (by decide +kernel), tReads _ (by decide +kernel),
    tReads _ (by decide +kernel), tReads _ (by decide +kernel)⟩

theorem witness_BitAndFieldResults : Writes tS tG c0 222 BitTy.b64.regs ∧ Writes tS tG c0 223 1 ∧
    (∃ os, Sources tS tG c0 [(.reg 4, BitTy.b64.o), (.reg 9, .int 32 false)] os) ∧
    (∃ os, Sources tS tG c0 [(.reg 4, IntTy.s64.o), (.imm 9, .int 32 true)] os) ∧
    (∃ os, Sources tS tG c0 [(.reg 4, BitTy.b32.o), (.reg 9, BitTy.b32.o), (.const 3, .int 32 false)] os) ∧
    (∃ os, Sources tS tG c0 [(.reg 4, BitTy.b64.o), (.reg 222, BitTy.b64.o)] os) ∧ (∃ os, Sources tS tG c0 [(.reg 222, BitTy.b64.o)] os) ∧
    (∃ os, Sources tS tG c0 [(.reg 4, .int 32 false), (.reg 9, .int 32 false), (.reg 223, .int 32 false)] os) :=
  ⟨tWrites _ _ (by decide), tWrites _ _ (by decide), tReads _ (by decide +kernel), tReads _ (by decide +kernel), tReads _ (by decide +kernel),
    tReads _ (by decide +kernel), tReads _ (by decide +kernel), tReads _ (by decide +kernel)⟩

theorem witness_MoveAndPredicateResults : Writes tS tG c0 222 BitTy.b64.regs ∧ Writes tS tG c0 223 1 ∧
    (∃ o, tS.operand tG (lanesOf tG c0) (.reg 222) BitTy.b64.o = .ok o) ∧ Issues tS tG ∧ tG.lanes.length = 32 ∧ lanesOf tG c0 ≠ 0 ∧
    (∃ os, Sources tS tG c0 [(.reg 4, (CmpTy.int .s64).o), (.imm 7, (CmpTy.int .s64).o)] os) ∧
    (∃ os, Sources tS tG c0 [(.reg 4, FltTy.f64.o), (.imm 7, FltTy.f64.o)] os) ∧
    (∃ os, Sources tS tG c0 [(.reg 4, .flt .e4m3), (.imm 7, .int 32 false)] os) :=
  ⟨tWrites _ _ (by decide), tWrites _ _ (by decide), ok_of_isOk (by decide +kernel), tIssues, by decide +kernel, by decide +kernel,
    tReads _ (by decide +kernel), tReads _ (by decide +kernel), tReads _ (by decide +kernel)⟩

theorem witness_FloatArithmeticResults : Writes tS tG c0 222 FltTy.f64.regs ∧ tG.sigte = false ∧ rmMode tG .ru < 6 ∧ rmMode tG .rsr = 6 ∧
    (∃ os, Sources tS tG c0 [(.reg 4, FltTy.f64.o), (.imm 7, FltTy.f64.o)] os) ∧
    (∃ os, Sources tS tG c0 [(.reg 4, FltTy.f32.o), (.reg 7, FltTy.f32.o), (.const 1, FltTy.f32.o)] os) ∧
    (∃ os, Sources tS tG c0 [(.reg 222, FltTy.f64.o)] os) ∧ (∃ os, Sources tS tG c0 [(.reg 222, FltTy.f64.o), (.reg 3, .int 32 true)] os) ∧
    (IsFin (.fin true 3 2) ∧ ratOf (.fin true 3 2) ≠ 0 ∧ ratOf (.fin true 3 2) < 0 ∧ 0 < ratOf (.fin false 1 (2 ^ 149))) ∧ (IsFin (.fin true 0 1) ∧ ratOf (.fin true 0 1) = 0 ∧ (XR.fin true 0 1).isZero = true) ∧
    (XR.nan true).isNan = true ∧ (XR.inf false).isInf = true :=
  ⟨tWrites _ _ (by decide), by decide +kernel, by decide +kernel, by decide +kernel, tReads _ (by decide +kernel), tReads _ (by decide +kernel),
    tReads _ (by decide +kernel), tReads _ (by decide +kernel), ⟨⟨_, _, _, rfl, by decide⟩, by decide +kernel, by decide +kernel, by decide +kernel⟩, ⟨⟨_, _, _, rfl, by decide⟩, by decide +kernel, rfl⟩, rfl, rfl⟩

theorem witness_FloatSelectAndPackedResults : Writes tS tG c0 222 FltTy.f64.regs ∧ Writes tS tG c0 223 1 ∧ tG.sigte = false ∧
    (∃ os, Sources tS tG c0 [(.reg 4, FltTy.f64.o), (.reg 6, FltTy.f64.o)] os) ∧ (∃ os, Sources tS tG c0 [(.reg 222, FltTy.f64.o)] os) ∧
    (∃ os, Sources tS tG c0 [(.reg 4, .pair .f16), (.reg 6, .pair .f16)] os) ∧
    (∃ os, Sources tS tG c0 [(.reg 4, .pair .bf16), (.reg 6, .pair .bf16), (.reg 223, .pair .bf16)] os) ∧
    (∃ os, Sources tS tG c0 [(.reg 4, .pair .bf16), (.reg 6, .pair .bf16), (.reg 223, .flt .f32)] os) ∧
    (XR.nan false).isNan = true ∧ (XR.inf true).isNan = false ∧ (IsFin (.fin true 0 1) ∧ IsFin (.fin false 0 1) ∧ ratOf (.fin true 0 1) = ratOf (.fin false 0 1) ∧ (XR.fin true 0 1).neg = true ∧ (XR.fin false 0 1).neg = false) ∧
    IsFin (.fin true 1 8) ∧ ratOf (.fin true 1 8) < ratOf (.fin true 0 1) :=
  ⟨tWrites _ _ (by decide), tWrites _ _ (by decide), by decide +kernel, tReads _ (by decide +kernel), tReads _ (by decide +kernel),
    tReads _ (by decide +kernel), tReads _ (by decide +kernel), tReads _ (by decide +kernel), rfl, rfl, ⟨⟨_, _, _, rfl, by decide⟩, ⟨_, _, _, rfl, by decide⟩, by decide +kernel, rfl, rfl⟩, ⟨_, _, _, rfl, by decide⟩, by decide +kernel⟩

/-- `tS` with other fields of its node. -/
def tNode (f : Node → Node) : State := { tS with launches := tS.launches.map fun l => { l with nodes := l.nodes.map f } }
/-- `tS` with slot 7 of its node for 4-bit integers without scale tables (AFMT 6, ASCL 0). -/
def tSlot : State := tNode fun n => { n with lrec := { n.lrec with fs := List.replicate 7 [0, 0, 0, 0, 0] ++ [[6, 0, 0, 0, 0]] } }

theorem witness_ConversionAndQuantisedResults : tG.sigte = false ∧ rmMode tG .rsr < 7 ∧ Writes tS tG c0 222 Fmt.f64.regs ∧
    Writes tS tG c0 222 CvtInt.s64.regs ∧ (∃ os, Sources tS tG c0 [(.reg 4, .flt .e5m2)] os) ∧
    (∃ os, Sources tS tG c0 [(.reg 4, .int (max 32 CvtInt.n64.w) CvtInt.n64.sg)] os) ∧
    Writes tSlot tG c0 223 1 ∧ Writes tSlot tG c0 216 (cvtCount (fsA (tSlot.fslot tG (7 : Fin 8).val))) ∧ fsAscl (tSlot.fslot tG (7 : Fin 8).val) = 0 ∧
    (∃ (ob : Opnd) (sc : Nat → XR), tSlot.operand tG (lanesOf tG c0) (.reg 3) (.flt .f32) = .ok ob ∧ ∀ l, Lane.mem (lanesOf tG c0) l → ScaleIs tSlot tG (tSlot.fslot tG (7 : Fin 8).val) (ob.at tG l).1 (sc l)) ∧
    (∃ oa, tSlot.operand tG (lanesOf tG c0) (.reg 2) (.int 32 false) = .ok oa) ∧
    (∃ os, Sources tSlot tG c0 [(.const 1, .flt .f32)] os ∧ let x := (rdF tG .f32 (valsAt tG os 0) 0).v
      IsFin x ∧ ratOf x ≠ 0 ∧ 2 ≤ fsA (tSlot.fslot tG (7 : Fin 8).val) ∧ fsA (tSlot.fslot tG (7 : Fin 8).val) ≤ 6) ∧
    eltFmt 6 = none ∧ eltFmt 4 = some .e4m3 ∧ (classOf .f32 (.fin false 1 1) = 8 ∧ IsFin (.fin false 1 1)) ∧ classOf .f32 (.fin true 1 1) ≠ 8 :=
  have i : Issues tSlot tG := ⟨rfl, by decide +kernel⟩
  ⟨by decide +kernel, by decide +kernel, tWrites _ _ (by decide), tWrites _ _ (by decide), tReads _ (by decide +kernel), tReads _ (by decide +kernel),
    ⟨i, tFormed, by decide +kernel, by decide +kernel⟩, ⟨i, tFormed, by decide +kernel, by decide +kernel⟩, by decide +kernel,
    ⟨_, fun l => fdec .f32 _, rfl, fun l _ => by rw [ScaleIs, if_pos (by decide +kernel)]⟩,
    ok_of_isOk (by decide +kernel), ⟨_, rfl, ⟨_, _, _, rfl, by decide +kernel⟩, by decide +kernel, by decide +kernel, by decide +kernel⟩,
    by decide, by decide, ⟨by decide +kernel, ⟨_, _, _, rfl, by decide⟩⟩, by decide +kernel⟩

theorem witness_SpecialFunctionResults : Writes tS tG c0 223 1 ∧ tG.sigte = false ∧ ∃ os, Sources tS tG c0 [(.reg 223, .flt .f32)] os :=
  ⟨tWrites _ _ (by decide), by decide +kernel, tReads _ (by decide +kernel)⟩

theorem witness_SignificanceResults : Writes tS tG c0 223 1 ∧ Writes tS tG c0 222 BitTy.b64.regs ∧ Issues tS tG ∧ tG.lanes.length = 32 ∧ lanesOf tG c0 ≠ 0 ∧
    (∃ os, Sources tS tG c0 [(.reg 2, (SigTy.flt .f64).o)] os) ∧ (∃ os, Sources tS tG c0 [(.reg 2, BitTy.b64.o), (.imm 53, .int 32 false)] os) ∧
    (∃ os, Sources tS tG c0 (if Cc.c7 = .c6 ∨ Cc.c7 = .c7 then [(.reg 2, (SigTy.bit .b64).o)] else [(.reg 2, (SigTy.bit .b64).o), (.reg 0, .int 32 false)]) os) ∧
    (∃ os, Sources tS tG c0 (if Cc.lt = .c6 ∨ Cc.lt = .c7 then [(.reg 2, (SigTy.bit .b64).o)] else [(.reg 2, (SigTy.bit .b64).o), (.imm 54, .int 32 false)]) os) :=
  ⟨tWrites _ _ (by decide), tWrites _ _ (by decide), tIssues, by decide +kernel, by decide +kernel, tReads _ (by decide +kernel), tReads _ (by decide +kernel),
    tReads _ (by decide +kernel), tReads _ (by decide +kernel)⟩

/-- A state with the group changed. -/
def tWith (s : State) (f : Group → Group) : State := s.modGroup 1 f
/-- Its group as an ejected context of one lane, `n` regions deep. -/
def fSleeve (n : Nat) (g : Group) : Group := { g with sleeve := some ⟨9, 0, 3, n, 1, 0, none, none⟩, live := 1, active := 1 }

theorem witness_ModeAndRandomResults : Writes tS tG c0 223 1 ∧ tG.sleeve = none ∧ Writes tS tG c0 220 4 ∧ tG.sigte = false ∧
    (maskBits (lanesOf ((tWith tS (fSleeve 0)).group 1) c0)).length = 1 ∧ Writes (tWith tS (fSleeve 0)) ((tWith tS (fSleeve 0)).group 1) c0 223 1 ∧
    (let s1 := tS.dissolve tG.uid
     let h := s1.group tG.uid
     lanesOf h c0 ≠ 0 ∧ (∃ os, Sources s1 h c0 [(.const 5, .int 32 false), (.const 5, .int 32 false)] os ∧ srcFl os = flNone ∧
        ∀ l, Lane.mem (lanesOf h c0) l → (valsAt h os l).map Prod.fst = [(4 : Word).toNat, (4 : Word).toNat]) ∧
      modeReserved ((h.mode &&& ~~~4) ||| (4 &&& 4)) = false ∧ ((h.status &&& ~~~4) ||| (4 &&& 4)) >>> 7 = 0) := by
  refine ⟨tWrites _ _ (by decide), by decide +kernel, tWrites _ _ (by decide), by decide +kernel, by decide +kernel,
    ⟨⟨by decide +kernel, by decide +kernel⟩, ⟨by decide +kernel, by decide +kernel, by decide +kernel⟩, by decide +kernel, by decide +kernel⟩, by decide +kernel, ?_, by decide +kernel, by decide +kernel⟩
  obtain ⟨os, h, k⟩ := ok_and (x := (tS.dissolve tG.uid).operands ((tS.dissolve tG.uid).group tG.uid) (lanesOf ((tS.dissolve tG.uid).group tG.uid) c0)
      [(.const 5, .int 32 false), (.const 5, .int 32 false)])
    (fun os => decide (srcFl os = flNone) && (List.range 32).all fun l => decide ((valsAt ((tS.dissolve tG.uid).group tG.uid) os l).map Prod.fst = [4, 4])) (by decide +kernel)
  rw [Bool.and_eq_true] at k
  exact ⟨os, h, of_decide_eq_true k.1, fun l m => of_decide_eq_true (List.all_eq_true.mp k.2 l (List.mem_range.mpr m.1))⟩

/-- Page tables for a root at 0x20000: 64 KiB pages at the addresses 0x10000 (all rights), 0x20000 (with tags), 0x30000 (SHARED, no tags). -/
def tMem : Mem :=
  [(0x20000, 0x01), (0x20001, 0x10), (0x20002, 0x04), (0x41000, 0x01), (0x41001, 0x20), (0x41002, 0x04), (0x42000, 0x01), (0x42001, 0x30), (0x42002, 0x04),
   (0x43008, 0x1F), (0x43009, 0x50), (0x4300A, 0x10), (0x43010, 0x1F), (0x43011, 0x52), (0x43012, 0x20), (0x43018, 0xBF), (0x43019, 0x50), (0x4301A, 0x30)]
/-- `tS` with these tables for its partition, and bytes of a page. -/
def tM (bs : Mem := []) : State := { tS with mem := tMem ++ bs }.modPart 0 fun p => { p with ptroot := 0x20000 }
/-- A register with one value in every lane. -/
def tReg (r : Nat) (v : Word) (g : Group) : Group := { g with v := modAt (fun _ => .uniform v FULL) r g.v }

/-- A state with window 2, of 16 bytes, on the first page: a tree of depth 1 with its leaves. -/
def tTree : State := { tM [(0x100100, 1), (0x100108, 7), (0x10010C, 9)] with
  launches := (tNode fun n => { n with lrec := { n.lrec with win := [(0, 0), (0, 0), (0x10100, 16)] } }).launches }

/-- A window word inside the bound, checked. -/
theorem window_of {s : State} {g : Group} {n off : Nat} {x : Word × Tag} (h : (decide (((s.nodeOf g).lrec.win.getD n (0, 0)).2 ≠ 0) && decide (4 * off + 4 ≤ ((s.nodeOf g).lrec.win.getD n (0, 0)).2) &&
    match s.translate g.part (((s.nodeOf g).lrec.win.getD n (0, 0)).1 + 4 * off) needR false with
    | .ok p => !s.badAt p.key 4 && decide (x = (BitVec.ofNat 32 (memNum s.mem p.key 4), s.tagAt p (((s.nodeOf g).lrec.win.getD n (0, 0)).1 + 4 * off)))
    | .error _ => false) = true) : InWindow s g n off ∧ WindowWord s g n off x := by
  rw [Bool.and_eq_true, Bool.and_eq_true] at h
  obtain ⟨⟨a, b⟩, c⟩ := h
  have b := of_decide_eq_true b
  refine ⟨b, of_decide_eq_true a, fun _ => ?_, fun k => absurd b k⟩
  split at c
  · rename_i p e
    rw [Bool.and_eq_true] at c
    exact ⟨p, e, by simpa using c.1, of_decide_eq_true c.2⟩
  · cases c

/-- A word beyond the bound of window 2 reads as 0 with tag 0. -/
theorem window_out {off : Nat} (h : 4 ≤ off) : WindowWord tTree tG 2 off (0, 0) := by
  have k : ((tTree.nodeOf tG).lrec.win.getD 2 (0, 0)).2 = 16 := by decide +kernel
  exact ⟨by rw [k]; decide, fun i => by rw [InWindow, k] at i; omega, fun _ => rfl⟩

theorem witness_TreeAndTopListResults : Writes tTree tG c1 223 1 ∧ ((tTree.nodeOf tG).lrec.win.getD (2 : Fin 8).val (0, 0)).2 ≠ 0 ∧ tTree.ras.marks = [] ∧
    (∃ oa, tTree.operand tG (lanesOf tG c1) (.const 0) (.int 32 false) = .ok oa ∧ (oa.at tG 0).1 = 0) ∧
    (∀ l, Lane.mem (lanesOf tG c1) l → l = 0) ∧
    (InWindow tTree tG 2 0 ∧ WindowWord tTree tG 2 0 (1, FULL)) ∧ (InWindow tTree tG 2 1 ∧ WindowWord tTree tG 2 1 (0, FULL)) ∧ tG.beyondBound (4 + (0 : Word).toNat % 32) = false ∧
    xlt (flushIn .f32 (modeFtzi tG.mode) none (fdec .f32 (tG.read 4 0).1.toNat)) (flushIn .f32 (modeFtzi tG.mode) none (fdec .f32 (1 : Word).toNat)) = true ∧
    (InWindow tTree tG 2 2 ∧ WindowWord tTree tG 2 2 (7, FULL)) ∧ WindowWord tTree tG 2 (2 ^ 32 - 1) (0, 0) ∧
    Writes tS tG c0 208 (2 * ((7 : Fin 8).val + 1)) ∧ (∃ os, Sources tS tG c0 [(.reg 3, .flt .f32), (.reg 4, .int 32 false)] os) :=
  ⟨⟨⟨rfl, by decide +kernel⟩, tFormed, by decide +kernel, by decide +kernel⟩, by decide +kernel, by decide +kernel, ⟨_, rfl, by decide +kernel⟩, lanes_all (by decide +kernel),
    window_of (by decide +kernel), window_of (by decide +kernel), by decide +kernel, by decide +kernel, window_of (by decide +kernel), window_out (by decide), tWrites _ _ (by decide), tReads _ (by decide +kernel)⟩

/-- `tS` with 200 registers of general capacity, 12 of affine and 12 of uniform capacity, V4 affine, V5 general, and handlers. -/
def tNarrow : State :=
  (tWith tS fun g => { g with decl := { g.decl with ng := 200, na := 12, nu := 12 }, v := modAt (fun _ => .affine 5 1 FULL) 4 (modAt (fun _ => .general (List.replicate 32 (3, FULL))) 5 g.v) }).modPart 0
    fun p => { p with thand := List.replicate 13 0x10000 }
def nG : Group := tNarrow.group 1

theorem witness_ResultShapes : (Issues tNarrow nG ∧ Formed nG ∧ lanesOf nG c0 ≠ 0 ∧ lanesOf nG c1 ≠ 0 ∧ nG.merge = .none ∧ c0.tr = false ∧ nG.sleeve = none ∧ nG.sigte = false) ∧ OnePlace nG nG.active ∧
    ShapeTaken nG c0 .affine .affine ∧ ShapeTaken nG c1 .affine .general ∧ (223 : VReg).val + 1 ≤ nG.decl.total ∧
    Shape.affine.rank ≤ (nG.decl.capacity ((211 : VReg).val + 0)).rank ∧ (nG.decl.capacity ((212 : VReg).val + 0)).rank < Shape.affine.rank ∧
    (nG.decl.capacity ((200 : VReg).val + 0)).rank < Shape.general.rank ∧ Trappable tNarrow nG cILLEGAL 0x10000 ∧
    (∃ os, Sources tNarrow nG c0 [(.reg 6, .int 32 true), (.imm 7, .int 32 true)] os ∧ ∀ o, o ∈ os → o.shape nG = .uniform) ∧
    (∃ os, Sources tNarrow nG c0 [(.reg 4, .int 32 true), (.imm 7, .int 32 true)] os ∧ (¬ ∀ o, o ∈ os → o.shape nG = .uniform) ∧ (∀ o, o ∈ os → o.shape nG ≠ .general) ∧ ∃ o, o ∈ os ∧ o.shape nG = .uniform) ∧
    (∃ os, Sources tNarrow nG c0 [(.reg 4, .int 32 true), (.reg 4, .int 32 true)] os ∧ (∀ o, o ∈ os → o.shape nG ≠ .general) ∧ ∀ o, o ∈ os → o.shape nG ≠ .uniform) ∧
    (∃ os, Sources tNarrow nG c0 [(.reg 5, .int 32 true), (.reg 4, .int 32 true)] os ∧ ¬ ∀ o, o ∈ os → o.shape nG ≠ .general) ∧
    (∃ os, Sources tNarrow nG c0 [(.reg 4, .int 64 true), (.reg 6, .int 64 true)] os) ∧ (∃ o, Sources tNarrow nG c0 [(.reg 4, BitTy.b32.o)] [o]) := by
  have pos : ∀ l, l < 32 → (nG.lane l).pos = l := by decide +kernel
  refine ⟨⟨⟨by decide +kernel, by decide +kernel⟩, ⟨by decide +kernel, by decide +kernel, by decide +kernel⟩, by decide +kernel, by decide +kernel, by decide +kernel, rfl, by decide +kernel, by decide +kernel⟩, ?_, ⟨fun _ => rfl, ?_⟩,
    ⟨?_, fun _ => rfl⟩, by decide +kernel, by decide +kernel, by decide +kernel, by decide +kernel, ⟨by decide +kernel, by decide +kernel, by decide +kernel, by decide +kernel, by decide +kernel, by decide⟩,
    ⟨_, rfl, by decide +kernel⟩, ⟨_, rfl, by decide +kernel, by decide +kernel, by decide +kernel⟩, ⟨_, rfl, by decide +kernel, by decide +kernel⟩, ⟨_, rfl, by decide +kernel⟩, ok_of_isOk (by decide +kernel), ⟨_, rfl⟩⟩
  · intro l m hl hm h
    rw [pos l hl.1, pos m hm.1] at h
    exact h
  · rintro (h | ⟨l, h, k⟩)
    · exact absurd h (by decide +kernel)
    · exact absurd ⟨h.1, by rw [show lanesOf nG c0 = nG.live by decide +kernel]; exact h.2⟩ k
  · rintro ⟨_, h⟩
    exact absurd (h 31 ⟨by decide, by decide +kernel⟩).2 (by decide +kernel)

/-! ## Control words and traps -/

/-- A word for no lane. -/
def cN : Ctl := ⟨63, true, false, false⟩
/-- `tS` with its group changed, and that group. -/
def uS (f : Group → Group) : State := tWith tS f
def uG (f : Group → Group) : Group := (uS f).group 1
/-- Its group under MODE.UMP. -/
def fUmp (g : Group) : Group := { g with mode := g.mode ||| 0x10000000 }
/-- Its group in a handler after a trap of this cause. -/
def fHandler (cause : Nat) (g : Group) : Group :=
  { g with frame := some ⟨⟨cause, 0, false, false, false, false, 0, 1, 0, 0, 0, 0⟩, .precise, g.lanes.map (fun l => (l.state, l.next, l.resume)), g.active, g.clause, 0, 0, 0⟩ }
/-- `tS` with handlers in its partition. -/
def tT : State := tS.modPart 0 fun p => { p with thand := List.replicate 13 0x10000 }

theorem witness_BranchResults : Issues tS tG ∧ Plain tG ∧ (∀ l, Lane.mem (lanesOf tG c0) l → (tG.pairAt 222 l).toNat % 8 = 0) ∧ tG.sleeve = none ∧
    lanesOf tG cN = 0 ∧ lanesOf tG c0 = tG.active &&& ~~~tG.helper ∧
    Issues (uS fUmp) (uG fUmp) ∧ Plain (uG fUmp) ∧ (uG fUmp).sleeve = none ∧ lanesOf (uG fUmp) c1 ≠ 0 ∧
    lanesOf (uG fUmp) c1 ≠ (uG fUmp).active &&& ~~~(uG fUmp).helper ∧ modeUmp (uG fUmp).mode = true ∧ (uG fUmp).lanes.length = 32 :=
  ⟨tIssues, tPlain, lanes_all (by decide +kernel), by decide +kernel, by decide +kernel, by decide +kernel, ⟨by decide +kernel, by decide +kernel⟩,
    plain_of (by decide +kernel) (by decide +kernel), by decide +kernel, by decide +kernel, by decide +kernel, by decide +kernel, by decide +kernel⟩

theorem witness_CallAndLoopResults : Plain tG ∧ Writes tS tG c0 222 2 ∧ tG.cl.addr.toNat % 8 = 0 ∧ (∀ l, Lane.mem (lanesOf tG c0) l → (tG.pairAt 4 l).toNat % 8 = 0) ∧
    Writes tS tG c0 223 1 ∧ Issues tS tG ∧ lanesOf tG cN = 0 :=
  ⟨tPlain, tWrites _ _ (by decide), by decide +kernel, lanes_all (by decide +kernel), tWrites _ _ (by decide), tIssues, by decide +kernel⟩

/-- The clause of the group at the start of the first page, where the next one lies. -/
def fClause (g : Group) : Group := { g with clause := some ⟨0x10000, 2, [0, 0], 0⟩ }
/-- The group of `tM` with its clause there. -/
def mG : Group := (tWith tM fClause).group 1

theorem witness_RegionAndRepeatResults :
    (Issues tS tG ∧ Plain tG ∧ tG.lanes.length = 32 ∧ tG.sleeve = none) ∧
    (∀ n, n = 0 ∨ n = 2 → Issues (uS (fSleeve n)) (uG (fSleeve n)) ∧ Plain (uG (fSleeve n)) ∧ (uG (fSleeve n)).lanes.length = 32 ∧ lanesOf (uG (fSleeve n)) c0 ≠ 0 ∧
      ∃ x, (uG (fSleeve n)).sleeve = some x ∧ x.nest = n) ∧
    (Issues (tWith tM fClause) mG ∧ Plain mG ∧ mG.sleeve = none ∧ lanesOf mG c0 = mG.live ∧ mG.live ≠ 0 ∧ (∃ dest, (tWith tM fClause).clauseAfter mG mG.fall = .ok dest) ∧
      ∃ o, (tWith tM fClause).operand mG (lanesOf mG c0) (.const 0) (.int 32 false) = .ok o ∧ ∀ l, Lane.mem mG.live l → (o.at mG l).1 = 0) ∧
    ∃ o, tS.operand tG (lanesOf tG c0) (.imm 65535) (.int 32 false) = .ok o ∧ ∀ l, Lane.mem tG.live l → (o.at tG l).1 = 65535 := by
  refine ⟨⟨tIssues, tPlain, by decide +kernel, by decide +kernel⟩, ?_, ⟨⟨by decide +kernel, by decide +kernel⟩, plain_of (by decide +kernel) (by decide +kernel),
    by decide +kernel, by decide +kernel, by decide +kernel, ok_of_isOk (by decide +kernel), ⟨_, rfl, fun _ _ => rfl⟩⟩, ⟨_, rfl, fun _ _ => rfl⟩⟩
  intro n hn
  rcases hn with rfl | rfl
  · exact ⟨⟨by decide +kernel, by decide +kernel⟩, plain_of (by decide +kernel) (by decide +kernel), by decide +kernel, by decide +kernel, ⟨_, rfl, rfl⟩⟩
  · exact ⟨⟨by decide +kernel, by decide +kernel⟩, plain_of (by decide +kernel) (by decide +kernel), by decide +kernel, by decide +kernel, ⟨_, rfl, rfl⟩⟩

theorem witness_GroupBranchResults : Issues tS tG ∧ Plain tG ∧ tG.sleeve = none ∧ ∃ o, tS.operand tG (lanesOf tG c0) (.reg 222) (.flt .f64) = .ok o :=
  ⟨tIssues, tPlain, by decide +kernel, ok_of_isOk (by decide +kernel)⟩

theorem witness_ExitYieldNopResults : (Issues tS tG ∧ Plain tG ∧ lanesOf tG cN = 0 ∧ lanesOf tG c1 ≠ 0 ∧ tG.sleeve = none ∧ tG.lanes.length = 32) ∧
    Issues (uS (fSleeve 0)) (uG (fSleeve 0)) ∧ Plain (uG (fSleeve 0)) ∧ lanesOf (uG (fSleeve 0)) c0 ≠ 0 ∧ (uG (fSleeve 0)).sleeve.isSome = true :=
  ⟨⟨tIssues, tPlain, by decide +kernel, by decide +kernel, by decide +kernel, by decide +kernel⟩, ⟨by decide +kernel, by decide +kernel⟩,
    plain_of (by decide +kernel) (by decide +kernel), by decide +kernel, by decide +kernel⟩

theorem tTrappable (cause : Nat) (h : cause < 14) : Trappable tT tG cause 0x10000 := by
  refine ⟨by decide +kernel, by decide +kernel, by decide +kernel, by decide +kernel, ?_, by decide⟩
  have : ∀ c, c < 14 → (tT.part tG.part).thand.getD (c - 1) 0 = 0x10000 := by decide +kernel
  exact this cause h

theorem witness_TrapAndBreakpointEntry : Trappable tT tG 1 0x10000 ∧ Trappable tT tG 13 0x10000 ∧ Issues tT tG ∧ tG.sleeve = none ∧ tG.retPending = none ∧
    lanesOf tG cN = 0 ∧ lanesOf tG c0 ≠ 0 ∧ Trappable (tT.nextWord (tG.issued [] [])) ((tT.nextWord (tG.issued [] [])).group tG.uid) cBPT 0x10000 :=
  ⟨tTrappable _ (by decide), tTrappable _ (by decide), ⟨rfl, by decide +kernel⟩, by decide +kernel, by decide +kernel, by decide +kernel, by decide +kernel,
    ⟨by decide +kernel, by decide +kernel, by decide +kernel, by decide +kernel, by decide +kernel, by decide⟩⟩

theorem witness_HandlerWordResults : (Issues tS tG ∧ Plain tG ∧ tG.frame = none ∧ Writes tS tG c0 223 1) ∧
    (let s := uS (fHandler 1)
     let g := uG (fHandler 1)
     Issues s g ∧ Plain g ∧ g.sleeve = none ∧ g.frame.isSome = true ∧ lanesOf g c0 = g.active &&& ~~~g.helper ∧ Writes s g c0 223 1) :=
  ⟨⟨tIssues, tPlain, by decide +kernel, tWrites _ _ (by decide)⟩, ⟨by decide +kernel, by decide +kernel⟩, plain_of (by decide +kernel) (by decide +kernel),
    by decide +kernel, by decide +kernel, by decide +kernel,
    ⟨⟨by decide +kernel, by decide +kernel⟩, ⟨by decide +kernel, by decide +kernel, by decide +kernel⟩, by decide +kernel, by decide +kernel⟩⟩

theorem witness_TrapReturnRestores : ∃ f, (uS (fHandler 1)).group? (uG (fHandler 1)).uid = some (uG (fHandler 1)) ∧ (uG (fHandler 1)).frame = some f ∧
    f.clause.isSome = true ∧ f.tr.ej = false ∧ (f.kind = .bpt ∨ f.kind = .precise) ∧
    f.lanes[31]? = some (.onPath, 0, none) ∧ (uG (fHandler 1)).live.getLsbD 31 = true ∧ (uG (fHandler 1)).helper.getLsbD 31 = false ∧ ((uG (fHandler 1)).lane 31).state ≠ .exited :=
  ⟨_, by decide +kernel, rfl, by decide +kernel, by decide +kernel, .inr rfl, by decide +kernel, by decide +kernel, by decide +kernel, by decide +kernel⟩

theorem witness_RaisedAndUnassignedTraps : Issues tT tG ∧ tG.sleeve = none ∧ lanesOf tG c0 ≠ 0 ∧ Trappable tT tG cPRIV 0x10000 ∧ Trappable tT tG cILLEGAL 0x10000 ∧
    (∃ os, Sources tT tG c0 [(.const 1, .int 32 false), (.reg 4, .int 32 false)] os ∧ (∀ l, Lane.mem (lanesOf tG c0) l → srcVal tG os l 0 = 1 ∧ srcVal tG os l 1 = 0) ∧
      0 < bits 1 0 8 ∧ bits 1 0 8 ≤ 13 ∧ bits 1 16 16 = 0 ∧ Trappable tT tG (bits 1 0 8) 0x10000) ∧
    (let s := tWith tT (tReg 6 13)
     let g := s.group 1
     Issues s g ∧ g.sleeve = none ∧ lanesOf g c0 ≠ 0 ∧ (∃ os, Sources s g c0 [(.reg 6, .int 32 false), (.reg 4, .int 32 false)] os ∧
      ∀ l, Lane.mem (lanesOf g c0) l → srcVal g os l 0 = 13 ∧ srcVal g os l 1 = 0) ∧
      0 < bits 13 0 8 ∧ bits 13 0 8 ≤ 13 ∧ bits 13 16 16 = 0 ∧ Trappable s g (bits 13 0 8) 0x10000) :=
  ⟨⟨rfl, by decide +kernel⟩, by decide +kernel, by decide +kernel, tTrappable _ (by decide), tTrappable _ (by decide),
    ⟨_, rfl, lanes_all (by decide +kernel), by decide, by decide, by decide, tTrappable _ (by decide)⟩,
    ⟨by decide +kernel, by decide +kernel⟩, by decide +kernel, by decide +kernel, ⟨_, rfl, lanes_all (by decide +kernel)⟩, by decide, by decide, by decide,
    ⟨by decide +kernel, by decide +kernel, by decide +kernel, by decide +kernel, by decide +kernel, by decide⟩⟩

theorem witness_LaunchEndingWords : Issues (uS (fHandler 1)) (uG (fHandler 1)) ∧ Plain (uG (fHandler 1)) ∧ (uG (fHandler 1)).sleeve = none ∧ lanesOf (uG (fHandler 1)) c0 ≠ 0 ∧
    (∃ l, (uS (fHandler 1)).launch? (uG (fHandler 1)).launch = some l ∧ l.num = (uG (fHandler 1)).launch ∧ l.ending = none) ∧
    (∃ f, (uG (fHandler 1)).frame = some f ∧ hostResumes f.tr = false) ∧
    ∃ os, Sources (uS (fHandler 1)) (uG (fHandler 1)) c0 [(.reg 3, .int 32 false), (.reg 4, .int 32 false)] os ∧
      ∀ k, Lane.mem (lanesOf (uG (fHandler 1)) c0) k → srcVal (uG (fHandler 1)) os k 0 = 0 ∧ srcVal (uG (fHandler 1)) os k 1 = 0 :=
  ⟨⟨by decide +kernel, by decide +kernel⟩, plain_of (by decide +kernel) (by decide +kernel), by decide +kernel, by decide +kernel,
    (some_and (fun l => decide (l.num = (uG (fHandler 1)).launch ∧ l.ending = none)) (by decide +kernel)).imp fun _ h => ⟨h.1, of_decide_eq_true h.2⟩, ⟨_, rfl, by decide +kernel⟩, ⟨_, rfl, lanes_all (by decide +kernel)⟩⟩

/-! ## Cross-lane words -/

/-- In `tS` every lane stands at the position of its slot. -/
theorem tOnePlace (w : Mask) : OnePlace tG w := by
  have k : ∀ l, l < 32 → (tG.lane l).pos = l := by decide +kernel
  intro l m hl hm h
  rw [k l hl.1, k m hm.1] at h
  exact h
/-- `tS` with a second group of the workgroup, with lanes on their paths. -/
def tTwo : State := { tS with groups := tS.groups ++ [{ tG with uid := 2, gid := 1, gseq := 1, slot := 1, phase := .waiting, clause := none }] }

theorem witness_ShuffleResults : Plain tG ∧ tG.sleeve = none ∧ OnePlace tG tG.active ∧ Writes tS tG c0 222 BitTy.b64.regs ∧
    (∃ oa, tS.operand tG (lanesOf tG c0) (.reg 220) BitTy.b64.o = .ok oa) ∧ ∃ ob, tS.operand tG (lanesOf tG c0) (.const 14) (.int 32 false) = .ok ob :=
  ⟨tPlain, by decide +kernel, tOnePlace _, tWrites _ _ (by decide), ok_of_isOk (by decide +kernel), ok_of_isOk (by decide +kernel)⟩

/-- Its group as the host of a merge with a group that is gone: lane 1 holds the lane 5 of the donor. -/
def fHost (g : Group) : Group := { g with merge := .host 2 [(1, 5)] true }

theorem witness_VoteAndInspectionResults : (Issues tS tG ∧ Plain tG ∧ tG.sleeve = none ∧ Formed tG ∧ lanesOf tG c0 ≠ 0) ∧
    (∃ o, tS.operand tG (lanesOf tG c0) (.reg 222) BitTy.b64.o = .ok o) ∧ (223 : VReg).val + 1 ≤ tG.decl.ng ∧
    (∃ f : Nat → Nat, ∀ l, Lane.mem (lanesOf tG c0) l → f l < 2 ^ 32 ∧ ∀ j, j < 32 →
      ((f l).testBit j = true ↔ ∃ m, Lane.mem (lanesOf tG c0) m ∧ (tG.lane m).pos = j ∧ (tG.pred (1 : Pred).val m != false) = true)) ∧
    Writes tS tG c0 223 1 ∧ Writes tS tG c0 222 BitTy.b64.regs ∧ (∀ y, Src.const 3 ≠ .reg y) ∧
    (∀ l, Lane.mem (lanesOf tG c0) l → (tG.lane l).tid = (tG.lane ((maskBits (lanesOf tG c0)).headD 0)).tid - (tG.lane ((maskBits (lanesOf tG c0)).headD 0)).home + (tG.lane l).home) ∧
    (∀ dn mv k, tG.merge ≠ .host dn mv k) ∧ (∀ l m, Lane.mem (lanesOf tG c0) l → Lane.mem (lanesOf tG c0) m → (tG.lane l).gid = (tG.lane m).gid) ∧
    (Writes (uS fHost) (uG fHost) c0 223 1 ∧ (uG fHost).merge = .host 2 [(1, 5)] true) ∧
    (Writes (uS (fSleeve 0)) (uG (fSleeve 0)) c0 223 1 ∧ (∃ x, (uG (fSleeve 0)).sleeve = some x) ∧ ∀ m, Lane.mem (lanesOf (uG (fSleeve 0)) c0) m → m = 0) := by
  have pos : ∀ l, l < 32 → (tG.lane l).pos = l ∧ (lanesOf tG c0).getLsbD l = true ∧ (tG.lane l).gid = 0 ∧ (tG.pred 1 l = true ↔ l = 0) := by decide +kernel
  have w : ∀ f, f = fHost ∨ f = fSleeve 0 → Writes (uS f) (uG f) c0 223 1 := by
    rintro f (rfl | rfl) <;> exact ⟨⟨by decide +kernel, by decide +kernel⟩, ⟨by decide +kernel, by decide +kernel, by decide +kernel⟩, by decide +kernel, by decide +kernel⟩
  refine ⟨⟨tIssues, tPlain, by decide +kernel, tFormed, by decide +kernel⟩, ok_of_isOk (by decide +kernel), by decide +kernel, ⟨fun _ => 1, fun l _ => ⟨(by decide : 1 < 2 ^ 32), fun j hj => ?_⟩⟩, tWrites _ _ (by decide), tWrites _ _ (by decide),
    fun _ => by simp, lanes_all (by decide +kernel), tPlain.host, fun l m hl hm => by rw [(pos l hl.1).2.2.1, (pos m hm.1).2.2.1], ⟨w _ (.inl rfl), rfl⟩, w _ (.inr rfl), ⟨_, rfl⟩, lanes_all (by decide +kernel)⟩
  constructor
  · intro h
    have : ∀ j, j < 32 → (1 : Nat).testBit j = true → j = 0 := by decide
    obtain rfl := this j hj h
    exact ⟨0, ⟨by decide, (pos 0 (by decide)).2.1⟩, (pos 0 (by decide)).1, by decide +kernel⟩
  · rintro ⟨m, hm, rfl, h⟩
    rw [show (tG.pred (1 : Pred).val m != false) = tG.pred 1 m from Bool.bne_false _] at h
    rw [(pos m hm.1).1, (pos m hm.1).2.2.2.mp h]
    exact (by decide : (1 : Nat).testBit 0 = true)

theorem witness_ReductionResults : Plain tG ∧ tG.sleeve = none ∧ OnePlace tG (lanesOf tG c0) ∧ (∀ l, Lane.mem (lanesOf tG c0) l → (tG.lane l).pos < 32) ∧
    Writes tS tG c0 222 IntTy.s64.regs ∧ (∃ o, tS.operand tG (lanesOf tG c0) (.reg 220) IntTy.s64.o = .ok o ∧ ∀ l, Lane.mem (lanesOf tG c0) l → (o.at tG l).1 < 2 ^ IntTy.s64.w) ∧
    tG.sigte = false ∧ Writes tS tG c0 222 FltTy.f64.regs ∧ (∃ o, tS.operand tG (lanesOf tG c0) (.reg 220) FltTy.f64.o = .ok o) ∧ rmMode tG .rz ≠ 6 ∧ Width.w32.w = 2 ^ 5 ∧
    ∃ v : Nat → Nat → Part, ∀ p, p < 32 → (∀ l, Lane.mem (lanesOf tG c0) l → (tG.lane l).pos = p → v 0 p = ⟨.fin false 0 1, 53, flNone⟩) ∧
      ((∀ l, Lane.mem (lanesOf tG c0) l → (tG.lane l).pos ≠ p) → v 0 p = ⟨.fin true 0 1, fmtP .f64, flNone⟩) := by
  refine ⟨tPlain, by decide +kernel, tOnePlace _, lanes_all (by decide +kernel), tWrites _ _ (by decide), ⟨_, rfl, lanes_all (by decide +kernel)⟩, by decide +kernel,
    tWrites _ _ (by decide), ok_of_isOk (by decide +kernel), by decide +kernel, by decide, fun _ _ => ⟨.fin false 0 1, 53, flNone⟩, fun p hp => ⟨fun _ _ _ => rfl, fun h => ?_⟩⟩
  have : ∀ p, p < 32 → (lanesOf tG c0).getLsbD p = true ∧ (tG.lane p).pos = p := by decide +kernel
  exact absurd (this p hp).2 (h p ⟨hp, (this p hp).1⟩)

/-- A second group of the workgroup, of the threads 32 to 63, that waits at the collective. -/
def gB : Group := { tG with uid := 2, gid := 1, gseq := 1, slot := 1, phase := .waiting, gate := .regroup, lanes := tG.lanes.map fun x => { x with tid := x.tid + 32, gid := 1, homeUid := 2 } }
/-- `tS` with both groups, before or after a REGROUP. -/
def tGather (rg : Bool) : State := { tS with groups := [tG, gB] }.modWg 0 fun w => { w with groups := [1, 2], regrouped := rg }

theorem mates (rg : Bool) {h : Group} (m : Mate (tGather rg) tG h) : h = tG ∨ h = gB := by simpa [tGather, State.modWg] using m.1

theorem tGathered (rg : Bool) : Gathered (tGather rg) tG [tG, gB] := by
  have none : (tGather rg).accs = [] ∧ (tGather rg).sliceqs = [] ∧ (tGather rg).mops = [] := by cases rg <;> decide +kernel
  have ok : ∀ h, h ∈ [tG, gB] → Mate (tGather rg) tG h := by
    intro h m
    refine ⟨m, ?_⟩
    simp only [List.mem_cons, List.not_mem_nil, or_false] at m
    rcases m with rfl | rfl <;> exact ⟨rfl, by decide +kernel, by decide +kernel⟩
  have regs : ∀ r, gB.reg r = tG.reg r := fun _ => rfl
  have id : ∀ l, l < 32 → (tG.lane l).tid = l ∧ (gB.lane l).tid = l + 32 ∧ (tG.lane l).state = .onPath ∧ (gB.lane l).state = .onPath := by decide +kernel
  refine ⟨by cases rg <;> decide +kernel, ok _ (by simp), ?_, ?_, ?_, ?_, ?_, ?_⟩
  · intro h m
    rcases mates rg m with rfl | rfl
    · exact ⟨tFormed, by decide +kernel, rfl, by decide +kernel, by decide +kernel, fun _ _ => rfl, rfl, rfl, rfl, by decide +kernel, fun _ => ⟨.inl rfl, by decide +kernel, rfl, fun l h => (id l h.1).2.2.1⟩⟩
    · exact ⟨⟨by decide +kernel, by decide +kernel, by decide +kernel⟩, by decide +kernel, rfl, by decide +kernel, by decide +kernel, fun r _ => regs r, rfl, rfl, rfl, by decide +kernel, fun _ => ⟨.inr rfl, by decide +kernel, rfl, fun l h => (id l h.1).2.2.2⟩⟩
  · intro h _
    exact ⟨fun a m => (by rw [none.1] at m; cases m), fun q m => (by rw [none.2.1] at m; cases m)⟩
  · intro q m
    rw [none.2.2] at m
    cases m
  · refine fun h => ⟨fun m => ⟨ok h m, .inl ?_⟩, fun m => by rcases mates rg m.1 with rfl | rfl <;> simp⟩
    simp only [List.mem_cons, List.not_mem_nil, or_false] at m
    rcases m with rfl | rfl <;> decide +kernel
  · exact List.pairwise_pair.mpr (by decide +kernel)
  · intro a b l m ha hb hl hm
    obtain ⟨l1, l2, _⟩ := id l hl.1
    obtain ⟨m1, m2, _⟩ := id m hm.1
    have := hl.1
    have := hm.1
    simp only [List.mem_cons, List.not_mem_nil, or_false] at ha hb
    rcases ha with rfl | rfl <;> rcases hb with rfl | rfl
    · exact ⟨by omega, fun e => ⟨rfl, by omega⟩⟩
    · exact ⟨by omega, fun e => by omega⟩
    · exact ⟨by omega, fun e => by omega⟩
    · exact ⟨by omega, fun e => ⟨rfl, by omega⟩⟩

theorem witness_RegroupResults : Plain tG ∧ tG.sleeve = none ∧ lanesOf tG c0 ≠ 0 ∧ lanesOf tG c0 = tG.live ∧
    (∀ rg, Issues (tGather rg) tG ∧ Gathered (tGather rg) tG [tG, gB] ∧ (∃ w, (tGather rg).wg? tG.wg = some w) ∧ ((tGather rg).wg tG.wg).regrouped = rg ∧
      ∃ o, (tGather rg).operand tG tG.live (.reg 3) (.int 32 false) = .ok o) ∧
    (let threads := [tG, gB].flatMap fun h => (maskBits h.live).map fun l => (h, l)
     (∀ x ∈ threads, (x.1.lane x.2).home < 32 ∧ ∃ d ∈ [tG, gB], d.uid = (x.1.lane x.2).homeUid) ∧
      ∀ x ∈ threads, ∀ y ∈ threads, (x.1.lane x.2).homeUid = (y.1.lane y.2).homeUid → (x.1.lane x.2).home = (y.1.lane y.2).home → x = y) ∧
    (Issues tTwo tG ∧ ∃ h, Mate tTwo tG h ∧ h.live ≠ 0 ∧ h.uid ≠ tG.uid ∧ h.gate ≠ .regroup) ∧
    (Issues tT tG ∧ lanesOf tG c1 ≠ 0 ∧ lanesOf tG c1 ≠ tG.live ∧ Trappable tT tG cUNIMIS 0x10000) := by
  have home : ∀ l, l < 32 → (tG.lane l).home = l ∧ (gB.lane l).home = l ∧ (tG.lane l).homeUid = 1 ∧ (gB.lane l).homeUid = 2 := by decide +kernel
  have thread : ∀ x ∈ ([tG, gB].flatMap fun h => (maskBits h.live).map fun l => (h, l)), (x.1 = tG ∨ x.1 = gB) ∧ x.2 < 32 := by
    intro x m
    obtain ⟨h, mh, m⟩ := List.mem_flatMap.mp m
    obtain ⟨l, ml, rfl⟩ := List.mem_map.mp m
    refine ⟨by simpa using mh, ?_⟩
    simp only [List.mem_cons, List.not_mem_nil, or_false] at mh
    have : ∀ l ∈ maskBits tG.live, l < 32 := by decide +kernel
    rcases mh with rfl | rfl <;> exact this l ml
  refine ⟨tPlain, by decide +kernel, by decide +kernel, by decide +kernel,
    fun rg => ⟨⟨rfl, by cases rg <;> decide +kernel⟩, tGathered rg, some_of_isSome (by cases rg <;> decide +kernel), by cases rg <;> decide +kernel, ok_of_isOk (by cases rg <;> decide +kernel)⟩,
    ⟨fun x m => ?_, fun x mx y my u e => ?_⟩, ⟨⟨rfl, by decide +kernel⟩, { tG with uid := 2, gid := 1, gseq := 1, slot := 1, phase := .waiting, clause := none }, ⟨?_, rfl, by decide +kernel, by decide⟩, by decide +kernel, by decide +kernel, by decide +kernel⟩,
    ⟨rfl, by decide +kernel⟩, by decide +kernel, by decide +kernel, tTrappable _ (by decide)⟩
  · obtain ⟨h | h, l⟩ := thread x m
    · rw [h, (home _ l).1, (home _ l).2.2.1]
      exact ⟨l, tG, by simp, by decide +kernel⟩
    · rw [h, (home _ l).2.1, (home _ l).2.2.2]
      exact ⟨l, gB, by simp, by decide +kernel⟩
  · obtain ⟨hx, lx⟩ := thread x mx
    obtain ⟨hy, ly⟩ := thread y my
    obtain ⟨a1, a2, a3, a4⟩ := home _ lx
    obtain ⟨b1, b2, b3, b4⟩ := home _ ly
    rcases hx with hx | hx <;> rcases hy with hy | hy <;> rw [hx, hy] at u e
    · exact Prod.ext (hx.trans hy.symm) (by omega)
    · omega
    · omega
    · exact Prod.ext (hx.trans hy.symm) (by omega)
  · exact List.mem_append_right _ (List.mem_singleton.mpr rfl)

/-! ## Memory words and accesses -/

theorem witness_LoadsAndStoresStart : Issues tS tG ∧ lanesOf tG c0 ≠ 0 ∧ 220 + LdTy.b128.regs ≤ tG.decl.ng ∧ 222 + BitTy.b64.regs ≤ tG.decl.ng ∧
    220 + WinTy.b128.regs ≤ tG.decl.ng ∧ 223 + 1 ≤ tG.decl.ng :=
  ⟨tIssues, by decide +kernel, by decide +kernel, by decide +kernel, by decide +kernel, by decide +kernel⟩

/-- `tS` with a queue that its partition owns and that is open to the device. -/
def tQueue : State := (tS.modPart 0 fun p => { p with qrange := 0x10000 }).modQueue 0 fun q => { q with ctl := 0x81 }

theorem witness_AtomicsAndObjectsStart : Issues tQueue tG ∧ lanesOf tG c0 ≠ 0 ∧ (∀ t, Aop.addF FltTy.f32 = .addF t → modeRnd tG.mode ≠ 6) ∧
    222 + (Aop.cas .b64).size / 4 ≤ tG.decl.ng ∧ (∃ oy, tQueue.operand tG (lanesOf tG c0) (.reg 3) (.int 32 true) = .ok oy) ∧
    ∀ l, Lane.mem (lanesOf tG c0) l → tQueue.enqDenied tG (tG.read (4 : VReg).val l).1.toNat = false :=
  ⟨⟨rfl, by decide +kernel⟩, by decide +kernel, fun _ _ => by decide +kernel, by decide +kernel, ok_of_isOk (by decide +kernel), lanes_all (by decide +kernel)⟩

/-- A node with eight edges to itself: at most 32 records, depth one more, at most depth 1. -/
def fEdge (n : Node) : Node := { n with edges := List.replicate 8 ⟨32, 1, 0⟩, dbound := 1 }
/-- The group of `tS` with its count on each edge. -/
def fUsed (g : Group) : Group := { g with edgeUsed := List.replicate 8 0 }
def tEdge : State := tWith (tNode fEdge) fUsed

theorem witness_EmitStarts : Issues tEdge (tEdge.group 1) ∧ (tEdge.group 1).sleeve = none ∧ (tEdge.group 1).merge = .none ∧ (tEdge.group 1).retPending = none ∧ lanesOf (tEdge.group 1) c0 ≠ 0 ∧
    ∃ x, tEdge.edge? (tEdge.group 1) (7 : Fin 8).val = some x ∧ (7 : Fin 8).val < (tEdge.group 1).edgeUsed.length ∧ 4 ≤ (tEdge.target (tEdge.group 1) x).z ∧
      (222 : VReg).val + (tEdge.target (tEdge.group 1) x).z / 4 ≤ (tEdge.group 1).decl.total ∧
      (tEdge.group 1).edgeUsed.getD (7 : Fin 8).val 0 + (maskBits (lanesOf (tEdge.group 1) c0)).length ≤ x.maxout ∧
      ∀ l, Lane.mem (lanesOf (tEdge.group 1) c0) l → ((tEdge.group 1).lane l).ecount ≠ 65535 ∧ ((tEdge.group 1).lane l).depth + x.inc ≤ (tEdge.target (tEdge.group 1) x).dbound :=
  ⟨⟨by decide +kernel, by decide +kernel⟩, by decide +kernel, by decide +kernel, by decide +kernel, by decide +kernel, ⟨32, 1, 0⟩, by decide +kernel, by decide +kernel,
    by decide +kernel, by decide +kernel, by decide +kernel, lanes_all (by decide +kernel)⟩

/-- EMITX names the edge 7 in every lane. -/
theorem witness_EmitStarts_register : ∀ l, Lane.mem (lanesOf ((tWith tEdge (tReg 9 7)).group 1) c0) l → (((tWith tEdge (tReg 9 7)).group 1).read (9 : VReg).val l).1.toNat = (7 : Fin 8).val :=
  lanes_all (by decide +kernel)

theorem witness_WindowLoadResults : Writes tTree tG c1 220 WinTy.b128.regs ∧
    (∃ x : Nat → Word × Tag, ∀ l, Lane.mem (lanesOf tG c1) l → ∀ i, i < WinTy.b128.regs →
      let at' := ((tG.read (4 : VReg).val l).1.toNat + ((none : Option (BitVec 16)).getD 0).toNat + i) % 2 ^ 32
      InWindow tTree tG (2 : Fin 8).val at' ∧ WindowWord tTree tG (2 : Fin 8).val at' (x i)) ∧
    (∀ l, Lane.mem (lanesOf tG c1) l → ∀ i, i < WinTy.b128.regs →
      let at' := ((tG.read (4 : VReg).val l).1.toNat + ((some 4 : Option (BitVec 16)).getD 0).toNat + i) % 2 ^ 32
      ¬ InWindow tTree tG (2 : Fin 8).val at' ∧ WindowWord tTree tG (2 : Fin 8).val at' (0, 0)) ∧
    Writes tT tG c0 220 WinTy.b128.regs ∧ ((tT.nodeOf tG).lrec.win.getD (0 : Fin 8).val (0, 0)).2 = 0 ∧ tG.sleeve = none ∧ Trappable tT tG cPARAMUNB 0x10000 := by
  have k : ((tTree.nodeOf tG).lrec.win.getD 2 (0, 0)).2 = 16 := by decide +kernel
  have zero : ∀ l, Lane.mem (lanesOf tG c1) l → (tG.read (4 : VReg).val l).1.toNat = 0 := lanes_all (by decide +kernel)
  have w : ∀ j n, (j, n) ∈ [(0, 1), (1, 0), (2, 7), (3, 9)] → InWindow tTree tG 2 j ∧ WindowWord tTree tG 2 j (BitVec.ofNat 32 n, FULL) := by
    intro j n m
    simp only [List.mem_cons, Prod.mk.injEq, List.not_mem_nil, or_false] at m
    rcases m with ⟨rfl, rfl⟩ | ⟨rfl, rfl⟩ | ⟨rfl, rfl⟩ | ⟨rfl, rfl⟩ <;> exact window_of (by decide +kernel)
  refine ⟨⟨⟨rfl, by decide +kernel⟩, tFormed, by decide +kernel, by decide +kernel⟩, ⟨fun i => (BitVec.ofNat 32 ([1, 0, 7, 9].getD i 0), FULL), fun l m i hi => ?_⟩, fun l m i hi => ?_,
    ⟨⟨rfl, by decide +kernel⟩, tFormed, by decide +kernel, by decide +kernel⟩, by decide +kernel, by decide +kernel, tTrappable _ (by decide)⟩
  · rw [zero l m]
    have : i = 0 ∨ i = 1 ∨ i = 2 ∨ i = 3 := by simp [WinTy.regs] at hi; omega
    rcases this with rfl | rfl | rfl | rfl <;> exact w _ _ (by simp)
  · rw [zero l m]
    simp only [WinTy.regs] at hi
    rw [show (0 + ((some 4 : Option (BitVec 16)).getD 0).toNat + i) % 2 ^ 32 = 4 + i by simp; omega]
    exact ⟨fun h => by rw [InWindow] at h; erw [k] at h; omega, window_out (by omega)⟩

theorem witness_CacheControlEffects : Issues tS tG ∧ lanesOf tG c0 ≠ 0 := ⟨tIssues, by decide +kernel⟩

/-- The request of lane 31 at an address, with data words. -/
def tReq (addr : Nat) (data : List (Word × Tag)) : LaneReq := { (default : LaneReq) with slot := 31, tid := 31, addr := addr, data := data, data2 := data }
/-- An access of the group with this request. -/
def tAcc (op : AccOp) (dst : AccDst) (q : LaneReq) : Access := { (default : Access) with id := 70, uid := 1, wg := 0, op := op, dst := dst, w := bit1 31, lanes := [q] }
/-- `tM` with this access alone. -/
def tA (a : Access) : State := { tM with accs := [a], uidNext := 71 }

theorem witness_GlobalStoreCompletes (va : Nat) (h : va = 0x10000 ∨ va = 0x2FFFC ∨ va = 0x30000) :
    let q := tReq va [(0x11223344, 40)]
    let a := tAcc (.store false .b32) .none q
    ∃ p, (tA a).accs.find? (fun b => b.id == a.id) = some a ∧ a.lanes = [q] ∧ q.slot < 32 ∧ a.op = .store false .b32 ∧ a.dst = .none ∧ (tA a).mayPerform a q = true ∧ q.addr < 2 ^ 57 ∧
      q.addr % StTy.b32.size = 0 ∧ (tA a).translate ((tA a).wg a.wg).part q.addr needW false = .ok p ∧ (tA a).ras.marks = [] ∧ Memory.wf (tA a).mem = true := by
  rcases h with rfl | rfl | rfl <;>
  · refine (ok_of_isOk ?_).imp fun p h => ⟨by decide +kernel, rfl, by decide, rfl, rfl, by decide +kernel, by decide, by decide, h, by decide +kernel, by decide +kernel⟩
    decide +kernel

theorem witness_GlobalLoadCompletes :
    let q := tReq 0x1FFF0 []
    let a := tAcc (.load false .none .b128) (.regs 220 4 .general) q
    ∃ p, (tA a).accs.find? (fun b => b.id == a.id) = some a ∧ a.lanes = [q] ∧ Lane.mem tG.live q.slot ∧ (tA a).group? a.uid = some tG ∧ a.op = .load false .none .b128 ∧
      a.dst = .regs 220 LdTy.b128.regs .general ∧ 220 + LdTy.b128.regs ≤ tG.v.length ∧ (tA a).mayPerform a q = true ∧ q.addr < 2 ^ 57 ∧ q.addr % LdTy.b128.size = 0 ∧
      (tA a).translate ((tA a).wg a.wg).part q.addr needR false = .ok p ∧ p.sig = false ∧ (tA a).ras.marks = [] := by
  refine (ok_and (fun p => !p.sig) ?_).imp fun p h => ⟨by decide +kernel, rfl, ⟨by decide, by decide +kernel⟩, by decide +kernel, rfl, rfl, by decide +kernel, by decide +kernel, by decide, by decide, h.1,
    by simpa using h.2, by decide +kernel⟩
  decide +kernel

theorem witness_AtomicsCompleteWithValues :
    (let q := tReq 0x10008 [(5, FULL), (0, FULL)]
     let a := tAcc (.atom (.cas .b64)) (.regs 222 2 .general) q
     ∃ p, (tA a).accs.find? (fun b => b.id == a.id) = some a ∧ a.lanes = [q] ∧ Lane.mem tG.live q.slot ∧ (tA a).group? a.uid = some tG ∧ a.op = .atom (.cas .b64) ∧
       a.dst = .regs 222 ((Aop.cas .b64).size / 4) .general ∧ 222 + (Aop.cas .b64).size / 4 ≤ tG.v.length ∧ (tA a).mayPerform a q = true ∧ q.addr < 2 ^ 57 ∧ q.addr % (Aop.cas .b64).size = 0 ∧
       (tA a).translate ((tA a).wg a.wg).part q.addr needRW false = .ok p ∧ p.sig = false ∧ p.ord = false ∧ (tA a).ras.marks = [] ∧ Memory.wf (tA a).mem = true) ∧
    (2 ^ 32 - 1 < 2 ^ IntTy.s32.w ∧ 2 ^ 32 - 1 < 2 ^ BitTy.b32.w ∧ 2 ^ 64 - 1 < 2 ^ IntTy.n64.w ∧ 2 ^ 64 - 1 < 2 ^ BitTy.b64.w) := by
  refine ⟨?_, by decide⟩
  · obtain ⟨p, h, k⟩ := ok_and (x := (tA (tAcc (.atom (.cas .b64)) (.regs 222 2 .general) (tReq 0x10008 [(5, FULL), (0, FULL)]))).translate
        ((tA (tAcc (.atom (.cas .b64)) (.regs 222 2 .general) (tReq 0x10008 [(5, FULL), (0, FULL)]))).wg 0).part 0x10008 needRW false) (fun p => !p.sig && !p.ord) (by decide +kernel)
    simp at k
    exact ⟨p, by decide +kernel, rfl, ⟨by decide, by decide +kernel⟩, by decide +kernel, rfl, rfl, by decide +kernel, by decide +kernel, by decide, by decide, h, k.1, k.2,
      by decide +kernel, by decide +kernel⟩

/-- The state `tA` in a node with one tile of 64 bytes, which the valid descriptor 1023 covers. -/
def tTile (a : Access) : State :=
  { tA a with launches := (tNode fun n => { n with lrec := { n.lrec with tiles := 1 } }).launches }.modCore 0 fun c => { c with desc := [(1023, 0x4000000100000000)] }

theorem witness_SemaphoreAndTileCompletes (op : AccOp) (i : Nat) (h : op = .seminc 255 ∧ i = 255 ∨ op = .tileSet ∧ i = 0 ∨ op = .tileBit true ∧ i = 1023) :
    let q := tReq i [(1, FULL), (0, 0)]
    let a := tAcc op .none q
    let s := tTile a
    s.accs.find? (fun b => b.id == a.id) = some a ∧ a.lanes = [q] ∧ q.slot < 32 ∧ a.dst = .none ∧ s.mayPerform a q = true ∧ (q.data.getD 1 (0, 0)).2 = 0 ∧ q.addr < 1024 ∧
      (i = 1023 → tileValid (s.descGet (s.wg a.wg).core q.addr) (s.tileBytes (s.wg a.wg)) = true) := by
  rcases h with ⟨rfl, rfl⟩ | ⟨rfl, rfl⟩ | ⟨rfl, rfl⟩ <;> exact ⟨by decide +kernel, rfl, by decide, rfl, by decide +kernel, rfl, by decide, by decide +kernel⟩

/-! ## Synchronisation, copies and slices -/

/-- The group with handle register 3 of lane 0 on entry 0 of the workgroup, of a kind. -/
def fHandle (kind : Nat) (g : Group) : Group := g.modLane 0 fun l => { l with h := modAt (fun _ => BitVec.ofNat 32 (2 ^ 30 + kind * 2 ^ 27 + 5 * 2 ^ 8)) 3 l.h }
/-- A state in which that handle is pending. -/
def tH (s : State) (kind : Nat) : State := (tWith s (fHandle kind)).modWg 0 fun w => { w with handles := modAt (fun _ => ⟨5, kind, 1, 0⟩) 0 w.handles }
/-- Its group. -/
def hG (kind : Nat) : Group := (tH tS kind).group 1

theorem witness_FenceSemaphoreAndTileWaits :
    (Issues tS tG ∧ (∀ l, Lane.mem (lanesOf tG c0) l → ¬ ∃ b, b ∈ tS.accs ∧ b.wg = tG.wg ∧ b.seq < tS.uidNext ∧ ∃ q, q ∈ b.lanes ∧ q.tid = (tG.lane l).tid ∧ q.done = false) ∧
      ∀ l, Lane.mem (lanesOf tG c0) l → tS.handleOf tG 3 l ≠ 1) ∧
    (let s := tA (tAcc (.store false .b32) .none (tReq 0x10000 []))
     Issues s tG ∧ ∃ l, Lane.mem (lanesOf tG c0) l ∧ ∃ b, b ∈ s.accs ∧ b.wg = tG.wg ∧ b.seq < s.uidNext ∧ ∃ q, q ∈ b.lanes ∧ q.tid = (tG.lane l).tid ∧ q.done = false) ∧
    (Issues (tH tS 1) (hG 1) ∧ ∃ l, Lane.mem (lanesOf (hG 1) c0) l ∧ (tH tS 1).handleOf (hG 1) 3 l = 1) ∧
    (tG.gate = .none ∧ lanesOf tG c0 ≠ 0 ∧ (tS.semGet (clusterOf tG.core) 255 - (0 : Word)).toNat < 2 ^ 31 ∧ ¬ (tS.semGet (clusterOf tG.core) 255 - (1 : Word)).toNat < 2 ^ 31 ∧
      ∃ o, tS.operand tG (lanesOf tG c0) (.reg 3) (.int 32 false) = .ok o ∧ o.fl = flNone ∧ ∀ l, Lane.mem (lanesOf tG c0) l → (tS.semGet (clusterOf tG.core) 255 - BitVec.ofNat 32 (o.at tG l).1).toNat < 2 ^ 31) ∧
    (∀ d, d = 0x4000000100000000 ∨ d = 0xC000000100000000 →
      let s := { tTile (tAcc .tileSet .none (tReq 0 [])) with accs := [] }.modCore 0 fun c => { c with desc := [(1023, d)] }
      let s := tWith s (tReg 4 1023)
      let g := s.group 1
      Issues s g ∧ g.gate = .none ∧ lanesOf g c0 ≠ 0 ∧ (∀ l, Lane.mem (lanesOf g c0) l → (g.read (4 : VReg).val l).1.toNat < 1024 ∧ tileValid (s.descGet g.core (g.read (4 : VReg).val l).1.toNat) (s.tileBytes (s.wg g.wg)) = true) ∧
        ∀ l, Lane.mem (lanesOf g c0) l → (s.descGet g.core (g.read (4 : VReg).val l).1.toNat).getLsbD 63 = d.getLsbD 63)  ∧
    (Issues tT tG ∧ tG.lanes.length = 32 ∧ lanesOf tG c1 = bit1 0 ∧ tG.gate = .none ∧ tG.sleeve = none ∧ (tG.read (4 : VReg).val 0).1.toNat < 1024 ∧
      tileValid (tT.descGet tG.core (tG.read (4 : VReg).val 0).1.toNat) (tT.tileBytes (tT.wg tG.wg)) = false ∧ Trappable tT tG cMEMFLT 0x10000) := by
  refine ⟨⟨tIssues, fun _ _ h => ?_, lanes_all (by decide +kernel)⟩, ⟨⟨rfl, by decide +kernel⟩, 31, ⟨by decide, by decide +kernel⟩, _, List.mem_singleton.mpr rfl, by decide +kernel, by decide +kernel,
    _, List.mem_singleton.mpr rfl, by decide +kernel, rfl⟩, ⟨⟨by decide +kernel, by decide +kernel⟩, 0, ⟨by decide, by decide +kernel⟩, by decide +kernel⟩,
    ⟨by decide +kernel, by decide +kernel, by decide +kernel, by decide +kernel, ⟨_, rfl, rfl, lanes_all (by decide +kernel)⟩⟩, ?_,
    ⟨⟨rfl, by decide +kernel⟩, by decide +kernel, by decide +kernel, by decide +kernel, by decide +kernel, by decide +kernel, by decide +kernel, tTrappable _ (by decide)⟩⟩
  · obtain ⟨b, h, _⟩ := h
    rw [show tS.accs = [] by decide +kernel] at h
    cases h
  · intro d h
    rcases h with rfl | rfl <;>
    exact ⟨⟨by decide +kernel, by decide +kernel⟩, by decide +kernel, by decide +kernel, lanes_all (by decide +kernel), lanes_all (by decide +kernel)⟩

theorem witness_Barriers : (Issues tS tG ∧ Plain tG ∧ tG.sleeve = none ∧ lanesOf tG c0 = tG.live) ∧ (Issues tT tG ∧ lanesOf tG c1 ≠ tG.live ∧ Trappable tT tG cUNIMIS 0x10000) ∧
    (∀ nbar : Bool, let s := uS fun g => { g with gate := if nbar then .nbar true else .bar true, phase := .waiting }
      let g := s.group 1
      (∃ w, s.wg? 0 = some w) ∧ (s.groups.map Group.uid).Nodup ∧ (∀ h, h ∈ s.groups → h.retPending = none) ∧ s.groups = [g] ∧ g.sleeve = none ∧ g.live ≠ 0 ∧ g.wg = 0 ∧
        g.gate = (if nbar then .nbar true else .bar true) ∧ s.saved = [] ∧ s.accs = [] ∧ s.batches = [] ∧ s.mops = []) ∧
    tS.groups = [tG] ∧ tG.live ≠ 0 ∧ ∀ p, tG.gate ≠ .bar p ∧ tG.gate ≠ .nbar p := by
  refine ⟨⟨tIssues, tPlain, by decide +kernel, by decide +kernel⟩, ⟨⟨rfl, by decide +kernel⟩, by decide +kernel, tTrappable _ (by decide)⟩, fun nbar => ?_, by decide +kernel, by decide +kernel, fun p => ?_⟩
  · cases nbar <;> exact ⟨some_of_isSome (by decide +kernel), by decide +kernel, by decide +kernel, by decide +kernel, by decide +kernel, by decide +kernel, by decide +kernel, by decide +kernel, by decide +kernel,
      by decide +kernel, by decide +kernel, by decide +kernel⟩
  · cases p <;> decide +kernel

/-- A state with an object of device scope on the first page, free or taken, whose address stands in V4. -/
def tObj (lock : Bool) : State := tWith (tM ((if lock then [(0x100000, 1)] else []) ++ [(0x100018, 3)])) (tReg 4 0x10000)

theorem witness_AcquireAndRelease (lock : Bool) :
    let s := tObj lock
    let g := s.group 1
    ∃ o, Issues s g ∧ lanesOf g c1 = bit1 0 ∧ Formed g ∧ (62 : Pred).val < g.p.length ∧ s.objectBusy g 0 (g.base 4 0) = false ∧ s.syncObj g.part (g.base 4 0) = .ok o ∧
      scopeNum .dev ≤ o.scope ∧ scopeNum .dev ≤ o.page.maxScope ∧ o.chk0 < 2 ^ 63 ∧ o.page.sig = false ∧ s.ras.marks = [] ∧ Memory.wf s.mem = true ∧ g.gate = .none ∧ g.retPending = none ∧
      (o.lock = 0 ↔ lock = false) ∧ Inclusive s g 0 (scopeNum .dev) o ∧ s.accs = [] ∧ s.batches = [] ∧ s.mops = [] ∧ o.len = 0 := by
  cases lock
  · obtain ⟨o, h, k⟩ := ok_and (x := (tObj false).syncObj ((tObj false).group 1).part (((tObj false).group 1).base 4 0))
      (fun o => decide (scopeNum .dev ≤ o.scope ∧ scopeNum .dev ≤ o.page.maxScope ∧ o.chk0 < 2 ^ 63 ∧ o.page.sig = false ∧ o.lock = 0 ∧ o.len = 0)) (by decide +kernel)
    obtain ⟨k1, k2, k3, k4, k5, k6⟩ := of_decide_eq_true k
    exact ⟨o, ⟨by decide +kernel, by decide +kernel⟩, by decide +kernel, ⟨by decide +kernel, by decide +kernel, by decide +kernel⟩, by decide +kernel, by decide +kernel, h, k1, k2, k3, k4, by decide +kernel, by decide +kernel, by decide +kernel,
      by decide +kernel, iff_of_true k5 rfl, .inl k3, by decide +kernel, by decide +kernel, by decide +kernel, k6⟩
  · obtain ⟨o, h, k⟩ := ok_and (x := (tObj true).syncObj ((tObj true).group 1).part (((tObj true).group 1).base 4 0))
      (fun o => decide (scopeNum .dev ≤ o.scope ∧ scopeNum .dev ≤ o.page.maxScope ∧ o.chk0 < 2 ^ 63 ∧ o.page.sig = false ∧ o.lock ≠ 0 ∧ o.len = 0)) (by decide +kernel)
    obtain ⟨k1, k2, k3, k4, k5, k6⟩ := of_decide_eq_true k
    exact ⟨o, ⟨by decide +kernel, by decide +kernel⟩, by decide +kernel, ⟨by decide +kernel, by decide +kernel, by decide +kernel⟩, by decide +kernel, by decide +kernel, h, k1, k2, k3, k4, by decide +kernel, by decide +kernel, by decide +kernel,
      by decide +kernel, iff_of_false k5 (by decide), .inl k3, by decide +kernel, by decide +kernel, by decide +kernel, k6⟩

/-- A batch of the thread in lane 0. -/
def tBusy : Batch := { (default : Batch) with id := 70, uid := 1 }
/-- The object recorded by a release of device scope on another accelerator, and one under handlers. -/
def tRecorded : State := tWith (tM [(0x100018, 3), (0x100026, 1), (0x100027, 0xB0)]) (tReg 4 0x10000)

theorem witness_AcquireAndRelease_traps :
    (let s := (tObj false).modPart 0 fun p => { p with thand := List.replicate 13 0x10000 }
     let g := s.group 1
     ∃ o, s.syncObj g.part (g.base 4 0) = .ok o ∧ o.scope < scopeNum .sys ∧ g.sleeve = none ∧ Trappable s g cSCOPEMIS 0x10000) ∧
    (let g := tRecorded.group 1
     ∃ o, tRecorded.syncObj g.part (g.base 4 0) = .ok o ∧ scopeNum .dev ≤ o.scope ∧ scopeNum .dev ≤ o.page.maxScope ∧ ¬ Inclusive tRecorded g 0 (scopeNum .dev) o) ∧
    (let s := { tObj false with batches := [tBusy], uidNext := 71 }
     let g := s.group 1
     ∃ x ∈ s.batches, x.wg = g.wg ∧ x.tid = (g.lane 0).tid ∧ x.id < s.uidNext) := by
  refine ⟨?_, ?_, ⟨_, List.mem_singleton.mpr rfl, by decide +kernel, by decide +kernel, by decide⟩⟩
  · obtain ⟨o, h, k⟩ := ok_and (x := ((tObj false).modPart 0 fun p => { p with thand := List.replicate 13 0x10000 }).syncObj ((tObj false).group 1).part (((tObj false).group 1).base 4 0))
      (fun o => decide (o.scope < scopeNum .sys)) (by decide +kernel)
    exact ⟨o, h, of_decide_eq_true k, by decide +kernel, ⟨by decide +kernel, by decide +kernel, by decide +kernel, by decide +kernel, by decide +kernel, by decide⟩⟩
  · obtain ⟨o, h, k⟩ := ok_and (x := tRecorded.syncObj (tRecorded.group 1).part ((tRecorded.group 1).base 4 0))
      (fun o => decide (scopeNum .dev ≤ o.scope ∧ scopeNum .dev ≤ o.page.maxScope ∧ 2 ^ 63 ≤ o.chk0 ∧ min (o.chk0 / 2 ^ 60 % 8) 3 = 3 ∧ o.chk0 / 2 ^ 48 % 2 ^ 8 ≠ tRecorded.accel (tRecorded.group 1).part)) (by decide +kernel)
    obtain ⟨k1, k2, k3, k4, k5⟩ := of_decide_eq_true k
    refine ⟨o, h, k1, k2, ?_⟩
    rintro (i | i)
    · omega
    · exact k5 (i.1 (by rw [show scopeNum .dev = 3 by rfl, k4] <;> decide))

/-- A copy of a whole 128-byte line of the first page to an address. -/
def tCopy (dst : Nat) : CopyOp := ⟨.g, .g, dst, 0x10080, 128⟩
/-- A batch of that copy, and `tM` with it alone. -/
def tBatch (dst : Nat) (st : BatchState) : Batch := { (default : Batch) with id := 70, uid := 1, state := st, copies := [tCopy dst] }
def tB (dst : Nat) (st : BatchState) : State := { tM with batches := [tBatch dst st], uidNext := 71 }
/-- The group of `tS` with an open batch in lane 0. -/
def fBatch (g : Group) : Group := g.modLane 0 fun l => { l with batch := [tCopy 0x10000] }

theorem witness_CopyBatchesAndCancel :
    (Issues tS tG ∧ tG.lanes.length = 32 ∧ (∀ l, Lane.mem (lanesOf tG c0) l → copyFault tG .g .s 4 6 8 l = none)) ∧
    (∀ full : Bool, let f := if full then fBatch else id
      Issues (uS f) (uG f) ∧ lanesOf (uG f) c1 = bit1 0 ∧ (uG f).lanes.length = 32 ∧ ((uG f).lane 0).h.length = 16 ∧ ((uS f).wg? (uG f).wg).isSome = true ∧
      ((uS f).wg (uG f).wg).handles.length = 256 ∧ ((uS f).wg (uG f).wg).uid = (uG f).wg ∧ (((uG f).lane 0).batch = [] ↔ full = false)) ∧
    (let s := tB 0x1FF80 .running
     let x := tBatch 0x1FF80 .running
     s.batches.find? (fun y => y.id == x.id) = some x ∧ x.copies = [tCopy 0x1FF80] ∧ x.moved = 0 ∧ x.state = .running ∧ s.accs = [] ∧ (tCopy 0x1FF80).dst % 128 + (tCopy 0x1FF80).len ≤ 128 ∧ x.wg = tG.wg ∧ x.ent < 256 ∧ (s.wg? tG.wg).isSome = true ∧ (s.wg tG.wg).handles.length = 256 ∧ (s.wg tG.wg).uid = tG.wg ∧
      (∃ p, s.translate x.part 0x1FF80 needW true = .ok p ∧ p.sig = false) ∧
      (∃ q : Page, q.sig = false ∧ ∀ i, 4 * i < 128 → s.translate x.part (0x10080 + 4 * i) needR true = .ok { q with key := q.key + 4 * i }) ∧
      s.ras.marks = [] ∧ Memory.wf s.mem = true ∧ x.sem = none) ∧
    ((tB 0x10000 .cancelling).batches.find? (fun y => y.id == (tBatch 0x10000 .cancelling).id) = some (tBatch 0x10000 .cancelling)) ∧
    (let s := tB 0x40000 .running
     let x := tBatch 0x40000 .running
     s.batches.find? (fun y => y.id == x.id) = some x ∧ s.accs = [] ∧ (tCopy 0x40000).dst < 2 ^ 57 ∧ s.translate x.part (tCopy 0x40000).dst needW true = .error kNotMapped ∧
      ∃ h, s.group? ((s.threadAt x.wg x.tid).getD (x.uid, x.slot)).1 = some h ∧ h.phase ≠ .retired) ∧
    ((tS.handleOf tG 3 0 ≠ 1) ∧ ∀ kind, kind = 1 ∨ kind = 2 → Issues (tH tS kind) (hG kind) ∧ lanesOf (hG kind) c1 = bit1 0 ∧ (tH tS kind).handleOf (hG kind) 3 0 = 1 ∧
      bits (((hG kind).lane 0).h.getD (3 : HReg).val 0).toNat 27 3 = kind) ∧
    (let q : SliceQ := { (default : SliceQ) with id := 70, uid := 1, dst := 222 }
     let s := { tH tS 2 with sliceqs := [q] }
     s.sliceqs.find? (fun q => q.wg == (hG 2).wg && q.ent == (((hG 2).lane 0).h.getD (3 : HReg).val 0).toNat % 256) = some q ∧ s.group? q.uid = some (hG 2) ∧ Lane.mem (hG 2).live q.slot ∧ q.dst + 2 ≤ (hG 2).v.length) := by
  refine ⟨⟨tIssues, by decide +kernel, lanes_all (by decide +kernel)⟩, fun full => ?_, ⟨by decide +kernel, rfl, rfl, rfl, by decide +kernel, by decide, by decide +kernel, by decide, by decide +kernel, by decide +kernel, by decide +kernel, ?_, ⟨⟨0x100080, 1069087, 16⟩, by decide, ?_⟩, by decide +kernel, by decide +kernel, rfl⟩,
    by decide +kernel, ⟨by decide +kernel, by decide +kernel, by decide, rfl, ?_⟩, ⟨by decide +kernel, fun kind h => ?_⟩,
    by decide +kernel, by decide +kernel, ⟨by decide, by decide +kernel⟩, by decide +kernel⟩
  · cases full <;> exact ⟨⟨by decide +kernel, by decide +kernel⟩, by decide +kernel, by decide +kernel, by decide +kernel, by decide +kernel, by decide +kernel, by decide +kernel, by decide +kernel⟩
  · obtain ⟨p, h, k⟩ := ok_and (x := (tB 0x1FF80 .running).translate (tBatch 0x1FF80 .running).part 0x1FF80 needW true) (fun p => !p.sig) (by decide +kernel)
    exact ⟨p, h, by simpa using k⟩
  · have h : ∀ i, i < 32 → ((tB 0x1FF80 .running).translate (tBatch 0x1FF80 .running).part (0x10080 + 4 * i) needR true).toOption = some ⟨0x100080 + 4 * i, 1069087, 16⟩ := by decide +kernel
    intro i hi
    have := h i (by omega)
    cases e : (tB 0x1FF80 .running).translate (tBatch 0x1FF80 .running).part (0x10080 + 4 * i) needR true with
    | ok p => rw [e] at this; exact congrArg Except.ok (Option.some.inj this)
    | error n => rw [e] at this; cases this
  · obtain ⟨h, e, k⟩ := some_and (x := (tB 0x40000 .running).group? (((tB 0x40000 .running).threadAt 0 0).getD (1, 0)).1) (fun h => decide (h.phase ≠ .retired)) (by decide +kernel)
    exact ⟨h, e, of_decide_eq_true k⟩
  · rcases h with rfl | rfl <;> exact ⟨⟨by decide +kernel, by decide +kernel⟩, by decide +kernel, by decide +kernel, by decide +kernel⟩

/-- The partition of `tS` with one resident, pinned slice of key 4095, and a query of a key. -/
def tSl (key : Nat) : State :=
  { tS.modPart 0 fun p => { p with frames := [⟨4095, 1, 0, false⟩], pins := [4095] } with sliceqs := [{ (default : SliceQ) with id := 70, uid := 1, key := key, dst := 222 }] }

theorem witness_SliceQueries :
    (Issues tS tG ∧ lanesOf tG c1 = bit1 0 ∧ tG.lanes.length = 32 ∧ (tG.lane 0).h.length = 16 ∧ (222 : VReg).val + 2 ≤ tG.decl.ng ∧ (tS.wg? tG.wg).isSome = true ∧ (tS.wg tG.wg).handles.length = 256 ∧ (tS.wg tG.wg).uid = tG.wg) ∧
    ∀ key, key = 0 ∨ key = 4095 →
      let q : SliceQ := { (default : SliceQ) with id := 70, uid := 1, key := key, dst := 222 }
      (tSl key).sliceqs.find? (fun y => y.id == q.id) = some q ∧ q.wg = tG.wg ∧ q.ent < 256 ∧ q.flushed = false ∧ (tSl key).group? q.uid = some tG ∧ Lane.mem tG.live q.slot ∧ q.dst + 2 ≤ tG.v.length ∧ q.fill = false ∧
      (((tSl key).part q.part).lookup q.key (dieOf (clusterOf q.core))).isSome = (key == 4095) := by
  refine ⟨⟨tIssues, by decide +kernel, by decide +kernel, by decide +kernel, by decide +kernel, by decide +kernel, by decide +kernel, by decide +kernel⟩, fun key h => ?_⟩
  rcases h with rfl | rfl <;> exact ⟨by decide +kernel, by decide +kernel, by decide, rfl, by decide +kernel, ⟨by decide, by decide +kernel⟩, by decide +kernel, rfl, by decide +kernel⟩

/-! ## Matrix words and the P-form -/

/-- No group of a state is a merge host. -/
theorem no_host {s : State} (h : s.groups.all (fun g => decide (g.merge = .none)) = true) : ∀ u d m k, (s.group u).merge ≠ .host d m k := by
  intro u d m k e
  have : (s.group u).merge = .none := by
    unfold State.group State.group?
    cases f : s.groups.find? (fun g => g.uid == u) with
    | none => rfl
    | some g => exact of_decide_eq_true (List.all_eq_true.mp h g (List.mem_of_find?_eq_some f))
  rw [this] at e
  cases e

/-- A block for matrices of 16 by 16 by 16: A from V0 in 4 registers, B from V4, C from V8 in 8; bitmaps of ones at 64 and 72. -/
def tBlock : Mem :=
  [(0, 0x10), (2, 0x10), (4, 0x10), (18, 4), (20, 4), (22, 4), (24, 8), (26, 8), (32, 64), (36, 72), (64, 0xFF), (65, 0xFF), (72, 0xFF), (73, 0xFF)]
/-- `tM` with this block at the start of the scratchpad. -/
def tMx : State := (tM).modWg 0 fun w => { w with sp := ⟨tBlock, []⟩ }

/-- The words of the block. -/
def tWords : List Word := toWords 12 (ofBytes (memRead tBlock 0 48))
/-- The bitmap that a use reads. -/
def tBits (u : Bool) : List Byte := if u then [0xFF, 0xFF] else []
/-- The groups that the block names for a use. -/
def tUids (u : BlkUse) : List Nat :=
  ((if u.a then (layA tWords 0 (packed (u.a && u.sparse) (tBits (u.a && u.sparse)) (blkK tWords))).groups else []) ++
    (if u.b then (layB tWords 0 (packed (u.b && u.sparse) (tBits (u.b && u.sparse)) (blkK tWords))).groups else []) ++
    (if u.c then (layC tWords).groups else [])).filterMap fun i => (tMx.gidGroup? tG.wg i).map Group.uid

theorem tDesc {d : Word} {x : Lay} (h : decide ((bits d.toNat 29 3 = 0 ∧ bits d.toNat 8 8 = 0) ∧ (1 ≤ x.rpg ∧ x.rpg ≤ 224 ∧ x.v ≤ 223) ∧ (x.regs ≠ 0 → x.v + min x.rpg x.regs ≤ (tMx.wgNode (tMx.wg tG.wg)).decl.ng) ∧
    ∀ i ∈ x.groups, i = 0) = true) : DescOk tMx tG d x := by
  obtain ⟨a, b, c, k⟩ := of_decide_eq_true h
  exact ⟨a, b, c, fun i m => by rw [k i m]; exact ⟨tG, by decide +kernel, by decide +kernel⟩⟩

/-- Every word can read the block, a resumed pass with the start at the last k. -/
theorem tBlockOk (u : BlkUse) (st : Nat) (h : (u, st) ∈ [((⟨true, true, true, true, false, false⟩ : BlkUse), 0), (⟨true, true, true, true, false, true⟩, 0), (⟨true, true, true, true, false, false⟩, 16),
      (⟨true, false, false, false, false, false⟩, 0), (⟨false, true, false, false, false, true⟩, 0), (⟨false, false, true, false, false, false⟩, 0), (⟨false, false, true, false, true, false⟩, 0)]) :
    BlockOk tMx tG u 0 0 st tWords (tBits (u.a && u.sparse)) (tBits (u.b && u.sparse)) (tUids u) := by
  have place : ∀ o n, (o, n) ∈ [(0, 64), (64, 2), (72, 2)] → ∃ pl, tMx.localPlace (tMx.wg tG.wg) o n = some pl ∧
      (n = 64 → tWords = toWords 12 (ofBytes (tMx.readPlace pl 64).1)) ∧ (n = 2 → [0xFF, 0xFF] = (tMx.readPlace pl 2).1) := by
    have chk : ∀ o n, (match tMx.localPlace (tMx.wg tG.wg) o n with
        | some pl => decide ((n = 64 → tWords = toWords 12 (ofBytes (tMx.readPlace pl 64).1)) ∧ (n = 2 → [0xFF, 0xFF] = (tMx.readPlace pl 2).1)) | none => false) = true →
        ∃ pl, tMx.localPlace (tMx.wg tG.wg) o n = some pl ∧ (n = 64 → tWords = toWords 12 (ofBytes (tMx.readPlace pl 64).1)) ∧ (n = 2 → [0xFF, 0xFF] = (tMx.readPlace pl 2).1) := by
      intro o n h
      split at h
      · exact ⟨_, ‹_›, of_decide_eq_true h⟩
      · cases h
    intro o n m
    simp only [List.mem_cons, Prod.mk.injEq, List.not_mem_nil, or_false] at m
    rcases m with ⟨rfl, rfl⟩ | ⟨rfl, rfl⟩ | ⟨rfl, rfl⟩ <;> exact chk _ _ (by decide +kernel)
  have uid : ∀ v, v = 1 → (tMx.group v).merge = .none ∧ (tMx.group v).ejectNext = none ∧ ∀ h ∈ tMx.groups, ∀ x, h.sleeve = some x → x.homeUid ≠ v := by
    rintro v rfl
    refine ⟨by decide +kernel, by decide +kernel, fun h m x e => ?_⟩
    have : ∀ h ∈ tMx.groups, h.sleeve = none := by decide +kernel
    rw [this h m] at e
    cases e
  have k16 : blkK tWords = 16 := by decide +kernel
  refine ⟨rfl, by decide +kernel, ?_, ?_, by unfold Size; decide +kernel, fun _ => ⟨by unfold Size; decide +kernel, ?_⟩, ?_, ?_, ?_, ?_, ?_, rfl, ?_⟩
  · obtain ⟨pl, a, b, _⟩ := place 0 64 (by simp)
    exact ⟨pl, a, b rfl⟩
  · rintro used n bm (e | e) <;>
    · simp only [Prod.mk.injEq] at e
      obtain ⟨rfl, rfl, rfl⟩ := e
      refine ⟨fun e => by rw [e]; rfl, fun e => ?_⟩
      simp only [e]
      refine ⟨by decide +kernel, ?_⟩
      first
        | (obtain ⟨pl, a, _, b⟩ := place 64 2 (by simp); exact ⟨pl, a, b rfl⟩)
        | (obtain ⟨pl, a, _, b⟩ := place 72 2 (by simp); exact ⟨pl, a, b rfl⟩)
  · rintro ⟨c, hc, k⟩
    have : bits (0 : Addr).toNat 0 4 = 0 ∧ bits (0 : Addr).toNat 4 4 = 0 := by decide
    omega
  all_goals
    simp only [List.mem_cons, Prod.mk.injEq, List.not_mem_nil, or_false] at h
    rcases h with ⟨rfl, rfl⟩ | ⟨rfl, rfl⟩ | ⟨rfl, rfl⟩ | ⟨rfl, rfl⟩ | ⟨rfl, rfl⟩ | ⟨rfl, rfl⟩ | ⟨rfl, rfl⟩
  all_goals first
    | decide +kernel
    | exact fun _ => tDesc (by decide +kernel)
    | exact fun _ => ⟨tDesc (by decide +kernel), by decide +kernel⟩
    | (intro v m; exact uid v ((by decide +kernel : ∀ v ∈ tG.uid :: tUids _, v = 1) v m))

theorem witness_MatrixWordsPost : (Issues tMx tG ∧ Plain tG ∧ tG.sleeve = none ∧ tG.merge = .none ∧ lanesOf tG c0 ≠ 0 ∧ tG.lanes.length = 32) ∧
    (∀ l, Lane.mem (lanesOf tG c0) l → (tG.lane l).h.length = 16 ∧ offOf tG 60 l = 0) ∧ (tMx.wg? tG.wg).isSome = true ∧ (tMx.wg tG.wg).uid = tG.wg ∧ (tMx.wg tG.wg).handles.length = 256 ∧ (tMx.fslot tG 0).headD 0 = 0 ∧
    (∀ sparse, BlockOk tMx tG ⟨true, true, true, true, false, sparse⟩ 0 0 0 tWords (tBits sparse) (tBits sparse) (tUids ⟨true, true, true, true, false, sparse⟩)) ∧
    (∃ oy, tMx.operand tG (lanesOf tG c0) (.const 7) (.int 32 false) = .ok oy ∧ (∀ l, Lane.mem (lanesOf tG c0) l → (oy.at tG l).1 = 16) ∧
      BlockOk tMx tG ⟨true, true, true, true, false, PassKind.dense == .sparse⟩ 0 0 16 tWords (tBits (true && false)) (tBits (true && false)) (tUids ⟨true, true, true, true, false, false⟩)) ∧
    (∀ l, Lane.mem (lanesOf tG c0) l → tG.base 62 l = 0 ∧ offOf tG 64 l = 0) ∧ rmMode tG .rne ≠ 6 ∧
    BlockOk tMx tG ⟨true, false, false, false, false, false⟩ 0 0 0 tWords (tBits (true && false)) (tBits (false && false)) (tUids ⟨true, false, false, false, false, false⟩) ∧
    BlockOk tMx tG ⟨false, false, true, false, false, false⟩ 0 0 0 tWords (tBits (false && false)) (tBits (false && false)) (tUids ⟨false, false, true, false, false, false⟩) ∧
    (let s := (tWith tMx fun g => { g with v := modAt (fun _ => .affine 0 64 FULL) 4 g.v }).modPart 0 fun p => { p with thand := List.replicate 13 0x10000 }
     let g := s.group 1
     Issues s g ∧ Plain g ∧ g.sleeve = none ∧ g.merge = .none ∧ lanesOf g c0 ≠ 0 ∧ g.lanes.length = 32 ∧ Trappable s g cUNIMIS 0x10000 ∧ ∃ l m, Lane.mem (lanesOf g c0) l ∧ Lane.mem (lanesOf g c0) m ∧ offOf g 4 l ≠ offOf g 4 m) :=
  ⟨⟨⟨rfl, by decide +kernel⟩, tPlain, by decide +kernel, by decide +kernel, by decide +kernel, by decide +kernel⟩, lanes_all (by decide +kernel), by decide +kernel, by decide +kernel, by decide +kernel, by decide +kernel,
    fun sp => by cases sp <;> exact tBlockOk _ _ (by simp), ⟨_, rfl, fun _ _ => rfl, tBlockOk ⟨true, true, true, true, false, false⟩ 16 (by simp)⟩, lanes_all (by decide +kernel), by decide +kernel, tBlockOk _ _ (by simp), tBlockOk _ _ (by simp),
    ⟨⟨by decide +kernel, by decide +kernel⟩, plain_of (by decide +kernel) (by decide +kernel), by decide +kernel, by decide +kernel, by decide +kernel, by decide +kernel,
      ⟨by decide +kernel, by decide +kernel, by decide +kernel, by decide +kernel, by decide +kernel, by decide⟩, 0, 1, ⟨by decide, by decide +kernel⟩, ⟨by decide, by decide +kernel⟩, by decide +kernel⟩⟩

theorem witness_MatrixZeroAndQuery : Issues tMx tG ∧ Plain tG ∧ tG.sleeve = none ∧ lanesOf tG c0 ≠ 0 ∧ tG.retPending = none ∧ tG.gate = .none ∧
    (tMx.wg? tG.wg).isSome = true ∧ (tMx.groups.map Group.uid).Nodup ∧ (∀ l, Lane.mem (lanesOf tG c0) l → offOf tG 60 l = 0) ∧
    BlockOk tMx tG ⟨false, false, true, false, true, false⟩ 0 0 0 tWords (tBits (false && false)) (tBits (false && false)) (tUids ⟨false, false, true, false, true, false⟩) ∧
    (∀ i ∈ (layC tWords).groups, ∀ k, tMx.gidGroup? tG.wg i = some k → k.v.length = k.decl.total ∧ k.decl = (tMx.wgNode (tMx.wg tG.wg)).decl) ∧ tMx.mops = [] ∧ tMx.accs = [] ∧ tMx.sliceqs = [] ∧
    (let s := { tMx with accs := [tAcc (.loadS .b32) (.regs 8 1 .general) (tReq 0 [])], uidNext := 71 }
     Issues s tG ∧ ∃ b ∈ s.accs, b.wg = tG.wg ∧ b.seq < s.uidNext ∧ b.dst = .regs 8 1 .general ∧ (layC tWords).has (s.group b.uid).gid (8 + 0) = true) ∧
    Writes tMx tG c0 222 2 ∧ ∀ l, Lane.mem (lanesOf tG c0) l → tMx.handleOf tG 3 l ≠ 1 := by
  refine ⟨⟨rfl, by decide +kernel⟩, tPlain, by decide +kernel, by decide +kernel, by decide +kernel, by decide +kernel, by decide +kernel, by decide +kernel, lanes_all (by decide +kernel), tBlockOk _ _ (by simp), ?_, by decide +kernel, by decide +kernel, by decide +kernel,
    ⟨⟨rfl, by decide +kernel⟩, _, List.mem_singleton.mpr rfl, by decide +kernel, by decide, rfl, by decide +kernel⟩, ⟨⟨rfl, by decide +kernel⟩, tFormed, by decide +kernel, by decide +kernel⟩, lanes_all (by decide +kernel)⟩
  intro i m k e
  rw [(by decide +kernel : ∀ i ∈ (layC tWords).groups, i = 0) i m, show tMx.gidGroup? tG.wg 0 = some tG by decide +kernel] at e
  cases e
  decide +kernel

/-- An operation on it, at its start or, for a pass, at its end. -/
def tMop (k : MopKind) (st : MopState) (cancel : Bool) (step : Nat) : Mop :=
  { (default : Mop) with id := 70, uid := 1, kind := k, blk := tWords, base := 0x40000, pitch := 4, state := st, cancel := cancel, step := step, granted := true }
/-- `tMx` with it alone. -/
def tMo (m : Mop) : State := { tMx with mops := [m], uidNext := 71 }

theorem witness_MatrixEngineRuns :
    (tMo (tMop (.pass .dense) .posted false 0)).mopNext 0 false = some (tMop (.pass .dense) .posted false 0) ∧
    (tMo (tMop (.mldf .a false) .posted false 0)).mopNext 0 true = some (tMop (.mldf .a false) .posted false 0) ∧
    (let m := tMop (.pass .dense) .running false 16
     (tMo m).mops.find? (fun x => x.id == m.id) = some m ∧ ∃ s1 m1, (tMo m).mopRun State.mopUnit m.pieces m = (s1, m1, none) ∧ m1.id = m.id) ∧
    (let m := tMop (.mldf .a false) .running false 0
     (tMo m).mops.find? (fun x => x.id == m.id) = some m ∧ ∃ s1 m1 e, (tMo m).mopRun State.mopUnit m.pieces m = (s1, m1, some e) ∧ m1.id = m.id ∧ (s1.group (s1.faultGroup m1)).phase ≠ .retired) ∧
    ∀ cancel, let m := tMop (.mldf .a false) .stopping cancel 0
      (tMo m).mops.find? (fun x => x.id == m.id) = some m ∧ m.state = .stopping ∧ m.isPass = false ∧ m.cancel = cancel := by
  refine ⟨by decide +kernel, by decide +kernel, ⟨by decide +kernel, ?_⟩, ⟨by decide +kernel, ?_⟩, fun cancel => ?_⟩
  · have h : ((tMo (tMop (.pass .dense) .running false 16)).mopRun State.mopUnit (tMop (.pass .dense) .running false 16).pieces (tMop (.pass .dense) .running false 16)).2 =
      (tMop (.pass .dense) .running false 16, none) := by decide +kernel
    exact ⟨_, tMop (.pass .dense) .running false 16, Prod.ext rfl h, rfl⟩
  · have h : ((tMo (tMop (.mldf .a false) .running false 0)).mopRun State.mopUnit (tMop (.mldf .a false) .running false 0).pieces (tMop (.mldf .a false) .running false 0)).2 =
      (tMop (.mldf .a false) .running false 0, some (memFault kNotMapped 0x40000)) := by decide +kernel
    exact ⟨_, tMop (.mldf .a false) .running false 0, _, Prod.ext rfl h, rfl, by decide +kernel⟩
  · cases cancel <;> exact ⟨by decide +kernel, rfl, rfl, rfl⟩

theorem ok_of_toOption {ε α : Type} {x : Except ε α} {y : α} (h : x.toOption = some y) : x = .ok y := by
  cases x with
  | ok a => exact congrArg Except.ok (Option.some.inj h)
  | error e => cases h

/-- A page whose translation is held is found whatever memory holds. -/
theorem translate_held {s : State} {part va : Nat} {need : Need} {t : TlbEntry} (h : ((s.part part).egress.map Prod.fst ++ (s.part part).tlb).find? (fun t => t.vpn == va / 2 ^ t.bits) = some t) (mem : Mem) :
    ({ s with mem := mem }).translate part va need true = s.translate part va need true := by
  have e : ∀ m : Mem, ({ s with mem := m }).entryFor part va true = some (t.pte.toNat, t.bits) := by
    intro m
    unfold State.entryFor
    change (match (if true = true then ((s.part part).egress.map Prod.fst ++ (s.part part).tlb).find? (fun t => t.vpn == va / 2 ^ t.bits) else none) with | some t => some (t.pte.toNat, t.bits) | none => _) = _
    rw [if_pos rfl, h]
  unfold State.translate
  rw [e mem, show s.entryFor part va true = _ from e s.mem]
  rfl

/-- A running operation on the first page, with a pitch; and its state, with the translation of the page held. -/
def tRun (k : MopKind) (pitch : Nat) : Mop := { tMop k .running false 0 with base := 0x10000, pitch := pitch }
def tHeld (m : Mop) : State := (tMo m).modPart 0 fun p => { p with tlb := [⟨1, 16, 0x10501F⟩] }

theorem witness_MatrixEngineRuns_results :
    (∀ m, m ∈ [tRun (.pass .xor) 0, tRun (.pass .and) 0, tRun (.pass .dense) 0, tRun (.mldf .a false) 64, tRun (.mstf .f32 1) 64] → let s := tHeld m
      s.mops.find? (fun x => x.id == m.id) = some m ∧ m.state = .running ∧ s.ras.marks = [] ∧ (s.groups.map Group.uid).Nodup ∧ (∃ w, s.wg? m.wg = some w ∧ m.ent < w.handles.length) ∧ m.perf = 0 ∧ Memory.wf s.mem = true ∧
      ∀ x, x = m.lc ∨ x = m.la → x.rpg ≠ 0 ∧ ∀ i ∈ x.groups, ∃ h, s.gidGroup? m.wg i = some h ∧ x.v + min x.rpg x.regs ≤ h.v.length) ∧
    (∀ m, m ∈ [tRun (.pass .xor) 0, tRun (.pass .and) 0, tRun (.pass .dense) 0] → m.isPass = true ∧ m.sparse = false ∧ m.step = 0 ∧ 0 < blkK m.blk ∧ m.la.meets m.lc = false ∧ m.lb.meets m.lc = false ∧ fsAscl m.fs = 0 ∧ fsBscl m.fs = 0 ∧ fsGsc m.fs = false) ∧
    (let m := tRun (.mldf .a false) 64
     let s := tHeld m
     ∃ pg : Nat → Nat → Page, m.la.words / 16 * 16 = m.la.words ∧ 0 < m.la.words ∧ blkM m.blk = 16 ∧ ∀ line r, line < 16 → r < m.la.words / 16 →
       m.base + line * m.pitch + 4 * r < 2 ^ 57 ∧ (m.base + line * m.pitch + 4 * r) % 4 = 0 ∧ s.translate m.part (m.base + line * m.pitch + 4 * r) needR true = .ok (pg line r)) ∧
    (let m := tRun (.mstf .f32 1) 64
     let s := tHeld m
     ∃ pg : Nat → Nat → Page, blkM m.blk = 16 ∧ blkN m.blk = 16 ∧ m.lc.words = 16 * 16 ∧ (∀ line n, line < 16 → n < 16 → m.base + line * m.pitch + 4 * n < 2 ^ 57 ∧ (m.base + line * m.pitch + 4 * n) % 4 = 0 ∧
       (∀ mem : Mem, ({ s with mem := mem }).translate m.part (m.base + line * m.pitch + 4 * n) needW true = .ok (pg line n)) ∧ (pg line n).sig = false) ∧
       ∀ l n l' n', l < 16 → n < 16 → l' < 16 → n' < 16 → (l, n) ≠ (l', n') → (pg l n).key + 4 ≤ (pg l' n').key ∨ (pg l' n').key + 4 ≤ (pg l n).key) ∧
    IsFin (.fin false 1 1) ∧ IsFin (fdec .f32 0) ∧ ∀ p ∈ [((.fin true 3 8 : XR), 24)], ∃ n x d, p.1 = .fin n x d ∧ d ≠ 0 ∧ 2 ^ 400 % d = 0 := by
  have lay : ∀ m, m ∈ [tRun (.pass .xor) 0, tRun (.pass .and) 0, tRun (.pass .dense) 0, tRun (.mldf .a false) 64, tRun (.mstf .f32 1) 64] → ∀ x, x = m.lc ∨ x = m.la →
      x.rpg ≠ 0 ∧ (∀ i ∈ x.groups, i = 0) ∧ x.v + min x.rpg x.regs ≤ 224 ∧ (tHeld m).gidGroup? m.wg 0 = some tG := by
    intro m h x e
    simp only [List.mem_cons, List.not_mem_nil, or_false] at h
    rcases h with rfl | rfl | rfl | rfl | rfl <;> rcases e with rfl | rfl <;> decide +kernel
  refine ⟨fun m h => ⟨?_, ?_, ?_, ?_, ?_, ?_, ?_, fun x e => ?_⟩, fun m h => ?_, ⟨fun line r => ⟨0x100000 + line * 64 + 4 * r, 1069087, 16⟩, by decide +kernel, by decide +kernel, by decide +kernel, fun line r hl hr => ⟨?_, ?_, ?_⟩⟩,
    ⟨fun line n => ⟨0x100000 + line * 64 + 4 * n, 1069087, 16⟩, by decide +kernel, by decide +kernel, by decide +kernel, fun line n hl hn => ⟨?_, ?_, fun mem => ?_, (by decide : (bits 1069087 9 1 == 1) = false)⟩, ?_⟩, ⟨_, _, _, rfl, by decide⟩, ⟨_, _, _, rfl, by decide⟩, ?_⟩
  case refine_8 =>
    obtain ⟨a, b, c, d⟩ := lay m h x e
    exact ⟨a, fun i hi => by rw [b i hi]; exact ⟨tG, d, by rw [show tG.v.length = 224 by decide +kernel]; exact c⟩⟩
  case refine_9 =>
    simp only [List.mem_cons, List.not_mem_nil, or_false] at h
    rcases h with rfl | rfl | rfl <;> decide +kernel
  iterate 7
    · simp only [List.mem_cons, List.not_mem_nil, or_false] at h
      rcases h with rfl | rfl | rfl | rfl | rfl <;> first | decide +kernel | exact ⟨_, by rfl, by decide +kernel⟩
  · change 0x10000 + line * 64 + 4 * r < 2 ^ 57
    have : (tRun (.mldf .a false) 64).la.words / 16 ≤ 16 := by decide +kernel
    omega
  · change (0x10000 + line * 64 + 4 * r) % 4 = 0
    omega
  · have : ∀ line, line < 16 → ∀ r, r < (tRun (.mldf .a false) 64).la.words / 16 →
        ((tHeld (tRun (.mldf .a false) 64)).translate 0 (0x10000 + line * 64 + 4 * r) needR true).toOption = some ⟨0x100000 + line * 64 + 4 * r, 1069087, 16⟩ := by decide +kernel
    exact ok_of_toOption (this line hl r hr)
  · change 0x10000 + line * 64 + 4 * n < 2 ^ 57
    omega
  · change (0x10000 + line * 64 + 4 * n) % 4 = 0
    omega
  · have : ∀ line, line < 16 → ∀ r, r < 16 →
        ((tHeld (tRun (.mstf .f32 1) 64)).translate 0 (0x10000 + line * 64 + 4 * r) needW true).toOption = some ⟨0x100000 + line * 64 + 4 * r, 1069087, 16⟩ := by decide +kernel
    refine (translate_held (t := ⟨1, 16, 0x10501F⟩) ?_ mem).trans (ok_of_toOption (this line hl n hn))
    have e : ((tHeld (tRun (.mstf .f32 1) 64)).part 0).egress.map Prod.fst ++ ((tHeld (tRun (.mstf .f32 1) 64)).part 0).tlb = [⟨1, 16, 0x10501F⟩] := by decide +kernel
    change (((tHeld (tRun (.mstf .f32 1) 64)).part 0).egress.map Prod.fst ++ ((tHeld (tRun (.mstf .f32 1) 64)).part 0).tlb).find? _ = _
    have v : (0x10000 + line * 64 + 4 * n) / 2 ^ 16 = 1 := by omega
    rw [e, List.find?_cons_of_pos]
    change (1 == (0x10000 + line * 64 + 4 * n) / 2 ^ 16) = true
    rw [v]
    rfl
  · intro l n l' n' _ _ _ _ h
    change 0x100000 + l * 64 + 4 * n + 4 ≤ 0x100000 + l' * 64 + 4 * n' ∨ 0x100000 + l' * 64 + 4 * n' + 4 ≤ 0x100000 + l * 64 + 4 * n
    rw [ne_eq, Prod.mk.injEq] at h
    omega
  · intro p m
    obtain rfl := List.mem_singleton.mp m
    exact ⟨_, _, _, rfl, by decide, by decide +kernel⟩

theorem witness_PFormResults :
    (let x0 : PSlot := .op .iadd 63 false 222 (.reg 4)
     let x1 : PSlot := .op .fadd 1 false 223 (.reg 222)
     Issues tS tG ∧ Formed tG ∧ tG.sigte = false ∧ SlotFits tG x0 ∧ SlotFits tG x1 ∧ SlotFits tG .nop ∧ (222 : Nat) ≠ 223 ∧
      (∃ r : Nat → (Nat × Tag) × FlagSet, ∀ l, Lane.mem (slotMask tG x0) l → SlotGives tS tG x0 0 l 222 (r l)) ∧
      ∃ r : Nat → (Nat × Tag) × FlagSet, ∀ l, Lane.mem (slotMask tG x1) l → SlotGives tS tG x1 (if (slotMask tG x0).getLsbD l then slotDraws tG x0 else 0) l 223 (r l)) ∧
    (let s := (tWith tNarrow fun g => { g with v := modAt (fun _ => .general (List.replicate 32 (3, FULL))) 5 g.v })
     let g := s.group 1
     Issues s g ∧ Formed g ∧ g.sleeve = none ∧ g.writeSet (63 : Pred).val false ≠ 0 ∧ g.decl.ng ≤ (200 : VReg).val ∧ (223 : VReg).val < g.decl.total ∧ (g.view (5 : VReg).val).shape = .general ∧ Trappable s g cILLEGAL 0x10000) := by
  refine ⟨⟨tIssues, tFormed, by decide +kernel, ?_, ?_, ?_, by decide, ?_, ?_⟩, ⟨by decide +kernel, by decide +kernel⟩, ⟨by decide +kernel, by decide +kernel, by decide +kernel⟩, by decide +kernel, by decide +kernel, by decide +kernel, by decide +kernel,
    by decide +kernel, ⟨by decide +kernel, by decide +kernel, by decide +kernel, by decide +kernel, by decide +kernel, by decide⟩⟩
  · intro o gp gn d b e
    cases e
    decide +kernel
  · intro o gp gn d b e
    cases e
    decide +kernel
  · intro o gp gn d b e
    cases e
  · obtain ⟨y, e⟩ := ok_of_isOk (x := tS.operand tG (slotMask tG (.op .iadd 63 false 222 (.reg 4))) (.reg 4) (slotTy .iadd)) (by decide +kernel)
    exact ⟨_, fun l _ => ⟨_, _, _, _, _, y, rfl, rfl, e, rfl⟩⟩
  · obtain ⟨y, e⟩ := ok_of_isOk (x := tS.operand tG (slotMask tG (.op .fadd 1 false 223 (.reg 222))) (.reg 222) (slotTy .fadd)) (by decide +kernel)
    exact ⟨_, fun l _ => ⟨_, _, _, _, _, y, rfl, rfl, e, rfl⟩⟩

/-! ## Events of groups -/

/-- A clause on the first page with a header for two words. -/
def tClause : Clause := ⟨0x10000, 2, [0, 0], 0⟩
/-- A group between clauses whose live lanes `m` go to that clause next and meet again behind it; the others have ended. -/
def fPath (m : Mask) (g : Group) : Group :=
  { g with
    clause := none, phase := .waiting, live := m, active := m, buffer := [tClause]
    lanes := g.lanes.mapIdx fun l x => if m.getLsbD l then { x with next := 0x10000, meet := 0x10018 } else { x with state := .exited } }
/-- `tM` with that header in memory, no group at an issue port, and the group changed. -/
def tP (f : Group → Group) : State := tWith ({ tM [(0x100000, 2)] with cur := none }.modCore 0 fun c => { c with port := none }) f
def pG (f : Group → Group) : Group := (tP f).group 1
/-- A trap that is due. -/
def tDue : DueTrap := ⟨⟨cMEMFLT, 1, false, false, false, true, 0, 1, 0, 0, 0, 0⟩, .deferred 70, 70⟩
/-- The group as an ejected context at that clause. -/
def fContext (g : Group) : Group := { fPath 1 g with sleeve := some ⟨9, 0, 3, 0, 1, 0, none, none⟩ }
/-- The group held at a WAITJ of K15 in lanes 0 to 3, all it waits for. -/
def fHeld (g : Group) : Group :=
  { fPath 0xF g with k := modAt (fun _ => 0xF) 15 g.k, phase := .held, heldSince := some 0
                     lanes := (fPath 0xF g).lanes.mapIdx fun l x => if l < 4 then { x with state := .held 0x10008 15 0x10018 } else x }

theorem witness_ClauseEvents :
    (let g := pG fun g => { fPath 1 g with buffer := [] }
     let s := tP fun g => { fPath 1 g with buffer := [] }
     s.group? g.uid = some g ∧ g.fetchAddr = some 0x10000 ∧ (∀ y, y ∈ g.buffer → y.addr ≠ 0x10000) ∧ g.phase = .waiting ∧ s.ras.marks = [] ∧
      ∀ i, i ≤ hdrLen (BitVec.ofNat 64 (memNum s.mem 0x100000 8)) → s.translate g.part ((0x10000 : Addr).toNat + 8 * i) needX true = .ok ⟨0x100000 + 8 * i, 1069087, 16⟩) ∧
    ((tP (fPath 1)).core 0).port = none ∧ (tP (fPath 1)).noteReady.groups = [(tP (fPath 1)).noteReady.group 1] ∧ ((tP (fPath 1)).noteReady.group 1).core = 0 ∧ ((tP (fPath 1)).noteReady.group 1).sleeve = none ∧
    (tP (fPath 1)).noteReady.clauseReady ((tP (fPath 1)).noteReady.group 1) = true ∧ ((tP (fPath 1)).noteReady.group 1).clause = none ∧
    ((tP (fPath 1)).noteReady.group 1).startable = some ((0x10000, none), tClause) ∧ hdrBad tClause.hdr = false ∧
    ((tP fContext).group? (pG fContext).uid = some (pG fContext) ∧ (pG fContext).sleeve.isSome = true ∧ (tP fContext).clauseReady (pG fContext) = true ∧ (pG fContext).clause = none ∧
      (pG fContext).startable = some ((0x10000, none), tClause)) ∧
    (let f := fun g : Group => { fPath 0xFFFFFFFF g with due := [tDue] }
     let s := (tP f).modPart 0 fun p => { p with thand := List.replicate 13 0x10000 }
     (pG f).sleeve = none ∧ (pG f).clause = none ∧ (pG f).phase = .waiting ∧ (pG f).due = [tDue] ∧ tDue.tr.ej = false ∧ Trappable s (pG f) tDue.tr.cause 0x10000) ∧
    (let g := pG fHeld
     (tP fHeld).group? g.uid = some g ∧ g.sleeve = none ∧ g.phase = .held ∧ g.clause = none ∧ g.frame = none ∧ g.lanes.length = 32 ∧ 15 < g.k.length ∧ g.k.getD 15 0 &&& g.live &&& ~~~(0xF : Mask) = 0 ∧
      (0xF : Mask) &&& g.live ≠ 0 ∧ ∀ l, l < 32 → g.live.getLsbD l = true → g.helper.getLsbD l = false ∧ ((0xF : Mask).getLsbD l = true → ∃ m, (g.lane l).state = .held 0x10008 15 m) ∧
        ((0xF : Mask).getLsbD l = false → ∀ b j m, (g.lane l).state ≠ .held b j m)) ∧
    (let s := ({ tP id with clusters := [(0, { Cluster.reset with clk := 24 * 20 })] }).modCore 0 fun c => { c with coll := some ⟨true, 0, 0, [], [], []⟩ }
     (s.core 0).coll = some ⟨true, 0, 0, [], [], []⟩ ∧ 0 + 24 ≤ s.clock 0) := by
  refine ⟨⟨by decide +kernel, by decide +kernel, by decide +kernel, by decide +kernel, by decide +kernel, ?_⟩, by decide +kernel, by decide +kernel, by decide +kernel, by decide +kernel, by decide +kernel, by decide +kernel, by decide +kernel, by decide,
    ⟨by decide +kernel, by decide +kernel, by decide +kernel, by decide +kernel, by decide +kernel⟩,
    ⟨by decide +kernel, by decide +kernel, by decide +kernel, by decide +kernel, rfl, ⟨by decide +kernel, by decide +kernel, by decide +kernel, by decide +kernel, by decide +kernel, by decide⟩⟩,
    ⟨by decide +kernel, by decide +kernel, by decide +kernel, by decide +kernel, by decide +kernel, by decide +kernel, by decide +kernel, by decide +kernel, by decide +kernel, ?_⟩,
    by decide +kernel, by decide +kernel⟩
  · have h : ∀ i, i < 3 → ((tP fun g => { fPath 1 g with buffer := [] }).translate 0 ((0x10000 : Addr).toNat + 8 * i) needX true).toOption = some ⟨0x100000 + 8 * i, 1069087, 16⟩ := by decide +kernel
    intro i hi
    have := h i (by rw [show hdrLen (BitVec.ofNat 64 (memNum (tP fun g => { fPath 1 g with buffer := [] }).mem 0x100000 8)) = 2 by decide +kernel] at hi; omega)
    rw [show (pG fun g => { fPath 1 g with buffer := [] }).part = 0 by decide +kernel]
    cases e : (tP fun g => { fPath 1 g with buffer := [] }).translate 0 ((0x10000 : Addr).toNat + 8 * i) needX true with
    | ok p => rw [e] at this; exact congrArg Except.ok (Option.some.inj this)
    | error n => rw [e] at this; cases this
  · have h : ∀ l, l < 32 → (pG fHeld).live.getLsbD l = true → (pG fHeld).helper.getLsbD l = false ∧ (0xF : Mask).getLsbD l = true ∧ ((pG fHeld).lane l).state = .held 0x10008 15 0x10018 := by decide +kernel
    intro l hl hv
    obtain ⟨h1, h2, h3⟩ := h l hl hv
    exact ⟨h1, fun _ => ⟨_, h3⟩, fun h => absurd (h2.symm.trans h) (by decide)⟩

/-- Two groups of the workgroup at one clause: three lanes of the first, one of the second. -/
def tPair : State := { tP (fPath 7) with groups := [fPath 7 tG, { fPath 1 tG with uid := 2, gid := 1, gseq := 1, slot := 1 }] }
/-- Two paths: lane 31 stands at another clause, after 64 clauses of the first. -/
def fPaths (g : Group) : Group := { (fPath 0x80000001 g).modLane 31 (fun x => { x with next := 0x10018 }) with active := 1, quantum := 64 }

theorem witness_MergeAndPathTurns :
    (tPair.group? 1 = some (tPair.group 1) ∧ tPair.group? 2 = some (tPair.group 2) ∧ tPair.mergeable (tPair.group 1) (tPair.group 2) = true ∧
      (∀ x, x ∈ tPair.groups → ∀ y, y ∈ tPair.groups → tPair.mergeable x y = true → x.uid = (tPair.group 1).uid) ∧ (tPair.group 1).lanes.length = 32 ∧ (tPair.group 2).lanes.length = 32) ∧
    (let g := pG fPaths
     (tP fPaths).group? g.uid = some g ∧ g.phase = .waiting ∧ g.clause = none ∧ g.merge = .none ∧ 64 ≤ g.quantum ∧ 2 ≤ g.paths.length ∧ (∀ p, p ∈ g.paths → p.2 = none) ∧
      ∃ p, p ∈ g.paths ∧ g.pathLanes p &&& g.active &&& ~~~g.helper = 0) ∧
    (let s := { tP fHeld with clusters := [(0, { Cluster.reset with clk := 4096 * 20 })] }
     let g := pG fHeld
     s.group? g.uid = some g ∧ g.phase = .held ∧ g.heldSince = some 0 ∧ 2 ^ modeRjto g.mode ≤ s.clock g.core - 0) ∧
    (let f := fun g : Group => { fHeld g with phase := .yielded }
     (tP f).group? (pG f).uid = some (pG f) ∧ (pG f).phase = .yielded ∧ (pG f).awaitsEjected = false ∧ (tP f).slotFree (pG f).core 47 = true ∧ (tP f).wordsFree (pG f).core (pG f).decl = true) :=
  ⟨⟨by decide +kernel, by decide +kernel, by decide +kernel, by decide +kernel, by decide +kernel, by decide +kernel⟩,
    ⟨by decide +kernel, by decide +kernel, by decide +kernel, by decide +kernel, by decide +kernel, by decide +kernel,
      fun p hp => Option.isNone_iff_eq_none.mp (List.all_eq_true.mp (show ((pG fPaths).paths.all fun p => p.2.isNone) = true by decide +kernel) p hp), by decide +kernel⟩,
    ⟨by decide +kernel, by decide +kernel, by decide +kernel, by decide +kernel⟩, ⟨by decide +kernel, by decide +kernel, by decide +kernel, by decide +kernel, by decide +kernel⟩⟩

/-! ## Ejection, formation, pre-emption -/

/-- A side to be ejected: lane 1. -/
def fEject (g : Group) : Group := { g with ejectNext := some 2, joinBound := some 3 }
/-- `tS` with lane 0 ejected to a context that has stopped at the WAITJ. -/
def tEjected : State :=
  { tWith tS fun g => { g.modLane 0 (fun x => { x with state := .ejected }) with active := 0xFFFFFFFE, phase := .waiting, clause := none } with
    groups := [(tWith tS fun g => { g.modLane 0 (fun x => { x with state := .ejected }) with active := 0xFFFFFFFE, phase := .waiting, clause := none }).group 1,
      { tG.modLane 0 (fun x => { x with state := .held 0x10008 3 0 }) with uid := 9, sleeve := some ⟨1, 0, 3, 0, 1, 0, none, some 0x10008⟩, live := 1, active := 1, phase := .stopped, clause := none }]
    uidNext := 71 }

theorem witness_EjectionAndRecall :
    ((uS fEject).group? (uG fEject).uid = some (uG fEject) ∧ (uG fEject).ejectNext = some 2 ∧ (uG fEject).frame = none ∧ (uS fEject).accs = [] ∧ (uS fEject).sliceqs = [] ∧ (uS fEject).mops = [] ∧
      (uG fEject).uid < (uS fEject).uidNext ∧ (uG fEject).lanes.length = 32 ∧ (uG fEject).helper &&& (uG fEject).live = 0 ∧ Lane.mem (2 &&& (uG fEject).live) 1) ∧
    (let c := tEjected.group 9
     let h := tEjected.group 1
     ∃ x, tEjected.group? c.uid = some c ∧ c.sleeve = some x ∧ c.phase = .stopped ∧ tEjected.contextDone c.uid = true ∧ tEjected.group? x.homeUid = some h ∧ tEjected.homeLocked h x.bound = false ∧ h.uid ≠ c.uid ∧
       h.frame = none ∧ h.lanes.length = 32 ∧ x.slot < 32 ∧ (c.lane x.slot).state ≠ .ejected) :=
  ⟨⟨by decide +kernel, by decide +kernel, by decide +kernel, by decide +kernel, by decide +kernel, by decide +kernel, by decide +kernel, by decide +kernel, by decide +kernel, by decide, by decide +kernel⟩,
    ⟨_, by decide +kernel, rfl, by decide +kernel, by decide +kernel, by decide +kernel, by decide +kernel, by decide +kernel, by decide +kernel, by decide +kernel, by decide +kernel, by decide +kernel⟩⟩

/-- A launch of one node without out-edges, with `k` records. -/
def fNode (kind : NodeKind) : Node := { hostNode with kind := kind, scr := 0, gto := 6 }
def fLaunch (kind : NodeKind) (k : Nat) : Launch :=
  { (default : Launch) with num := 5, nodes := [fNode kind], queues := [(List.range k).map fun i => { (default : Rec) with words := [0], tags := [FULL], arrival := i }], nextWgid := [0], nextGseq := [0], arrivals := k }
/-- `tM` with this launch and nothing running, after 64 clocks. -/
def tForm (l : Launch) : State := { tM with launches := [l], wgs := [], groups := [], cur := none, uidNext := 10, clusters := [(0, { Cluster.reset with clk := 64 * 20 })] }
/-- Groups that have ended: the first of `tTwo`, or the only one. -/
def fEnded (g : Group) : Group := { g with live := 0, active := 0, phase := .waiting, clause := none }
def tEnded (two : Bool) : State := { tS with cur := none, groups := (if two then [fEnded tG, { tG with uid := 2, gid := 1, gseq := 1, slot := 1, phase := .waiting, clause := none }] else [fEnded tG]) }

theorem witness_GroupFormation :
    (∀ k cause, (k = 32 ∧ cause = Cause.ready) ∨ (k = 1 ∧ cause = .timeout) →
      let l := fLaunch .lane k
      let s := tForm l
      let nd := l.node 0
      (s.launches = [l] ∧ l.det = false ∧ l.ending = none ∧ l.closing = none ∧ 0 < l.nodes.length ∧ nd.remote = false ∧ nd.kind = .lane ∧ nd.edges = [] ∧ nd.tileMap = 0 ∧ 5 ∈ s.partCores l.part ∧
        (s.residents 5).length < 48 ∧ ((s.residents 5).map fun y => y.decl.words).sum + nd.decl.words ≤ 65536 ∧ s.spUsed 5 + nd.scr ≤ 2 ^ 21 ∧ ∀ y, y ∈ s.groups → y.core = 5 → y.phase ≠ .yielded) ∧
      nd.gto ≠ 0 ∧ (∃ r, (l.queues.getD 0 []).head? = some r ∧ r.time + 2 ^ nd.gto ≤ s.partClock l.part) ∧ (l.queues.getD 0 []).length = k ∧
      s.noteWaiting.launch? l.num = some l ∧ nd.kind ≠ .broadcast ∧ ∃ x s2, s.noteWaiting.formable l 0 0 5 cause = some x ∧ State.switchAll l x.unit.lcore nd.lrec.tiles x.cores s.noteWaiting = .ok s2) ∧
    (let l := fLaunch .broadcast 1
     let s := tForm l
     ∃ r, s.noteWaiting.launch? l.num = some l ∧ l.ending = none ∧ l.closing = none ∧ (l.node 0).kind = .broadcast ∧ s.noteWaiting.gridRecord l 0 = some r ∧ (r.words.getD (l.node 0).goff 0).toNat = 0) ∧
    (∀ two, let s := tEnded two
      let g := fEnded tG
      (s.group? g.uid = some g ∧ g.sleeve = none ∧ g.live = 0 ∧ (∀ c, c ∈ g.cf → c = 0) ∧ g.clause = none ∧ g.due = [] ∧ g.frame = none ∧ g.phase = .waiting ∧ g.merge = .none ∧ s.accs = [] ∧ s.sliceqs = [] ∧ s.mops = [] ∧
        (s.wg g.wg).regrouped = false ∧ s.halted g = false) ∧
      (two = true → ∃ y, y ∈ s.groups ∧ y.uid ≠ g.uid ∧ y.wg = g.wg ∧ y.phase ≠ .retired) ∧ (two = false → s.groups = [g] ∧ ∃ w, s.wg? g.wg = some w)) ∧
    (∀ st, st = none ∨ st = some 0x11 → let l := { fLaunch .lane 0 with ending := st }
      let s := tForm l
      s.launch? l.num = some l ∧ s.launchQuiet l = true ∧ s.noContexts l = true ∧ l.closing = none ∧ ∀ x, x < l.nodes.length → (l.node x).remote = true ∨ s.closedNode l l.nodes.length x = true) := by
  have form : ∀ k cause, (k = 32 ∧ cause = Cause.ready) ∨ (k = 1 ∧ cause = .timeout) → ∃ x s2, (tForm (fLaunch .lane k)).noteWaiting.formable (fLaunch .lane k) 0 0 5 cause = some x ∧
      State.switchAll (fLaunch .lane k) x.unit.lcore ((fLaunch .lane k).node 0).lrec.tiles x.cores (tForm (fLaunch .lane k)).noteWaiting = .ok s2 := by
    intro k cause hk
    obtain ⟨x, h, e⟩ := some_and (x := (tForm (fLaunch .lane k)).noteWaiting.formable (fLaunch .lane k) 0 0 5 cause)
      (fun x => (State.switchAll (fLaunch .lane k) x.unit.lcore ((fLaunch .lane k).node 0).lrec.tiles x.cores (tForm (fLaunch .lane k)).noteWaiting).isOk) (by rcases hk with ⟨rfl, rfl⟩ | ⟨rfl, rfl⟩ <;> decide +kernel)
    exact ⟨x, _, h, (ok_of_isOk e).choose_spec⟩
  refine ⟨fun k cause hk => ⟨?_, ?_, ?_, ?_, ?_, ?_, form k cause hk⟩, ⟨_, by decide +kernel, rfl, rfl, rfl, by rfl, by decide +kernel⟩, fun two => ?_, fun st h => ?_⟩
  · rcases hk with ⟨rfl, rfl⟩ | ⟨rfl, rfl⟩ <;>
    exact ⟨by decide +kernel, rfl, rfl, rfl, by decide, rfl, rfl, rfl, rfl, by decide +kernel, by decide +kernel, by decide +kernel, by decide +kernel, by decide +kernel⟩
  · rcases hk with ⟨rfl, rfl⟩ | ⟨rfl, rfl⟩ <;> decide +kernel
  · rcases hk with ⟨rfl, rfl⟩ | ⟨rfl, rfl⟩ <;> exact ⟨_, rfl, by decide +kernel⟩
  · rcases hk with ⟨rfl, rfl⟩ | ⟨rfl, rfl⟩ <;> decide +kernel
  · rcases hk with ⟨rfl, rfl⟩ | ⟨rfl, rfl⟩ <;> decide +kernel
  · rcases hk with ⟨rfl, rfl⟩ | ⟨rfl, rfl⟩ <;> decide +kernel
  · cases two <;> refine ⟨⟨by decide +kernel, by decide +kernel, by decide +kernel, by decide +kernel, by decide +kernel, by decide +kernel, by decide +kernel, by decide +kernel, by decide +kernel, by decide +kernel, by decide +kernel,
      by decide +kernel, by decide +kernel, by decide +kernel⟩, ?_, ?_⟩
    · intro h; cases h
    · exact fun _ => ⟨by decide +kernel, some_of_isSome (by decide +kernel)⟩
    · exact fun _ => ⟨{ tG with uid := 2, gid := 1, gseq := 1, slot := 1, phase := .waiting, clause := none }, List.mem_cons_of_mem _ (List.mem_singleton.mpr rfl), by decide +kernel, by decide +kernel, by decide +kernel⟩
    · intro h; cases h
  · rcases h with rfl | rfl <;> exact ⟨by decide +kernel, by decide +kernel, by decide +kernel, rfl, by decide +kernel⟩

/-- A workgroup without scratchpad that stands between clauses, asked for or not, with a save region on the first page, whose translation is held. -/
def tPre (ask : Bool) : State :=
  ((tWith { tM with cur := none } fun g => { g with clause := none, phase := .waiting }).modWg 0 fun w => { w with spSize := 0, preemptReq := ask }).modPart 0 fun p =>
    { p with saveb := 0x10000, saves := 0x10000, tlb := [⟨1, 16, 0x10501F⟩] }
/-- The area that holds it. -/
def tImage : List Byte := ((tPre true).saveOf ((tPre true).wg 0)).image (fun tid => aget 0 ((tPre true).launch ((tPre true).wg 0).launch).ordIdx (((tPre true).wg 0).node * 2 ^ 40 + tid)) ((tPre true).tileBytes ((tPre true).wg 0))

/-- The pieces of a range of bytes lie in it. -/
theorem pieces8_within {k a n : Nat} : ∀ x ∈ pieces8 k a n, a ≤ x.1 ∧ x.1 < a + n := by
  induction k generalizing a n with
  | zero => simp [pieces8]
  | succ k ih =>
    intro x m
    rw [pieces8] at m
    split at m
    · cases m
    · rename_i h
      have h : n ≠ 0 := by simpa using h
      rcases List.mem_cons.mp m with rfl | m
      · exact ⟨Nat.le_refl _, by simp only; omega⟩
      · have := ih _ m
        have : a % 8 < 8 := Nat.mod_lt _ (by decide)
        omega

theorem fit_length (n : Nat) (bs : List Byte) : (fit n bs).length = n := by simp [fit]

theorem tImage_length : ∃ n, tImage.length = n ∧ n ≤ 65536 ∧ savePlace (((tPre true).saved.filter fun y => y.wg.part == 0).map fun y => (y.base, y.size)) ((tPre true).part 0).saveb.toNat ((tPre true).part 0).saves.toNat n = some 0x10000 := by
  obtain ⟨n, e, h⟩ : ∃ n, (((tPre true).saveOf ((tPre true).wg 0)).sections (fun tid => aget 0 ((tPre true).launch ((tPre true).wg 0).launch).ordIdx (((tPre true).wg 0).node * 2 ^ 40 + tid)) ((tPre true).tileBytes ((tPre true).wg 0))).flatten.length = n ∧ n = 19264 :=
    ⟨_, by decide +kernel, rfl⟩
  refine ⟨256 + n, ?_, by omega, by rw [h]; decide +kernel⟩
  rw [tImage, Saved.image, List.length_append, e]
  rw [fit_length]

theorem tImage_pages (n : Nat) (h : n ≤ 65536) : ((pieces8 n 0x10000 n).all fun x => match (tPre true).translate 0 x.1 needW true with | .ok _ => true | .error _ => false) = true := by
  rw [List.all_eq_true]
  intro x m
  have w := pieces8_within x m
  have e : (tPre true).entryFor 0 x.1 true = some (0x10501F, 16) := by
    have t : ((tPre true).part 0).egress.map Prod.fst ++ ((tPre true).part 0).tlb = [⟨1, 16, 0x10501F⟩] := by decide +kernel
    have v : x.1 / 2 ^ 16 = 1 := by omega
    unfold State.entryFor
    change (match (if true = true then (((tPre true).part 0).egress.map Prod.fst ++ ((tPre true).part 0).tlb).find? (fun t => t.vpn == x.1 / 2 ^ t.bits) else none) with | some t => some (t.pte.toNat, t.bits) | none => _) = _
    rw [if_pos rfl, t, List.find?_cons_of_pos (by simp only [v]; rfl)]
    rfl
  have p : physPresent (bits 0x10501F 16 36 * 2 ^ 16 + x.1 % 2 ^ 16) = true := by
    have : x.1 % 2 ^ 16 < 2 ^ 16 := Nat.mod_lt _ (by decide)
    have : decide (bits 0x10501F 16 36 * 2 ^ 16 + x.1 % 2 ^ 16 < 384000000000) = true := decide_eq_true (by rw [show bits 0x10501F 16 36 = 16 by decide]; omega)
    rw [physPresent, this]
    rfl
  unfold State.translate
  rw [if_neg (by omega), e]
  simp only [show ((needW.r && bits 0x10501F 2 1 == 0) || (needW.w && bits 0x10501F 3 1 == 0) || (needW.x && bits 0x10501F 4 1 == 0)) = false by decide, show (bits 0x10501F 10 1 == 1) = false by decide, p]
  rfl

/-- A saved workgroup of the launch of `tS`. -/
def tSaved : Saved := { (default : Saved) with wg := { tS.wg 0 with restores := 1 }, groups := [{ tG with clause := none, phase := .waiting }] }
def tRest : State := { tS with wgs := [], groups := [], cur := none, saved := [tSaved] }

theorem witness_PreemptionAndRestore :
    (let s := tPre false
     let w := s.wg 0
     s.wg? w.uid = some w ∧ w.state = .live ∧ (∃ y, y ∈ s.launches ∧ y.num = w.launch ∧ y.ending = none) ∧ (s.preemptUnit w).all Wg.preemptReq = false) ∧
    (let s := tPre true
     let w := s.wg 0
     s.wg? w.uid = some w ∧ w.state = .live ∧ (∃ y, y ∈ s.launches ∧ y.num = w.launch ∧ y.ending = none) ∧ s.preemptUnit w = [w] ∧ w.preemptReq = true ∧ s.preemptReady w = true ∧ s.ras.marks = [] ∧
      (s.groups.map Group.uid).Nodup ∧ (∀ g, g ∈ s.groups → g.wg = w.uid → ∀ d m k, g.merge ≠ .host d m k) ∧
      savePlace ((s.saved.filter fun y => y.wg.part == w.part).map fun y => (y.base, y.size)) (s.part w.part).saveb.toNat (s.part w.part).saves.toNat tImage.length = some 0x10000 ∧ ∃ s1, s.vaStore w.part 0x10000 tImage = some s1) ∧
    (∃ l s1, tRest.saved.find? (fun y => y.wg.uid == tSaved.wg.uid) = some tSaved ∧ tRest.launch? tSaved.wg.launch = some l ∧ tRest.savedUnit tSaved = [tSaved] ∧ tRest.restoreCores l [tSaved] 5 = some [5] ∧
      State.switchAll l tSaved.wg.lcore (l.node tSaved.wg.node).lrec.tiles [5] tRest = .ok s1) := by
  refine ⟨⟨by decide +kernel, by decide +kernel, ?_, by decide +kernel⟩, ⟨by decide +kernel, by decide +kernel, ?_, by decide +kernel, by decide +kernel, by decide +kernel, by decide +kernel, by decide +kernel, ?_, ?_, ?_⟩, ?_⟩
  · exact ⟨tS.launches.headD default, by decide +kernel, by decide +kernel, by decide +kernel⟩
  · exact ⟨tS.launches.headD default, by decide +kernel, by decide +kernel, by decide +kernel⟩
  · intro g m _
    have : ∀ g, g ∈ (tPre true).groups → g.merge = .none := by decide +kernel
    rw [this g m]
    exact fun _ _ _ h => by cases h
  · obtain ⟨n, e, _, h⟩ := tImage_length
    rw [e]
    exact h
  · obtain ⟨n, e, h, _⟩ := tImage_length
    unfold State.vaStore
    rw [e]
    exact ⟨_, if_pos (tImage_pages n h)⟩
  · obtain ⟨l, h, e⟩ := some_and (x := tRest.launch? tSaved.wg.launch) (fun l => decide (tRest.restoreCores l [tSaved] 5 = some [5]) && (State.switchAll l tSaved.wg.lcore (l.node tSaved.wg.node).lrec.tiles [5] tRest).isOk) (by decide +kernel)
    rw [Bool.and_eq_true] at e
    exact ⟨l, _, by decide +kernel, h, by decide +kernel, of_decide_eq_true e.1, (ok_of_isOk e.2).choose_spec⟩

/-! ## UALink, packets, queues and links -/

/-- A launch of two nodes on port 3: a local one of records of 8 bytes, and the proxy of a remote one. -/
def tLr (v : List Receiver) (grant : Nat) : Launch :=
  { fLaunch .lane 0 with port := some 3, nodes := [{ fNode .lane with z := 8, pgrant := grant }, { fNode .lane with remote := true }], queues := [[], []], pools := [⟨none, 0⟩, ⟨none, 0⟩], spills := 65536, receivers := v }
/-- The source 4097 of accelerator 9, with one permit out and one to go back. -/
def tSource : Receiver := ⟨4097, 9, 0, [2], [2], 0, false, []⟩

theorem witness_RemoteMessages :
    (let s := tForm (tLr [] 4)
     let l := tLr [] 4
     s.launch? l.num = some l ∧ s.portLaunch 3 = some l ∧ (1 : Nat) < 4096 ∧ l.receivers = [] ∧ 0 < l.nodes.length ∧ (l.node 0).remote = false ∧ (l.node 0).z = 8 ∧ (l.node 0).pgrant ≠ 0 ∧ (s.allot l [(0, (l.node 0).pgrant)] []).isSome = true ∧
      s.portLaunch 4 = none ∧ (l.node 1).remote = true ∧ 1 < l.pools.length ∧ (l.pools.getD 1 default).granted = none) ∧
    (let l := { tLr [] 4 with nodes := [{ fNode .lane with z := 2 ^ 30, pgrant := 4 }] }
     (tForm l).launch? l.num = some l ∧ (tForm l).portLaunch 3 = some l ∧ l.receivers = [] ∧ (tForm l).allot l [(0, (l.node 0).pgrant)] [] = none) ∧
    (let l := tLr [tSource] 4
     let s := { tForm l with clusters := [(0, { Cluster.reset with clk := 256 * 20 })] }
     let r : RecMsg := { (default : RecMsg) with sender := 4097, sacc := 9, words := [1, 2], tags := [FULL, 3] }
     s.launch? l.num = some l ∧ l.ending = none ∧ l.receivers = [tSource] ∧ tSource.sender = r.sender ∧ tSource.accel = r.sacc ∧ tSource.node = 0 ∧ tSource.permits ≠ [] ∧ tSource.closed = false ∧ 0 < l.queues.length ∧
       tSource.back ≠ [] ∧ tSource.backAt + 256 ≤ (s.cluster ((s.partClusters l.part).headD 0)).clk / 20 ∧ s.launches = [l]) ∧
    (let s := { tS with openRanges := [(0x100000, 64)] }
     (∃ o, o ∈ s.openRanges ∧ o.1 ≤ 0x10003C ∧ 0x10003C + 4 ≤ o.1 + o.2) ∧ (¬ ∃ o, o ∈ s.openRanges ∧ o.1 ≤ 0x10003C ∧ 0x10003C + 8 ≤ o.1 + o.2) ∧ s.ras.marks = [] ∧ Memory.wf s.mem = true) :=
  ⟨⟨by decide +kernel, by decide +kernel, by decide, rfl, by decide, rfl, rfl, by decide +kernel, by decide +kernel, by decide +kernel, rfl, by decide, rfl⟩, ⟨by decide +kernel, by decide +kernel, rfl, by decide +kernel⟩,
    ⟨by decide +kernel, rfl, rfl, rfl, rfl, rfl, by decide, rfl, by decide, by decide, by decide +kernel, rfl⟩, ⟨⟨_, List.mem_singleton.mpr rfl, by decide, by decide⟩, by decide +kernel, by decide +kernel, by decide +kernel⟩⟩

/-- A packet with a type, an argument and payload words. -/
def tPk (id t arg : Nat) (pay : List Addr) : Packet := ⟨id, BitVec.ofNat 64 (t + 2 ^ 8 * pay.length + 2 ^ 16 * arg) :: pay, false, false, false, 0⟩
/-- Partition 0 enabled with queue 0 and these packets, and a graph of one node on the first page, its launch record at 0x10100. -/
def tQ (ps : List Packet) (jump : Option (Nat × Nat)) : State :=
  ((tM [(0x100000, 1), (0x100004, 1), (0x100010, 0x40), (0x100012, 1), (0x100020, 0x80), (0x100022, 1), (0x100048, 0x01), (0x100049, 0x40), (0x10004A, 0x0C), (0x10004B, 0x03), (0x100061, 1), (0x100062, 1)]).modPart 0 fun p => { p with cfg := 1, qrange := 0x10000 }).modQueue 0
    fun q => { q with ctl := 0xA01, st := 1, packets := ps, jump := jump }
/-- A LAUNCH of that graph with one record. -/
def tLaunch : Packet := tPk 7 1 1 [0x10000, 0x18000, 5]
/-- A COPY that has started. -/
def tMove (dst : Addr) : Packet := { tPk 7 2 0 [dst, 0x10080, 128] with started := true }

theorem error_of {ε α : Type} [DecidableEq ε] {x : Except ε α} {e : ε} (h : (match x with | .ok _ => false | .error c => decide (c = e)) = true) : x = .error e := by
  cases x with
  | ok a => cases h
  | error c => exact congrArg Except.error (of_decide_eq_true h)

theorem witness_PacketEffects :
    (∀ t, t < 10 → (tQ [tPk 7 t 1 [0x10000, 0x18000, 0]] none).startablePacket 0 = some (tPk 7 t 1 [0x10000, 0x18000, 0]) ∧ (tPk 7 t 1 [0x10000, 0x18000, 0]).type = t) ∧
    (let s := tQ [tLaunch] none
     let s1 := { s.startPacket 0 tLaunch with launchNext := (s.launchNext + 1) % 2 ^ 32 }
     s.startablePacket 0 = some tLaunch ∧ tLaunch.type = 1 ∧ s.launch? s.launchNext = none ∧ s.queueOwner 0 = 0 ∧
       ∃ gr es, s1.readGraph 0 (tLaunch.pay 0).toNat = ([], some gr) ∧ gr.entry < gr.nodes.length ∧ s1.entryRecords 0 (tLaunch.pay 1).toNat tLaunch.arg (gr.nodes.getD gr.entry default).z = some es ∧ s1.graphCodes 0 gr = []) ∧
    (let s := tQ [tPk 7 3 (2 ^ 10 + 1) [4]] none
     s.startablePacket 0 = some (tPk 7 3 (2 ^ 10 + 1) [4]) ∧ (tPk 7 3 (2 ^ 10 + 1) [4]).type = 3) ∧
    (∃ t1, ((tQ [tPk 7 8 0 [0x10000]] none).startPacket 0 (tPk 7 8 0 [0x10000])).vaStore 0 ((tPk 7 8 0 [0x10000]).pay 0).toNat (toBytes 8 (tQ [tPk 7 8 0 [0x10000]] none).time) = some t1) ∧
    (let j := { tPk 6 9 0 [0x10000, 4] with started := true }
     let p := { tPk 7 2 0 [0x10000, 0x10080, 128] with jumped := true }
     let s := tQ [j, p] none
     s.startablePacket 0 = some p ∧ (s.queue 0).packets = [j, p] ∧ j.type = 9 ∧ j.id ≠ p.id ∧ p.type = 2 ∧ p.pay 2 ≠ 0) ∧
    (let s := tQ [tMove 0x1FF80] none
     s.copyPacket? 0 7 = some (tMove 0x1FF80) ∧ (tMove 0x1FF80).moved = 0 ∧ ((tMove 0x1FF80).pay 0).toNat % 128 + ((tMove 0x1FF80).pay 2).toNat ≤ 128 ∧ (∃ d, s.translate 0 ((tMove 0x1FF80).pay 0).toNat needW true = .ok d ∧ d.sig = false) ∧
       (∃ e : Page, e.sig = false ∧ ∀ i, 4 * i < 128 → s.translate 0 (((tMove 0x1FF80).pay 1).toNat + 4 * i) needR true = .ok { e with key := e.key + 4 * i }) ∧ s.ras.marks = [] ∧ Memory.wf s.mem = true) ∧
    (let s := tQ [tMove 0x40000] none
     s.copyPacket? 0 7 = some (tMove 0x40000) ∧ s.packetPiece 0 (tMove 0x40000) = .error 6) := by
  refine ⟨by decide +kernel, ⟨by decide +kernel, by decide +kernel, by decide +kernel, by decide +kernel, ?_⟩, by decide +kernel, some_of_isSome (by decide +kernel), by decide +kernel,
    ⟨by decide +kernel, rfl, by decide +kernel, ?_, ⟨⟨0x100080, 1069087, 16⟩, by decide, fun i hi => ?_⟩, by decide +kernel, by decide +kernel⟩, by decide +kernel, error_of (by decide +kernel)⟩
  · let s := { (tQ [tLaunch] none).startPacket 0 tLaunch with launchNext := ((tQ [tLaunch] none).launchNext + 1) % 2 ^ 32 }
    obtain ⟨gr, e, k⟩ := some_and (x := (s.readGraph 0 (tLaunch.pay 0).toNat).2)
      (fun gr => decide ((s.readGraph 0 (tLaunch.pay 0).toNat).1 = [] ∧ gr.entry < gr.nodes.length ∧ s.graphCodes 0 gr = []) && (s.entryRecords 0 (tLaunch.pay 1).toNat tLaunch.arg (gr.nodes.getD gr.entry default).z).isSome) (by decide +kernel)
    rw [Bool.and_eq_true] at k
    obtain ⟨k1, k2, k3⟩ := of_decide_eq_true k.1
    exact ⟨gr, _, Prod.ext k1 e, k2, (some_of_isSome k.2).choose_spec, k3⟩
  · obtain ⟨d, e, k⟩ := ok_and (x := (tQ [tMove 0x1FF80] none).translate 0 ((tMove 0x1FF80).pay 0).toNat needW true) (fun d => !d.sig) (by decide +kernel)
    exact ⟨d, e, by simpa using k⟩
  · have : ∀ i, i < 32 → ((tQ [tMove 0x1FF80] none).translate 0 (0x10080 + 4 * i) needR true).toOption = some ⟨0x100080 + 4 * i, 1069087, 16⟩ := by decide +kernel
    exact ok_of_toOption (this i (by omega))

/-- The queue of `tQ` with other fields, and NOP packets in its ring on the first page. -/
def tRing (f : Queue → Queue) : State := (({ tQ [] none with mem := tMem ++ [(0x10001A, 1), (0x10001B, 1)] }).modQueue 0 fun q => { q with base := 0x10000, pending := true, widx := 2 }).modQueue 0 f

theorem witness_QueueAndLinkControl :
    (let x := (tQ [] none).queue 0
     (tQ [] none).ownsQueue 0 0 = true ∧ x.devopen = false ∧ x.en = true ∧ x.st = 1 ∧ { x with widx := 1024 }.overrun = false ∧ { x with widx := 1025 }.overrun = true ∧ ctlBad x 0xA01 = false ∧ ctlBad x 0xA11 = false ∧ bits 0xA11 4 2 ≠ x.plane ∧
       (0xA11 : Addr).getLsbD 0 = true ∧ (0xA11 : Addr).getLsbD 15 = false ∧ ctlBad x 0xA00 = false ∧ (0xA00 : Addr).getLsbD 0 = false ∧ x.packets = [] ∧ ctlBad x 0x8A01 = false ∧ (0x8A01 : Addr).getLsbD 15 = true) ∧
    (let x := (tRing fun q => { q with ctl := 0 }).queue 0
     x.en = false ∧ ctlBad x 0x1401 = false ∧ (0x1401 : Addr).getLsbD 0 = true) ∧
    (let x := (tRing fun q => { q with st := 3 }).queue 0
     x.en = true ∧ x.st = 3 ∧ ctlBad x 0x8A01 = false) ∧
    (let s := tRing id
     let x := s.queue 0
     let ws : List (List Addr) := [[0], [0]]
     s.boot.state = 4 ∧ (x.pending = true ∧ x.en = true ∧ x.st = 1) ∧ x.packets.length < 16 ∧ (0, x) ∈ s.queues ∧ (∀ e, e ∈ s.queues → e.1 = 0 → e.2 = x) ∧ (∀ e, e ∈ s.queues → e.1 = 0) ∧ x.overrun = false ∧ x.jump = none ∧
       x.ridx.toNat + ws.flatten.length = x.widx.toNat ∧ ws.length ≤ (s.part (s.queueOwner 0)).fetchw ∧
       (∀ i, i < ws.flatten.length → s.vaNum (s.queueOwner 0) (x.base.toNat + 8 * ((x.ridx.toNat + i) % x.ring)) 8 = some (ws.flatten.getD i 0).toNat) ∧
       ∀ y, y ∈ ws → y.length = 1 + bits (y.headD 0).toNat 8 4 ∧ s.packetCodes (s.queueOwner 0) x ⟨0, y, false, false, false, 0⟩ = []) ∧
    ((tRing fun q => { q with widx := 2000 }).queue 0).overrun = true ∧
    (let s := (tRing fun q => { q with jump := some (0x10000, 2) }).modPart 0 fun p => { p with qos := 1 }
     let x := s.queue 0
     x.overrun = false ∧ x.jump = some (0x10000, 2) ∧ (s.part (s.queueOwner 0)).fetchw = 1 ∧ (∀ i, i < 1 → s.vaNum (s.queueOwner 0) (0x10000 + 8 * i) 8 = some (([0] : List Addr).getD i 0).toNat) ∧ s.packetCodes (s.queueOwner 0) x ⟨0, [0], true, false, false, 0⟩ = []) ∧
    (let c := (tS.cluster 0).channel true
     (List.replicate 32 (0 : Byte)).length = 32 ∧ c.permits ≠ 0 ∧ c.waitAck = false ∧ c.msgs.length < 8) := by
  decide +kernel

/-! ## Host registers, errors, boot, power, the step -/

/-- `tS` with its group stopped for the host after a deferred MEMFLT of access 70. -/
def fStopped (g : Group) : Group :=
  { g with phase := .stopped, clause := none
           frame := some ⟨⟨cMEMFLT, 1, false, false, false, true, 0, 1, 0, 0, 0, 0⟩, .deferred 70, g.lanes.map (fun l => (l.state, l.next, l.resume)), g.active, g.clause, 0, 0, 0⟩ }
def tHost : State := { tS with accs := [tAcc (.load false .none .b32) (.regs 4 1 .general) (tReq 0x10000 [])] }.modGroup 1 fStopped

theorem witness_PartitionControl :
    ((tS.part 3).en = false ∧ (0x10001 : Addr).getLsbD 0 = true ∧ tS.cfgOk 3 (0x10001 : Addr).toNat = true ∧ tS.cfgOk 3 (0x3FF81 : Addr).toNat = false) ∧
    (let s := tS.modPart 7 fun p => { p with cfg := 1 }
     (s.part 7).en = true ∧ (0 : Addr) = (s.part 7).cfg &&& ~~~(1 : Addr)) ∧
    ((0x100001 : Addr).getLsbD 0 = true ∧ (0x100001 : Addr).getLsbD 1 = false) ∧ ((tS.part 0).flogr ≤ (0 : Addr).toNat ∧ (0 : Addr).toNat ≤ (tS.part 0).flogw ∧ (tS.part 0).flogw < (1 : Addr).toNat) ∧
    (let s := tS.modPart 7 fun p => { p with ranges := 0x400 }
     (0 : Nat) < (s.part 7).scnt ∧ (s.part 7).scnt ≤ 1) ∧ ((tS.part 0).thand.length = 13 ∧ (tS.part 0).en = false ∧ (tS.queue 4095).errc < 16 ∧ (tS.queue 4095).st < 4) ∧ (tQ [] none).ownsQueue 0 0 = true ∧ tS.ownsQueue 0 4095 = false ∧
    (let g := tHost.group 1
     tHost.stopped 0 g.launch = [g] ∧ tHost.group? g.uid = some g ∧ ∃ f, g.frame = some f ∧ f.kind = .deferred 70 ∧ f.clause.isSome = true) :=
  ⟨by decide +kernel, by decide +kernel, by decide +kernel, by decide +kernel, by decide +kernel, by decide +kernel, by decide +kernel, by decide +kernel, by decide +kernel, by decide +kernel, _, rfl, rfl, by decide +kernel⟩

theorem witness_ErrorEnginesAndFreeze :
    (let s := { tS with time := hour, ras := { tS.ras with marks := [⟨0x13, 5, true⟩] } }
     hour ≤ s.time - aget 0 s.ras.lastScrub (2 ^ 64 * (0x13 + 1) + 5) ∧ s.ras.logi - s.ras.logr ≠ 2 ^ (bits s.ras.logb.toNat 0 4 + 4) ∧ (∃ m, m ∈ s.ras.marks ∧ m.bad = true ∧ m.region = 0x13 ∧ m.loc = 5) ∧
       hour ≤ s.time - aget 0 s.ras.lastScrub 0x13) ∧
    (∀ region, region = 0x3 ∨ region = 0x13 ∨ region = 0x7F → let r := { tS.ras with locs := [(region, [⟨9, none, 0, true⟩])] }
      r.arep = true ∧ (∃ e, e ∈ aget [] r.locs region ∧ e.loc = 9 ∧ e.lasting = true) ∧ r.spared = [] ∧ r.unspared = [] ∧ r.logi - r.logr ≠ 2 ^ (bits r.logb.toNat 0 4 + 4) ∧ r.sparesUsed = [] ∧ region - 0x40 ∉ r.toRetire ∧
        ({ tS with ras := r }).clusterRetired (region - 0x40) = false ∧ (region = 3 → 0 + 0 < (sparePool region 9).2.2)) ∧
    ({ tS.ras with ctl := 0 } : Ras).arep = false ∧ (tS.ras.logr ≤ (0 : Addr).toNat ∧ (0 : Addr).toNat ≤ tS.ras.logi ∧ tS.ras.logi < (1 : Addr).toNat) ∧ tS.ras.frozen = false ∧ (2 ^ 51 - 64 : Nat) + 64 ≤ 2 ^ 51 ∧
    (let s := { tS with ras := { tS.ras with frozen := true }, boot := { tS.boot with dbg := true } }
     s.ras.frozen = true ∧ s.boot.dbg = true) := by
  refine ⟨⟨by decide +kernel, by decide +kernel, ⟨_, List.mem_singleton.mpr rfl, rfl, rfl, rfl⟩, by decide +kernel⟩, fun region h => ?_, by decide +kernel, by decide +kernel, by decide +kernel, by decide, rfl, rfl⟩
  rcases h with rfl | rfl | rfl <;>
  exact ⟨by decide +kernel, ⟨_, List.mem_singleton.mpr rfl, rfl, rfl⟩, by decide +kernel, by decide +kernel, by decide +kernel, by decide +kernel, by decide +kernel, by decide +kernel, by decide +kernel⟩

/-- That an image is accepted hangs on the opaque digest and signature check (9), so no state is shown for it. -/
theorem witness_BootAndPower :
    (∃ s : State, s.boot.state = 5) ∧ (∃ s : State, s.boot.state = 3 ∧ imageOk (memRead s.boot.window 0 s.boot.wlen.toNat) = false) ∧ (∃ s : State, s.boot.att = true) ∧
    ((63 : Nat) < 64 ∧ (8 : Nat) ≤ max 8 (min 26 (Config.capClock tS.power.capW)) ∧ max 8 (min 26 (Config.capClock tS.power.capW)) < 27 ∧ tS.boot.state = 4) ∧
    ((∀ k, k < 4 → (tS.core (4 * 63 + k)).port = none) ∧ ∀ g, g ∈ tS.groups → g.sleeve.isSome = true → g.clause.isSome = true → clusterOf g.core ≠ 63) ∧ (¬ ∀ k, k < 4 → (tS.core (4 * 0 + k)).port = none) :=
  ⟨⟨{ tS with boot := { tS.boot with state := 5 } }, rfl⟩, ⟨{ tS with boot := { tS.boot with state := 3 } }, rfl, by decide +kernel⟩, ⟨{ tS with boot := { tS.boot with att := true } }, rfl⟩,
    ⟨by decide, Nat.le_max_left _ _, by omega, by decide +kernel⟩, ⟨by decide +kernel, by decide +kernel⟩, by decide +kernel⟩

theorem witness_StepRunsTheDecodedInstruction :
    (let s0 := { tS with agenda := [] }
     tS.power.off = false ∧ tS.ras.frozen = false ∧ tS.agenda = [.issue (.core 0)] ∧ s0.issuer (.core 0) = some tG ∧ tG.phase = .issuing ∧ s0.halted tG = false ∧
       (∃ c, tG.clause = some c ∧ (c.pos + 1 == c.words.length) = false ∧ c.words.getD c.pos 0 = encode (.nop c0)) ∧ tG.sleeve = none ∧
         (∃ regs, s0.decodeAt tG (encode (.nop c0)) false = .ok (.nop c0, regs) ∧ s0.stallOf tG (encode (.nop c0)) (.nop c0) regs = none ∧ s0.regTraps tG (encode (.nop c0)) (.nop c0) regs = none) ∧
         ∃ t, exec (.nop c0) { s0 with cur := some tG.uid } = .next t) ∧
    (∃ e, tS.decodeAt tG 0x5240_0000_003F_0001 false = .error e) ∧
    (decodeWord (encode (.exit c0)) = .ok (.exit c0) ∧ slotOf (.exit c0) = none ∧ wordTrn (encode (.exit c0)) = false ∧ ∀ u, u ∈ (readWord (encode (.exit c0)).toNat).regs → u.count = 0 ∨ u.first + u.count ≤ tG.decl.total) := by
  refine ⟨⟨by decide +kernel, by decide +kernel, by decide +kernel, by decide +kernel, by decide +kernel, by decide +kernel, some_and (fun c => decide ((c.pos + 1 == c.words.length) = false ∧ c.words.getD c.pos 0 = encode (.nop c0))) (by decide +kernel) |>.imp fun _ h => ⟨h.1, of_decide_eq_true h.2⟩, by decide +kernel, ?_, _, rfl⟩, ?_, ?_, by decide +kernel, by decide +kernel, by decide +kernel⟩
  · obtain ⟨x, e, k⟩ := ok_and (x := ({ tS with agenda := [] } : State).decodeAt tG (encode (.nop c0)) false)
      (fun x => decide (x.1 = .nop c0 ∧ ({ tS with agenda := [] } : State).stallOf tG (encode (.nop c0)) (.nop c0) x.2 = none ∧ ({ tS with agenda := [] } : State).regTraps tG (encode (.nop c0)) (.nop c0) x.2 = none)) (by decide +kernel)
    obtain ⟨k1, k2, k3⟩ := of_decide_eq_true k
    exact ⟨x.2, e.trans (by rw [← k1]), k2, k3⟩
  · cases e : tS.decodeAt tG 0x5240_0000_003F_0001 false with
    | ok x => exact absurd (congrArg Except.isOk e) (by rw [show (tS.decodeAt tG 0x5240_0000_003F_0001 false).isOk = false by decide +kernel]; simp [Except.isOk, Except.toBool])
    | error t => exact ⟨t, rfl⟩
  · obtain ⟨x, e, k⟩ := ok_and (x := decodeWord (encode (.exit c0))) (fun x => decide (x = .exit c0)) (by decide +kernel)
    rw [e, of_decide_eq_true k]

theorem witness_FreezeLasts : ∃ s t : State, s.ras.frozen = true ∧ step s = .next t ∧ s.takeTurn.1 ≠ .ev .moduleReset ∧ s.takeTurn.1 ≠ .ev .powerOn :=
  ⟨{ tS with agenda := [.ev (.tapInstruction .idcode)], ras := { tS.ras with frozen := true } }, _, rfl, rfl, by decide +kernel, by decide +kernel⟩

theorem witness_MemoryStaysCanonical : ∃ t, Memory.wf tMem = true ∧ step (tM) = .next t := ⟨_, by decide +kernel, rfl⟩

theorem witness_DecodeOfEncode : (Instr.fadd c0 .mode .f32 11 (.reg 5) (.win 2 0x0C)).isWord = true ∧ (Instr.fadd c0 .mode .f32 11 (.reg 5) (.win 2 0x0C)).wf = true := by decide

end Sys2Proof.Tests
end

section
/-! SUPPORT. Integer words (R85, R86): the linear forms of R12, the shared forms of a completion, and O1. -/
namespace Sys2Proof.Safety
open Sys2Proof Sys2Proof.Machine

/-! ## Affine results of add, subtract and multiply (R12) -/

/-- The sum of two linear words is linear. -/
theorem linear_add (k x y dx dy : Word) : x + k * dx + (y + k * dy) = x + y + k * (dx + dy) := by
  rw [BitVec.mul_add]; ac_rfl

/-- The difference of two linear words is linear. -/
theorem linear_sub (k x y dx dy : Word) : x + k * dx - (y + k * dy) = x - y + k * (dx - dy) := by
  have h := linear_add k (x - y) y (dx - dy) dy
  rw [BitVec.sub_add_cancel, BitVec.sub_add_cancel] at h
  rw [← h, BitVec.add_sub_cancel]

/-- The product of a linear word by a uniform one is linear. -/
theorem linear_mul_left (k x y dx : Word) : (x + k * dx) * (y + k * 0#32) = x * y + k * (dx * y) := by
  rw [BitVec.mul_zero, BitVec.add_zero, BitVec.add_mul, BitVec.mul_assoc]

theorem linear_mul_right (k x y dy : Word) : (x + k * 0#32) * (y + k * dy) = x * y + k * (x * dy) := by
  rw [BitVec.mul_comm, linear_mul_left, BitVec.mul_comm y, BitVec.mul_comm dy]

/-- The base and stride that R12 row 5 gives a sum or a difference. -/
def addLin (sub : Bool) : List (Word × Option Word) → Option (Word × Word)
  | [x, y] =>
    let dx := x.2.getD 0
    let dy := y.2.getD 0
    some (if sub then (x.1 - y.1, dx - dy) else (x.1 + y.1, dx + dy))
  | _ => none

/-- The base and stride that R12 row 6 gives a product. -/
def mulLin : List (Word × Option Word) → Option (Word × Word)
  | [(x, some d), (y, none)] => some (x * y, d * y)
  | [(x, none), (y, some d)] => some (x * y, x * d)
  | _ => none

/-- A linear form agrees with a function of the source values: where every source is base plus stride times `k`, so is the result (R11). -/
def LinFits (lin : List (Word × Option Word) → Option (Word × Word)) (f : List Nat → Nat) : Prop :=
  ∀ ls y, lin ls = some y → ∀ (vs : List Nat) (k : Word), vs.map (BitVec.ofNat 32) = ls.map (fun x => x.1 + k * x.2.getD 0) →
    BitVec.ofNat 32 (f vs) = y.1 + k * y.2

/-- A form over two sources agrees when it does on two values. -/
theorem linFits_of_pair {lin : List (Word × Option Word) → Option (Word × Word)} {f : List Nat → Nat}
    (hlen : ∀ ls y, lin ls = some y → ∃ p q, ls = [p, q])
    (h : ∀ p q y, lin [p, q] = some y → ∀ (a b : Nat) (k : Word), BitVec.ofNat 32 a = p.1 + k * p.2.getD 0 →
      BitVec.ofNat 32 b = q.1 + k * q.2.getD 0 → BitVec.ofNat 32 (f [a, b]) = y.1 + k * y.2) : LinFits lin f := by
  intro ls y hy vs k hv
  obtain ⟨p, q, rfl⟩ := hlen ls y hy
  match vs with
  | [a, b] =>
    simp only [List.map_cons, List.map_nil, List.cons.injEq, and_true] at hv
    exact h p q y hy a b k hv.1 hv.2
  | [] | [_] | _ :: _ :: _ :: _ => simp at hv

/-- The wrapping sum of two 32-bit sources, as words. -/
theorem ofNat_addVal {t : IntTy} (ht : t.w = 32) (sub : Bool) (a b : Nat) :
    BitVec.ofNat 32 (addVal t sub false a b) =
      if sub then BitVec.ofNat 32 a - BitVec.ofNat 32 b else BitVec.ofNat 32 a + BitVec.ofNat 32 b := by
  have ha := ofInt_num t ht a
  have hb := ofInt_num t ht b
  unfold addVal
  rw [ht]
  cases sub with
  | true =>
    simp only [if_true, Bool.false_eq_true, if_false]
    rw [ofNat_ofSigned, Int.sub_eq_add_neg, BitVec.ofInt_add, BitVec.ofInt_neg, ha, hb, ← BitVec.sub_eq_add_neg]
  | false =>
    simp only [Bool.false_eq_true, if_false]
    rw [ofNat_ofSigned, BitVec.ofInt_add, ha, hb]

theorem addLin_fits {t : IntTy} (ht : t.w = 32) (sub : Bool) :
    LinFits (addLin sub) fun vs => addVal t sub false (nth vs 0) (nth vs 1) := by
  refine linFits_of_pair (fun ls y hy => ?_) (fun p q y hy a b k ha hb => ?_)
  · unfold addLin at hy
    split at hy
    · exact ⟨_, _, rfl⟩
    · cases hy
  · show BitVec.ofNat 32 (addVal t sub false a b) = _
    rw [ofNat_addVal ht, ha, hb]
    cases sub with
    | true => cases hy; exact linear_sub ..
    | false => cases hy; exact linear_add ..

theorem mulLin_fits : LinFits mulLin fun vs => nth vs 0 * nth vs 1 % 2 ^ 32 := by
  refine linFits_of_pair (fun ls y hy => ?_) (fun p q y hy a b k ha hb => ?_)
  · unfold mulLin at hy
    split at hy
    · exact ⟨_, _, rfl⟩
    · exact ⟨_, _, rfl⟩
    · cases hy
  · have hprod : BitVec.ofNat 32 (a * b % 2 ^ 32) = BitVec.ofNat 32 a * BitVec.ofNat 32 b := by
      apply BitVec.eq_of_toNat_eq; simp [Nat.mul_mod]
    show BitVec.ofNat 32 (a * b % 2 ^ 32) = _
    rw [hprod, ha, hb]
    obtain ⟨x, dx⟩ := p
    obtain ⟨z, dz⟩ := q
    cases dx with
    | none =>
      cases dz with
      | none => cases hy
      | some dz => cases hy; exact linear_mul_right ..
    | some dx =>
      cases dz with
      | none => cases hy; exact linear_mul_left ..
      | some dz => cases hy

/-- IADD and ISUB without saturation at 32 bits may be affine; every other form is a function of the source values (R12). -/
theorem evalAdd_wrapping {t : IntTy} (ht : t.w = 32) (sub : Bool) (d : VReg) (a b : Src) (s : State) (g : Group) (w : Mask) :
    evalAdd sub false t d a b s g w =
      affMap s g w d.val [(a, t.o), (b, t.o)] (addLin sub) fun vs => addVal t sub false (nth vs 0) (nth vs 1) := by
  unfold evalAdd
  rw [if_pos (by simp [ht])]
  rfl

theorem evalAdd_plain {t : IntTy} {sub sat : Bool} (h : t.w = 64 ∨ sat = true) (d : VReg) (a b : Src) (s : State) (g : Group) (w : Mask) :
    evalAdd sub sat t d a b s g w = intMap s g w d.val t.regs [(a, t.o), (b, t.o)] fun vs => addVal t sub sat (nth vs 0) (nth vs 1) := by
  unfold evalAdd
  rw [if_neg (by rcases h with h | h <;> simp [h])]

theorem evalMul_narrow {t : IntTy} (ht : t.w = 32) (d : VReg) (a b : Src) (s : State) (g : Group) (w : Mask) :
    evalMul t d a b s g w = affMap s g w d.val [(a, t.o), (b, t.o)] mulLin fun vs => nth vs 0 * nth vs 1 % 2 ^ 32 := by
  unfold evalMul
  rw [if_pos (by simp [ht]), ht]
  rfl

theorem evalMul_wide {t : IntTy} (ht : t.w = 64) (d : VReg) (a b : Src) (s : State) (g : Group) (w : Mask) :
    evalMul t d a b s g w = intMap s g w d.val t.regs [(a, t.o), (b, t.o)] fun vs => nth vs 0 * nth vs 1 % 2 ^ t.w := by
  unfold evalMul
  rw [if_neg (by simp [ht])]

theorem intTy_width (t : IntTy) : (t.w = 32 ∧ t.regs = 1) ∨ (t.w = 64 ∧ t.regs = 2) := by
  cases t <;> simp [IntTy.w, IntTy.regs]

/-! ## Completions -/

section
variable {s : State} {g : Group} {c : Ctl} {d : VReg} {a b : Src} {os : List Opnd} {srcs : List Src} {i : Instr}

/-- A word over its sources' values alone completes with their function (R17). -/
theorem completes_intMap {n : Nat} {xs : List (Src × OTy)} {f : List Nat → Nat} {r : Nat → Nat}
    {eval : Group → Mask → Except Trap AluOut} (hw : Writes s g c d.val n) (hx : Sources s g c xs os)
    (hi : exec i s = aluWord s c srcs eval) (he : eval g (lanesOf g c) = intMap s g (lanesOf g c) d.val n xs f)
    (hf : ∀ l, f ((valsAt g os l).map Prod.fst) = r l) :
    Completes i s g c d.val n (whole fun l => (r l, FULL)) (fun _ => srcFl os) 0 := by
  obtain ⟨g', h1, h2, h3⟩ := intMap_completes (srcs := srcs) (f := f) hw hx
  refine ⟨g', ?_, ?_, h3⟩
  · rw [hi, inIssuer (e2 := fun g w => intMap s g w d.val n xs f) hw he, h1]
  · simpa only [hf] using h2

/-- The same for a word whose meaning names that function. -/
theorem completes_intWord {n : Nat} {xs : List (Src × OTy)} {f : List Nat → Nat} (hw : Writes s g c d.val n) (hx : Sources s g c xs os)
    (hi : exec i s = aluWord s c srcs fun g w => intMap s g w d.val n xs f) :
    Completes i s g c d.val n (whole fun l => (f ((valsAt g os l).map Prod.fst), FULL)) (fun _ => srcFl os) 0 :=
  completes_intMap hw hx hi rfl fun _ => rfl

/-- So does a word that R12 rows 5 and 6 may make affine. -/
theorem completes_affMap {xs : List (Src × OTy)} {lin : List (Word × Option Word) → Option (Word × Word)} {f : List Nat → Nat}
    {r : Nat → Nat} {eval : Group → Mask → Except Trap AluOut} (hw : Writes s g c d.val 1) (hx : Sources s g c xs os)
    (hi : exec i s = aluWord s c srcs eval) (he : eval g (lanesOf g c) = affMap s g (lanesOf g c) d.val xs lin f)
    (hlin : LinFits lin f) (hf : ∀ l, f ((valsAt g os l).map Prod.fst) = r l) :
    Completes i s g c d.val 1 (whole fun l => (r l, FULL)) (fun _ => srcFl os) 0 := by
  obtain ⟨g', h1, h2, h3⟩ := affMap_completes (srcs := srcs) hw hx hlin
  refine ⟨g', ?_, ?_, h3⟩
  · rw [hi, inIssuer (e2 := fun g w => affMap s g w d.val xs lin f) hw he, h1]
  · simpa only [hf] using h2

/-- IADD and ISUB (R86). -/
theorem completes_add {t : IntTy} {sub sat : Bool} (hw : Writes s g c d.val t.regs) (hx : Sources s g c [(a, t.o), (b, t.o)] os)
    (hi : exec i s = aluWord s c srcs (evalAdd sub sat t d a b s)) :
    Completes i s g c d.val t.regs (whole fun l => (addVal t sub sat (srcVal g os l 0) (srcVal g os l 1), FULL)) (fun _ => srcFl os) 0 := by
  cases sat with
  | true => exact completes_intMap hw hx hi (evalAdd_plain (.inr rfl) ..) fun _ => rfl
  | false =>
    rcases intTy_width t with ⟨ht, hn⟩ | ⟨ht, -⟩
    · rw [hn] at hw ⊢
      exact completes_affMap hw hx hi (evalAdd_wrapping ht ..) (addLin_fits ht sub) fun _ => rfl
    · exact completes_intMap hw hx hi (evalAdd_plain (.inl ht) ..) fun _ => rfl

/-- IMUL (R86). -/
theorem completes_mul {t : IntTy} (hw : Writes s g c d.val t.regs) (hx : Sources s g c [(a, t.o), (b, t.o)] os) :
    Completes (.imul c t d a b) s g c d.val t.regs (whole fun l => (srcVal g os l 0 * srcVal g os l 1 % 2 ^ t.w, FULL))
      (fun _ => srcFl os) 0 := by
  have hi : exec (.imul c t d a b) s = aluWord s c [a, b] (evalMul t d a b s) := rfl
  rcases intTy_width t with ⟨ht, hn⟩ | ⟨ht, -⟩
  · rw [hn] at hw ⊢
    exact completes_affMap hw hx hi (evalMul_narrow ht ..) mulLin_fits fun _ => by rw [ht]
  · exact completes_intMap hw hx hi (evalMul_wide ht ..) fun _ => rfl

end

/-- Settles O1: every word is an arithmetic word over its sources' values; only the wrapping 32-bit sums, differences and products may be
affine, and their linear forms agree with the values lane by lane. -/
theorem integerResults : Obligations.IntegerResults := by
  unfold Obligations.IntegerResults
  refine ⟨fun s g c t d a b e os hw => ⟨fun hx => ⟨fun sat => ?_, fun sat => ?_, ?_, ?_, ?_, ?_⟩, fun hx => ?_⟩,
    fun s g c d a b e os sg => ⟨fun sat w64 hw hx => ⟨?_, ?_⟩, fun hw => ⟨fun hx => ?_, fun sh hx => ?_⟩⟩⟩
  · exact completes_add hw hx (i := .iadd c sat t d a b) (sub := false) rfl
  · exact completes_add hw hx (i := .isub c sat t d a b) (sub := true) rfl
  · exact completes_mul hw hx
  · exact completes_intWord hw hx (i := .imulhi c t d a b) rfl
  · exact completes_intWord hw hx (i := .imin c t d a b) rfl
  · exact completes_intWord hw hx (i := .imax c t d a b) rfl
  · exact completes_intWord hw hx (i := .imad c t d a b e) rfl
  · exact completes_intWord hw hx (i := .iabs c sat w64 d b) rfl
  · exact completes_intWord hw hx (i := .ineg c sat w64 d b) rfl
  · exact completes_intWord hw hx (i := .imadw c sg d a b e) rfl
  · exact completes_intWord hw hx (i := .addr c sg d a b sh) rfl

end Sys2Proof.Safety
end

section
/-! SUPPORT. Moves, comparisons and predicate words (R86, R87, R91), and O3. -/
namespace Sys2Proof.Safety
open Sys2Proof Sys2Proof.Machine

section
variable {s : State} {g : Group} {c : Ctl} {d : VReg} {p : Pred} {a b : Src} {os : List Opnd} {srcs : List Src} {i : Instr}

/-! ## Moves -/

/-- A register operand names as many registers as its type has (R14). -/
theorem operand_reg {w : Mask} {x : Src} {t : OTy} {r n : Nat} (h : s.operand g w x t = .ok (.reg r n)) : n = t.regs := by
  unfold State.operand at h
  split at h
  · cases h; rfl
  · cases h
  · cases h
  · split at h <;> cases h

/-- The affine value that MOV copies: that of an affine 32-bit register (R12 row 1). -/
def movAffine (g : Group) : Opnd → BitTy → Option RegVal
  | .reg r _, .b32 => (match g.view r with | .affine a c tg => some (RegVal.affine a c tg) | _ => none)
  | _, _ => none

theorem evalMov_eq {t : BitTy} {w : Mask} {o : Opnd} (h : s.operand g w b t.o = .ok o) :
    evalMov t d b s g w = aluResult g w d.val t.regs [o] false (movAffine g o t) 0 fun l => carried (o.at g l).1 (o.at g l).2 := by
  unfold evalMov
  rw [h]
  cases o <;> cases t <;> rfl

/-- The affine value of MOV is what each live lane reads of its source. -/
theorem movAffine_at {t : BitTy} {w : Mask} {o : Opnd} {v : RegVal} {l : Nat} (h : s.operand g w b t.o = .ok o)
    (hv : movAffine g o t = some v) (hl : g.live.getLsbD l = true) (h32 : l < 32) :
    t.regs = 1 ∧ v.shape = .affine ∧ v.at l (g.lane l).home = part (o.at g l) 0 := by
  cases o with
  | uni => cases hv
  | reg r n =>
    cases t with
    | b64 => cases hv
    | b32 =>
      obtain rfl := operand_reg h
      simp only [movAffine] at hv
      split at hv
      · next e =>
        cases hv
        refine ⟨rfl, rfl, ?_⟩
        have hr := read_view (r := r) hl h32 (by rw [e]; simp [RegVal.shape])
        rw [e] at hr
        simp [Opnd.at, BitTy.o, OTy.regs, BitTy.w, hr, part]
      · cases hv

/-- MOV (R86, R17). -/
theorem completes_mov {t : BitTy} {o : Opnd} (hw : Writes s g c d.val t.regs) (h : s.operand g (lanesOf g c) b t.o = .ok o) :
    Completes (.mov c t d b) s g c d.val t.regs (whole fun l => o.at g l) (fun _ => o.fl) 0 := by
  have hlive : ∀ l, Lane.mem (lanesOf g c) l → g.live.getLsbD l = true := fun l hl => live_of_writes hw.formed _ _ hl.2
  have hhead : Lane.mem (lanesOf g c) ((maskBits (lanesOf g c)).headD 0) := headD_maskBits hw.some_lane
  obtain ⟨g', h1, h2, h3⟩ := aluResult_completes (srcs := [b]) hw (evalMov_eq (d := d) h) (.inr fun _ => rfl)
    (fun hu _ l hl => by
      have hs : o.shape g = .uniform := by simpa [allUniform] using hu
      simp only [at_uniform hs (hlive l hl) hl.1 (hlive _ hhead) hhead.1])
    (fun v hv => by
      obtain ⟨hn, -, -⟩ := movAffine_at h hv (hlive _ hhead) hhead.1
      exact ⟨hn, fun l hl => (movAffine_at h hv (hlive l hl) hl.1).2.2⟩)
  exact ⟨g', h1, h2, by simpa [carried, srcFl, flNone] using h3⟩

/-! ## Predicate words -/

/-- A comparison of ready sources completes with its condition (R87, R91). -/
theorem completesPred_compare {xs : List (Src × OTy)} (f : Group → List (Nat × Tag) → Bool × FlagSet)
    (hi : Issues s g) (hlen : g.lanes.length = 32) (hw : lanesOf g c ≠ 0) (hx : Sources s g c xs os)
    (he : exec i s = aluWord s c srcs fun g w => predMap s g w p.val xs (f g)) :
    CompletesPred i s g c p.val (fun l => (f g (valsAt g os l)).1) (fun l => (f g (valsAt g os l)).2 ||| srcFl os) := by
  unfold CompletesPred
  rw [he]
  refine predResult_completes (os := os) (fl := fun l => (f g (valsAt g os l)).2) hi hlen hw ?_
  unfold predMap
  rw [show s.operands g (lanesOf g c) xs = .ok os from hx]

/-- A predicate computed from predicates (R87). -/
theorem completesPred_logic (f : Group → Nat → Bool) (hi : Issues s g) (hlen : g.lanes.length = 32) (hw : lanesOf g c ≠ 0)
    (he : exec i s = aluWord s c [] fun g w => predOnly p w (f g)) :
    CompletesPred i s g c p.val (f g) (fun _ => flNone) := by
  unfold CompletesPred
  rw [he]
  exact predResult_completes (os := []) (fl := fun _ => flNone) hi hlen hw rfl

/-- The number that CMP compares (R87): signed for `.s` types. -/
def cmpNum (t : CmpTy) (v : Nat) : Int :=
  match t with | .int .s32 => toSigned 32 v | .int .s64 => toSigned 64 v | _ => (v : Int)

/-- The conditions of CMP (R87), as propositions. -/
theorem cmpVal_eq (cc : Cc) (t : CmpTy) (x y : Nat) :
    cmpVal cc t x y = match cc with
      | .eq => decide (x = y) | .ne => decide (x ≠ y) | .lt => decide (cmpNum t x < cmpNum t y) | .le => decide (cmpNum t x ≤ cmpNum t y)
      | .gt => decide (cmpNum t y < cmpNum t x) | .ge => decide (cmpNum t y ≤ cmpNum t x)
      | .c6 => decide (x &&& y ≠ 0) | .c7 => decide (x &&& y = 0) := by
  cases cc with
  | eq | c7 => rfl
  | ne | c6 => rw [Bool.eq_iff_iff]; simp [cmpVal]
  | lt | le | gt | ge =>
    match t with
    | .bit _ | .int .s32 | .int .s64 | .int .n32 | .int .n64 => rfl

end

/-- Settles O3: a moved word is its source's, also where the register stays affine; every condition is that of R87 or R91 in the lanes of
the write set. -/
theorem moveAndPredicateResults : Obligations.MoveAndPredicateResults := by
  unfold Obligations.MoveAndPredicateResults
  refine ⟨fun s g c d => ⟨fun t b o hw ho => completes_mov hw ho, fun v hw => ⟨?_, ?_, ?_, ?_⟩⟩,
    fun s g c p os hi hlen hw => ⟨fun cc t a b hx => ?_, ?_, fun na nb x y => ⟨?_, ?_, ?_, ?_, ?_⟩, fun cc t a b hx => ?_, fun t a b hx => ?_⟩⟩
  · exact completes_intWord hw (i := .movi c .b32 d v) (xs := []) (os := []) rfl rfl
  · exact completes_intWord hw (i := .movi c .s32 d v) (xs := []) (os := []) rfl rfl
  · exact completes_intWord hw (i := .movi c .f32 d v) (xs := []) (os := []) rfl rfl
  · exact completes_intWord hw (i := .movi c .h d v) (xs := [(.reg d, oN32)]) (os := [.reg d.val 1]) rfl rfl |>.congr
      (fun _ => rfl) fun _ => by simp [srcFl, Opnd.fl, flNone]
  · exact (completesPred_compare (i := .cmp c cc t p a b)
      (fun _ vs => (cmpVal cc t (nth (vs.map Prod.fst) 0) (nth (vs.map Prod.fst) 1), flNone)) hi hlen hw hx rfl).congr
      (fun l => cmpVal_eq cc t _ _) fun l => by simp [flNone]
  · exact (completesPred_logic (i := .pmov c p 63) (fun g l => g.pred 63 l) hi hlen hw rfl).congr (fun l => rfl) fun _ => rfl
  · exact completesPred_logic (i := .pand c na nb p x y) (fun g l => (g.pred x.val l != na) && (g.pred y.val l != nb)) hi hlen hw rfl
  · exact completesPred_logic (i := .por c na nb p x y) (fun g l => (g.pred x.val l != na) || (g.pred y.val l != nb)) hi hlen hw rfl
  · exact completesPred_logic (i := .pxor c na nb p x y) (fun g l => (g.pred x.val l != na) != (g.pred y.val l != nb)) hi hlen hw rfl
  · exact completesPred_logic (i := .pnot c p x) (fun g l => !g.pred x.val l) hi hlen hw rfl
  · exact completesPred_logic (i := .pmov c p x) (fun g l => g.pred x.val l) hi hlen hw rfl
  · exact completesPred_compare (i := .fcmp c cc t p a b)
      (fun g vs => (fcmpVal cc (rdF g t.fmt vs 0).v (rdF g t.fmt vs 1).v, sigNV [(rdF g t.fmt vs 0).v, (rdF g t.fmt vs 1).v])) hi hlen hw hx rfl
  · exact (completesPred_compare (i := .fclass c t p a b)
      (fun _ vs => ((nth (vs.map Prod.fst) 1).testBit (classOf t (fdec t (nth (vs.map Prod.fst) 0))), flNone)) hi hlen hw hx rfl).congr
      (fun _ => rfl) fun l => by simp [flNone]

end Sys2Proof.Safety
end

section
/-! SUPPORT. Delivery of a trap to a group that has a handler for it (R319). -/
namespace Sys2Proof.Safety
open Sys2Proof Sys2Proof.Machine

/-- A group that is not merged has no merge to dissolve (R151). -/
theorem dissolve_none {s : State} {g : Group} (hg : s.group? g.uid = some g) (hm : g.merge = .none) : s.dissolve g.uid = s := by
  have e := group_of hg
  unfold State.dissolve
  simp only [e, hm]

theorem dissolveOf_none {s : State} {g : Group} (hg : s.group? g.uid = some g) (hm : g.merge = .none) : s.dissolveOf g.uid = s := by
  have e := group_of hg
  unfold State.dissolveOf
  simp only [e, hm]
  exact dissolve_none hg hm

/-- A live lane that is no helper stays active when helper lanes follow their anchors (R117). -/
theorem helperSync_active {g : Group} {l : Nat} (ha : g.active.getLsbD l = true) (hh : g.helper.getLsbD l = false) :
    g.helperSync.active.getLsbD l = true := by
  have h32 : l < 32 := BitVec.lt_of_getLsbD ha
  unfold Group.helperSync
  simp only [BitVec.getLsbD_or, BitVec.getLsbD_and, BitVec.getLsbD_not, ha, hh, h32, decide_true, Bool.not_false, Bool.and_self, Bool.true_or]

/-- Stopping the rejoin timer changes nothing but the timer (R158). -/
theorem stopTimer_eq (g : Group) (clk : Nat) :
    g.stopTimer clk = { g with heldSince := (g.stopTimer clk).heldSince, heldFor := (g.stopTimer clk).heldFor } := by
  unfold Group.stopTimer
  split <;> rfl

/-- The lanes that enter a trap handler: live ones that are not ejected (R319). -/
def handled (g : Group) : Mask := maskOf (laneSlots.filter fun l => g.live.getLsbD l && (g.lane l).state != .ejected)

/-- A group that has left its clause for a trap handler, its frame saved (R319). -/
def suspended (g : Group) (clk : Nat) (fr : Frame) : Group :=
  { g.stopTimer clk with
    frame := some fr, window := [], latch := [], clause := none, gate := .none, quantum := 0, readyAt := none }

/-- A group at the entry of a trap handler (R319). -/
def entered (g : Group) (clk : Nat) (fr : Frame) (h : Addr) : Group :=
  { (suspended g clk fr).modLanes (handled g) fun _ x => { x with state := .onPath, next := h, resume := none } with
    phase := .waiting, active := handled g }

theorem entered_fields (g : Group) (clk : Nat) (fr : Frame) (h : Addr) :
    entered g clk fr h =
      { g with
        lanes := (entered g clk fr h).lanes, heldSince := (entered g clk fr h).heldSince, heldFor := (entered g clk fr h).heldFor
        frame := some fr, window := [], latch := [], clause := none, gate := .none, quantum := 0, readyAt := none
        phase := .waiting, active := handled g } := by
  unfold entered suspended
  rw [stopTimer_eq g clk]
  rfl

theorem entered_lane (g : Group) (clk : Nat) (fr : Frame) (h : Addr) (l : Nat) :
    (entered g clk fr h).lane l = if l < g.lanes.length ∧ (handled g).getLsbD l = true
      then { g.lane l with state := .onPath, next := h, resume := none } else g.lane l := by
  have e := lane_modLanes (suspended g clk fr) (handled g) (fun _ x => { x with state := .onPath, next := h, resume := none }) l
  have hl : (suspended g clk fr).lanes = g.lanes := by unfold suspended; rw [stopTimer_eq g clk]
  unfold Group.lane at e ⊢
  rw [hl] at e
  exact e

/-- Delivery to a group with a handler and no handler running: the frame is saved and the group enters the handler (R319). -/
theorem deliver_eq {s : State} {g : Group} {r : TrapRecord} {kind : ReturnKind} {h : Addr} (ht : Trappable s g r.cause h) :
    ∃ fr clk, s.deliver g.uid r kind = (s.freePort g).setGroup (entered g clk fr h).helperSync ∧ fr.tr = r ∧ fr.kind = kind ∧
      fr.active = g.active ∧ fr.clause = g.clause ∧ fr.lanes = g.lanes.map fun l => (l.state, l.next, l.resume) := by
  have e := group_of ht.group
  have hp : (s.freePort g).part g.part = s.part g.part := by unfold State.part; rw [(freePort_others s g).2.2.2.2]
  have hh : (if (g.live == 0) = true then (0 : Addr) else (s.part g.part).thand.getD (r.cause - 1) 0) = h := by
    rw [if_neg (by simpa using ht.live), ht.handler]
  have hz : ¬ (h == 0) = true := by simpa using ht.some_handler
  unfold State.deliver
  simp only [dissolveOf_none ht.group ht.merge, e, Group.inHandler, ht.frame, Option.isSome_none, Bool.false_eq_true, if_false, hp, hh,
    if_neg hz]
  exact ⟨_, _, rfl, rfl, rfl, rfl, rfl, rfl⟩

/-- A trap delivered to a group that can take it gives the state of R319. -/
theorem deliver_delivered {s : State} {g : Group} {r : TrapRecord} {kind : ReturnKind} {h : Addr} (ht : Trappable s g r.cause h) :
    Delivered s (s.deliver g.uid r kind) g r kind h := by
  obtain ⟨fr, clk, e, f1, f2, f3, f4, f5⟩ := deliver_eq (kind := kind) ht
  have hke := entered_fields g clk fr h
  have hkl := entered_lane g clk fr h
  generalize entered g clk fr h = k at e hke hkl
  have hf : k.helperSync = { k with lanes := k.helperSync.lanes, active := k.helperSync.active } := rfl
  have hu : k.helperSync.uid = g.uid := by rw [hf, hke]
  refine ⟨⟨k.helperSync, fr, ?_, by rw [hf, hke], f1, f2, f3, f4, f5, by rw [hf, hke], by rw [hf, hke],
    by rw [hf, hke], by rw [hf, hke], by rw [hf, hke], by rw [hf, hke], by rw [hf, hke],
    by rw [hf, hke], fun l hlen h32 hlive hhelp hst => ?_⟩, fun u hne => ?_, ?_⟩
  · rw [e, ← hu]
    exact group?_setGroup_self (h := g) (by rw [freePort_group?, hu]; exact ht.group)
  · have hin : (handled g).getLsbD l = true := by
      unfold handled; rw [maskOf_slots h32]; simp [hlive, hst]
    have hlane : k.lane l = { g.lane l with state := .onPath, next := h, resume := none } := by
      rw [hkl, if_pos ⟨hlen, hin⟩]
    have hkh : k.helper.getLsbD l = false := by rw [hke]; exact hhelp
    have hka : k.active.getLsbD l = true := by rw [hke]; exact hin
    rw [(helperSync_spec k).2 l (by rw [hlane]; exact fun _ _ _ => nofun) hkh, hlane]
    exact ⟨helperSync_active hka hkh, rfl, rfl, rfl⟩
  · rw [e, group?_setGroup_ne (by rw [hu]; exact hne), freePort_group?]
  · rw [e]; exact (freePort_others s g).1

/-- A precise trap of the current word of a group that can take it: the word has no effect, and the record names the word (R319). -/
theorem takeTrap_delivered {s : State} {g : Group} {t : Trap} {h : Addr} (hs : g.sleeve = none) (hafter : t.after = false)
    (hc : t.cause ≠ cDATAERR) (ht : Trappable s g t.cause h) :
    Delivered s (s.takeTrap g t) { g with window := [], latch := [] } (g.record t false false g.pc) .precise h := by
  have hd : s.detect t.cause = s := by unfold State.detect; rw [if_neg (by simp [hc])]
  have hg' : (s.setGroup { g with window := [], latch := [] }).group? g.uid = some { g with window := [], latch := [] } :=
    group?_setGroup ht.group rfl
  have e : s.takeTrap g t =
      (s.setGroup { g with window := [], latch := [] }).deliver g.uid (g.record t false false g.pc) .precise := by
    unfold State.takeTrap
    simp only [hd, ht.merge, hs, hafter, Bool.false_eq_true, if_false, Bool.not_false, if_true]
  obtain ⟨d1, d2, d3⟩ := deliver_delivered (s := s.setGroup { g with window := [], latch := [] })
    (g := { g with window := [], latch := [] }) (r := g.record t false false g.pc) (kind := .precise) (h := h)
    ⟨hg', ht.merge, ht.frame, ht.live, ht.handler, ht.some_handler⟩
  rw [e]
  exact ⟨d1, fun u hu => (d2 u hu).trans (group?_setGroup_ne hu), d3⟩

end Sys2Proof.Safety
end

section
/-! SUPPORT. The shapes of results (R11 to R13): what a word leaves in registers of any capacity, and the shape-capacity trap. -/
namespace Sys2Proof.Safety
open Sys2Proof Sys2Proof.Machine

/-! ## What a word computes, before the capacity of its destination is checked -/

/-- The outcome of a word that has computed `o`: the trap of the first register that cannot take its shape, else `o` (R13, R83). -/
def fitted (g : Group) (w : Mask) (o : AluOut) : Except Trap AluOut :=
  match regTrap g w o.regs with
  | some t => .error t
  | none => .ok o

/-- A word computes the results `res` for `n` registers from `d`, each of shape `sh`, and only the capacity of a register can stop it. -/
def Computes (g : Group) (w : Mask) (d n : Nat) (sh : Shape) (res : Nat → Nat → Word × Tag) (r : Except Trap AluOut) : Prop :=
  ∃ o fl k, r = fitted g w o ∧ Gives g w d n res fl k o ∧ ∀ x, x ∈ o.regs → x.2.shape = sh

/-- The shape that Table 1.3 gives a result: that of its affine value where there is one, uniform for uniform sources of a word that does
not depend on the lane, else general. -/
def resultShape (g : Group) (os : List Opnd) (dep : Bool) (aff : Option RegVal) : Shape :=
  match aff with
  | some v => v.shape
  | none => if allUniform g os && !dep then .uniform else .general

/-- Every register of a result has the shape of its kind (R12). -/
theorem resRegs_shape {d n : Nat} {w : Mask} {u : Bool} {out : Nat → LaneOut} {x : Nat × RegVal} (h : x ∈ resRegs d n w u out) :
    x.2.shape = if u then .uniform else .general := by
  unfold resRegs at h
  cases u <;> simp only [Bool.false_eq_true, if_false, if_true, List.mem_map] at h ⊢ <;> obtain ⟨_, -, rfl⟩ := h <;> rfl

/-- A result computed for a group whose registers all have general capacity is what the same group computes with its own declaration, but for
the check of capacity; its registers have the shape of Table 1.3. -/
theorem aluResult_fitted {g : Group} {D : Decl} {w : Mask} {d n : Nat} {os : List Opnd} {dep : Bool} {aff : Option RegVal} {k : Nat}
    {out : Nat → LaneOut} {o : AluOut} (h : aluResult { g with decl := D } w d n os dep aff k out = .ok o) :
    aluResult g w d n os dep aff k out = fitted g w o ∧ ∀ x, x ∈ o.regs → x.2.shape = resultShape g os dep aff := by
  have hu : allUniform { g with decl := D } os = allUniform g os := rfl
  have hs : ∀ out, sigLoss { g with decl := D } w out = sigLoss g w out := fun _ => rfl
  unfold aluResult at h ⊢
  simp only [hu, hs] at h
  split at h
  · cases h
  · next hsig =>
    split at h
    · cases h
    · cases h
      refine ⟨?_, fun x hx => ?_⟩
      · simp only [hsig]; rfl
      · cases aff with
        | some v => obtain rfl := List.mem_singleton.1 hx; rfl
        | none => exact resRegs_shape hx

/-- The general form of a word of one result: `aluResult` computes its lane results, whatever the capacity of the destination. -/
theorem aluResult_computes {g : Group} {w : Mask} {d n : Nat} {os : List Opnd} {dep : Bool} {aff : Option RegVal} {k : Nat}
    {out : Nat → LaneOut} (hs : g.sigte = false ∨ ∀ l, (out l).sig = none)
    (hu : allUniform g os = true → dep = false → ∀ l, Lane.mem w l → out l = out ((maskBits w).headD 0))
    (ha : ∀ v, aff = some v → n = 1 ∧ ∀ l, Lane.mem w l → v.at l (g.lane l).home = part ((out l).val, (out l).tag) 0) :
    Computes g w d n (resultShape g os dep aff) (whole fun l => ((out l).val, (out l).tag)) (aluResult g w d n os dep aff k out) := by
  obtain ⟨o, ho, hg⟩ := aluResult_gives (g := { g with decl := ⟨d + n, 0, 0⟩ }) (k := k) (Nat.le_refl _) hs hu ha
  obtain ⟨h1, h2⟩ := aluResult_fitted ho
  exact ⟨o, _, _, h1, ⟨hg.regs, hg.vals, hg.pred, hg.fl, hg.draws⟩, h2⟩

/-! ## The check of capacity -/

/-- The first of consecutive numbers with a value. -/
theorem findSome?_upFrom {β : Type} {f : Nat → Option β} {y : β} {d n k : Nat} (hk : k < n) (hy : f (d + k) = some y)
    (h : ∀ j, j < k → f (d + j) = none) : (upFrom d n).findSome? f = some y := by
  induction k generalizing d n with
  | zero =>
    obtain ⟨m, rfl⟩ : ∃ m, n = m + 1 := ⟨n - 1, by omega⟩
    simp only [upFrom, List.findSome?_cons, show f d = some y from hy]
  | succ k ih =>
    obtain ⟨m, rfl⟩ : ∃ m, n = m + 1 := ⟨n - 1, by omega⟩
    simp only [upFrom, List.findSome?_cons, show f d = none from h 0 (by omega)]
    exact ih (by omega) (by rw [← hy]; congr 1; omega) fun j hj => by rw [← h (j + 1) (by omega)]; congr 1; omega

/-- The trap of a register that cannot hold a shape (R13). -/
def capacityTrap (g : Group) (taken : Shape) (r : Nat) : Option Trap :=
  if (g.decl.capacity r).rank < taken.rank then some (trapOf cILLEGAL 0x10 g.active (BitVec.ofNat 32 r)) else none

/-- Where every register of a result has one shape, its trap is that of the first register too narrow for it (R83). -/
theorem regTrap_eq {g : Group} {w : Mask} {rs : List (Nat × RegVal)} {d n : Nat} {sh : Shape} (hw : w ≠ 0)
    (hn : rs.map Prod.fst = upFrom d n) (hsh : ∀ x, x ∈ rs → x.2.shape = sh) :
    regTrap g w rs = (upFrom d n).findSome? (capacityTrap g (g.shapeOf w sh)) := by
  have hz : ¬ (w == 0) = true := by simpa using hw
  have key : ∀ l : List (Nat × RegVal), (∀ x, x ∈ l → x.2.shape = sh) →
      l.findSome? (fun x => g.writable x.1 w x.2.shape) = (l.map Prod.fst).findSome? (capacityTrap g (g.shapeOf w sh)) := by
    intro l
    induction l with
    | nil => intro _; rfl
    | cons x xs ih =>
      intro h
      have hx : g.writable x.1 w x.2.shape = capacityTrap g (g.shapeOf w sh) x.1 := by
        unfold Group.writable; rw [if_neg hz, h x List.mem_cons_self]; rfl
      rw [List.map_cons, List.findSome?_cons, List.findSome?_cons, hx, ih fun y hy => h y (List.mem_cons_of_mem _ hy)]
  rw [← hn]
  exact key rs hsh

/-- The shape that a write takes is that of R13. -/
theorem shapeOf_taken {g : Group} {c : Ctl} {sh taken : Shape} (hm : g.merge = .none) (h : ShapeTaken g c sh taken) :
    g.shapeOf (lanesOf g c) sh = taken := by
  obtain ⟨hall, hpart⟩ := h
  have hc : g.covers (lanesOf g c) = (g.sleeve.isNone && g.live &&& ~~~(lanesOf g c) == 0) := by
    unfold Group.covers; rw [hm, Bool.and_true]
  unfold Group.shapeOf
  rw [hc]
  split
  · next hcov =>
    simp only [Bool.and_eq_true, Option.isNone_iff_eq_none, beq_iff_eq] at hcov
    refine (hall ⟨hcov.1, fun l hl => ⟨hl.1, ?_⟩⟩).symm
    have := congrArg (fun m : Mask => m.getLsbD l) hcov.2
    simpa [hl.1, hl.2] using this
  · next hcov =>
    refine (hpart ?_).symm
    refine Classical.byContradiction fun hno => ?_
    simp only [not_or, not_exists, not_and, Classical.not_not, Option.isSome_iff_ne_none, ne_eq] at hno
    apply hcov
    simp only [hno.1, Option.isNone_none, Bool.true_and, beq_iff_eq]
    apply BitVec.eq_of_getLsbD_eq
    intro l hl
    cases e : g.live.getLsbD l with
    | false => simp [e]
    | true => simp [e, hl, (hno.2 l ⟨hl, e⟩).2]

/-! ## The registers that a word leaves -/

/-- A register takes by a write the shape of R13. -/
theorem merged_shape (g : Group) (r : Nat) (w : Mask) (v : RegVal) : (g.merged r w v).shape = g.shapeOf w v.shape := by
  unfold Group.merged Group.shapeOf
  split
  · cases v <;> rfl
  · rfl

/-- Committing register results without `.tr` stores each of them (R82). -/
theorem commit_reg {g : Group} {w : Mask} {d n i : Nat} {o : AluOut} {v : RegVal} (hw : w ≠ 0) (hp : o.pred = none)
    (hn : o.regs.map Prod.fst = upFrom d n) (hlen : d + n ≤ g.v.length) (hi : i < n) (hv : (d + i, v) ∈ o.regs) :
    (g.commit false w o).reg (d + i) = g.merged (d + i) w v := by
  obtain ⟨-, -, hput, -, -⟩ := put_fold (g.issued [] g.latch) w hw o.regs d n hn hlen
  have hraise : ∀ h : Group, (h.raiseAll w o.fl).v = h.v := fun h => by rw [(raiseAll_frame h w o.fl).1]
  have hc : (g.commit false w o).v = (o.regs.foldl (fun g x => g.put x.1 w x.2) (g.issued [] g.latch)).v := by
    unfold Group.commit
    simp only [hp, Bool.false_eq_true, if_false]
    split <;> exact hraise _
  unfold Group.reg at hput ⊢
  rw [hc]
  exact hput i v hi hv

/-- The state after a word that has been evaluated: its results are committed and the next word follows, or its trap is taken (R82). -/
def finished (s : State) (g : Group) (w : Mask) (latch : List (Nat × Nat)) : Except Trap AluOut → State
  | .error t => s.takeTrap g t
  | .ok o => s.nextWord { g.commit false w o with latch := latch }

/-- The word `i` of `g` gives `res` with shape `sh` to `n` registers from `d`, or takes the shape-capacity trap (R11 to R13). -/
def GivesShape (s : State) (g : Group) (c : Ctl) (d : Nat) (i : Instr) (n : Nat) (sh : Shape) (res : Nat → Nat → Word × Tag) : Prop :=
  ∀ taken, ShapeTaken g c sh taken → d + n ≤ g.decl.total →
    ((∀ k, k < n → taken.rank ≤ (g.decl.capacity (d + k)).rank) →
      ∃ g', exec i s = .next (s.nextWord g') ∧ Wrote g g' false (lanesOf g c) d n res ∧ ∀ k, k < n → (g'.reg (d + k)).shape = taken) ∧
    (∀ k h, k < n → (g.decl.capacity (d + k)).rank < taken.rank → (∀ j, j < k → taken.rank ≤ (g.decl.capacity (d + j)).rank) →
      g.sleeve = none → Trappable s g cILLEGAL h →
      ∃ t, exec i s = .next t ∧
        Delivered s t { g with window := [], latch := [] }
          (g.record (trapOf cILLEGAL 0x10 g.active (BitVec.ofNat 32 (d + k))) false false g.pc) .precise h)

/-- A word whose evaluation only the capacity of a register can stop gives its results with their shape, or takes the trap. -/
theorem givesShape_of_computes {s : State} {g : Group} {c : Ctl} {d n : Nat} {i : Instr} {sh : Shape} {res : Nat → Nat → Word × Tag}
    {r : Except Trap AluOut} {latch : List (Nat × Nat)} (hf : Formed g) (hw : lanesOf g c ≠ 0) (hm : g.merge = .none)
    (hi : exec i s = .next (finished s g (lanesOf g c) latch r)) (hr : Computes g (lanesOf g c) d n sh res r) :
    GivesShape s g c d i n sh res := by
  intro taken htaken htotal
  obtain ⟨o, fl, k, rfl, ho, hsh⟩ := hr
  have hlen : d + n ≤ g.v.length := by rw [hf.regs]; exact htotal
  have htrap : regTrap g (lanesOf g c) o.regs = (upFrom d n).findSome? (capacityTrap g taken) := by
    rw [regTrap_eq hw ho.regs hsh, shapeOf_taken hm htaken]
  refine ⟨fun hcap => ?_, fun k h hk hnarrow hbefore hs ht => ?_⟩
  · have hnone : regTrap g (lanesOf g c) o.regs = none := by
      rw [htrap, List.findSome?_eq_none_iff]
      intro r hr
      obtain ⟨h1, h2⟩ := mem_upFrom.1 hr
      have := hcap (r - d) (by omega)
      rw [Nat.add_sub_cancel' h1] at this
      exact if_neg (by omega)
    refine ⟨{ g.commit false (lanesOf g c) o with latch := latch }, ?_, (commit_wrote _ hw ho hlen hf.lanes).1, fun k hk => ?_⟩
    · rw [hi]; unfold fitted; rw [hnone]; rfl
    · obtain ⟨v, hv⟩ := regs_find ho.regs hk
      have := congrArg RegVal.shape (commit_reg (g := g) hw ho.pred ho.regs hlen hk hv)
      rw [merged_shape, hsh _ hv, shapeOf_taken hm htaken] at this
      exact this
  · have hsome : regTrap g (lanesOf g c) o.regs = some (trapOf cILLEGAL 0x10 g.active (BitVec.ofNat 32 (d + k))) := by
      rw [htrap]
      exact findSome?_upFrom hk (if_pos hnarrow) fun j hj => if_neg (by have := hbefore j hj; omega)
    refine ⟨_, ?_, takeTrap_delivered (t := trapOf cILLEGAL 0x10 g.active (BitVec.ofNat 32 (d + k))) hs rfl
      (show cILLEGAL ≠ cDATAERR by decide) ht⟩
    rw [hi]; unfold fitted; rw [hsome]; rfl

/-! ## Words of one result -/

/-- An arithmetic word evaluates its results once and ends with them (R82). -/
theorem aluWord_finished {s : State} {g : Group} {c : Ctl} {srcs : List Src} {eval : Group → Mask → Except Trap AluOut}
    (hi : Issues s g) (hw : lanesOf g c ≠ 0) (htr : c.tr = false) :
    aluWord s c srcs eval = .next (finished s g (lanesOf g c) (latchOf c srcs) (eval g (lanesOf g c))) := by
  have hz : ¬ (g.writeSet c.gp.val c.gn == 0) = true := by simpa using hw
  unfold aluWord finished
  rw [issuer hi]
  cases he : eval g (g.writeSet c.gp.val c.gn) <;> simp only [if_neg hz, htr, he]

/-- So does a cross-lane word of a group that is neither merged nor an ejected lane (Table 5.7). -/
theorem crossWord_finished {s : State} {g : Group} {c : Ctl} {srcs : List Src} {eval : State → Group → Mask → Except Trap AluOut}
    (hi : Issues s g) (hw : lanesOf g c ≠ 0) (hm : g.merge = .none) (hs : g.sleeve = none) :
    crossWord s c srcs eval = .next (finished s g (lanesOf g c) (latchOf c srcs) (eval s g (lanesOf g c))) := by
  have hz : ¬ (g.writeSet c.gp.val c.gn == 0) = true := by simpa using hw
  unfold crossWord State.dissolving finished
  rw [issuer hi]
  cases he : eval s g (g.writeSet c.gp.val c.gn) <;>
    simp only [hs, Option.isSome_none, Bool.and_false, Bool.false_eq_true, if_false, dissolve_none hi.group hm, group_of hi.group, if_neg hz, he]

end Sys2Proof.Safety
end

section
/-! SUPPORT. The shapes of Table 1.3, word by word, and O11. -/
namespace Sys2Proof.Safety
open Sys2Proof Sys2Proof.Machine

/-! ## Table 1.3 as a function of the source shapes -/

/-- The shape of a wrapping 32-bit sum or difference (R12 row 5). -/
def sumShape : Shape → Shape → Shape
  | .uniform, .uniform => .uniform
  | .general, _ | _, .general => .general
  | _, _ => .affine

/-- The shape of a 32-bit product (R12 row 6). -/
def productShape : Shape → Shape → Shape
  | .uniform, .uniform => .uniform
  | .affine, .uniform | .uniform, .affine => .affine
  | _, _ => .general

/-- The shape of a 32-bit value shifted left (R12 row 6). -/
def shiftShape : Shape → Shape → Shape
  | .uniform, .uniform => .uniform
  | .affine, .uniform => .affine
  | _, _ => .general

/-- The base and stride of a value shifted left by a uniform amount (R12 row 6). -/
def shlLin : List (Word × Option Word) → Option (Word × Word)
  | [(x, some d), (y, none)] =>
    some (BitVec.ofNat 32 (shiftVal .shl 32 x.toNat y.toNat), BitVec.ofNat 32 (shiftVal .shl 32 d.toNat y.toNat))
  | _ => none

/-- A left shift is a product by a power of two, or 0 (R86). -/
theorem ofNat_shl (a b : Nat) :
    BitVec.ofNat 32 (shiftVal .shl 32 a b) = BitVec.ofNat 32 a * if 32 ≤ b % 256 then 0 else BitVec.ofNat 32 (2 ^ (b % 256)) := by
  show BitVec.ofNat 32 (if 32 ≤ b % 256 then 0 else a * 2 ^ (b % 256) % 2 ^ 32) = _
  split
  · simp
  · apply BitVec.eq_of_toNat_eq
    simp only [BitVec.toNat_mul, BitVec.toNat_ofNat, Nat.mod_mod, ← Nat.mul_mod]

theorem shlLin_fits : LinFits shlLin fun vs => shiftVal .shl 32 (nth vs 0) (nth vs 1) := by
  refine linFits_of_pair (fun ls y hy => ?_) (fun p q y hy a b k ha hb => ?_)
  · unfold shlLin at hy
    split at hy
    · exact ⟨_, _, rfl⟩
    · cases hy
  · show BitVec.ofNat 32 (shiftVal .shl 32 a b) = _
    obtain ⟨x, dx⟩ := p
    obtain ⟨z, dz⟩ := q
    cases dx <;> cases dz <;> cases hy
    next d =>
    have hcount : z.toNat % 256 = b % 256 := by
      have hz : BitVec.ofNat 32 b = z := by rw [hb]; simp
      rw [← hz, BitVec.toNat_ofNat]
      omega
    simp only [ofNat_shl, hcount, ha, BitVec.ofNat_toNat, BitVec.setWidth_eq, Option.getD_some]
    rw [BitVec.add_mul, BitVec.mul_assoc]

theorem evalShl_eq (d : VReg) (a b : Src) (s : State) (g : Group) (w : Mask) :
    evalShift .shl .b32 d a b s g w =
      affMap s g w d.val [(a, .int 32 false), (b, .int 32 false)] shlLin fun vs => shiftVal .shl 32 (nth vs 0) (nth vs 1) := rfl

/-- A source of one register. -/
def OneReg (o : Opnd) : Prop := ∀ r n, o = .reg r n → n = 1

/-- The shape of a source of one register is that of its linear form (R12). -/
theorem shape_linear {g : Group} {o : Opnd} (h : OneReg o) :
    o.shape g = match o.linear g with | none => .general | some (_, none) => .uniform | some (_, some _) => .affine := by
  cases o with
  | uni v t f => rfl
  | reg r n =>
    obtain rfl := h r n rfl
    simp only [Opnd.shape, Opnd.linear, beq_self_eq_true, if_true]
    cases g.view r <;> rfl

/-- The affine value of a word over linear sources, where its form has one (R12 rows 5 and 6). -/
def affineOf (g : Group) (os : List Opnd) (lin : List (Word × Option Word) → Option (Word × Word)) : Option RegVal :=
  let ls := os.filterMap (Opnd.linear g)
  if ls.length == os.length && os.any (fun o => o.shape g == .affine) then (lin ls).map fun x => RegVal.affine x.1 x.2 FULL else none

/-- The affine value of two sources: that of the form, when both are linear and one of them is affine. -/
theorem affineOf_some {g : Group} {oa ob : Opnd} {lin : List (Word × Option Word) → Option (Word × Word)} {v : RegVal}
    (h : affineOf g [oa, ob] lin = some v) :
    ∃ p q y, oa.linear g = some p ∧ ob.linear g = some q ∧ lin [p, q] = some y ∧ v = .affine y.1 y.2 FULL := by
  unfold affineOf at h
  cases hp : oa.linear g with
  | none => cases hq : ob.linear g <;> simp [hp, hq] at h
  | some p =>
    cases hq : ob.linear g with
    | none => simp [hp, hq] at h
    | some q =>
      simp only [List.filterMap_cons, hp, hq, List.filterMap_nil] at h
      split at h
      · obtain ⟨y, hy, rfl⟩ := Option.map_eq_some_iff.1 h
        exact ⟨p, q, y, rfl, rfl, hy, rfl⟩
      · cases h

/-- The affine value of a word is what each live lane computes (R11). -/
theorem affineOf_at {g : Group} {oa ob : Opnd} {lin : List (Word × Option Word) → Option (Word × Word)} {f : List Nat → Nat} {v : RegVal}
    {l : Nat} (hfit : LinFits lin f) (h : affineOf g [oa, ob] lin = some v) (hl : g.live.getLsbD l = true) (h32 : l < 32) :
    v.at l (g.lane l).home = part (f [(oa.at g l).1, (ob.at g l).1], FULL) 0 := by
  obtain ⟨p, q, y, hp, hq, hy, rfl⟩ := affineOf_some h
  have := hfit [p, q] y hy [(oa.at g l).1, (ob.at g l).1] (BitVec.ofNat 32 (g.lane l).home)
    (by simp only [List.map_cons, List.map_nil, linear_at hp hl h32, linear_at hq hl h32])
  simp only [RegVal.at, part, Nat.mul_zero, Nat.pow_zero, Nat.div_one, this]

/-- A word over two sources of one register takes the shape that its form gives their shapes. -/
theorem resultShape_pair {g : Group} {oa ob : Opnd} {lin : List (Word × Option Word) → Option (Word × Word)} {table : Shape → Shape → Shape}
    (ha : OneReg oa) (hb : OneReg ob)
    (huu : table .uniform .uniform = .uniform)
    (hg : ∀ x, table .general x = .general ∧ table x .general = .general)
    (haa : ∀ x y dx dy, table .affine .affine = if (lin [(x, some dx), (y, some dy)]).isSome then .affine else .general)
    (hau : ∀ x y dx, table .affine .uniform = if (lin [(x, some dx), (y, none)]).isSome then .affine else .general)
    (hua : ∀ x y dy, table .uniform .affine = if (lin [(x, none), (y, some dy)]).isSome then .affine else .general) :
    resultShape g [oa, ob] false (affineOf g [oa, ob] lin) = table (oa.shape g) (ob.shape g) := by
  have hsa := shape_linear (g := g) ha
  have hsb := shape_linear (g := g) hb
  unfold resultShape affineOf allUniform
  cases hp : oa.linear g with
  | none =>
    rw [hp] at hsa
    cases hq : ob.linear g <;> simp [hp, hq, hsa, (hg _).1]
  | some p =>
    cases hq : ob.linear g with
    | none =>
      rw [hq] at hsb
      simp [hp, hq, hsb, (hg _).2]
    | some q =>
      obtain ⟨x, dx⟩ := p
      obtain ⟨y, dy⟩ := q
      rw [hp] at hsa
      rw [hq] at hsb
      cases dx with
      | none =>
        cases dy with
        | none => simp [hp, hq, hsa, hsb, huu]
        | some dy => cases hl : lin [(x, none), (y, some dy)] <;> simp [hp, hq, hsa, hsb, hl, hua x y dy, RegVal.shape]
      | some dx =>
        cases dy with
        | none => cases hl : lin [(x, some dx), (y, none)] <;> simp [hp, hq, hsa, hsb, hl, hau x y dx, RegVal.shape]
        | some dy => cases hl : lin [(x, some dx), (y, some dy)] <;> simp [hp, hq, hsa, hsb, hl, haa x y dx dy, RegVal.shape]

theorem addLin_shape {g : Group} {oa ob : Opnd} (ha : OneReg oa) (hb : OneReg ob) (sub : Bool) :
    resultShape g [oa, ob] false (affineOf g [oa, ob] (addLin sub)) = sumShape (oa.shape g) (ob.shape g) :=
  resultShape_pair ha hb rfl (fun x => by cases x <;> exact ⟨rfl, rfl⟩) (fun _ _ _ _ => rfl) (fun _ _ _ => rfl) fun _ _ _ => rfl

theorem mulLin_shape {g : Group} {oa ob : Opnd} (ha : OneReg oa) (hb : OneReg ob) :
    resultShape g [oa, ob] false (affineOf g [oa, ob] mulLin) = productShape (oa.shape g) (ob.shape g) :=
  resultShape_pair ha hb rfl (fun x => by cases x <;> exact ⟨rfl, rfl⟩) (fun _ _ _ _ => rfl) (fun _ _ _ => rfl) fun _ _ _ => rfl

theorem shlLin_shape {g : Group} {oa ob : Opnd} (ha : OneReg oa) (hb : OneReg ob) :
    resultShape g [oa, ob] false (affineOf g [oa, ob] shlLin) = shiftShape (oa.shape g) (ob.shape g) :=
  resultShape_pair ha hb rfl (fun x => by cases x <;> exact ⟨rfl, rfl⟩) (fun _ _ _ _ => rfl) (fun _ _ _ => rfl) fun _ _ _ => rfl

/-- The shape of MOV at 32 bits is its source's (R12 row 1). -/
theorem movAffine_shape {s : State} {g : Group} {w : Mask} {b : Src} {o : Opnd} (h : s.operand g w b BitTy.b32.o = .ok o) :
    resultShape g [o] false (movAffine g o .b32) = o.shape g := by
  cases o with
  | uni => rfl
  | reg r n =>
    obtain rfl := operand_reg h
    show resultShape g [.reg r 1] false (match g.view r with | .affine a c tg => some (RegVal.affine a c tg) | _ => none) = (g.view r).shape
    cases e : g.view r <;> simp [resultShape, allUniform, Opnd.shape, e, RegVal.shape]

/-! ## What the words of a group compute -/

/-- The word of a group that is not merged acts in some lane and stores its results (R34). -/
structure Acts (s : State) (g : Group) (c : Ctl) : Prop where
  issues : Issues s g
  formed : Formed g
  some_lane : lanesOf g c ≠ 0
  merge : g.merge = .none
  tr : c.tr = false

section
variable {s : State} {g : Group} {c : Ctl} {d : Nat} {n : Nat} {os : List Opnd} {oa ob : Opnd} {srcs : List Src} {i : Instr}
  {xs : List (Src × OTy)} {sh : Shape} {res : Nat → Nat → Word × Tag} {eval : Group → Mask → Except Trap AluOut}

theorem Acts.live (h : Acts s g c) {l : Nat} (hl : Lane.mem (lanesOf g c) l) : g.live.getLsbD l = true :=
  live_of_writes h.formed _ _ hl.2

theorem Acts.head (h : Acts s g c) : Lane.mem (lanesOf g c) ((maskBits (lanesOf g c)).headD 0) := headD_maskBits h.some_lane

/-- Uniform sources read alike in every lane that the word acts in (R12 row 3). -/
theorem Acts.vals (h : Acts s g c) (hu : allUniform g os = true) {l : Nat} (hl : Lane.mem (lanesOf g c) l) :
    valsAt g os l = valsAt g os ((maskBits (lanesOf g c)).headD 0) :=
  vals_uniform hu (h.live hl) hl.1 (h.live h.head) h.head.1

/-- An arithmetic word gives what it computes, with its shape. -/
theorem Acts.givesShape (h : Acts s g c) (hi : exec i s = aluWord s c srcs eval) (hr : Computes g (lanesOf g c) d n sh res (eval g (lanesOf g c))) :
    GivesShape s g c d i n sh res :=
  givesShape_of_computes h.formed h.some_lane h.merge (hi.trans (aluWord_finished h.issues h.some_lane h.tr)) hr

/-- A word over ready sources takes its shape from theirs, and is general where it depends on the lane (R12 row 3). -/
theorem aluMap_computes {dep : Bool} {k : Nat} {f : Nat → List (Nat × Tag) → LaneOut} (h : Acts s g c) (hx : Sources s g c xs os)
    (hs : g.sigte = false ∨ ∀ l vs, (f l vs).sig = none) (hf : dep = false → ∀ l l' vs, f l vs = f l' vs) :
    Computes g (lanesOf g c) d n (resultShape g os dep none) (whole fun l => ((f l (valsAt g os l)).val, (f l (valsAt g os l)).tag))
      (aluMap s g (lanesOf g c) d n xs dep k f) := by
  have e : aluMap s g (lanesOf g c) d n xs dep k f = aluResult g (lanesOf g c) d n os dep none k fun l => f l (valsAt g os l) := by
    unfold aluMap; rw [show s.operands g (lanesOf g c) xs = .ok os from hx]
  rw [e]
  refine aluResult_computes (hs.imp id fun h l => h l _) (fun hu hd l hl => ?_) nofun
  rw [h.vals hu hl, hf hd l]

/-- A word over its sources' values alone is uniform for uniform sources, else general (R12 row 3). -/
theorem intMap_computes {f : List Nat → Nat} (h : Acts s g c) (hx : Sources s g c xs os) :
    Computes g (lanesOf g c) d n (resultShape g os false none) (whole fun l => (f ((valsAt g os l).map Prod.fst), FULL))
      (intMap s g (lanesOf g c) d n xs f) :=
  aluMap_computes (f := fun _ vs => plainOut (f (vs.map Prod.fst))) h hx (.inr fun _ _ => rfl) fun _ _ _ _ => rfl

/-- A word over two sources that may be affine takes the shape of its linear form (R12 rows 5 and 6). -/
theorem affMap_computes {lin : List (Word × Option Word) → Option (Word × Word)} {f : List Nat → Nat} (h : Acts s g c)
    (hx : Sources s g c xs [oa, ob]) (hfit : LinFits lin f) :
    Computes g (lanesOf g c) d 1 (resultShape g [oa, ob] false (affineOf g [oa, ob] lin))
      (whole fun l => (f [(oa.at g l).1, (ob.at g l).1], FULL)) (affMap s g (lanesOf g c) d xs lin f) := by
  have e : affMap s g (lanesOf g c) d xs lin f =
      aluResult g (lanesOf g c) d 1 [oa, ob] false (affineOf g [oa, ob] lin) 0 fun l => plainOut (f [(oa.at g l).1, (ob.at g l).1]) := by
    unfold affMap; rw [show s.operands g (lanesOf g c) xs = .ok [oa, ob] from hx]; rfl
  rw [e]
  refine aluResult_computes (.inr fun _ => rfl) (fun hu _ l hl => ?_) fun v hv => ⟨rfl, fun l hl => affineOf_at hfit hv (h.live hl) hl.1⟩
  have := h.vals hu hl
  simp only [valsAt, List.map_cons, List.map_nil, List.cons.injEq, and_true] at this
  rw [this.1, this.2]

/-- A result that depends on the lane, and is not affine, is general. -/
theorem resultShape_dep (g : Group) (os : List Opnd) : resultShape g os true none = .general := by simp [resultShape]

theorem allUniform_iff : allUniform g os = true ↔ ∀ o, o ∈ os → o.shape g = .uniform := by
  simp [allUniform]

/-- A word whose shape is decided by its sources alone: uniform when all of them are, else general. -/
theorem uniform_or_general {P : Shape → Prop} (h : P (resultShape g os false none)) :
    ((∀ o, o ∈ os → o.shape g = .uniform) → P .uniform) ∧ ((¬ ∀ o, o ∈ os → o.shape g = .uniform) → P .general) := by
  refine ⟨fun hu => ?_, fun hu => ?_⟩
  · simpa [resultShape, allUniform_iff.2 hu] using h
  · have : allUniform g os = false := by rw [← Bool.not_eq_true, allUniform_iff]; exact hu
    simpa [resultShape, this] using h

/-- Two sources give two operands. -/
theorem sources_pair {x y : Src × OTy} (hx : Sources s g c [x, y] os) : ∃ oa ob, os = [oa, ob] := by
  match os, sources_length hx with
  | [oa, ob], _ => exact ⟨oa, ob, rfl⟩

theorem forall_pair {P : Opnd → Prop} : (∀ o, o ∈ [oa, ob] → P o) ↔ P oa ∧ P ob := by simp

/-- The rows of R12 for a sum: uniform for uniform sources, affine for other linear ones, else general. -/
theorem sumShape_cases {P : Shape → Prop} (h : P (sumShape (oa.shape g) (ob.shape g))) :
    ((∀ o, o ∈ [oa, ob] → o.shape g = .uniform) → P .uniform) ∧
    ((¬ ∀ o, o ∈ [oa, ob] → o.shape g = .uniform) → (∀ o, o ∈ [oa, ob] → o.shape g ≠ .general) → P .affine) ∧
    ((¬ ∀ o, o ∈ [oa, ob] → o.shape g ≠ .general) → P .general) := by
  simp only [forall_pair]
  generalize oa.shape g = x at h
  generalize ob.shape g = y at h
  cases x <;> cases y <;> simpa [sumShape] using h

/-- The rows of R12 for a product: of linear sources it is affine when just one of them is. -/
theorem productShape_cases {P : Shape → Prop} (h : P (productShape (oa.shape g) (ob.shape g))) :
    ((∀ o, o ∈ [oa, ob] → o.shape g = .uniform) → P .uniform) ∧
    ((¬ ∀ o, o ∈ [oa, ob] → o.shape g = .uniform) → (∀ o, o ∈ [oa, ob] → o.shape g ≠ .general) →
      ((∃ o, o ∈ [oa, ob] ∧ o.shape g = .uniform) → P .affine) ∧ ((∀ o, o ∈ [oa, ob] → o.shape g ≠ .uniform) → P .general)) ∧
    ((¬ ∀ o, o ∈ [oa, ob] → o.shape g ≠ .general) → P .general) := by
  have hex : (∃ o, o ∈ [oa, ob] ∧ o.shape g = .uniform) ↔ oa.shape g = .uniform ∨ ob.shape g = .uniform := by simp
  simp only [forall_pair, hex]
  generalize oa.shape g = x at h
  generalize ob.shape g = y at h
  cases x <;> cases y <;> simpa [productShape] using h

/-- The rows of R12 for a left shift: affine for an affine value and a uniform amount. -/
theorem shiftShape_cases {P : Shape → Prop} (h : P (shiftShape (oa.shape g) (ob.shape g))) :
    ((∀ o, o ∈ [oa, ob] → o.shape g = .uniform) → P .uniform) ∧ (oa.shape g = .affine → ob.shape g = .uniform → P .affine) ∧
    (oa.shape g = .general ∨ ob.shape g ≠ .uniform → P .general) := by
  simp only [forall_pair]
  generalize oa.shape g = x at h
  generalize ob.shape g = y at h
  cases x <;> cases y <;> simpa [shiftShape] using h

/-- A word over its sources' values alone has one of two shapes (R12 row 3). -/
theorem Acts.givesShape_int {f : List Nat → Nat} (h : Acts s g c) (hx : Sources s g c xs os) (hi : exec i s = aluWord s c srcs eval)
    (he : eval g (lanesOf g c) = intMap s g (lanesOf g c) d n xs f) :
    ((∀ o, o ∈ os → o.shape g = .uniform) → GivesShape s g c d i n .uniform (whole fun l => (f ((valsAt g os l).map Prod.fst), FULL))) ∧
    ((¬ ∀ o, o ∈ os → o.shape g = .uniform) → GivesShape s g c d i n .general (whole fun l => (f ((valsAt g os l).map Prod.fst), FULL))) :=
  uniform_or_general (P := fun sh => GivesShape s g c d i n sh (whole fun l => (f ((valsAt g os l).map Prod.fst), FULL)))
    (h.givesShape hi (by rw [he]; exact intMap_computes h hx))

/-- A word whose result depends on the lane is general (R12 row 7). -/
theorem Acts.givesShape_lanewise {k : Nat} (f : Group → Nat → List (Nat × Tag) → LaneOut) (h : Acts s g c)
    (hx : Sources s g c xs os) (hi : exec i s = aluWord s c srcs fun g w => aluMap s g w d n xs true k (f g))
    (hs : ∀ l vs, (f g l vs).sig = none) :
    GivesShape s g c d i n .general (whole fun l => ((f g l (valsAt g os l)).val, (f g l (valsAt g os l)).tag)) := by
  have hr := aluMap_computes (d := d) (n := n) (dep := true) (k := k) h hx (.inr hs) nofun
  rw [resultShape_dep] at hr
  exact h.givesShape hi hr

/-- A source read at 32 bits is one register, or one value (R14). -/
theorem oneReg_of_sources {a b : Src} {sa sb : Bool} (hx : Sources s g c [(a, .int 32 sa), (b, .int 32 sb)] [oa, ob]) :
    OneReg oa ∧ OneReg ob := by
  have := collect_at hx
  simp only [List.map_cons, List.map_nil, List.cons.injEq, and_true] at this
  exact ⟨fun r n e => operand_reg (this.1.trans (by rw [e])), fun r n e => operand_reg (this.2.trans (by rw [e]))⟩

end

section
variable {s : State} {g : Group} {c : Ctl} {d : VReg} {os : List Opnd} {oa ob : Opnd} {a b : Src} {i : Instr}

/-- The shapes of wrapping 32-bit IADD and ISUB (R12 row 5). -/
theorem givesShape_add {t : IntTy} {sub : Bool} (h : Acts s g c) (ht : t.w = 32) (hx : Sources s g c [(a, t.o), (b, t.o)] [oa, ob])
    (hi : exec i s = aluWord s c [a, b] (evalAdd sub false t d a b s)) :
    GivesShape s g c d.val i 1 (sumShape (oa.shape g) (ob.shape g))
      (whole fun l => (addVal t sub false (oa.at g l).1 (ob.at g l).1, FULL)) := by
  obtain ⟨ha, hb⟩ : OneReg oa ∧ OneReg ob := oneReg_of_sources (by rw [IntTy.o, ht] at hx; exact hx)
  refine h.givesShape hi ?_
  rw [evalAdd_wrapping ht, ← addLin_shape ha hb sub]
  exact affMap_computes h hx (addLin_fits ht sub)

/-- The shapes of IMUL at 32 bits (R12 row 6). -/
theorem givesShape_mul {t : IntTy} (h : Acts s g c) (ht : t.w = 32) (hx : Sources s g c [(a, t.o), (b, t.o)] [oa, ob]) :
    GivesShape s g c d.val (.imul c t d a b) 1 (productShape (oa.shape g) (ob.shape g))
      (whole fun l => ((oa.at g l).1 * (ob.at g l).1 % 2 ^ t.w, FULL)) := by
  obtain ⟨ha, hb⟩ : OneReg oa ∧ OneReg ob := oneReg_of_sources (by rw [IntTy.o, ht] at hx; exact hx)
  refine h.givesShape (srcs := [a, b]) (eval := evalMul t d a b s) rfl ?_
  rw [evalMul_narrow ht, ← mulLin_shape ha hb, ht]
  exact affMap_computes h hx mulLin_fits

/-- The shapes of SHL at 32 bits (R12 row 6). -/
theorem givesShape_shl (h : Acts s g c) (hx : Sources s g c [(a, .int 32 false), (b, .int 32 false)] [oa, ob]) :
    GivesShape s g c d.val (.shl c .b32 d a b) 1 (shiftShape (oa.shape g) (ob.shape g))
      (whole fun l => (shiftVal .shl 32 (oa.at g l).1 (ob.at g l).1, FULL)) := by
  obtain ⟨ha, hb⟩ := oneReg_of_sources hx
  refine h.givesShape (srcs := [a, b]) (eval := evalShift .shl .b32 d a b s) rfl ?_
  rw [evalShl_eq, ← shlLin_shape ha hb]
  exact affMap_computes h hx shlLin_fits

/-- MOV has its source's shape at 32 bits, and is never affine at 64 (R12 row 1, R14). -/
theorem givesShape_mov {t : BitTy} {o : Opnd} (h : Acts s g c) (ho : s.operand g (lanesOf g c) b t.o = .ok o) :
    GivesShape s g c d.val (.mov c t d b) t.regs (resultShape g [o] false (movAffine g o t)) (whole fun l => o.at g l) := by
  refine h.givesShape (srcs := [b]) (eval := evalMov t d b s) rfl ?_
  rw [evalMov_eq ho]
  refine aluResult_computes (.inr fun _ => rfl) (fun hu _ l hl => ?_) fun v hv => ?_
  · have := h.vals hu hl
    simp only [valsAt, List.map_cons, List.map_nil, List.cons.injEq, and_true] at this
    rw [this]
  · exact ⟨(movAffine_at ho hv (h.live h.head) h.head.1).1, fun l hl => (movAffine_at ho hv (h.live hl) hl.1).2.2⟩

/-- A shuffle of a group that is neither merged nor an ejected lane supplies each lane from a position (R132). -/
theorem shuffle_finished {t : BitTy} {b : Option Src} {src : Nat → Nat → Nat} (h : Acts s g c) (hs : g.sleeve = none)
    (ha : s.operand g (lanesOf g c) a t.o = .ok oa) (hb : s.operand g (lanesOf g c) (b.getD (.const 0)) oN32 = .ok ob) :
    shuffle s c t d a b src = .next (finished s g (lanesOf g c) (latchOf c ([a] ++ b.toList))
      (aluResult g (lanesOf g c) d.val t.regs [oa, ob] true none 0 fun l =>
        carried (g.supply oa (src (g.lane l).pos (ob.at g l).1)).1 (g.supply oa (src (g.lane l).pos (ob.at g l).1)).2)) := by
  unfold shuffle
  rw [crossWord_finished h.issues h.some_lane h.merge hs]
  simp only [ha, hb]

/-- A shuffle gives a general register (R12 row 7). -/
theorem givesShape_shfl {t : BitTy} {w : Width} (h : Acts s g c) (hs : g.sleeve = none)
    (hx : Sources s g c [(a, t.o), (b, .int 32 false)] [oa, ob]) :
    GivesShape s g c d.val (.shfl c t w d a b) t.regs .general
      (whole fun l => g.supply oa ((g.lane l).pos - (g.lane l).pos % w.w + (ob.at g l).1 % w.w)) := by
  have hops := collect_at hx
  simp only [List.map_cons, List.map_nil, List.cons.injEq, and_true] at hops
  obtain ⟨ha, hb⟩ := hops
  have he : exec (.shfl c t w d a b) s = shuffle s c t d a (some b) fun p q => p - p % w.w + q % w.w := rfl
  refine givesShape_of_computes h.formed h.some_lane h.merge (he.trans (shuffle_finished h hs ha hb)) ?_
  rw [← resultShape_dep g [oa, ob]]
  exact aluResult_computes (.inr fun _ => rfl) nofun nofun

/-- FADD in a mode that is not stochastic is the same in every lane (R41, R42). -/
theorem fAdd_draw {e e' : REnv} {f : Fmt} {k : Nat} {sub : Bool} {x y : FOp} (hm : e.m = e'.m) (hf : e.ftzo = e'.ftzo) (h : e.m ≠ 6) :
    fAdd e f k sub x y = fAdd e' f k sub x y := by
  unfold fAdd
  simp only [round_draw hm hf h, hm]

/-- FADD of sources that are not all uniform, or that rounds stochastically, gives a general register (R12 row 3; 40). -/
theorem givesShape_fadd {t : FltTy} {rm : Rm} (h : Acts s g c) (hsig : g.sigte = false) (hx : Sources s g c [(a, t.o), (b, t.o)] os) :
    GivesShape s g c d.val (.fadd c rm t d a b) t.regs (resultShape g os (rmMode g rm == 6) none) (whole fun l =>
      let r := fAdd (s.renv g (rmMode g rm) 0 l) t.fmt 0 false (rdF g t.fmt (valsAt g os l) 0) (rdF g t.fmt (valsAt g os l) 1)
      (r.bits, r.tag)) := by
  refine h.givesShape (srcs := [a, b]) (eval := evalFBin .add rm t d a b s) rfl ?_
  refine aluMap_computes (f := fun l vs =>
    let r := fAdd (s.renv g (rmMode g rm) 0 l) t.fmt 0 false (rdF g t.fmt vs 0) (rdF g t.fmt vs 1)
    ⟨r.bits, r.tag, r.fl, some (tags [rdF g t.fmt vs 0, rdF g t.fmt vs 1])⟩) h hx (.inl hsig) fun hd l l' vs => ?_
  have hm : (s.renv g (rmMode g rm) 0 l).m ≠ 6 := by simpa [State.renv] using hd
  simp only [fAdd_draw (e := s.renv g (rmMode g rm) 0 l) (e' := s.renv g (rmMode g rm) 0 l') rfl rfl hm]

/-- HLANE is affine with base 0 and stride 1 (R12 row 7). -/
theorem givesShape_hlane (h : Acts s g c) : GivesShape s g c d.val (.rdspec c d 1) 1 .affine (whole fun l => ((g.lane l).home, FULL)) := by
  refine h.givesShape (show exec (.rdspec c d 1) s = execRdspec c d 1 s from rfl) ?_
  refine aluResult_computes (aff := some (.affine 0 1 FULL)) (out := fun l => plainOut (g.lane l).home) (.inr fun _ => rfl)
    (fun _ hd => ?_) fun v hv => ?_
  · simp at hd
  · cases hv
    exact ⟨rfl, fun l _ => by simp [RegVal.at, part, plainOut]⟩

/-- The position of a lane is general (R12 row 7). -/
theorem givesShape_pos (h : Acts s g c) : GivesShape s g c d.val (.rdspec c d 2) 1 .general (whole fun l => ((g.lane l).pos, FULL)) := by
  refine h.givesShape (show exec (.rdspec c d 2) s = execRdspec c d 2 s from rfl) ?_
  rw [← resultShape_dep g []]
  exact aluResult_computes (out := fun l => plainOut (g.lane l).pos) (.inr fun _ => rfl) nofun nofun

/-- The node of a group is uniform (R12 row 7). -/
theorem givesShape_node (h : Acts s g c) : GivesShape s g c d.val (.rdspec c d 7) 1 .uniform (whole fun _ => (g.node, FULL)) := by
  refine h.givesShape (show exec (.rdspec c d 7) s = execRdspec c d 7 s from rfl) ?_
  have hdep : (specLane g 7 || false || false || false) = false := by simp [specLane, Group.isHost, h.merge]
  show Computes g (lanesOf g c) d.val 1 .uniform _
    (aluResult g (lanesOf g c) d.val 1 [] (specLane g 7 || false || false || false) none 0 fun _ => plainOut g.node)
  rw [hdep]
  exact aluResult_computes (.inr fun _ => rfl) (fun _ _ _ _ => rfl) nofun

end

/-- Settles O11: every word of the list computes its result before the capacity of the destination is checked, so its shape is that of Table
1.3 and R13, and the trap of R83 names the first register too narrow for it. -/
theorem resultShapes : Obligations.ResultShapes := by
  unfold Obligations.ResultShapes
  intro s g c d a b e os hi hf hw hm htr gives uni linear x y plain
  have h : Acts s g c := ⟨hi, hf, hw, hm, htr⟩
  refine ⟨fun t hx => ?_, fun oa ob hos hx => ?_, fun t o hos hx => ?_, fun t p hx => ?_, fun t hx => ?_, fun t rm hx hsig => ?_,
    fun t w hs _ hx => ?_, ?_, ?_, ?_⟩
  · obtain ⟨oa, ob, rfl⟩ : ∃ oa ob, os = [oa, ob] := sources_pair hx
    refine ⟨fun ht => ?_, fun ht => ?_, ?_⟩
    · obtain ⟨a1, a2, a3⟩ := sumShape_cases (P := fun sh => GivesShape s g c d.val (.iadd c false t d a b) 1 sh _)
        (givesShape_add (sub := false) h ht hx rfl)
      obtain ⟨s1, s2, s3⟩ := sumShape_cases (P := fun sh => GivesShape s g c d.val (.isub c false t d a b) 1 sh _)
        (givesShape_add (sub := true) h ht hx rfl)
      obtain ⟨m1, m2, m3⟩ := productShape_cases (P := fun sh => GivesShape s g c d.val (.imul c t d a b) 1 sh _) (givesShape_mul h ht hx)
      exact ⟨fun hu => ⟨a1 hu, s1 hu, m1 hu⟩, fun hu hl => ⟨a2 hu hl, s2 hu hl, m2 hu hl⟩, fun hl => ⟨a3 hl, s3 hl, m3 hl⟩⟩
    · have hn : t.regs = 2 := by rcases intTy_width t with ⟨h32, -⟩ | ⟨-, hn⟩ <;> omega
      have hadd := h.givesShape_int (i := .iadd c false t d a b) hx rfl (evalAdd_plain (.inl ht) ..)
      have hsub := h.givesShape_int (i := .isub c false t d a b) hx rfl (evalAdd_plain (.inl ht) ..)
      have hmul := h.givesShape_int (i := .imul c t d a b) hx rfl (evalMul_wide ht ..)
      rw [hn] at hadd hsub hmul
      exact ⟨hadd, hsub, hmul⟩
    · exact h.givesShape_int (i := .iadd c true t d a b) hx rfl (evalAdd_plain (.inr rfl) ..)
  · subst hos
    exact shiftShape_cases (P := fun sh => GivesShape s g c d.val (.shl c .b32 d a b) 1 sh _) (givesShape_shl h hx)
  · subst hos
    have ho : s.operand g (lanesOf g c) b t.o = .ok o := by simpa using collect_at hx
    refine ⟨?_, ?_, Acts.givesShape_lanewise (i := .movg c t d b)
      (fun _ _ vs => carried (vs.getD 0 (0, 0)).1 (vs.getD 0 (0, 0)).2) h hx rfl fun _ _ => rfl⟩
    · rintro rfl
      have hmov := givesShape_mov (d := d) h ho
      rw [movAffine_shape ho] at hmov
      exact hmov
    · rintro rfl
      have hmov := givesShape_mov (d := d) h ho
      rw [show movAffine g o .b64 = none by cases o <;> rfl] at hmov
      exact uniform_or_general (P := fun sh => GivesShape s g c d.val (.mov c .b64 d b) 2 sh (whole fun l => o.at g l)) hmov
  · refine ⟨h.givesShape_int (i := .and c t d a b) hx rfl rfl, ?_⟩
    have hsel := Acts.givesShape_lanewise (i := .sel c t d a b p) (d := d.val) (n := t.regs)
      (fun g l vs => plainOut (nth (vs.map Prod.fst) (if g.pred p.val l then 0 else 1))) h hx rfl fun _ _ => rfl
    have hval : ∀ l, srcVal g os l (if g.pred p.val l then 0 else 1) = if g.pred p.val l then x l else y l := fun l => by split <;> rfl
    simp only [plainOut, hval] at hsel
    exact hsel
  · exact h.givesShape_int (i := .imad c t d a b e) (eval := fun g w => intMap s g w d.val t.regs [(a, t.o), (b, t.o), (e, t.o)] fun vs =>
      (nth vs 0 * nth vs 1 + nth vs 2) % 2 ^ t.w) hx rfl rfl
  · have hadd := givesShape_fadd (d := d) (rm := rm) h hsig hx
    refine ⟨fun hu hr => ?_, fun hg => ?_⟩
    · rw [show resultShape g os (rmMode g rm == 6) none = .uniform by simp [resultShape, allUniform_iff.2 hu, hr]] at hadd
      exact hadd
    · rw [show resultShape g os (rmMode g rm == 6) none = .general by
        rcases hg with hu | hr
        · simp [resultShape, Bool.eq_false_iff.2 (mt allUniform_iff.1 hu)]
        · simp [resultShape, hr]] at hadd
      exact hadd
  · obtain ⟨oa, ob, rfl⟩ : ∃ oa ob, os = [oa, ob] := sources_pair hx
    exact ⟨_, givesShape_shfl h hs hx⟩
  · exact givesShape_hlane h
  · exact givesShape_pos h
  · exact givesShape_node h

end Sys2Proof.Safety
end
